-- ==== Sys2Proof/Word.lean ====
section
/-! DEFINITION. The plain word types: the bytes and 16-bit words of the host port, the train line and the
settings image, and the 48-bit node identity. -/

namespace Sys2Proof

/-- One byte as the host port, the train line or the settings port carries it. -/
abbrev Byte := BitVec 8

/-- A 16-bit number as a frame carries it: a packed key, a demand, a value, a setting value. -/
abbrev Word := BitVec 16

/-- A node's 48-bit unique identity (00_scope.md, terms). -/
abbrev Uid := BitVec 48

end Sys2Proof
end

