-- ==== Sys2Proof/Syntax.lean ====
section
/-! DEFINITION. The commands of the CL46: one constructor of Instr for each row of spec/opcode_table.json, and the
host requests (R170 and the table of 10.7) whose frames the host port accepts. A moment is a time in microseconds
on the device's clock, which starts at the end of the settings load (log entry 2). -/

namespace Sys2Proof

/-- The host requests of 10.7 with the payload fields of R185, each as wide as the frame carries it, so that a
value beyond its field's range is still a request (it is answered RANGE). -/
inductive Request where
  | lookup (key : Word)
  | readRecord (key : Word)
  | findNext (cursor handleSel classValue classMask touchedOnly : Byte)
  | admitRecord (key : Word)
  | retire (key : Word)
  | declareRecord (handle cls inst feed : Byte) (nominal : Word) (flags : Byte)
  | readExtension (key : Word) (offset length : Byte)
  | writeExtension (key : Word) (first : Byte) (total : Word) (part : Byte) (data : List Byte)
  | declareUnit (position : Byte)
  | readUnit (handle : Byte)
  | releaseUnit (handle : Byte)
  | resumeUnit (handle : Byte)
  | restartChain
  | readChain
  | setDemand (key value : Word)
  | setCircuit (circuit demand : Byte)
  | setOverride (circuit mode : Byte)
  | readCircuit (circuit : Byte)
  | readPostedFault
  | identify
  | readEvents
  | clearEvents (mask : Word)
  | writeEnables (mask : Word)
  | snapshotCounters (clear : Byte)
  | readCounters
  | readSetting (number : Byte)
  | writeSetting (number : Byte) (value : Word)
  deriving DecidableEq, Repr

/-- The commands. Rows that come to the device from outside carry what comes (a moment, bytes, readings); a row
that is a host request carries the request's fields and stands for the event that finishes it (R162); a row that is
an engine's own step carries nothing, since the block holds what it acts on. -/
inductive Instr where
  /-- RESET (R182): RESET_N low or power-on. -/
  | reset
  /-- SETTINGS_LOAD_END (R183): the load ends; `image` is the 256 bytes read from the EEPROM. -/
  | settingsLoadEnd (image : List Byte)
  /-- STATUS_POLL (R156): a poll transfer ends after `bytes` whole bytes were clocked in it. -/
  | statusPoll (moment bytes : Nat)
  /-- SUBMIT (R160): a submit transfer ends; `frame` is the bytes clocked after the marker. -/
  | submit (moment : Nat) (frame : List Byte)
  /-- FETCH (R164): a fetch transfer ends after `bytes` bytes were clocked after the marker. -/
  | fetch (moment bytes : Nat)
  /-- LOOKUP (R24). -/
  | lookup (key : Word)
  /-- READ_RECORD (R25). -/
  | readRecord (key : Word)
  /-- FIND_NEXT (R26). -/
  | findNext (cursor handleSel classValue classMask touchedOnly : Byte)
  /-- ADMIT (R27). -/
  | admitRecord (key : Word)
  /-- RETIRE (R28). -/
  | retire (key : Word)
  /-- DECLARE_RECORD (R29). -/
  | declareRecord (handle cls inst feed : Byte) (nominal : Word) (flags : Byte)
  /-- READ_EXTENSION (R39). -/
  | readExtension (key : Word) (offset length : Byte)
  /-- WRITE_EXTENSION_FIRST_PART (R40): WRITE_EXTENSION whose first-part byte has bit 0 set. -/
  | writeExtensionFirstPart (key : Word) (first : Byte) (total : Word) (part : Byte) (data : List Byte)
  /-- WRITE_EXTENSION_PART (R41): WRITE_EXTENSION whose first-part byte has bit 0 clear. -/
  | writeExtensionPart (key : Word) (first : Byte) (total : Word) (part : Byte) (data : List Byte)
  /-- DECLARE_UNIT (R59). -/
  | declareUnit (position : Byte)
  /-- READ_UNIT (R66). -/
  | readUnit (handle : Byte)
  /-- RELEASE_UNIT (R63). -/
  | releaseUnit (handle : Byte)
  /-- RESUME_UNIT (R60). -/
  | resumeUnit (handle : Byte)
  /-- RESTART_CHAIN (R104). -/
  | restartChain
  /-- READ_CHAIN (R105). -/
  | readChain
  /-- SET_DEMAND (R132). -/
  | setDemand (key value : Word)
  /-- SET_CIRCUIT (R145). -/
  | setCircuit (circuit demand : Byte)
  /-- SET_OVERRIDE (R146). -/
  | setOverride (circuit mode : Byte)
  /-- READ_CIRCUIT (R155). -/
  | readCircuit (circuit : Byte)
  /-- READ_POSTED_FAULT (R167). -/
  | readPostedFault
  /-- IDENTIFY (R168). -/
  | identify
  /-- READ_EVENTS (R176). -/
  | readEvents
  /-- CLEAR_EVENTS (R175). -/
  | clearEvents (mask : Word)
  /-- WRITE_ENABLES (R174). -/
  | writeEnables (mask : Word)
  /-- SNAPSHOT_COUNTERS (R178). -/
  | snapshotCounters (clear : Byte)
  /-- READ_COUNTERS (R178). -/
  | readCounters
  /-- READ_SETTING (R180). -/
  | readSetting (number : Byte)
  /-- WRITE_SETTING (R181). -/
  | writeSetting (number : Byte) (value : Word)
  /-- RECEIVE_FRAME (R71): the frame being received ends; `bytes` came after its delimiter. -/
  | receiveFrame (bytes : List Byte)
  /-- LINE_IDLE_TRUNCATION (R70): the line falls idle with `bytes` bytes received after the delimiter. -/
  | lineIdleTruncation (bytes : Nat)
  /-- TRANSACTION_PHASE_START (R82, R87, R108). -/
  | transactionPhaseStart
  /-- TRANSACTION_START (R81). -/
  | transactionStart
  /-- REQUEST_FRAME_END (R83). -/
  | requestFrameEnd
  /-- ANSWER_TIMEOUT (R84). -/
  | answerTimeout
  /-- CYCLE_END (R92). -/
  | cycleEnd
  /-- RESERVATION_OPERATION (R115). -/
  | reservationOperation
  /-- CONCLUSION_OPERATION (R117). -/
  | conclusionOperation
  /-- VALUE_ITEM (R127). -/
  | valueItem
  /-- FAULT_ITEM (R128). -/
  | faultItem
  /-- CLEAR_ITEM (R128). -/
  | clearItem
  /-- WITHDRAWN_ITEM (R129). -/
  | withdrawnItem
  /-- ADDED_ITEM (R120). -/
  | addedItem
  /-- AGEING_PASS (R131). -/
  | ageingPass
  /-- REFILL_OPERATION (R135). -/
  | refillOperation
  /-- SEND_OPERATION (R136). -/
  | sendOperation
  /-- COMPLETION_OPERATION (R138). -/
  | completionOperation
  /-- FAILURE_OPERATION (R139). -/
  | failureOperation
  /-- DRAIN_SWEEPER_REMOVAL (R64). -/
  | drainSweeperRemoval
  /-- ATTRIBUTION_OPERATION (R153). -/
  | attributionOperation
  /-- SAMPLE (R147): `readings` is what the eight sense inputs read, before the limit at 1023. -/
  | sample (readings : Vector Nat 8)
  /-- BLINK_HALF_END (R142). -/
  | blinkHalfEnd
  /-- FLASH_PHASE_END (R143): a flash phase of one circuit ends. -/
  | flashPhaseEnd (circuit : Fin 8)
  /-- FRAME_ARRIVAL (R70): two bytes that may be a preamble and a delimiter; `moment` is the arrival time. -/
  | frameArrival (moment : Nat) (preamble delimiter : Byte)
  /-- FIRST_BYTE_CLOCKED (R156, R158, R159, R164): a transfer's first byte, from the fall of HCS_N that opens it (no
  byte yet) to the moment it has been clocked, with the host's byte (log entry 4). -/
  | firstByteClocked (moment : Nat) (byte : Option Byte)
  deriving DecidableEq, Repr

end Sys2Proof
end

