-- ==== Sys2Proof/Decode.lean ====
section
/-! DEFINITION. The command a word of the opcode table spells. The table of this hardware gives no row any bits: the
CL46 takes requests as frames on its host port and events on its pins, and fetches no words. The frames themselves are
read in Machine/Operands.lean (parseRequest and readFrame), as R68, R70 and R185 lay them out. -/

namespace Sys2Proof

/-- The command a table word spells: none, since no row of the table has bits (log entry 5). -/
def decodeTableWord (_nbits _w : Nat) : Option Instr := none

end Sys2Proof
end

