-- ==== Sys2Proof/Config.lean ====
section
/-! DEFINITION. What every CL46 fixes: the identification constants of R168, and two codes that the spec leaves open,
each an uninterpreted constant. The numbered settings, which can be read and written, are state; their table stands in
Machine/SettingTable.lean. -/

namespace Sys2Proof.Config

/-- The part code IDENTIFY reports (R168). -/
def partCode : Word := 0x0C46

/-- The silicon revision number of the parts the manual describes (R168). -/
def siliconRevision : Byte := 1

/-- The byte in which READ_CHAIN reports the transmit polarity, INVERTED for `true`. R105 lists the field and R185 gives
it no code, so the value is free (log entry 6). -/
opaque polarityCode : Bool → Byte

/-- The byte in which READ_CIRCUIT reports the phase of a running flash, ON for `true`. R155 lists the field and R185
gives it no code, so the value is free (log entry 6). -/
opaque flashPhaseCode : Bool → Byte

end Sys2Proof.Config
end

