-- ==== Sys2Proof/Machine/Crc.lean ====
section
/-! DEFINITION. The two cyclic redundancy checks: the 8-bit CRC of a packed key that picks its bucket (R11) and the
16-bit CRC of a train-line frame (R69), with the byte order of a 16-bit number (chapter 12: high byte first). -/

namespace Sys2Proof.Machine

/-- The high byte of a 16-bit number. -/
def hiByte (w : Word) : Byte := w.extractLsb' 8 8

/-- The low byte of a 16-bit number. -/
def loByte (w : Word) : Byte := w.extractLsb' 0 8

/-- The two bytes of a 16-bit number as they are sent, high byte first. -/
def wordBytes (w : Word) : List Byte := [hiByte w, loByte w]

/-- The 16-bit number two bytes spell, the first one high. -/
def ofBytes (hi lo : Byte) : Word := hi ++ lo

/-- One shift of the bucket CRC under the generator P (R11). -/
def crc8Shift (p r : Byte) : Byte := if r.msb then (r <<< 1) ^^^ p else r <<< 1

/-- One byte fed into the bucket CRC (R11). -/
def crc8Byte (p r b : Byte) : Byte := (crc8Shift p)^[8] (r ^^^ b)

/-- The CRC value C of a packed key under P: register 0x00, high byte, then low byte (R11). -/
def crc8Key (p : Byte) (k : Word) : Byte := crc8Byte p (crc8Byte p 0 (hiByte k)) (loByte k)

/-- One shift of the frame CRC, generator 0x1021 (R69). -/
def crc16Shift (r : Word) : Word := if r.msb then (r <<< 1) ^^^ 0x1021 else r <<< 1

/-- One byte fed into the frame CRC (R69). -/
def crc16Byte (r : Word) (b : Byte) : Word := crc16Shift^[8] (r ^^^ (b ++ (0 : Byte)))

/-- The frame CRC over the header and payload bytes, register 0xFFFF at the start (R69). -/
def crc16 (bytes : List Byte) : Word := bytes.foldl crc16Byte 0xFFFF

end Sys2Proof.Machine
end

