-- ==== Sys2Proof/Machine/SettingTable.lean ====
section
/-! DEFINITION. The numbered settings (R179): for each number its range, its default, its width in the settings
image, and the clamp of R181 step 2. -/

namespace Sys2Proof.Machine

/-- How a value is brought into a setting's range (R181 step 2). -/
inductive ClampKind where
  /-- below the range becomes the lower bound, above it the upper bound -/
  | bounds
  /-- as `bounds`, and a value between two steps of 10 becomes the step below it -/
  | steps
  /-- as `bounds`, and an even value has its lowest bit forced to 1 (the hash polynomial, R10) -/
  | odd
  /-- only the low eight bits are kept (the flash mask) -/
  | mask
  deriving DecidableEq, Repr

/-- One row of the table of R179. -/
structure SettingRow where
  kind : ClampKind
  lo : Nat
  hi : Nat
  dflt : Nat
  width : Nat
  deriving DecidableEq, Repr

/-- Field i of a class filter (R42), settings 35 + 8f + i. -/
def filterFieldRow (i : Nat) : SettingRow :=
  match i with
  | 0 => ⟨.bounds, 0, 1, 0, 1⟩       -- enabled
  | 1 => ⟨.bounds, 0, 63, 0, 1⟩      -- class compare
  | 2 => ⟨.bounds, 0, 63, 0, 1⟩      -- class mask
  | 3 => ⟨.bounds, 0, 15, 0, 1⟩      -- flag compare
  | 4 => ⟨.bounds, 0, 15, 0, 1⟩      -- flag mask
  | 5 => ⟨.bounds, 0, 3, 0, 1⟩       -- policy
  | 6 => ⟨.bounds, 1, 64, 16, 1⟩     -- report interval
  | _ => ⟨.bounds, 0, 1, 1, 1⟩       -- lamp check

/-- Field j of a lamp circuit (R148, R150, R151), settings 99 + 4k + j. -/
def circuitFieldRow (j : Nat) : SettingRow :=
  match j with
  | 0 => ⟨.bounds, 10, 150, 40, 1⟩   -- settle time
  | 1 => ⟨.bounds, 0, 50, 15, 1⟩     -- tolpct
  | 2 => ⟨.bounds, 1, 255, 8, 1⟩     -- tolmin
  | _ => ⟨.bounds, 1, 7, 3, 1⟩       -- debounce

/-- The table of R179, row by setting number. -/
def settingRow (n : Nat) : SettingRow :=
  match n with
  | 0 => ⟨.odd, 1, 255, 7, 1⟩            -- hash polynomial
  | 1 => ⟨.bounds, 0, 8, 7, 1⟩           -- dynamic eighths
  | 2 => ⟨.bounds, 0, 1, 0, 1⟩           -- overflow action
  | 3 => ⟨.bounds, 1, 15, 4, 1⟩          -- robustness
  | 4 => ⟨.bounds, 0, 1, 1, 1⟩           -- fast leave
  | 5 => ⟨.steps, 50, 200, 100, 1⟩       -- formed period
  | 6 => ⟨.steps, 100, 500, 250, 2⟩      -- steady period
  | 7 => ⟨.bounds, 1, 255, 20, 1⟩        -- steady count
  | 8 => ⟨.bounds, 1, 15, 3, 1⟩          -- void_bad
  | 9 => ⟨.bounds, 1, 15, 2, 1⟩          -- void_stray
  | 10 => ⟨.bounds, 0, 63, 10, 1⟩        -- void_max
  | 11 => ⟨.bounds, 1, 15, 3, 1⟩         -- answer timeout
  | 12 => ⟨.bounds, 0, 3, 2, 1⟩          -- retries
  | 13 => ⟨.bounds, 0, 1, 1, 1⟩          -- auto polarity
  | 14 => ⟨.bounds, 0, 3, 0, 1⟩          -- default policy
  | 15 => ⟨.bounds, 1, 64, 1, 1⟩         -- interval floor
  | 16 => ⟨.bounds, 0, 512, 96, 2⟩       -- unit extension cap
  | 17 => ⟨.steps, 400, 1000, 670, 2⟩    -- blink period
  | 18 => ⟨.bounds, 0, 7, 3, 1⟩          -- flash count
  | 19 => ⟨.mask, 0, 255, 64, 1⟩         -- flash mask, circuit 6 alone (its bit: log entry 36)
  | 20 => ⟨.bounds, 0, 1, 0, 1⟩          -- count mode
  | _ =>
    if n ≤ 24 then ⟨.bounds, 1, 15, 4, 1⟩           -- depth of meter n - 21
    else if n ≤ 28 then ⟨.bounds, 1, 16, 5, 1⟩      -- refill of meter n - 25
    else if n ≤ 34 then ⟨.bounds, 0, 3, 0, 1⟩       -- meter of position n - 28
    else if n ≤ 98 then filterFieldRow ((n - 35) % 8)
    else circuitFieldRow ((n - 99) % 4)

/-- The number of settings, 0 to 130 (R179). -/
abbrev settingCount : Nat := 131

/-- The clamp of R181 step 2. -/
def clampSetting (n v : Nat) : Nat :=
  let row := settingRow n
  match row.kind with
  | .bounds => min row.hi (max row.lo v)
  | .steps => min row.hi (max row.lo v) / 10 * 10
  | .odd => let w := min row.hi (max row.lo v); if w % 2 = 0 then w + 1 else w
  | .mask => v % 256

/-- The default of a setting (R179). -/
def settingDefault (n : Nat) : Nat := (settingRow n).dflt

/-- The first image byte of a setting (R186): byte n + 2, and one further for each 2-byte setting before it. -/
def imageOffset (n : Nat) : Nat :=
  n + 2 + (if 6 < n then 1 else 0) + (if 16 < n then 1 else 0) + (if 17 < n then 1 else 0)

/-- The value the image gives a setting, high byte first where it has two, before the clamp (R182, R186). -/
def imageValue (image : List Byte) (n : Nat) : Nat :=
  let b (i : Nat) : Nat := (image.getD (imageOffset n + i) 0).toNat
  if (settingRow n).width = 2 then b 0 * 256 + b 1 else b 0

end Sys2Proof.Machine
end

