-- ==== Sys2Proof/Machine/State.lean ====
section
/-! DEFINITION. The state of the CL46 as plain data, block by block as the manual's block diagram gives it, and the
state after reset. INVENTORY.md lists every piece with its rule and reset value. Times are microseconds on the
device's clock (log entry 2). -/

namespace Sys2Proof.Machine

/-! ### Records (chapter 1) -/

/-- A record key: handle, class and instance (R4). -/
structure Key where
  handle : Fin 8
  cls : BitVec 6
  inst : BitVec 7
  deriving DecidableEq, Repr

/-- A record's origin (R2). -/
inductive Origin where
  | enrolled | declared
  deriving DecidableEq, Repr

/-- A record's stored state (R2, R5); RETIRING is never stored (R6). -/
inductive RecordState where
  | pending | active | held
  deriving DecidableEq, Repr

/-- A policy (R42, R47). A record's applied policy is never `refuse`, which makes no record. -/
inductive Policy where
  | enrol | quiet | hold | refuse
  deriving DecidableEq, Repr

/-- How a function is powered or reached (R2). -/
inductive Feed where
  | circuit (k : Fin 8) | node | none
  deriving DecidableEq, Repr

/-- Where a switched function's demand stands (R2, 8.3). -/
inductive DemandState where
  | settled | outstanding | waiting | failed
  deriving DecidableEq, Repr

/-- An extension: its length in bytes and its chain of blocks in chain order (R32). -/
structure Extension where
  length : Nat
  chain : List (Fin 512)
  deriving DecidableEq, Repr

/-- The descriptor flags, bit 0 SAFETY, 1 SWITCHABLE, 2 HAS_VALUE, 3 SERVICE (R184). -/
abbrev DescFlags := BitVec 4

/-- A record of the Function Table (R2). `interval`, `demandState` and the other optional fields are absent where
the last column of R2's table leaves them out. -/
structure Record where
  key : Key
  origin : Origin
  state : RecordState
  policy : Policy
  descIndex : Option (BitVec 6)
  flags : DescFlags
  feed : Feed
  nominal : Nat
  interval : Option Nat
  value : Option Word
  age : Nat
  demand : Option Word
  applied : Option Word
  demandState : Option DemandState
  fault : Bool
  suspect : Bool
  stale : Bool
  extWithheld : Bool
  touched : Bool
  extension : Option Extension
  deriving DecidableEq, Repr

/-! ### The Function Table with the Table Arbiter -/

/-- The non-host places of the arbiter's rotation (R20); the Lamp Circuit Monitor shares the RH's place (R21). -/
inductive Place where
  | ee | rh | ou | sweeper
  deriving DecidableEq, Repr

/-- The two users of the Report Handler's place (R21). -/
inductive RhUser where
  | rh | lcm
  deriving DecidableEq, Repr

/-- The 256 slots, slot = bucket × 4 + way (R1). -/
abbrev Table := Vector (Option Record) 256

/-- The Function Table and its arbiter (R1, R20, R21). The occupancy of a bucket is read off the slots. -/
structure FunctionTable where
  slots : Table
  enrolledCount : Nat
  lastGrantHost : Bool
  pointer : Place
  rhServedLast : RhUser
  deriving DecidableEq, Repr

/-! ### The Extension Store (chapter 2) -/

/-- The 16,384 bytes of the store, address = block × 32 + byte (R30), in one canonical form: addresses strictly
rising, no entry equal to what an unlisted address reads as (0x00, log entry 9). -/
abbrev Memory := List Host.Cell

/-- The Extension Store: the block contents and the free stack, top first (R30, R31). -/
structure Store where
  mem : Memory
  free : List (Fin 512)
  deriving DecidableEq, Repr

/-! ### The Unit Directory (chapter 4) -/

/-- The state of a directory entry (R52). -/
inductive UnitState where
  | free | joining | enrolling | live | stalled | leaving | declared
  deriving DecidableEq, Repr

/-- A directory entry (R52), with the Roll Call Unit's two per-cycle marks of it: the answered mark (R93) and
whether it was allocated during the running cycle (R97). -/
structure Entry where
  state : UnitState
  uid : Option Uid
  position : Option Nat
  credit : Nat
  descriptorCount : Nat
  pendingSet : BitVec 64
  cap : Nat
  charge : Nat
  recordCount : Nat
  parting : Bool
  misplaced : Nat
  joined : Bool
  answered : Bool
  fresh : Bool
  deriving DecidableEq, Repr

/-- A FREE entry: every field at the FREE value of R52. -/
def Entry.empty : Entry where
  state := .free
  uid := none
  position := none
  credit := 0
  descriptorCount := 0
  pendingSet := 0
  cap := 0
  charge := 0
  recordCount := 0
  parting := false
  misplaced := 0
  joined := false
  answered := false
  fresh := false

/-- The reseat in hand (R52, R65); `sent` says whether its ASSIGN has been handed to the engine (R81). -/
structure Reseat where
  handle : Fin 8
  fromPosition : Nat
  toPosition : Nat
  sent : Bool
  deriving DecidableEq, Repr

/-- The Unit Directory (R52). -/
structure Directory where
  entries : Vector Entry 8
  releaseList : List Nat
  reseat : Option Reseat
  deriving DecidableEq, Repr

/-! ### The Train Line Interface (chapter 5) -/

/-- The kinds of frame the head sends (R68). -/
inductive HeadKind where
  | roll | assign | descq | extq | verdict | setpoint | release
  deriving DecidableEq, Repr

/-- A frame of the head: kind, position field and payload (R68). -/
structure HeadFrame where
  kind : HeadKind
  position : Nat
  payload : List Byte
  deriving DecidableEq, Repr

/-- The requesters of the Transaction Engine (R80). -/
inductive Requester where
  | ee | ou | ud
  deriving DecidableEq, Repr

/-- Where the transaction in the slot stands: not on the line (held, or between attempts, R82), its request frame
being sent until `ends` under the answer timeout in force when it was sent (R84), or awaiting an answer until
`deadline` (R83). -/
inductive Attempt where
  | held
  | sending (ends timeout : Nat)
  | awaiting (deadline : Nat)
  deriving DecidableEq, Repr

/-- A transaction (R80), with the mark that its subject has left and it ends WITHDRAWN (R86). -/
structure Transaction where
  requester : Requester
  request : HeadFrame
  answerPosition : Nat
  subject : Option (Fin 8)
  attempts : Nat
  attempt : Attempt
  withdrawn : Bool
  deriving DecidableEq, Repr

/-- A frame being received: its arrival time and whether it arrived inverted (R70). -/
structure Reception where
  arrival : Nat
  inverted : Bool
  deriving DecidableEq, Repr

/-- An Announce Meter (R88). -/
structure Meter where
  tokens : Nat
  refill : Nat
  deriving DecidableEq, Repr

/-- The Train Line Interface with the Transaction Engine and the Announce Meters. `txEnd` is when the head's latest
frame ends; `lineOut` holds the bytes of the frames the latest sending step put on the line (log entry 7). -/
structure TrainLine where
  txInverted : Bool
  run : Nat
  reception : Option Reception
  slot : Option Transaction
  turn : Requester
  ouTurn : Bool
  meters : Vector Meter 4
  txEnd : Nat
  lineOut : List (List Byte)
  deriving DecidableEq, Repr

/-! ### The Roll Call Unit (chapter 6) -/

/-- The chain state (R101). -/
inductive ChainState where
  | dormant | forming | formed | steady | disturbed
  deriving DecidableEq, Repr

/-- The accounts of the last cycle settled (R105). -/
structure CycleAccount where
  void : Bool
  answered : Nat
  expected : Nat
  bad : Nat
  stray : Nat
  deriving DecidableEq, Repr

/-- The Roll Call Unit: the running cycle (R90, R91), its counts and marks (R93, R96, R101), the chain state and the
streaks (R96, R103), the owed broadcast (R104) and the last settled cycle (R105). `placed` lists the slot windows
of this cycle that have had a PRESENT placed in-slot or misplaced (R76). -/
structure RollCall where
  chain : ChainState
  cycleNumber : Byte
  cycleStart : Nat
  period : Nat
  phaseOpen : Bool
  bad : Nat
  stray : Nat
  takenAnnounce : Bool
  placed : List Nat
  voidStreak : Nat
  steadyRun : Nat
  broadcastOwed : Bool
  last : Option CycleAccount
  deriving DecidableEq, Repr

/-! ### The Enrolment Engine (chapter 7) -/

/-- The phase of the enrolment context (R106). -/
inductive Phase where
  | assigning | reading | fetching | concluding
  deriving DecidableEq, Repr

/-- A descriptor that has passed R112, with current and extension length clamped. -/
structure Descriptor where
  cls : BitVec 6
  inst : BitVec 7
  flags : DescFlags
  feed : Feed
  nominal : Nat
  extLength : Nat
  deriving DecidableEq, Repr

/-- A classification (R44). -/
structure Classification where
  policy : Policy
  interval : Nat
  lampCheck : Bool
  deriving DecidableEq, Repr

/-- The reason a REFUSED verdict carries (R118, R184). -/
inductive RefuseReason where
  | policy | duplicate | noRoom
  deriving DecidableEq, Repr

/-- The verdict of a context (R118). -/
inductive Verdict where
  | accepted (interval : Nat)
  | held (interval : Nat)
  | refused (reason : RefuseReason)
  deriving DecidableEq, Repr

/-- The enrolment context (R106). -/
structure Context where
  handle : Fin 8
  phase : Phase
  index : Option (BitVec 6)
  descriptor : Option Descriptor
  classification : Option Classification
  pendingKey : Option Key
  held : List (Fin 512)
  withheld : Bool
  nextSegment : Nat
  verdict : Option Verdict
  abandoned : Bool
  deriving DecidableEq, Repr

/-! ### The Report Handler and the Output Unit (chapter 8) -/

/-- The five kinds of item (R123). -/
inductive ItemKind where
  | value | fault | clear | withdrawn | added
  deriving DecidableEq, Repr

/-- An item of the work list (R123). Class and instance stand as the frame carried them (log entry 10). -/
structure Item where
  handle : Fin 8
  kind : ItemKind
  cls : Byte
  inst : Byte
  value : Word
  deriving DecidableEq, Repr

/-- An element of the work list: an item, or an ageing mark with its step count (R123, R130). -/
inductive WorkEntry where
  | item (i : Item)
  | mark (steps : Nat)
  deriving DecidableEq, Repr

/-- The outcome of a SETPOINT that the Output Unit has still to apply (R137). -/
inductive SetpointOutcome where
  | done | failed
  deriving DecidableEq, Repr

/-- The in-flight note (R137), with the outcome delivered and not yet applied. -/
structure InFlight where
  key : Key
  slot : Fin 256
  value : Word
  gone : Bool
  outcome : Option SetpointOutcome
  deriving DecidableEq, Repr

/-- The Output Unit (R134). `refillStop` holds the waiting counts and entry states at which the latest refill found
nothing; while they stand, the unit does not wait for another (R135). -/
structure OutputUnit where
  queue : List Key
  waiting : Vector Nat 8
  pointer : Fin 256
  note : Option InFlight
  refillStop : Option (Vector Nat 8 × Vector UnitState 8)
  deriving DecidableEq, Repr

/-! ### The Lamp Circuit Monitor (chapter 9) -/

/-- A circuit's demand (R140). -/
inductive CircuitDemand where
  | off | on | blink
  deriving DecidableEq, Repr

/-- A circuit's override (R140). -/
inductive Override where
  | normal | forceOn | forceOff
  deriving DecidableEq, Repr

/-- A running confirmation flash: remaining count, phase, and when the phase ends (R140, R143). -/
structure Flash where
  remaining : Nat
  on : Bool
  phaseEnds : Nat
  deriving DecidableEq, Repr

/-- A reported verdict (R140); the raw results and the candidate use all but IDLE. -/
inductive CircuitVerdict where
  | idle | balanced | deficit | surplus | overRange
  deriving DecidableEq, Repr

/-- An attribution job with its cursor slot (R140, R152). -/
inductive Job where
  | mark (deficit tolerance cursor : Nat)
  | clear (cursor : Nat)
  deriving DecidableEq, Repr

/-- A circuit context (R140). The on-time is the time since `onSince` while the output is on. -/
structure Circuit where
  demand : CircuitDemand
  mode : Override
  flash : Option Flash
  output : Bool
  onSince : Nat
  lastM : Nat
  expected : Nat
  tol : Nat
  candidate : Option CircuitVerdict
  streak : Nat
  verdict : CircuitVerdict
  job : Option Job
  deriving DecidableEq, Repr

/-- The blink clock while it runs (R142): its half, when the half ends, and the length in ms of the running period. -/
structure Blink where
  onHalf : Bool
  halfEnds : Nat
  period : Nat
  deriving DecidableEq, Repr

/-- The Lamp Circuit Monitor: eight contexts, the blink clock, and the next sampling instant (R140, R142, R147). -/
structure LampMonitor where
  circuits : Vector Circuit 8
  blink : Option Blink
  nextSample : Nat
  deriving DecidableEq, Repr

/-! ### The Host Port (chapter 10) -/

/-- The results of R170, coded in this order (R185). -/
inductive Result where
  | ok | notFound | exists_ | full | notAdmitted | retiring | wrongState | range | format | inUse | noHandle
  | positionHeld | storeFull | end_ | none_
  deriving DecidableEq, Repr

/-- A response frame (R164, R170). -/
structure Response where
  result : Result
  kind : Byte
  payload : List Byte
  deriving DecidableEq, Repr

/-- Which of the two accepted requests came first (R157, the order mark). -/
inductive Order where
  | nonPosted | posted
  deriving DecidableEq, Repr

/-- A posted fault (R166). -/
structure PostedFault where
  kind : Byte
  subject : Option Word
  reason : Result
  deriving DecidableEq, Repr

/-- The kinds of transfer (R156). -/
inductive TransferKind where
  | poll | submit | fetch
  deriving DecidableEq, Repr

/-- A transfer whose first byte has been clocked: its kind, the status byte shifted out, and for a fetch the frame
fixed at its first byte and whether that frame is the waiting response (R158, R164). -/
structure Transfer where
  kind : TransferKind
  status : Byte
  frame : List Byte
  response : Bool
  deriving DecidableEq, Repr

/-- The Host Port (R157, R166). `fallen` is the status byte composed when HCS_N fell, until the transfer's first byte
has been clocked (R158); `shiftedOut` is what HMISO carried in the latest transfer (log entry 7). -/
structure HostPort where
  loading : Bool
  response : Option Response
  nonPosted : Option Request
  posted : Option Request
  order : Option Order
  discarded : Bool
  fault : Option PostedFault
  overrun : Bool
  fallen : Option Byte
  transfer : Option Transfer
  shiftedOut : List Byte
  deriving DecidableEq, Repr

/-! ### The Event Unit, the Counter Bank and the Settings Loader (chapter 11) -/

/-- The thirteen event flags, in the order of R172 that gives their bits. -/
inductive EventFlag where
  | unitJoined | unitLeft | unitMoved | unitStalled | recordHeld | recordChanged | circuitVerdict | chainState
  | postedFault | tablePressure | positionConflict | configDefaulted | counterLimit
  deriving DecidableEq, Repr

/-- The Event Unit (R172, R173, R174). -/
structure EventUnit where
  flags : BitVec 13
  enables : BitVec 13
  joinMask : Byte
  leftMask : Byte
  circuitMask : Byte
  deriving DecidableEq, Repr

/-- The thirteen counters, in the order of R177. -/
inductive Counter where
  | framesGood | framesBad | framesStray | transactionsFailed | retries | voidCycles | announcesDeferred
  | meteredDrops | itemsUnknown | itemsLost | descriptorsRefused | extensionsWithheld | insertOverflows
  deriving DecidableEq, Repr

/-- The Counter Bank (R177, R178). -/
structure CounterBank where
  live : Vector Word 13
  snapshot : Vector Word 13
  deriving DecidableEq, Repr

/-- The Settings Loader (R182). -/
structure Loader where
  marker : Byte
  fromImage : Bool
  deriving DecidableEq, Repr

/-- Where no rule of the spec gives a step an effect to stop on, no fault arises: no command of the CL46 ends in a
fault, so this inductive has no constructor. -/
inductive Fault where
  deriving DecidableEq, Repr

/-- The reasons a step can be refused. -/
inductive Refusal where
  /-- The command has no meaning yet. Raised only by an arm of `exec`; safe, since the machine stops where the
  hardware goes on. -/
  | notModelled (mnemonic : String)
  deriving DecidableEq, Repr

/-- The state of the CL46, and the queue of the commands that wait. -/
structure State where
  now : Nat
  settings : Vector Nat 131
  loader : Loader
  table : FunctionTable
  store : Store
  dir : Directory
  line : TrainLine
  rcu : RollCall
  ee : Option Context
  workList : List WorkEntry
  ou : OutputUnit
  lcm : LampMonitor
  port : HostPort
  events : EventUnit
  counters : CounterBank
  pending : List Instr
  deriving DecidableEq, Repr

/-- Every setting at its default (R179). -/
def defaultSettings : Vector Nat 131 :=
  ⟨((List.range 131).map settingDefault).toArray, by simp⟩

/-- A circuit context at reset (R140): tol is the default of tolmin, the setting in force. -/
def Circuit.atReset : Circuit where
  demand := .off
  mode := .normal
  flash := none
  output := false
  onSince := 0
  lastM := 0
  expected := 0
  tol := 8
  candidate := none
  streak := 0
  verdict := .idle
  job := none

/-- The machine right after reset (R1, R20, R21, R30, R31, R52, R63, R73, R80, R88, R90, R93, R96, R101, R103, R104,
R106, R123, R134, R140, R142, R157, R172 to R174, R177, R178, R182). -/
def State.reset : State where
  now := 0
  settings := defaultSettings
  loader := { marker := 0, fromImage := false }
  table :=
    { slots := Vector.replicate 256 none, enrolledCount := 0, lastGrantHost := false, pointer := .sweeper,
      rhServedLast := .lcm }
  store := { mem := [], free := (List.range 512).map (Fin.ofNat 512) }
  dir := { entries := Vector.replicate 8 Entry.empty, releaseList := [], reseat := none }
  line :=
    { txInverted := false, run := 0, reception := none, slot := none, turn := .ud, ouTurn := false,
      meters := Vector.replicate 4 { tokens := 4, refill := 0 }, txEnd := 0, lineOut := [] }
  rcu :=
    { chain := .dormant, cycleNumber := 0, cycleStart := 0, period := 100, phaseOpen := false, bad := 0, stray := 0,
      takenAnnounce := false, placed := [], voidStreak := 0, steadyRun := 0, broadcastOwed := false, last := none }
  ee := none
  workList := []
  ou :=
    { queue := [], waiting := Vector.replicate 8 0, pointer := 0, note := none, refillStop := none }
  lcm := { circuits := Vector.replicate 8 Circuit.atReset, blink := none, nextSample := 0 }
  port :=
    { loading := true, response := none, nonPosted := none, posted := none, order := none, discarded := false,
      fault := none, overrun := false, fallen := none, transfer := none, shiftedOut := [] }
  events := { flags := 0, enables := 0, joinMask := 0, leftMask := 0, circuitMask := 0 }
  counters := { live := Vector.replicate 13 0, snapshot := Vector.replicate 13 0 }
  pending := []

end Sys2Proof.Machine
end

