-- ==== Sys2Proof/Machine/Operands.lean ====
section
/-! DEFINITION. The operand forms: packed keys and buckets (R4, R11), the codes of descriptor and record fields
(R184, R185), the request frames and their payloads (R185), and the train-line frames (R68, R184). -/

namespace Sys2Proof.Machine

/-- A 16-bit number of a Nat. -/
def word (n : Nat) : Word := BitVec.ofNat 16 n

/-- A byte of a Nat. -/
def byte (n : Nat) : Byte := BitVec.ofNat 8 n

/-- A switch or mark as a byte, off 0 and on 1 (R179, R185). -/
def boolByte (b : Bool) : Byte := if b then 1 else 0

/-- An optional field: a presence byte, then the field, sent as 0 when absent (R185). -/
def optionBytes (size : Nat) (o : Option (List Byte)) : List Byte :=
  match o with
  | none => 0 :: List.replicate size 0
  | some bs => 1 :: bs

/-! ### Keys and buckets -/

/-- A key carried as one number: handle × 8192 + class × 128 + instance (R4). -/
def Key.packed (k : Key) : Word := BitVec.ofFin (w := 3) k.handle ++ k.cls ++ k.inst

/-- The key a packed number names (R4). -/
def Key.ofPacked (w : Word) : Key where
  handle := (w.extractLsb' 13 3).toFin
  cls := w.extractLsb' 7 6
  inst := w.extractLsb' 0 7

/-- The bucket of a key under the hash polynomial P: the low six bits of its CRC (R11). -/
def Key.bucket (p : Byte) (k : Key) : Fin 64 := ((crc8Key p k.packed).extractLsb' 0 6).toFin

/-- The slot of a bucket's way, bucket × 4 + way (R1). -/
def slotOf (bucket : Fin 64) (way : Fin 4) : Fin 256 := ⟨bucket.val * 4 + way.val, by omega⟩

/-- The four ways of a bucket in ascending order (R1). -/
def ways : List (Fin 4) := [0, 1, 2, 3]

/-- The 256 slots in slot order (R1). -/
def allSlots : List (Fin 256) := (List.range 256).map (Fin.ofNat 256)

/-- The eight handles, or circuits, in ascending order. -/
def all8 : List (Fin 8) := [0, 1, 2, 3, 4, 5, 6, 7]

/-! ### Codes of fields -/

/-- The code of a feed: CIRCUIT k as k, NODE 0x10, NONE 0x20 (R184). -/
def Feed.code : Feed → Byte
  | .circuit k => byte k.val
  | .node => 0x10
  | .none => 0x20

/-- The feed a code names, if it names one (R184). -/
def Feed.ofCode (b : Byte) : Option Feed :=
  if h : b.toNat < 8 then some (.circuit ⟨b.toNat, h⟩)
  else if b = 0x10 then some .node
  else if b = 0x20 then some .none
  else Option.none

/-- A stored nominal current: clamped to 1023, and 0 unless the feed is a circuit and the lamp check is on (R3, R48). -/
def storedNominal (feed : Feed) (lampCheck : Bool) (nominal : Nat) : Nat :=
  match feed with
  | .circuit _ => if lampCheck then min 1023 nominal else 0
  | _ => 0

/-- Whether SAFETY is among the flags. -/
def hasSafety (f : DescFlags) : Bool := f.getLsbD 0
/-- Whether SWITCHABLE is among the flags. -/
def hasSwitchable (f : DescFlags) : Bool := f.getLsbD 1
/-- Whether HAS_VALUE is among the flags. -/
def hasValue (f : DescFlags) : Bool := f.getLsbD 2
/-- Whether SERVICE is among the flags. -/
def hasService (f : DescFlags) : Bool := f.getLsbD 3

/-- The code of a policy (R185). -/
def Policy.code : Policy → Byte
  | .enrol => 0 | .quiet => 1 | .hold => 2 | .refuse => 3

/-- The policy of a setting's code (R179). -/
def policyOf : Nat → Policy
  | 0 => .enrol | 1 => .quiet | 2 => .hold | _ => .refuse

/-- The code of an origin (R185). -/
def Origin.code : Origin → Byte
  | .enrolled => 0 | .declared => 1

/-- The code of a stored record state (R185). -/
def RecordState.code : RecordState → Byte
  | .pending => 0 | .active => 1 | .held => 2

/-- The code with which RETIRING is reported (R185). -/
def retiringCode : Byte := 3

/-- The code of a demand state (R185). -/
def DemandState.code : DemandState → Byte
  | .settled => 0 | .outstanding => 1 | .waiting => 2 | .failed => 3

/-- The code of a unit state (R185). -/
def UnitState.code : UnitState → Byte
  | .free => 0 | .joining => 1 | .enrolling => 2 | .live => 3 | .stalled => 4 | .leaving => 5 | .declared => 6

/-- The code of a chain state (R184). -/
def ChainState.code : ChainState → Byte
  | .dormant => 0 | .forming => 1 | .formed => 2 | .steady => 3 | .disturbed => 4

/-- The code of a circuit's verdict (R185). -/
def CircuitVerdict.code : CircuitVerdict → Byte
  | .idle => 0 | .balanced => 1 | .deficit => 2 | .surplus => 3 | .overRange => 4

/-- The code of a circuit's demand (R185). -/
def CircuitDemand.code : CircuitDemand → Byte
  | .off => 0 | .on => 1 | .blink => 2

/-- The demand a byte names, if it names one (R145, R185). -/
def CircuitDemand.ofCode (b : Byte) : Option CircuitDemand :=
  if b = 0 then some .off else if b = 1 then some .on else if b = 2 then some .blink else none

/-- The code of an override (R185). -/
def Override.code : Override → Byte
  | .normal => 0 | .forceOn => 1 | .forceOff => 2

/-- The override a byte names, if it names one (R146, R185). -/
def Override.ofCode (b : Byte) : Option Override :=
  if b = 0 then some .normal else if b = 1 then some .forceOn else if b = 2 then some .forceOff else none

/-- The code of a refusal reason (R184). -/
def RefuseReason.code : RefuseReason → Byte
  | .policy => 1 | .duplicate => 2 | .noRoom => 3

/-- The code of a result: the order of R170 from OK 0x00 to NONE 0x0E (R185). -/
def Result.code : Result → Byte
  | .ok => 0x00 | .notFound => 0x01 | .exists_ => 0x02 | .full => 0x03 | .notAdmitted => 0x04 | .retiring => 0x05
  | .wrongState => 0x06 | .range => 0x07 | .format => 0x08 | .inUse => 0x09 | .noHandle => 0x0A
  | .positionHeld => 0x0B | .storeFull => 0x0C | .end_ => 0x0D | .none_ => 0x0E

/-- The handle a byte names, if it is at most 7. -/
def handleOf (b : Byte) : Option (Fin 8) := if h : b.toNat < 8 then some ⟨b.toNat, h⟩ else none

/-! ### Host-port frames -/

/-- The SUBMIT marker (R185). -/
def submitMarker : Byte := 0xA5

/-- The FETCH marker (R185). -/
def fetchMarker : Byte := 0x5A

/-- A response frame as it is shifted out: result, kind, payload length, payload (R185). -/
def Response.bytes (r : Response) : List Byte := r.result.code :: r.kind :: byte r.payload.length :: r.payload

/-- The frame of a fetch that finds no response: NONE, the no-request kind 0x00, payload length 0 (R164, R185). -/
def noneFrame : List Byte := [Result.none_.code, 0x00, 0x00]

/-- The kind code of a request (R185). -/
def requestKind : Request → Byte
  | .lookup _ => 0x01
  | .readRecord _ => 0x02
  | .findNext .. => 0x03
  | .admitRecord _ => 0x04
  | .retire _ => 0x05
  | .declareRecord .. => 0x06
  | .readExtension .. => 0x07
  | .writeExtension .. => 0x08
  | .declareUnit _ => 0x10
  | .readUnit _ => 0x11
  | .releaseUnit _ => 0x12
  | .resumeUnit _ => 0x13
  | .restartChain => 0x14
  | .readChain => 0x15
  | .setDemand .. => 0x20
  | .setCircuit .. => 0x21
  | .setOverride .. => 0x22
  | .readCircuit _ => 0x23
  | .readPostedFault => 0x30
  | .identify => 0x31
  | .readEvents => 0x32
  | .clearEvents _ => 0x33
  | .writeEnables _ => 0x34
  | .snapshotCounters _ => 0x35
  | .readCounters => 0x36
  | .readSetting _ => 0x37
  | .writeSetting .. => 0x38

/-- Whether a kind code is a posted request's (10.7, R185). -/
def postedKind (k : Byte) : Bool := k = 0x20 || k = 0x21 || k = 0x22

/-- Whether a kind code names a request (R185). -/
def knownKind (k : Byte) : Bool :=
  (0x01 ≤ k.toNat && k.toNat ≤ 0x08) || (0x10 ≤ k.toNat && k.toNat ≤ 0x15) || (0x20 ≤ k.toNat && k.toNat ≤ 0x23) ||
    (0x30 ≤ k.toNat && k.toNat ≤ 0x38)

/-- Whether a request takes a table operation (10.7). -/
def takesTable : Request → Bool
  | .lookup _ | .readRecord _ | .findNext .. | .admitRecord _ | .retire _ | .declareRecord .. | .readExtension ..
  | .writeExtension .. | .setDemand .. => true
  | _ => false

/-- The request of a known kind whose payload has a length the kind allows (R185). -/
def parseRequest (kind : Byte) (payload : List Byte) : Option Request :=
  if kind = 0x08 then
    match payload with
    | k1 :: k0 :: first :: t1 :: t0 :: part :: data =>
      if data.length ≤ 32 then some (.writeExtension (ofBytes k1 k0) first (ofBytes t1 t0) part data) else none
    | _ => none
  else
    match payload with
    | [] =>
      if kind = 0x14 then some .restartChain else if kind = 0x15 then some .readChain
      else if kind = 0x30 then some .readPostedFault else if kind = 0x31 then some .identify
      else if kind = 0x32 then some .readEvents else if kind = 0x36 then some .readCounters else none
    | [a] =>
      if kind = 0x10 then some (.declareUnit a) else if kind = 0x11 then some (.readUnit a)
      else if kind = 0x12 then some (.releaseUnit a) else if kind = 0x13 then some (.resumeUnit a)
      else if kind = 0x23 then some (.readCircuit a) else if kind = 0x35 then some (.snapshotCounters a)
      else if kind = 0x37 then some (.readSetting a) else none
    | [a, b] =>
      if kind = 0x01 then some (.lookup (ofBytes a b)) else if kind = 0x02 then some (.readRecord (ofBytes a b))
      else if kind = 0x04 then some (.admitRecord (ofBytes a b)) else if kind = 0x05 then some (.retire (ofBytes a b))
      else if kind = 0x21 then some (.setCircuit a b) else if kind = 0x22 then some (.setOverride a b)
      else if kind = 0x33 then some (.clearEvents (ofBytes a b))
      else if kind = 0x34 then some (.writeEnables (ofBytes a b)) else none
    | [a, b, c] => if kind = 0x38 then some (.writeSetting a (ofBytes b c)) else none
    | [a, b, c, d] =>
      if kind = 0x07 then some (.readExtension (ofBytes a b) c d)
      else if kind = 0x20 then some (.setDemand (ofBytes a b) (ofBytes c d)) else none
    | [a, b, c, d, e] => if kind = 0x03 then some (.findNext a b c d e) else none
    | [a, b, c, d, e, f, g] =>
      if kind = 0x06 then some (.declareRecord a b c d (ofBytes e f) g) else none
    | _ => none

/-- The payload of a request as the host sends it (R185). -/
def requestPayload : Request → List Byte
  | .lookup k | .readRecord k | .admitRecord k | .retire k => wordBytes k
  | .findNext c h v m t => [c, h, v, m, t]
  | .declareRecord h c i f n fl => [h, c, i, f] ++ wordBytes n ++ [fl]
  | .readExtension k o l => wordBytes k ++ [o, l]
  | .writeExtension k f t p d => wordBytes k ++ [f] ++ wordBytes t ++ [p] ++ d
  | .declareUnit b | .readUnit b | .releaseUnit b | .resumeUnit b | .readCircuit b | .snapshotCounters b
  | .readSetting b => [b]
  | .restartChain | .readChain | .readPostedFault | .identify | .readEvents | .readCounters => []
  | .setDemand k v => wordBytes k ++ wordBytes v
  | .setCircuit c d => [c, d]
  | .setOverride c m => [c, m]
  | .clearEvents m | .writeEnables m => wordBytes m
  | .writeSetting n v => n :: wordBytes v

/-- The request frame of a request: kind, payload length, payload (R185). -/
def requestFrame (r : Request) : List Byte := requestKind r :: byte (requestPayload r).length :: requestPayload r

/-! ### Train-line frames -/

/-- The kind code of a head frame (R68). -/
def HeadKind.code : HeadKind → Nat
  | .roll => 0x1 | .assign => 0x2 | .descq => 0x3 | .extq => 0x4 | .verdict => 0x5 | .setpoint => 0x6
  | .release => 0x7

/-- The two kinds that answer a head kind (R68): DESC or DECLINE, EXTSEG or DECLINE, DONE or DECLINE. -/
def HeadKind.answers : HeadKind → List Nat
  | .roll => []
  | .descq => [0xB, 0xE]
  | .extq => [0xC, 0xE]
  | _ => [0xD, 0xE]

/-- The payload lengths a node kind allows (R68); none for a code that is no node kind. -/
def nodeLengths (kind : Nat) : List Nat :=
  match kind with
  | 0x9 => [1, 6, 11, 16, 21]
  | 0xA => [7]
  | 0xB => [9]
  | 0xC => [34]
  | 0xD => [1]
  | 0xE => [2]
  | _ => []

/-- The time of a frame with payload length n on the wire, (n + 7) × 40 µs (R67). -/
def frameTime (n : Nat) : Nat := (n + 7) * 40

/-- Every byte of a frame inverted (R73). -/
def invertBytes (bs : List Byte) : List Byte := bs.map (fun b => ~~~b)

/-- The bytes of a head frame on the wire: preamble, delimiter, header with hop tally 0 and origin head, payload, CRC
high byte first; every byte inverted when the head transmits inverted (R68, R69, R73, R184). -/
def HeadFrame.bytes (f : HeadFrame) (inverted : Bool) : List Byte :=
  let covered := byte (f.kind.code * 16) :: byte f.position :: byte f.payload.length :: f.payload
  let bs := 0x55 :: 0xD3 :: covered ++ wordBytes (crc16 covered)
  if inverted then invertBytes bs else bs

/-- The header of a received frame, its payload and the two CRC bytes (R70, R184). -/
structure NodeFrame where
  kind : Nat
  hop : Nat
  fromNode : Bool
  position : Nat
  payload : List Byte
  deriving DecidableEq, Repr

/-- How many bytes after the delimiter make up a frame whose first bytes are these: three of header, the payload and
two of CRC; the header alone when the payload length is above 36 (R70). -/
def frameSize (bs : List Byte) : Nat :=
  let n := (bs.getD 2 0).toNat
  if n ≤ 36 then n + 5 else 3

/-- Whether the bytes received after the delimiter make up a whole frame that is not malformed and whose CRC matches
(R71), the bytes being already turned upright. -/
def frameSound (bs : List Byte) : Bool :=
  let n := (bs.getD 2 0).toNat
  let kind := (bs.getD 0 0).toNat / 16
  let covered := bs.take (n + 3)
  3 ≤ bs.length && n ≤ 36 && n + 5 ≤ bs.length && kind != 0x0 && kind != 0x8 && kind != 0xF &&
    (bs.getD 1 0).toNat < 8 && crc16 covered == ofBytes (bs.getD (n + 3) 0) (bs.getD (n + 4) 0)

/-- The fields of a whole frame (R184). -/
def readFrame (bs : List Byte) : NodeFrame where
  kind := (bs.getD 0 0).toNat / 16
  hop := (bs.getD 0 0).toNat / 2 % 8
  fromNode := (bs.getD 0 0).toNat % 2 = 1
  position := (bs.getD 1 0).toNat % 8
  payload := (bs.drop 3).take (bs.getD 2 0).toNat

/-- The six bytes of a UID as they are sent, high byte first (chapter 12). -/
def uidBytes (u : Uid) : List Byte :=
  [u.extractLsb' 40 8, u.extractLsb' 32 8, u.extractLsb' 24 8, u.extractLsb' 16 8, u.extractLsb' 8 8,
    u.extractLsb' 0 8]

/-- The UID six bytes spell (chapter 12). -/
def uidOf (b5 b4 b3 b2 b1 b0 : Byte) : Uid := b5 ++ b4 ++ b3 ++ b2 ++ b1 ++ b0

/-- The eight bytes of a pending set, index i in bit (i mod 8) of byte i ÷ 8 (R185). -/
def pendingBytes (p : BitVec 64) : List Byte := all8.map fun i => p.extractLsb' (8 * i.val) 8

/-- The kind a DONE or DECLINE names in bits 3 to 0, none when bits 7 to 4 are not zero (R184). -/
def namedKind (payload : List Byte) : Option Nat :=
  let b := (payload.getD 0 0).toNat
  if b < 16 then some b else none

/-- The kind of an item, if its code names one (R184). -/
def ItemKind.ofCode (b : Byte) : Option ItemKind :=
  if b = 1 then some .value else if b = 2 then some .fault else if b = 3 then some .clear
  else if b = 4 then some .withdrawn else if b = 5 then some .added else none

/-- The items of a PRESENT payload after its status byte, five bytes each (R184): kind code, class, instance, value. -/
def presentItems : List Byte → List (Byte × Byte × Byte × Word)
  | k :: c :: i :: v1 :: v0 :: rest => (k, c, i, ofBytes v1 v0) :: presentItems rest
  | _ => []

/-- The key of an item, when its class and instance lie in the range of a key (R123; log entry 10). -/
def Item.key (it : Item) : Option Key :=
  if it.cls.toNat < 64 ∧ it.inst.toNat < 128 then
    some ⟨it.handle, it.cls.truncate 6, it.inst.truncate 7⟩
  else none

end Sys2Proof.Machine
end

