-- ==== Sys2Proof/Machine/Flags.lean ====
section
/-! DEFINITION. The flags: event flags, enables and detail masks (R172 to R175), the live counters and their limits
(R177), and the port status byte (R158). -/

namespace Sys2Proof.Machine

/-- The bit of an event flag, in the order of R172 (R185). -/
def EventFlag.bit : EventFlag → Nat
  | .unitJoined => 0 | .unitLeft => 1 | .unitMoved => 2 | .unitStalled => 3 | .recordHeld => 4 | .recordChanged => 5
  | .circuitVerdict => 6 | .chainState => 7 | .postedFault => 8 | .tablePressure => 9 | .positionConflict => 10
  | .configDefaulted => 11 | .counterLimit => 12

/-- The place of a counter in the bank, in the order of R177. -/
def Counter.index : Counter → Fin 13
  | .framesGood => 0 | .framesBad => 1 | .framesStray => 2 | .transactionsFailed => 3 | .retries => 4
  | .voidCycles => 5 | .announcesDeferred => 6 | .meteredDrops => 7 | .itemsUnknown => 8 | .itemsLost => 9
  | .descriptorsRefused => 10 | .extensionsWithheld => 11 | .insertOverflows => 12

/-- The mask with one bit of n bits set. -/
def bitMask (n i : Nat) : BitVec n := BitVec.ofNat n (2 ^ i)

/-- The Event Unit after a flag is set; a flag already set stays set (R172). -/
def EventUnit.set (e : EventUnit) (f : EventFlag) : EventUnit := { e with flags := e.flags ||| bitMask 13 f.bit }

/-- Whether a flag is set. -/
def EventUnit.isSet (e : EventUnit) (f : EventFlag) : Bool := e.flags.getLsbD f.bit

/-- EVT_N is low exactly while some event flag and its enable are both set (R174). -/
def EventUnit.lineLow (e : EventUnit) : Bool := e.flags &&& e.enables != 0

/-- The Event Unit after CLEAR_EVENTS of a mask: the flags named are cleared, and with each of the three flags that
have one its detail mask is emptied (R175). -/
def EventUnit.clear (e : EventUnit) (mask : BitVec 13) : EventUnit where
  flags := e.flags &&& ~~~mask
  enables := e.enables
  joinMask := if mask.getLsbD EventFlag.unitJoined.bit then 0 else e.joinMask
  leftMask := if mask.getLsbD EventFlag.unitLeft.bit then 0 else e.leftMask
  circuitMask := if mask.getLsbD EventFlag.circuitVerdict.bit then 0 else e.circuitMask

/-- Raise an event flag (R172). -/
def State.raise (s : State) (f : EventFlag) : State := { s with events := s.events.set f }

/-- Raise UNIT_JOINED and set the handle's bit in the join detail mask, together (R173). -/
def State.raiseJoined (s : State) (h : Fin 8) : State :=
  { s with events := { s.events.set .unitJoined with joinMask := s.events.joinMask ||| bitMask 8 h.val } }

/-- Raise UNIT_LEFT and set the handle's bit in the left detail mask, together (R173). -/
def State.raiseLeft (s : State) (h : Fin 8) : State :=
  { s with events := { s.events.set .unitLeft with leftMask := s.events.leftMask ||| bitMask 8 h.val } }

/-- Raise CIRCUIT_VERDICT and set the circuit's bit in the circuit detail mask, together (R173). -/
def State.raiseVerdict (s : State) (k : Fin 8) : State :=
  { s with
    events := { s.events.set .circuitVerdict with circuitMask := s.events.circuitMask ||| bitMask 8 k.val } }

/-- The value of a setting in force. -/
def State.setting (s : State) (n : Fin 131) : Nat := s.settings[n]

/-- A counter after one raise, and whether the raise sets COUNTER_LIMIT, under WRAP or SATURATE (R177). -/
def raisedCounter (wrap : Bool) (v : Word) : Word × Bool :=
  if wrap then (v + 1, v = 0xFFFF)
  else if 0xFFFE ≤ v.toNat then (0xFFFF, true) else (v + 1, false)

/-- Raise a live counter by one; count mode, setting 20, is read at each raise (R177). -/
def State.count (s : State) (c : Counter) : State :=
  let r := raisedCounter (s.setting 20 = 1) s.counters.live[c.index]
  let s' := { s with counters := { s.counters with live := s.counters.live.set c.index r.1 } }
  if r.2 then s'.raise .counterLimit else s'

/-- Raise a live counter n times. -/
def State.countTimes (s : State) (c : Counter) : Nat → State
  | 0 => s
  | n + 1 => (s.countTimes c n).count c

/-- Whether the port would accept a non-posted submit now (R158, READY). -/
def HostPort.ready (p : HostPort) : Bool := !p.loading && p.nonPosted.isNone && p.response.isNone

/-- The port status byte (R158), its fields in the bits of R185. -/
def State.statusByte (s : State) : Byte :=
  let bit (b : Bool) (i : Nat) : Byte := if b then bitMask 8 i else 0
  bit s.port.loading 0 ||| bit s.port.ready 1 ||| bit s.port.posted.isNone 2 ||| bit s.port.response.isSome 3 |||
    bit s.port.discarded 4 ||| bit s.events.lineLow 5

end Sys2Proof.Machine
end

