-- ==== Sys2Proof/Machine/Ops.lean ====
section
/-! DEFINITION. The named operations every meaning is built from: the outcome of a command that may not be due, the
clock, the directory entries, the bytes and blocks of the Extension Store (chapter 2), lookup, insertion and update
of records (chapter 1), and the expected currents (R149, R150). -/

namespace Sys2Proof.Machine

/-- The outcome of a command: its effect where the step it names arises in this state, and no change where it does
not (log entry 1). No command of the CL46 stops. -/
def taken (due : Prop) [Decidable due] (after s : State) : Host.Outcome State Fault Refusal :=
  .next (if due then after else s)

/-- The clock moves on to a moment; it never moves back (log entry 2). -/
def State.advance (s : State) (moment : Nat) : State := { s with now := max s.now moment }

/-! ### Entries, circuits and settings -/

/-- A directory entry. -/
def State.entry (s : State) (h : Fin 8) : Entry := s.dir.entries[h]

/-- Eight values, one for each handle. -/
def perHandle {α : Type} (f : Fin 8 → α) : Vector α 8 := #v[f 0, f 1, f 2, f 3, f 4, f 5, f 6, f 7]

/-- Replace a directory entry. -/
def State.setEntry (s : State) (h : Fin 8) (e : Entry) : State :=
  { s with dir := { s.dir with entries := s.dir.entries.set h e } }

/-- A circuit context. -/
def State.circuit (s : State) (k : Fin 8) : Circuit := s.lcm.circuits[k]

/-- Replace a circuit context. -/
def State.setCircuit (s : State) (k : Fin 8) (c : Circuit) : State :=
  { s with lcm := { s.lcm with circuits := s.lcm.circuits.set k c } }

/-- The hash polynomial P in force (R10). -/
def State.hashP (s : State) : Byte := byte (s.setting 0)
/-- The dynamic limit: dynamic eighths × 32 (R16). -/
def State.dynamicLimit (s : State) : Nat := s.setting 1 * 32
/-- Whether the overflow action is STALL (R17, R18). -/
def State.stallOnOverflow (s : State) : Bool := s.setting 2 = 1
/-- The robustness setting (R99). -/
def State.robustness (s : State) : Nat := s.setting 3
/-- The answer timeout in microseconds (R83). -/
def State.answerTimeout (s : State) : Nat := s.setting 11 * 1000
/-- The settle time of circuit k, field 0 of its settings (R148, R179). -/
def State.settleTime (s : State) (k : Fin 8) : Nat := s.setting ⟨99 + 4 * k.val, by omega⟩
/-- The tolpct setting of circuit k (R150). -/
def State.tolpct (s : State) (k : Fin 8) : Nat := s.setting ⟨100 + 4 * k.val, by omega⟩
/-- The tolmin setting of circuit k (R150). -/
def State.tolmin (s : State) (k : Fin 8) : Nat := s.setting ⟨101 + 4 * k.val, by omega⟩
/-- The debounce setting of circuit k (R151). -/
def State.debounce (s : State) (k : Fin 8) : Nat := s.setting ⟨102 + 4 * k.val, by omega⟩
/-- Field i of class filter f (R42, R179). -/
def State.filterField (s : State) (f i : Fin 8) : Nat := s.setting ⟨35 + 8 * f.val + i.val, by omega⟩
/-- The depth of a meter (R88). -/
def State.meterDepth (s : State) (m : Fin 4) : Nat := s.setting ⟨21 + m.val, by omega⟩
/-- The refill setting of a meter (R88). -/
def State.meterRefill (s : State) (m : Fin 4) : Nat := s.setting ⟨25 + m.val, by omega⟩
/-- The meter that a position from 1 to 6 names, none for another position (R88). -/
def State.meterOf (s : State) (position : Nat) : Option (Fin 4) :=
  if h : 1 ≤ position ∧ position ≤ 6 then some (Fin.ofNat 4 (s.setting ⟨28 + position, by omega⟩)) else none

/-- Whether a unit state is one of a talking unit that is on the chain (R53, R97). -/
def UnitState.onChain : UnitState → Bool
  | .joining | .enrolling | .live | .stalled => true
  | _ => false

/-- The number of entries in JOINING, ENROLLING, LIVE or STALLED (R97). -/
def State.talkingCount (s : State) : Nat := (all8.filter fun h => (s.entry h).state.onChain).length

/-- The entry that is not FREE and holds a position (R53). -/
def State.holder (s : State) (p : Nat) : Option (Fin 8) :=
  all8.find? fun h => (s.entry h).state ≠ .free && (s.entry h).position = some p

/-- The lowest-numbered FREE handle (R56, R59). -/
def State.lowestFree (s : State) : Option (Fin 8) := all8.find? fun h => (s.entry h).state = .free

/-- The lowest index of a pending set (R110). -/
def lowestIndex (p : BitVec 64) : Option (BitVec 6) :=
  ((List.range 64).find? fun i => p.getLsbD i).map (BitVec.ofNat 6)

/-- A pending set with an index in it. -/
def withIndex (p : BitVec 64) (i : BitVec 6) : BitVec 64 := p ||| bitMask 64 i.toNat

/-- A pending set without an index. -/
def withoutIndex (p : BitVec 64) (i : BitVec 6) : BitVec 64 := p &&& ~~~ bitMask 64 i.toNat

/-- The pending set with the indices 0 to n − 1 (R57). -/
def firstIndices (n : Nat) : BitVec 64 := BitVec.ofNat 64 (2 ^ n - 1)

/-! ### The bytes and blocks of the Extension Store -/

/-- The byte at an address; an unlisted address reads as 0x00 (log entry 9). -/
def Memory.read : Memory → Nat → Byte
  | [], _ => 0
  | (a, b) :: m, x => if a = x then b else Memory.read m x

/-- Write one byte, keeping the canonical form: writing 0x00 removes the entry. -/
def Memory.write : Memory → Nat → Byte → Memory
  | [], x, v => if v = 0 then [] else [(x, v)]
  | (a, b) :: m, x, v =>
    if a = x then (if v = 0 then m else (x, v) :: m)
    else if x < a then (if v = 0 then (a, b) :: m else (x, v) :: (a, b) :: m)
    else (a, b) :: Memory.write m x v

/-- The canonical form: addresses strictly rising and within the store, no entry of 0x00 (R30). -/
abbrev Memory.wf (m : Memory) : Prop :=
  List.Pairwise (fun x y => x.1 < y.1) m ∧ ∀ c ∈ m, c.1 < 16384 ∧ c.2 ≠ 0

/-- All 32 bytes of a block set to 0x00, as at a draw (R30). -/
def Memory.clearBlock (m : Memory) (b : Fin 512) : Memory := List.filter (fun c => c.1 / 32 ≠ b.val) m

/-- The blocks an extension of n bytes takes, the ceiling of n ÷ 32 (R32). -/
def blocksFor (n : Nat) : Nat := (n + 31) / 32

/-- The address of byte i of an extension: byte i mod 32 of the block at chain position i ÷ 32 (R32). -/
def extAddress (chain : List (Fin 512)) (i : Nat) : Nat := (chain.getD (i / 32) 0).val * 32 + i % 32

/-- Write bytes as extension bytes `offset` onward (R32, R40, R41). -/
def Store.writeBytes (st : Store) (chain : List (Fin 512)) (offset : Nat) : List Byte → Store
  | [] => st
  | b :: bs =>
    ({ st with mem := Memory.write st.mem (extAddress chain offset) b } : Store).writeBytes chain (offset + 1) bs

/-- Extension bytes `offset` to `offset + count − 1` (R32, R39). -/
def Store.readBytes (st : Store) (chain : List (Fin 512)) (offset count : Nat) : List Byte :=
  (List.range count).map fun j => Memory.read st.mem (extAddress chain (offset + j))

/-- The store after a draw of the top n blocks, each zeroed (R30, R31); the blocks drawn are `st.free.take n`, the
first of them chain position 0. -/
def Store.draw (st : Store) (n : Nat) : Store where
  mem := (st.free.take n).foldl Memory.clearBlock st.mem
  free := st.free.drop n

/-- The store after a chain returns: pushed from its last position to position 0, so position 0 ends on top, with the
contents left as they are (R30, R31). -/
def Store.giveBack (st : Store) (chain : List (Fin 512)) : Store := { st with free := chain ++ st.free }

/-! ### Records -/

/-- The records of a table in slot order, each with its slot. -/
def Table.records (t : Table) : List (Fin 256 × Record) :=
  (allSlots.zip t.toList).filterMap fun p => p.2.map fun r => (p.1, r)

/-- The records of the table in slot order, each with its slot. -/
def State.records (s : State) : List (Fin 256 × Record) := Table.records s.table.slots

/-- The bucket of a key under the P in force (R11). -/
def State.bucketOf (s : State) (k : Key) : Fin 64 := k.bucket s.hashP

/-- The record of a key and its slot, among the ways of the key's bucket (R12). -/
def State.find (s : State) (k : Key) : Option (Fin 256 × Record) :=
  ways.findSome? fun w =>
    let i := slotOf (s.bucketOf k) w
    match s.table.slots[i] with
    | some r => if r.key = k then some (i, r) else none
    | none => none

/-- The slot of the lowest-numbered free way of a key's bucket (R13). -/
def State.freeWay (s : State) (k : Key) : Option (Fin 256) :=
  (ways.map (slotOf (s.bucketOf k))).find? fun i => s.table.slots[i].isNone

/-- Write a slot. -/
def State.setSlot (s : State) (i : Fin 256) (o : Option Record) : State :=
  { s with table := { s.table with slots := s.table.slots.set i o } }

/-- Whether the unit of a handle is in LEAVING. -/
def State.leaving (s : State) (h : Fin 8) : Bool := (s.entry h).state = .leaving

/-- The code of the state a read of a record reports, RETIRING while its unit is LEAVING (R6). -/
def State.reportedState (s : State) (r : Record) : Byte :=
  if s.leaving r.key.handle then retiringCode else r.state.code

/-- The touched rule (R8): where a change of the record counts and its applied policy is not QUIET, touched is set and
RECORD_CHANGED raised in the same operation. -/
def State.putRecord (s : State) (i : Fin 256) (r : Record) (changed : Bool) : State :=
  if changed && r.policy ≠ .quiet then (s.setSlot i (some { r with touched := true })).raise .recordChanged
  else s.setSlot i (some r)

/-- The outcome of the checks of an insertion (R13). -/
inductive Placement where
  | duplicate
  | noRoom
  | at_ (slot : Fin 256)
  deriving DecidableEq, Repr

/-- The checks of an insertion in their order: duplicate, bucket room, and for an ENROLLED insertion the dynamic limit
(R13, R16). -/
def State.place (s : State) (k : Key) (origin : Origin) : Placement :=
  if (s.find k).isSome then .duplicate
  else
    match s.freeWay k with
    | none => .noRoom
    | some i =>
      if origin = .enrolled ∧ s.dynamicLimit ≤ s.table.enrolledCount then .noRoom else .at_ i

/-- Put a new record in its slot: the way joins the occupancy, the unit's record count rises, and for an ENROLLED
record the enrolled count (R13). -/
def State.insertAt (s : State) (i : Fin 256) (r : Record) : State :=
  let e := s.entry r.key.handle
  let s := (s.setSlot i (some r)).setEntry r.key.handle { e with recordCount := e.recordCount + 1 }
  if r.origin = .enrolled then { s with table := { s.table with enrolledCount := s.table.enrolledCount + 1 } } else s

/-- A new record with the fields of R3 that both origins share: value, demand and applied absent, demand state SETTLED
when SWITCHABLE, every condition flag clear, no extension. -/
def newRecord (k : Key) (origin : Origin) (state : RecordState) (policy : Policy) (index : Option (BitVec 6))
    (flags : DescFlags) (feed : Feed) (nominal : Nat) : Record where
  key := k
  origin := origin
  state := state
  policy := policy
  descIndex := index
  flags := flags
  feed := feed
  nominal := nominal
  interval := none
  value := none
  age := 0
  demand := none
  applied := none
  demandState := if hasSwitchable flags then some .settled else none
  fault := false
  suspect := false
  stale := false
  extWithheld := false
  touched := false
  extension := none

/-! ### Expected currents -/

/-- Whether a record is one of circuit k's counted records (R149). -/
def State.counted (s : State) (k : Fin 8) (r : Record) : Bool :=
  r.feed = .circuit k && r.state ≠ .pending && !s.leaving r.key.handle

/-- The sum of the nominal currents of a circuit's counted records, saturated at 4095 (R149). -/
def State.expectedCurrent (s : State) (k : Fin 8) : Nat :=
  min 4095 (((s.records.filter fun p => s.counted k p.2).map fun p => p.2.nominal).sum)

/-- The tolerance of a circuit at an expected current (R150). -/
def State.tolerance (s : State) (k : Fin 8) (expected : Nat) : Nat :=
  max (expected * s.tolpct k / 100) (s.tolmin k)

/-- Notice of circuit k: E is recomputed; if it changes, the streak and the candidate are dropped and tol follows
(R149). -/
def State.notice (s : State) (k : Fin 8) : State :=
  let e := s.expectedCurrent k
  let c := s.circuit k
  if e = c.expected then s
  else s.setCircuit k { c with expected := e, streak := 0, candidate := none, tol := s.tolerance k e }

/-- Notice of the circuit a record is fed from, if it is fed from one (R14). -/
def State.noticeFeed (s : State) (f : Feed) : State :=
  match f with
  | .circuit k => s.notice k
  | _ => s

/-! ### The demand state and the removal of a record -/

/-- A handle's waiting count raised by one (R133). -/
def OutputUnit.waitMore (o : OutputUnit) (h : Fin 8) : OutputUnit :=
  { o with waiting := o.waiting.set h (o.waiting[h] + 1) }

/-- A handle's waiting count lowered by one (R134). -/
def OutputUnit.waitLess (o : OutputUnit) (h : Fin 8) : OutputUnit :=
  { o with waiting := o.waiting.set h (o.waiting[h] - 1) }

/-- Give the record in a slot a demand state: the waiting count of its handle follows a change into or out of WAITING
(R133, R134), and a change to SETTLED or FAILED from any other demand state touches (R8). -/
def State.setDemandState (s : State) (i : Fin 256) (r : Record) (d : DemandState) : State :=
  let was := r.demandState
  let ou :=
    if was = some .waiting ∧ d ≠ .waiting then s.ou.waitLess r.key.handle
    else if was ≠ some .waiting ∧ d = .waiting then s.ou.waitMore r.key.handle
    else s.ou
  ({ s with ou := ou } : State).putRecord i { r with demandState := some d }
    (was ≠ some d && (d = .settled || d = .failed))

/-- The enrolment context after its PENDING record has been removed: it names no record, holds no blocks, and its
classification is no longer in hand (R7, R51, R121). Whether it goes on without its index and descriptor is decided by
the operation that gives the descriptor up (log entry 25). -/
def Context.dropPending (c : Context) : Context :=
  { c with pendingKey := none, held := [], classification := none }

/-- The in-flight note after the removal of a record: marked gone if it names the record; a note whose outcome was
waiting to be applied is cleared, since that operation is then not made (R137, R138). -/
def noteAfterRemoval (k : Key) : Option InFlight → Option InFlight
  | none => none
  | some n =>
    if n.key = k ∧ n.gone = false then (if n.outcome.isSome then none else some { n with gone := true })
    else some n

/-- The blocks a record's removal returns: its own chain, or for a PENDING record that the enrolment context names the
blocks the context holds for it (R7, R15, R38). -/
def State.removalBlocks (s : State) (r : Record) : List (Fin 512) :=
  let own := match r.extension with | some x => x.chain | none => []
  match s.ee with
  | some c => if r.state = .pending ∧ c.pendingKey = some r.key then c.held ++ own else own
  | none => own

/-- The removal of a record, all its effects together (R15, R7, R38): the slot, the blocks and the charge, the counts,
the context's naming of a PENDING record, the Demand Queue's entry, the waiting count, the in-flight note, and the
notice of the circuit of a record that was counted. -/
def State.removeRecord (s : State) (i : Fin 256) (r : Record) : State :=
  let h := r.key.handle
  let blocks := s.removalBlocks r
  let e := s.entry h
  let ou : OutputUnit :=
    { s.ou with queue := s.ou.queue.filter (fun k => k ≠ r.key), note := noteAfterRemoval r.key s.ou.note }
  let s' : State :=
    { s with
      table :=
        { s.table with
          slots := s.table.slots.set i none
          enrolledCount := if r.origin = .enrolled then s.table.enrolledCount - 1 else s.table.enrolledCount }
      store := s.store.giveBack blocks
      dir :=
        { s.dir with
          entries := s.dir.entries.set h
            { e with recordCount := e.recordCount - 1, charge := e.charge - blocks.length } }
      ou := if r.demandState = some .waiting then ou.waitLess h else ou
      ee :=
        match s.ee with
        | some c => if r.state = .pending ∧ c.pendingKey = some r.key then some c.dropPending else some c
        | none => none }
  if r.state ≠ .pending ∧ s.leaving h = false then s'.noticeFeed r.feed else s'

end Sys2Proof.Machine
end

