-- ==== Sys2Proof/Machine/Arbiter.lean ====
section
/-! DEFINITION. The Table Arbiter (1.7): who waits for a table operation, whom the arbiter grants (R20, R21), and what
a grant leaves in its mark and pointer. A table operation of the opcode table is due only when its requester is the
one the arbiter grants (log entry 3). -/

namespace Sys2Proof.Machine

/-- The users of the table (R19, R21). -/
inductive Grantee where
  | hp | ee | rh | lcm | ou | sweeper
  deriving DecidableEq, Repr

/-- The accepted request that is carried out next: the one the order mark names, or the one that is present (R162). -/
def HostPort.inHand (p : HostPort) : Option Request :=
  match p.nonPosted, p.posted with
  | some r, none => some r
  | none, some q => some q
  | some r, some q => if p.order = some .posted then some q else some r
  | none, none => none

/-- The Host Port waits for a grant while the request it carries out takes a table operation (R162). -/
def State.hpWaits (s : State) : Bool :=
  match s.port.inHand with
  | some r => takesTable r
  | none => false

/-- The context waits for its reservation operation: a classification is in hand and no record has been reserved
(R114, R115). -/
def Context.wantsReservation (c : Context) : Bool :=
  !c.abandoned && c.phase = .reading && c.classification.isSome && c.pendingKey.isNone

/-- The context waits for its conclusion operation (R117). -/
def Context.wantsConclusion (c : Context) : Bool :=
  !c.abandoned && c.phase = .concluding && c.pendingKey.isSome

/-- The Enrolment Engine waits for a grant (R106). -/
def State.eeWaits (s : State) : Bool :=
  match s.ee with
  | some c => c.wantsReservation || c.wantsConclusion
  | none => false

/-- The Report Handler waits for a grant while the head of its work list takes a table operation (R125). -/
def State.rhWaits (s : State) : Bool :=
  match s.workList with
  | .item it :: _ => it.kind ≠ .added
  | .mark _ :: _ => true
  | [] => false

/-- The Lamp Circuit Monitor has an operation waiting while any circuit holds a job (R153). -/
def State.lcmWaits (s : State) : Bool := all8.any fun k => (s.circuit k).job.isSome

/-- The eligible waiting total: the waiting counts of the handles whose entries are not LEAVING (R134). -/
def State.eligibleWaiting (s : State) : Nat :=
  (all8.map fun h => if s.leaving h then 0 else s.ou.waiting[h]).sum

/-- The waiting counts and the entry states, as a refill that found nothing notes them (R135). -/
def State.refillView (s : State) : Vector Nat 8 × Vector UnitState 8 :=
  (s.ou.waiting, perHandle fun h => (s.entry h).state)

/-- The Output Unit has an outcome to apply (R136, R137). -/
def State.wantsOutcome (s : State) : Bool :=
  match s.ou.note with
  | some n => n.outcome.isSome
  | none => false

/-- The Output Unit waits for a refill: it has no outcome to apply and holds no turn, its queue has room, and eligible
records wait (R135, R136). -/
def State.wantsRefill (s : State) : Bool :=
  !s.wantsOutcome && !s.line.ouTurn && s.ou.queue.length < 32 && 0 < s.eligibleWaiting &&
    s.ou.refillStop ≠ some s.refillView

/-- The Output Unit waits for a grant (R135, R136). -/
def State.ouWaits (s : State) : Bool := s.wantsOutcome || s.line.ouTurn || s.wantsRefill

/-- The Drain Sweeper waits while any LEAVING entry has a record count above 0 (R64). -/
def State.sweeperWaits (s : State) : Bool := all8.any fun h => s.leaving h && 0 < (s.entry h).recordCount

/-- Whether a place of the rotation counts as waiting (R20, R21). -/
def State.placeWaits (s : State) : Place → Bool
  | .ee => s.eeWaits
  | .rh => s.rhWaits || s.lcmWaits
  | .ou => s.ouWaits
  | .sweeper => s.sweeperWaits

/-- The rotation from the place after the pointer round to the pointer's own (R20). -/
def Place.after : Place → List Place
  | .ee => [.rh, .ou, .sweeper, .ee]
  | .rh => [.ou, .sweeper, .ee, .rh]
  | .ou => [.sweeper, .ee, .rh, .ou]
  | .sweeper => [.ee, .rh, .ou, .sweeper]

/-- Who is served at a place: at the RH's, when both wait, the one not served there last time (R21). -/
def State.served (s : State) : Place → Grantee
  | .ee => .ee
  | .ou => .ou
  | .sweeper => .sweeper
  | .rh =>
    if s.rhWaits && (!s.lcmWaits || s.table.rhServedLast = .lcm) then .rh else .lcm

/-- The grant the arbiter makes, if any requester waits (R20). -/
def State.grant (s : State) : Option Grantee :=
  let other := (s.table.pointer.after).find? s.placeWaits
  if s.hpWaits && (!s.table.lastGrantHost || other.isNone) then some .hp else other.map s.served

/-- The table after a grant: the mark is set for the Host Port; otherwise the pointer moves to the place granted and
the mark is cleared, and the RH's place notes whom it served (R20, R21). -/
def FunctionTable.granted (t : FunctionTable) : Grantee → FunctionTable
  | .hp => { t with lastGrantHost := true }
  | .ee => { t with lastGrantHost := false, pointer := .ee }
  | .rh => { t with lastGrantHost := false, pointer := .rh, rhServedLast := .rh }
  | .lcm => { t with lastGrantHost := false, pointer := .rh, rhServedLast := .lcm }
  | .ou => { t with lastGrantHost := false, pointer := .ou }
  | .sweeper => { t with lastGrantHost := false, pointer := .sweeper }

/-- The state after a grant, before the operation granted. -/
def State.granted (s : State) (g : Grantee) : State := { s with table := s.table.granted g }

end Sys2Proof.Machine
end

