-- ==== Sys2Proof/Machine/Lamps.lean ====
section
/-! DEFINITION. The Lamp Circuit Monitor's operations: the output decision (R141), the blink clock (R142), the
confirmation flash (R143, R144), the balance judgement (R148, R150, R151, R152) and attribution (R153, R154), with
the lamp steps of the table: SAMPLE, BLINK_HALF_END, FLASH_PHASE_END and ATTRIBUTION_OPERATION stand in
LampSteps.lean. -/

namespace Sys2Proof.Machine

/-- The output that override, flash and demand decide, given whether the blink clock is in its on-half (R141). -/
def Circuit.decided (c : Circuit) (blinkOn : Bool) : Bool :=
  match c.mode with
  | .forceOn => true
  | .forceOff => false
  | .normal =>
    match c.flash with
    | some f => f.on
    | none =>
      match c.demand with
      | .on => true
      | .off => false
      | .blink => blinkOn

/-- Whether the blink clock is in its on-half; a stopped clock is not (R142). -/
def State.blinkOn (s : State) : Bool :=
  match s.lcm.blink with
  | some b => b.onHalf
  | none => false

/-- A circuit after its output is decided afresh at a moment: off to on sets the on-time to 0, on to off drops the
streak and the candidate, and an output that stays as it was changes nothing (R141). -/
def Circuit.redecide (c : Circuit) (blinkOn : Bool) (moment : Nat) : Circuit :=
  let out := c.decided blinkOn
  if out = c.output then c
  else if out then { c with output := true, onSince := moment }
  else { c with output := false, streak := 0, candidate := none }

/-- The output of circuit k decided afresh (R141). -/
def State.redecide (s : State) (k : Fin 8) : State :=
  s.setCircuit k ((s.circuit k).redecide s.blinkOn s.now)

/-- The length of a flash phase, 300 ms (R143). -/
def flashPhase : Nat := 300000

/-- Whether circuit k is in the flash mask, setting 19 (R143): bit k of its byte, which no rule says (log entry 36). -/
def State.flashMasked (s : State) (k : Fin 8) : Bool := (s.setting 19).testBit k.val

/-- The confirmation flash started, or started afresh, on circuit k if it is masked and its override is NORMAL, unless
the flash count is 0 (R143, R144). -/
def State.flashOn (s : State) (k : Fin 8) : State :=
  let c := s.circuit k
  if s.flashMasked k ∧ c.mode = .normal ∧ s.setting 18 ≠ 0 then
    (s.setCircuit k { c with flash := some ⟨s.setting 18, true, s.now + flashPhase⟩ }).redecide k
  else s

/-- The confirmation flash of a UNIT_JOINED on every circuit (R143). -/
def State.startFlash (s : State) : State := all8.foldl State.flashOn s

/-- A flash after its phase has ended: an ON phase gives OFF; an OFF phase lowers the remaining count and gives ON, or
ends the flash at 0 (R143). -/
def Flash.next (f : Flash) : Option Flash :=
  if f.on then some { f with on := false, phaseEnds := f.phaseEnds + flashPhase }
  else if f.remaining ≤ 1 then none
  else some { remaining := f.remaining - 1, on := true, phaseEnds := f.phaseEnds + flashPhase }

/-- A blink clock started, or restarted, at the start of an on-half at a moment, under the period setting in ms
(R142). -/
def Blink.start (period moment : Nat) : Blink := ⟨true, moment + period * 500, period⟩

/-- The blink clock after a half has ended; a new period takes the setting in force (R142). -/
def Blink.next (b : Blink) (period : Nat) : Blink :=
  if b.onHalf then { b with onHalf := false, halfEnds := b.halfEnds + b.period * 500 }
  else { onHalf := true, halfEnds := b.halfEnds + period * 500, period := period }

/-- The raw result of a judged sample (R150). -/
def rawResult (m expected tol : Nat) : CircuitVerdict :=
  if 1023 ≤ expected then .overRange
  else if m + tol < expected then .deficit
  else if expected + tol < m then .surplus
  else .balanced

/-- The attribution job after a change of the reported verdict: MARK for DEFICIT, CLEAR for BALANCED, and otherwise the
job as it was (R152). -/
def jobAfter (v : CircuitVerdict) (m expected tol : Nat) (job : Option Job) : Option Job :=
  match v with
  | .deficit => some (.mark (expected - m) tol 0)
  | .balanced => some (.clear 0)
  | _ => job

/-- The candidate and streak after a judged sample with raw result r (R151). -/
def Circuit.countRaw (c : Circuit) (r : CircuitVerdict) : Circuit :=
  if r = .overRange then { c with candidate := none, streak := 0 }
  else if c.candidate = some r then { c with streak := min 7 (c.streak + 1) }
  else { c with candidate := some r, streak := 1 }

/-- The verdict that a judged sample calls for after its raw result has been counted: OVER_RANGE at once, another when
its streak has reached the debounce setting (R151). -/
def Circuit.calledFor (c : Circuit) (r : CircuitVerdict) (debounce : Nat) : CircuitVerdict :=
  if r = .overRange then .overRange
  else if debounce ≤ c.streak then r
  else c.verdict

/-- The judgement of a sample of circuit k that reads m (R150, R151, R152). -/
def State.judge (s : State) (k : Fin 8) (m : Nat) : State :=
  let c := s.circuit k
  let r := rawResult m c.expected c.tol
  let c' := c.countRaw r
  let v := c'.calledFor r (s.debounce k)
  if v = c.verdict then s.setCircuit k c'
  else
    (s.setCircuit k { c' with verdict := v, job := jobAfter v m c.expected c.tol c'.job }).raiseVerdict k

/-- A sample of circuit k: last M takes the reading, limited at 1023, and the sample is judged while the output is on
and the on-time is at least the settle time (R147, R148). -/
def State.sampleCircuit (s : State) (readings : Vector Nat 8) (k : Fin 8) : State :=
  let m := min 1023 readings[k]
  let s' := s.setCircuit k { s.circuit k with lastM := m }
  if (s.circuit k).output = true ∧ (s.circuit k).onSince + s.settleTime k * 1000 ≤ s.now then s'.judge k m else s'

/-- The sampling interval, 10 ms (R147). -/
def sampleInterval : Nat := 10000

/-- The lowest-numbered circuit that holds an attribution job (R153). -/
def State.jobCircuit (s : State) : Option (Fin 8) := all8.find? fun k => (s.circuit k).job.isSome

/-- The cursor of a job. -/
def Job.cursor : Job → Nat
  | .mark _ _ c => c
  | .clear c => c

/-- A job with its cursor moved. -/
def Job.withCursor (j : Job) (c : Nat) : Job :=
  match j with
  | .mark d t _ => .mark d t c
  | .clear _ => .clear c

/-- Whether a counted record qualifies for a job: for MARK its nominal current lies within the tolerance of D; for
CLEAR every one (R153). -/
def Job.qualifies (j : Job) (r : Record) : Bool :=
  match j with
  | .mark d t _ => r.nominal ≤ d + t && d ≤ r.nominal + t
  | .clear _ => true

/-- What a job writes to suspect (R153). -/
def Job.suspect (j : Job) : Bool :=
  match j with
  | .mark .. => true
  | .clear _ => false

/-- One operation of circuit k's job: the first counted record at or past the cursor that qualifies is marked or
cleared and the cursor passes it; if there is none, the job ends (R153, R154). -/
def State.attribute (s : State) (k : Fin 8) (j : Job) : State :=
  match s.records.find? fun p => j.cursor ≤ p.1.val && s.counted k p.2 && j.qualifies p.2 with
  | none => s.setCircuit k { s.circuit k with job := none }
  | some (i, r) =>
    (s.putRecord i { r with suspect := j.suspect } (r.suspect ≠ j.suspect)).setCircuit k
      { s.circuit k with job := some (j.withCursor (i.val + 1)) }

end Sys2Proof.Machine
end

