-- ==== Sys2Proof/Machine/PortOps.lean ====
section
/-! DEFINITION. The Host Port's operations: transfers (R156, R158, R159, R164), the judgement of a submit (R160, R161),
the finishing of requests (R162, R163, R165) and the posted-fault holding record (R166). -/

namespace Sys2Proof.Machine

/-! ### Transfers -/

/-- The kind of transfer that a first host byte decides (R156). -/
def transferKind (b : Byte) : TransferKind :=
  if b = submitMarker then .submit else if b = fetchMarker then .fetch else .poll

/-- HCS_N falls: the port status byte is composed from the state at that moment (R158). -/
def State.selectPort (s : State) : State := { s with port := { s.port with fallen := some s.statusByte } }

/-- The status byte of the transfer whose first byte is clocked now: the one composed at its fall of HCS_N (R158). Where
the fall had no step of its own, no other step came between it and this one (log entry 4). -/
def State.firstStatus (s : State) : Byte := s.port.fallen.getD s.statusByte

/-- A transfer whose first byte has just been clocked: its status byte, and for a fetch the waiting response, or NONE
(R158, R164). -/
def State.openTransfer (s : State) (b : Byte) : Transfer where
  kind := transferKind b
  status := s.firstStatus
  frame :=
    match transferKind b, s.port.response with
    | .fetch, some r => r.bytes
    | .fetch, none => noneFrame
    | _, _ => []
  response := transferKind b = .fetch && s.port.response.isSome

/-- The first byte of a transfer has been clocked: the transfer has a kind, and a DISCARDED shifted out in its status
byte clears the discarded mark (R156, R159). -/
def State.firstByte (s : State) (b : Byte) : State :=
  { s with
    port :=
      { s.port with
        discarded := s.port.discarded && !s.firstStatus.getLsbD 4
        fallen := none
        transfer := some (s.openTransfer b)
        shiftedOut := [s.firstStatus] } }

/-- A transfer ends before its first byte has been clocked: it has no kind, no whole byte was shifted out, and the
discarded mark stays (R156, R159). -/
def State.endUnclocked (s : State) : State := { s with port := { s.port with fallen := none, shiftedOut := [] } }

/-- The state from which a transfer of a kind ends: the one already open, or one whose first byte is clocked now. None
where a transfer of another kind is open (log entry 4). -/
def State.atTransferEnd (s : State) (b : Byte) : Option (Transfer × State) :=
  match s.port.transfer with
  | some t => if t.kind = transferKind b then some (t, s) else none
  | none => some (s.openTransfer b, s.firstByte b)

/-- A transfer ends, having shifted out its status byte and then other bytes (R156). -/
def State.closeTransfer (s : State) (t : Transfer) (out : List Byte) : State :=
  { s with port := { s.port with fallen := none, transfer := none, shiftedOut := t.status :: out } }

/-- A fetch ends after n bytes past the marker: the frame is shifted out, 0x00 after its end, and the response buffer is
emptied once the response has been clocked out whole (R164). -/
def State.endFetch (s : State) (t : Transfer) (n : Nat) : State :=
  let s' := s.closeTransfer t ((t.frame ++ List.replicate n 0).take n)
  if t.response ∧ t.frame.length ≤ n then { s' with port := { s'.port with response := none } } else s'

/-! ### Posted faults -/

/-- A posted fault fills the empty holding record, or sets the overrun flag of a full one; POSTED_FAULT is set in both
cases (R166). -/
def State.postFault (s : State) (kind : Byte) (subject : Option Word) (reason : Result) : State :=
  (match s.port.fault with
    | none => { s with port := { s.port with fault := some ⟨kind, subject, reason⟩, overrun := false } }
    | some _ => { s with port := { s.port with overrun := true } } : State).raise .postedFault

/-! ### Submits -/

/-- A submit that is thrown away sets the discarded mark (R159, R160). -/
def State.discard (s : State) : State := { s with port := { s.port with discarded := true } }

/-- A submit judged FORMAT: a FORMAT response, or for a posted kind a FORMAT fault (R161). -/
def State.formatError (s : State) (kind : Byte) : State :=
  if postedKind kind then s.postFault kind none .format
  else { s with port := { s.port with response := some ⟨.format, kind, []⟩ } }

/-- An accepted request takes its place, and the order mark names the other of the two if it is already present (R160
step 7). -/
def State.accept (s : State) (r : Request) : State :=
  if postedKind (requestKind r) then
    { s with
      port :=
        { s.port with
          posted := some r
          order := if s.port.nonPosted.isSome then some .nonPosted else s.port.order } }
  else
    { s with
      port :=
        { s.port with
          nonPosted := some r
          order := if s.port.posted.isSome then some .posted else s.port.order } }

/-- The judgement of a submit's frame in the order of R160. -/
def State.judgeSubmit (s : State) (frame : List Byte) : State :=
  match frame with
  | kind :: len :: payload =>
    if s.port.loading then s.discard
    else if postedKind kind ∧ s.port.posted.isSome then s.discard
    else if postedKind kind = false ∧ (s.port.nonPosted.isSome ∨ s.port.response.isSome) then s.discard
    else if knownKind kind = false then s.formatError kind
    else if payload.length ≠ len.toNat ∨ 40 < len.toNat then s.formatError kind
    else
      match parseRequest kind payload with
      | some r => s.accept r
      | none => s.formatError kind
  | _ => s.discard

/-! ### Finishing requests -/

/-- Whether the Host Port carries out this request now (R162). -/
abbrev State.carriesOut (s : State) (r : Request) : Prop := s.port.inHand = some r

/-- Whether the Host Port carries out this request now and is granted its table operation (R20, R162). -/
abbrev State.granting (s : State) (r : Request) : Prop := s.port.inHand = some r ∧ s.grant = some .hp

/-- A non-posted request finishes: its response is placed and the request becomes absent, and with it the order mark
(R162, R163). -/
def State.respond (s : State) (r : Request) (result : Result) (payload : List Byte) : State :=
  { s with port := { s.port with response := some ⟨result, requestKind r, payload⟩, nonPosted := none, order := none } }

/-- A request that is answered with a result other than OK, which carries no payload (R170). -/
def State.answer (s : State) (r : Request) (result : Result) : State := s.respond r result []

/-- A posted request finishes: the posted slot empties (R162, R165). -/
def State.finishPosted (s : State) : State :=
  { s with port := { s.port with posted := none, order := none } }

end Sys2Proof.Machine
end

