-- ==== Sys2Proof/Machine/CircuitRequests.lean ====
section
/-! DEFINITION. The circuit requests (chapter 9): the posted SET_CIRCUIT and SET_OVERRIDE, and READ_CIRCUIT. They take
no table operation. -/

namespace Sys2Proof.Machine

/-- Whether some other circuit's demand is BLINK (R142). -/
def State.otherBlinks (s : State) (k : Fin 8) : Bool := all8.any fun j => j ≠ k && (s.circuit j).demand = .blink

/-- The blink clock restarted at the start of an on-half, if a first circuit's demand becomes BLINK (R142). -/
def State.restartBlink (s : State) (k : Fin 8) (d : CircuitDemand) : State :=
  if d = .blink ∧ s.otherBlinks k = false then
    { s with lcm := { s.lcm with blink := some (Blink.start (s.setting 17) s.now) } }
  else s

/-- Circuit k's demand set; the demand already held changes nothing (R145, R142, R144). -/
def State.setCircuitDemand (s : State) (k : Fin 8) (d : CircuitDemand) : State :=
  if (s.circuit k).demand = d then s
  else ((s.restartBlink k d).setCircuit k { s.circuit k with demand := d }).redecide k

/-- SET_CIRCUIT (R145): a circuit number above 7 or a byte that names no demand places a RANGE fault. -/
def execSetCircuit (circuit demand : Byte) (s : State) : Host.Outcome State Fault Refusal :=
  taken (s.carriesOut (.setCircuit circuit demand))
    (match handleOf circuit, CircuitDemand.ofCode demand with
      | some k, some d => s.setCircuitDemand k d
      | _, _ => s.postFault 0x21 (some (circuit.zeroExtend 16)) .range).finishPosted s

/-- Circuit k's override set; a forcing one cancels a running flash, and the override already held changes nothing (R146,
R144). -/
def State.setCircuitMode (s : State) (k : Fin 8) (m : Override) : State :=
  let c := s.circuit k
  if c.mode = m then s
  else (s.setCircuit k { c with mode := m, flash := if m = .normal then c.flash else none }).redecide k

/-- SET_OVERRIDE (R146): the checks and faults of SET_CIRCUIT, with the override in place of the demand. -/
def execSetOverride (circuit mode : Byte) (s : State) : Host.Outcome State Fault Refusal :=
  taken (s.carriesOut (.setOverride circuit mode))
    (match handleOf circuit, Override.ofCode mode with
      | some k, some m => s.setCircuitMode k m
      | _, _ => s.postFault 0x22 (some (circuit.zeroExtend 16)) .range).finishPosted s

/-- The fields of READ_CIRCUIT: demand, override, flash, output, last M, E, tol, verdict, candidate, streak, whether a job
is in hand, and the four settings (R155; what R185 leaves open is in log entry 6). -/
def State.circuitBytes (s : State) (k : Fin 8) : List Byte :=
  let c := s.circuit k
  [c.demand.code, c.mode.code] ++ optionBytes 2 (c.flash.map fun f => [byte f.remaining, Config.flashPhaseCode f.on]) ++
    [boolByte c.output] ++ wordBytes (word c.lastM) ++ wordBytes (word c.expected) ++ wordBytes (word c.tol) ++
    [c.verdict.code] ++ optionBytes 1 (c.candidate.map fun v => [v.code]) ++ [byte c.streak, boolByte c.job.isSome] ++
    [byte (s.settleTime k), byte (s.tolpct k), byte (s.tolmin k), byte (s.debounce k)]

/-- READ_CIRCUIT (R155). -/
def execReadCircuit (circuit : Byte) (s : State) : Host.Outcome State Fault Refusal :=
  let q := Request.readCircuit circuit
  taken (s.carriesOut q)
    (match handleOf circuit with
      | some k => s.respond q .ok (s.circuitBytes k)
      | none => s.answer q .range) s

end Sys2Proof.Machine
end

