-- ==== Sys2Proof/Machine/DemandOps.lean ====
section
/-! DEFINITION. SET_DEMAND (R132, R133) and the Output Unit's table operations: REFILL_OPERATION (R135),
COMPLETION_OPERATION (R138) and FAILURE_OPERATION (R139). SEND_OPERATION, which hands a frame to the Transaction Engine,
stands in TrainLine.lean. -/

namespace Sys2Proof.Machine

/-- Whether the Demand Queue holds an entry for a key (R134). -/
def OutputUnit.queued (o : OutputUnit) (k : Key) : Bool := o.queue.contains k

/-- Whether a record is in flight: the note names it and is not marked gone (R133). -/
def OutputUnit.inFlight (o : OutputUnit) (k : Key) : Bool :=
  match o.note with
  | some n => n.key = k && !n.gone
  | none => false

/-- An entry for a key at the tail of the Demand Queue (R134). -/
def State.enqueue (s : State) (k : Key) : State := { s with ou := { s.ou with queue := s.ou.queue ++ [k] } }

/-- The demand state an accepted demand leads to, and whether an entry is appended, by the first row of R133's table that
applies. -/
def State.demandRow (s : State) (r : Record) (value : Word) : DemandState × Bool :=
  if s.ou.queued r.key then (.outstanding, false)
  else if s.ou.inFlight r.key = false ∧ r.applied = some value then (.settled, false)
  else if 0 < s.eligibleWaiting then (.waiting, false)
  else if s.ou.queue.length < 32 then (.outstanding, true)
  else (.waiting, false)

/-- An accepted demand (R133). -/
def State.takeDemand (s : State) (i : Fin 256) (r : Record) (value : Word) : State :=
  let row := s.demandRow r value
  let s' := s.setDemandState i { r with demand := some value } row.1
  if row.2 then s'.enqueue r.key else s'

/-- The checks of SET_DEMAND in their order: the reason of the first that fails, or the record (R132). -/
def State.demandChecks (s : State) (key : Word) : Except Result (Fin 256 × Record) :=
  match s.find (Key.ofPacked key) with
  | none => .error .notFound
  | some (i, r) =>
    if s.leaving r.key.handle then .error .retiring
    else if hasSwitchable r.flags = false ∨ r.feed ≠ .node then .error .range
    else if r.state = .pending ∨ (s.entry r.key.handle).state = .enrolling then .error .wrongState
    else if r.state = .held then .error .notAdmitted
    else .ok (i, r)

/-- SET_DEMAND's operation: the demand is taken, or a posted fault placed, and the posted slot empties (R132, R165,
R166). -/
def State.setDemandOp (s : State) (key value : Word) : State :=
  (match s.demandChecks key with
    | .error e => s.postFault 0x20 (some key) e
    | .ok (i, r) => s.takeDemand i r value).finishPosted

/-- SET_DEMAND (R132): at the Host Port's grant. -/
def execSetDemand (key value : Word) (s : State) : Host.Outcome State Fault Refusal :=
  taken (s.granting (.setDemand key value)) ((s.granted .hp).setDemandOp key value) s

/-! ### The Output Unit's operations -/

/-- The order in which a refill examines the slots: from the rotating pointer forward, from 255 round to 0 (R135). -/
def State.refillOrder (s : State) : List (Fin 256 × Record) :=
  (s.records.filter fun p => s.ou.pointer ≤ p.1) ++ s.records.filter fun p => p.1 < s.ou.pointer

/-- The refill operation (R135). -/
def State.refillOp (s : State) : State :=
  match s.refillOrder.find? fun p => p.2.demandState = some .waiting && !s.leaving p.2.key.handle with
  | some (i, r) =>
    let s' := (s.setDemandState i r .outstanding).enqueue r.key
    { s' with ou := { s'.ou with pointer := i + 1, refillStop := none } }
  | none => { s with ou := { s.ou with refillStop := some s.refillView } }

/-- REFILL_OPERATION (R135): at the OU's grant, when it has neither an outcome to apply nor a turn. -/
def execRefillOperation (s : State) : Host.Outcome State Fault Refusal :=
  taken (s.grant = some .ou ∧ s.wantsRefill = true) (s.granted .ou).refillOp s

/-- The in-flight note cleared (R138, R139). -/
def State.clearNote (s : State) : State := { s with ou := { s.ou with note := none } }

/-- The record an in-flight note names (R138). -/
def State.flightRecord (s : State) (n : InFlight) : Option Record :=
  match s.table.slots[n.slot] with
  | some r => if r.key = n.key then some r else none
  | none => none

/-- The demand state a completion leads to (R138). -/
def State.completedState (s : State) (n : InFlight) (r : Record) : DemandState :=
  if r.demand = some n.value ∧ s.ou.queued r.key = false then .settled
  else if r.demandState = some .waiting then .waiting
  else .outstanding

/-- The completion operation: applied becomes the value sent, and the demand state is decided (R138). An outcome delivered
before the unit entered LEAVING is applied and touches as R8 says, although the record then reads RETIRING: R137 and R138
leave it out only for a note marked gone, where R6 and R131 keep such a record as it is (log entry 35). -/
def State.completeOp (s : State) (n : InFlight) : State :=
  (match s.flightRecord n with
    | some r => s.setDemandState n.slot { r with applied := some n.value } (s.completedState n r)
    | none => s).clearNote

/-- COMPLETION_OPERATION (R138): at the OU's grant, for a note whose outcome is DONE. -/
def execCompletionOperation (s : State) : Host.Outcome State Fault Refusal :=
  match s.ou.note with
  | some n => taken (s.grant = some .ou ∧ n.outcome = some .done) ((s.granted .ou).completeOp n) s
  | none => .next s

/-- The failure operation: the demand state becomes FAILED (R139), under LEAVING too (log entry 35). -/
def State.failOp (s : State) (n : InFlight) : State :=
  (match s.flightRecord n with
    | some r => s.setDemandState n.slot r .failed
    | none => s).clearNote

/-- FAILURE_OPERATION (R139): at the OU's grant, for a note whose outcome is a failure. -/
def execFailureOperation (s : State) : Host.Outcome State Fault Refusal :=
  match s.ou.note with
  | some n => taken (s.grant = some .ou ∧ n.outcome = some .failed) ((s.granted .ou).failOp n) s
  | none => .next s

end Sys2Proof.Machine
end

