-- ==== Sys2Proof/Machine/Departure.lean ====
section
/-! DEFINITION. The chain state's events (R101), the end of an enrolment context (R122), entry into LEAVING with all
that comes together in it (R61, R86, R122, R124), cascade and owed RELEASEs (R62, R63), and the freeing of an entry
(R57, R64). -/

namespace Sys2Proof.Machine

/-! ### The chain state -/

/-- Give the chain a state: a change raises CHAIN_STATE, and an entry into FORMED or STEADY sets the steady run to 0
(R101, R103). -/
def State.setChain (s : State) (c : ChainState) : State :=
  if s.rcu.chain = c then s
  else
    ({ s with
        rcu := { s.rcu with chain := c, steadyRun := if c = .formed ∨ c = .steady then 0 else s.rcu.steadyRun } } :
      State).raise .chainState

/-- The chain state after a context start (R101). -/
def chainOnStart : ChainState → ChainState
  | .dormant | .formed | .steady => .forming
  | c => c

/-- Notice of a context start (R101). -/
def State.contextStarted (s : State) : State := s.setChain (chainOnStart s.rcu.chain)

/-- Notice of a context end: FORMING goes to FORMED while any talking entry exists, and otherwise to DORMANT (R101). -/
def State.contextEnded (s : State) : State :=
  if s.rcu.chain = .forming then s.setChain (if 0 < s.talkingCount then .formed else .dormant) else s

/-- Notice of a taken announce: the mark is set in every state, and STEADY goes to FORMED (R101). -/
def State.announceTaken (s : State) : State :=
  let s' : State := { s with rcu := { s.rcu with takenAnnounce := true } }
  if s.rcu.chain = .steady then s'.setChain .formed else s'

/-! ### The end of a context -/

/-- The context ends: the EE becomes idle and the Roll Call Unit takes notice (R106, R101). -/
def State.endContext (s : State) : State := ({ s with ee := none } : State).contextEnded

/-- Whether the slot holds a transaction of a requester (R80). -/
def State.slotHeldBy (s : State) (r : Requester) : Bool :=
  match s.line.slot with
  | some t => t.requester = r
  | none => false

/-- An abandoned context ends once the slot holds no transaction of it and it names no PENDING record (R122). -/
def State.settleAbandoned (s : State) : State :=
  match s.ee with
  | some c => if c.abandoned ∧ c.pendingKey = none ∧ s.slotHeldBy .ee = false then s.endContext else s
  | none => s

/-! ### Entry into LEAVING -/

/-- Whether an element of the work list is an item of a handle. -/
def itemOf (h : Fin 8) : WorkEntry → Bool
  | .item it => it.handle = h
  | .mark _ => false

/-- Items of a handle leave the work list, each counted in items_unknown (R124). -/
def State.purgeItems (s : State) (h : Fin 8) : State :=
  ({ s with workList := s.workList.filter fun w => !itemOf h w } : State).countTimes .itemsUnknown
    (s.workList.filter (itemOf h)).length

/-- The transaction of a subject that leaves is withdrawn: one that is not on the line leaves the slot at once, with the
outcome WITHDRAWN, which clears the Output Unit's in-flight note; one on the line runs to its answer or deadline
(R86, R137). -/
def State.withdraw (s : State) (h : Fin 8) : State :=
  match s.line.slot with
  | some t =>
    if t.subject = some h then
      if t.attempt = .held then
        { s with
          line := { s.line with slot := none }
          ou := if t.requester = .ou then { s.ou with note := none } else s.ou }
      else { s with line := { s.line with slot := some { t with withdrawn := true } } }
    else s
  | none => s

/-- The context of a unit that leaves is abandoned; its classification stays in hand only while it names a PENDING
record (R122, R51). -/
def Context.abandon (c : Context) : Context :=
  { c with abandoned := true, classification := if c.pendingKey.isSome then c.classification else none }

/-- The context is abandoned if it is for the handle. -/
def State.abandon (s : State) (h : Fin 8) : State :=
  match s.ee with
  | some c => if c.handle = h then { s with ee := some c.abandon } else s
  | none => s

/-- The entry becomes FREE with every field at its FREE value, and UNIT_LEFT is raised with its left bit (R64). -/
def State.freeEntry (s : State) (h : Fin 8) : State := (s.setEntry h Entry.empty).raiseLeft h

/-- A LEAVING entry whose record count and charge are both 0 becomes FREE (R64). -/
def State.freeIfDrained (s : State) (h : Fin 8) : State :=
  let e := s.entry h
  if e.state = .leaving ∧ e.recordCount = 0 ∧ e.charge = 0 then s.freeEntry h else s

/-- The circuits that feed an ACTIVE or HELD record of a unit (R14). -/
def State.circuitsOf (s : State) (h : Fin 8) : List (Fin 8) :=
  all8.filter fun k =>
    s.records.any fun p => p.2.key.handle = h && p.2.feed = .circuit k && p.2.state ≠ .pending

/-- A directory entry as it stands in LEAVING: no position, no credit, an empty pending set, and the rest kept (R61). -/
def Entry.leave (e : Entry) : Entry :=
  { e with state := .leaving, position := none, credit := 0, pendingSet := 0, misplaced := 0 }

/-- The directory after an entry leaves: a reseat in hand for it is dropped (R61). -/
def Directory.leave (d : Directory) (h : Fin 8) : Directory :=
  { d with
    entries := d.entries.set h d.entries[h].leave
    reseat := match d.reseat with | some r => if r.handle = h then none else some r | none => none }

/-- One entry enters LEAVING, with the effects of R61 (also R86, R122, R124), and becomes FREE in the same event when it
has nothing to drain (R64). An entry that is FREE or LEAVING is not affected. The end of its context is judged once
the event's entries have all left. -/
def State.leaveOne (s : State) (h : Fin 8) : State :=
  if (s.entry h).state = .free ∨ (s.entry h).state = .leaving then s
  else
    let circuits := s.circuitsOf h
    let s1 : State :=
      { s with
        dir := s.dir.leave h
        ou := { s.ou with queue := s.ou.queue.filter fun k => k.handle ≠ h } }
    (circuits.foldl State.notice (((s1.withdraw h).abandon h).purgeItems h)).freeIfDrained h

/-- The entries behind a departing entry's position that leave with it by cascade, DECLARED ones included (R62). -/
def State.behind (s : State) (h : Fin 8) : List (Fin 8) :=
  match (s.entry h).position with
  | none => []
  | some p =>
    all8.filter fun g =>
      (s.entry g).state ≠ .free && (s.entry g).state ≠ .leaving &&
        match (s.entry g).position with
        | some q => p < q
        | none => false

/-- The departing entry and, for a talking one, those that cascade with it (R62). -/
def State.departing (s : State) (h : Fin 8) : List (Fin 8) :=
  if (s.entry h).state.onChain then h :: (s.behind h).filter (fun g => g ≠ h) else [h]

/-- The positions of the talking entries among some handles, rearmost first (R63). -/
def State.owedPositions (s : State) (hs : List (Fin 8)) : List Nat :=
  [6, 5, 4, 3, 2, 1].filter fun p =>
    hs.any fun h => (s.entry h).state.onChain && (s.entry h).position = some p

/-- The release list with positions appended that are not yet on it (R63). -/
def oweRelease (l ps : List Nat) : List Nat := l ++ ps.filter fun p => !l.contains p

/-- Positions become owed a RELEASE (R63). -/
def State.owe (s : State) (ps : List Nat) : State :=
  { s with dir := { s.dir with releaseList := oweRelease s.dir.releaseList ps } }

/-- A departure: the entry, and with `cascade` those behind it, enter LEAVING in one event; with `release` the
positions of the talking ones are owed (R61, R62, R63). -/
def State.depart (s : State) (h : Fin 8) (cascade release : Bool) : State :=
  let hs := if cascade then s.departing h else [h]
  let owed := if release then s.owedPositions hs else []
  ((hs.foldl State.leaveOne s).owe owed).settleAbandoned

/-- A JOINING entry becomes FREE directly when its ASSIGN fails or is declined: no UNIT_LEFT, its items leave the work
list, and its context ends (R57, R109, R124). -/
def State.freeJoining (s : State) (h : Fin 8) : State :=
  ((s.setEntry h Entry.empty).purgeItems h).endContext

end Sys2Proof.Machine
end

