-- ==== Sys2Proof/Machine/Engine.lean ====
section
/-! DEFINITION. The Transaction Engine: who waits for a turn (R81), the request each requester hands over (R80, R109,
R111, R116, R118, R63, R65), the sending of an attempt (R82, R83), the steps an ended transaction leads to in the
Enrolment Engine (R109 to R119), the Output Unit (R137) and the Unit Directory (R63, R65), and classification
(R43 to R46). -/

namespace Sys2Proof.Machine

/-! ### Sending -/

/-- The cycle end, one period after the cycle start (R90). -/
def State.cycleEnd (s : State) : Nat := s.rcu.cycleStart + s.rcu.period * 1000

/-- The end of the ROLL that opened the cycle, 0.36 ms after the cycle start (R75, R90). -/
def State.rollEnd (s : State) : Nat := s.rcu.cycleStart + frameTime 2

/-- The head sends a frame from a moment on. It does not receive while it transmits, so a frame being received is lost,
uncounted (R67). -/
def State.transmit (s : State) (f : HeadFrame) (start : Nat) : State :=
  { s with
    line :=
      { s.line with
        reception := none
        txEnd := start + frameTime f.payload.length
        lineOut := s.line.lineOut ++ [f.bytes s.line.txInverted] } }

/-- The list of frames sent, emptied at the start of a step that may send (log entry 7). -/
def State.clearOut (s : State) : State := { s with line := { s.line with lineOut := [] } }

/-- Whether an attempt of a request with payload length n may be sent from a moment: the cycle is in its transaction
phase and the span, frame time plus answer timeout, ends before the guard, 2 ms before the cycle end (R82). -/
def State.spanFits (s : State) (n start : Nat) : Bool :=
  s.rcu.phaseOpen && start + frameTime n + s.answerTimeout + 2000 < s.cycleEnd

/-- The transaction in the slot is sent, as its next attempt, if its span fits, and is otherwise held (R82, R83); a
sending after the first counts in retries (R84). The attempt keeps the answer timeout it was sent under (R84; log
entry 19). -/
def State.trySend (s : State) : State :=
  match s.line.slot with
  | none => s
  | some t =>
    let start := max s.now s.line.txEnd
    let n := t.request.payload.length
    if s.spanFits n start then
      let s' := s.transmit t.request start
      let s'' : State :=
        { s' with
          line :=
            { s'.line with
              slot := some { t with attempts := t.attempts + 1, attempt := .sending (start + frameTime n) s.answerTimeout } } }
      if 0 < t.attempts then s''.count .retries else s''
    else { s with line := { s.line with slot := some { t with attempt := .held } } }

/-! ### Who waits, and what each hands over -/

/-- The context's next step is a transaction (R81, R106). -/
def Context.wantsTurn (c : Context) : Bool :=
  !c.abandoned &&
    match c.phase with
    | .assigning => true
    | .reading => c.index.isSome && c.classification.isNone
    | .fetching => c.pendingKey.isSome
    | .concluding => c.pendingKey.isNone && c.verdict.isSome

/-- Whether a requester waits for a turn (R81, R136). -/
def State.turnWanted (s : State) : Requester → Bool
  | .ee => match s.ee with | some c => c.wantsTurn | none => false
  | .ou => s.ou.queue ≠ [] && s.ou.note.isNone
  | .ud => s.dir.releaseList ≠ [] || match s.dir.reseat with | some r => !r.sent | none => false

/-- The rotation from the requester after the pointer round to the pointer's own (R80). -/
def Requester.after : Requester → List Requester
  | .ee => [.ou, .ud, .ee]
  | .ou => [.ud, .ee, .ou]
  | .ud => [.ee, .ou, .ud]

/-- The requester whose turn it is, if any waits (R81). -/
def State.nextTurn (s : State) : Option Requester := (s.line.turn.after).find? s.turnWanted

/-- The position of a unit for a frame's position field. -/
def State.positionOf (s : State) (h : Fin 8) : Nat := (s.entry h).position.getD 0

/-- The payload of an ASSIGN: new position, handle, UID (R184). -/
def State.assignPayload (s : State) (h : Fin 8) (q : Nat) : List Byte :=
  byte q :: byte h.val :: uidBytes ((s.entry h).uid.getD 0)

/-- The payload of a VERDICT: index, outcome, report interval or reason (R118, R184). -/
def Verdict.payload (v : Verdict) (i : BitVec 6) : List Byte :=
  match v with
  | .accepted n => [i.zeroExtend 8, 0, byte n]
  | .held n => [i.zeroExtend 8, 1, byte n]
  | .refused r => [i.zeroExtend 8, 2, r.code]

/-- The request frame of the context's next transaction (R109, R111, R116, R118). -/
def State.contextFrame (s : State) (c : Context) : HeadFrame :=
  let p := s.positionOf c.handle
  let i := c.index.getD 0
  match c.phase with
  | .assigning => ⟨.assign, p, s.assignPayload c.handle p⟩
  | .reading => ⟨.descq, p, [i.zeroExtend 8]⟩
  | .fetching => ⟨.extq, p, [i.zeroExtend 8, byte c.nextSegment]⟩
  | .concluding => ⟨.verdict, p, (c.verdict.getD (.accepted 0)).payload i⟩

/-- A transaction newly placed in the slot, with attempt count 0 (R80, R81). -/
def newTransaction (r : Requester) (f : HeadFrame) (answer : Nat) (subject : Option (Fin 8)) : Transaction :=
  ⟨r, f, answer, subject, 0, .held, false⟩

/-- Place a transaction in the slot. -/
def State.occupy (s : State) (t : Transaction) : State := { s with line := { s.line with slot := some t } }

/-- The EE's turn: the request of its context's next step (R81). -/
def State.startEe (s : State) : State :=
  match s.ee with
  | some c =>
    let f := s.contextFrame c
    (s.occupy (newTransaction .ee f f.position (some c.handle))).trySend
  | none => s

/-- The OU's turn: the engine holds it until the send operation hands over the frame (R136). -/
def State.startOu (s : State) : State := { s with line := { s.line with ouTurn := true } }

/-- The UD's turn: a RELEASE to the head of the release list, and otherwise the reseat ASSIGN in hand (R63, R65, R81). -/
def State.startUd (s : State) : State :=
  match s.dir.releaseList with
  | p :: _ => (s.occupy (newTransaction .ud ⟨.release, p, []⟩ p none)).trySend
  | [] =>
    match s.dir.reseat with
    | some r =>
      let f : HeadFrame := ⟨.assign, r.fromPosition, s.assignPayload r.handle r.toPosition⟩
      let s' : State := { s with dir := { s.dir with reseat := some { r with sent := true } } }
      (s'.occupy (newTransaction .ud f r.toPosition (some r.handle))).trySend
    | none => s

/-! ### Classification -/

/-- Whether a descriptor's class and flags match filter f (R43). -/
def State.filterMatches (s : State) (f : Fin 8) (cls : BitVec 6) (flags : DescFlags) : Bool :=
  let clsMask := BitVec.ofNat 6 (s.filterField f 2)
  let flagMask := BitVec.ofNat 4 (s.filterField f 4)
  s.filterField f 0 = 1 && cls &&& clsMask = BitVec.ofNat 6 (s.filterField f 1) &&& clsMask &&
    flags &&& flagMask = BitVec.ofNat 4 (s.filterField f 3) &&& flagMask

/-- The classification of a descriptor by the filters, the default policy and the interval floor as they stand
(R44, R45, R46). -/
def State.classify (s : State) (cls : BitVec 6) (flags : DescFlags) : Classification :=
  match all8.filter fun f => s.filterMatches f cls flags with
  | [] => ⟨policyOf (s.setting 14), max (s.setting 15) 16, true⟩
  | f :: fs =>
    ⟨policyOf ((fs.map fun g => s.filterField g 5).foldl max (s.filterField f 5)),
      max (s.setting 15) ((fs.map fun g => s.filterField g 6).foldl min (s.filterField f 6)),
      (f :: fs).any fun g => s.filterField g 7 = 1⟩

/-! ### The steps of a context -/

/-- Give the EE a context. -/
def State.withContext (s : State) (c : Context) : State := { s with ee := some c }

/-- A new context: everything but handle, phase and index absent or clear (R107, R108). -/
def newContext (h : Fin 8) (phase : Phase) (index : Option (BitVec 6)) : Context where
  handle := h
  phase := phase
  index := index
  descriptor := none
  classification := none
  pendingKey := none
  held := []
  withheld := false
  nextSegment := 0
  verdict := none
  abandoned := false

/-- The EE takes a context and the Roll Call Unit takes notice (R107, R108). -/
def State.startContext (s : State) (c : Context) : State := (s.withContext c).contextStarted

/-- UNIT_JOINED for a handle, with its join bit, its joined mark and the confirmation flash (R58). -/
def State.joinUnit (s : State) (h : Fin 8) : State :=
  ((s.setEntry h { s.entry h with joined := true }).raiseJoined h).startFlash

/-- What happens in the event that empties the pending set of an ENROLLING or LIVE entry: the entry is LIVE, and a unit
whose joined mark is off joins (R58). -/
def State.pendingEmptied (s : State) (h : Fin 8) : State :=
  let e := s.entry h
  if e.state = .enrolling ∨ e.state = .live then
    let s' := s.setEntry h { e with state := .live }
    if e.joined then s' else s'.joinUnit h
  else s

/-- The context ends because its unit's pending set is empty (R119, R58). -/
def State.completeContext (s : State) (h : Fin 8) : State := (s.pendingEmptied h).endContext

/-- The context takes the lowest pending index into READING, its per-descriptor fields cleared, or ends when the pending
set is empty (R110, R119). -/
def State.nextDescriptor (s : State) : State :=
  match s.ee with
  | none => s
  | some c =>
    match lowestIndex (s.entry c.handle).pendingSet with
    | some i => s.withContext (newContext c.handle .reading (some i))
    | none => s.completeContext c.handle

/-- An index leaves the pending set of the context's unit. -/
def State.dropIndex (s : State) (c : Context) : State :=
  match c.index with
  | none => s
  | some i =>
    let e := s.entry c.handle
    s.setEntry c.handle { e with pendingSet := withoutIndex e.pendingSet i }

/-- The descriptor in hand is finished with: its index leaves the pending set and the EE takes its next (R110, R118). -/
def State.finishDescriptor (s : State) (c : Context) : State := (s.dropIndex c).nextDescriptor

/-- The descriptor a DESC payload gives for the index in hand, none when it is out of range; current and extension
length are clamped (R112, R184). -/
def readDescriptor (index : BitVec 6) (payload : List Byte) : Option Descriptor :=
  match payload with
  | [i, c, n, fl, fd, m1, m0, x1, x0] =>
    if i.toNat = index.toNat ∧ c.toNat < 64 ∧ n.toNat < 128 ∧ fl.toNat < 16 then
      (Feed.ofCode fd).map fun feed =>
        ⟨c.truncate 6, n.truncate 7, fl.truncate 4, feed, min 1023 (ofBytes m1 m0).toNat,
          min 256 (ofBytes x1 x0).toNat⟩
    else none
  | _ => none

/-- The unit's enrolment fails: it departs with cascade and owed RELEASEs, and its context ends with it (R113). -/
def State.enrolmentFailure (s : State) (c : Context) : State := s.depart c.handle true true

/-- A descriptor in range is classified: REFUSE counts in descriptors_refused and readies its verdict; any other policy
leaves the EE waiting for its reservation (R114). -/
def State.takeDescriptor (s : State) (c : Context) (d : Descriptor) : State :=
  let cl := s.classify d.cls d.flags
  if cl.policy = .refuse then
    (s.withContext
      { c with descriptor := some d, phase := .concluding, verdict := some (.refused .policy) }).count
        .descriptorsRefused
  else s.withContext { c with descriptor := some d, classification := some cl }

/-- A fetch stops: the withheld note is set and the conclusion operation comes next (R116). -/
def Context.stopFetch (c : Context) : Context := { c with withheld := true, phase := .concluding }

/-- The bytes of a segment that belong to an extension of length n: those beyond it are left out (R35). -/
def segmentBytes (n segment : Nat) (data : List Byte) : List Byte := data.take (min 32 (n - 32 * segment))

/-- A segment written into the held block at its chain position, and the next one asked for, or the conclusion (R116,
R35). -/
def State.takeSegment (s : State) (c : Context) (data : List Byte) : State :=
  let n := match c.descriptor with | some d => d.extLength | none => 0
  let s' : State :=
    { s with store := s.store.writeBytes c.held (32 * c.nextSegment) (segmentBytes n c.nextSegment data) }
  s'.withContext
    { c with
      nextSegment := c.nextSegment + 1
      phase := if c.nextSegment + 1 = c.held.length then .concluding else .fetching }

/-! ### The end of a transaction -/

/-- How a transaction ends (R83 to R86); an answer carries the payload of its DESC, EXTSEG or DONE. -/
inductive Ending where
  | answered (payload : List Byte)
  | declined
  | failed
  | withdrawn
  deriving DecidableEq, Repr

/-- The end of an ASSIGN of the context (R109, R57). -/
def State.assignEnded (s : State) (c : Context) : Ending → State
  | .answered _ =>
    let e := s.entry c.handle
    (s.setEntry c.handle { e with state := .enrolling, pendingSet := firstIndices e.descriptorCount }).nextDescriptor
  | .declined | .failed => s.freeJoining c.handle
  | .withdrawn => s.settleAbandoned

/-- The end of a DESCQ (R111, R112, R113). -/
def State.descqEnded (s : State) (c : Context) : Ending → State
  | .answered payload =>
    match readDescriptor (c.index.getD 0) payload with
    | some d => s.takeDescriptor c d
    | none => s.enrolmentFailure c
  | .declined => s.finishDescriptor c
  | .failed => s.enrolmentFailure c
  | .withdrawn => s.settleAbandoned

/-- The end of an EXTQ (R116); a descriptor given up meanwhile discards the outcome (R121). -/
def State.extqEnded (s : State) (c : Context) (o : Ending) : State :=
  if o = .withdrawn then s.settleAbandoned
  else if c.pendingKey = none then s.nextDescriptor
  else
    match o with
    | .answered (i :: seg :: data) =>
      if i.toNat = (c.index.getD 0).toNat ∧ seg.toNat = c.nextSegment then s.takeSegment c data
      else s.withContext c.stopFetch
    | _ => s.withContext c.stopFetch

/-- The end of a VERDICT: DONE, DECLINED and FAILED alike finish the descriptor (R118). -/
def State.verdictEnded (s : State) (c : Context) : Ending → State
  | .withdrawn => s.settleAbandoned
  | _ => s.finishDescriptor c

/-- An ended transaction of the Enrolment Engine (R109, R111, R116, R118). -/
def State.eeEnded (s : State) (kind : HeadKind) (o : Ending) : State :=
  match s.ee with
  | none => s
  | some c =>
    match kind with
    | .assign => s.assignEnded c o
    | .descq => s.descqEnded c o
    | .extq => s.extqEnded c o
    | _ => s.verdictEnded c o

/-- The in-flight note after its SETPOINT has ended (R137). -/
def InFlight.ended (n : InFlight) : Ending → Option InFlight
  | .answered _ => if n.gone then none else some { n with outcome := some .done }
  | .declined | .failed => if n.gone then none else some { n with outcome := some .failed }
  | .withdrawn => none

/-- An ended SETPOINT (R137). -/
def State.ouEnded (s : State) (o : Ending) : State :=
  { s with ou := { s.ou with note := s.ou.note.bind fun n => n.ended o } }

/-- An ended reseat ASSIGN: DONE moves the entry, which is on the chain while its reseat is in hand, and raises
UNIT_MOVED; failure keeps the position; either sets the streak to 0 and clears the reseat in hand. A withdrawn one finds
its reseat dropped (R65). -/
def State.reseatEnded (s : State) (o : Ending) : State :=
  match s.dir.reseat with
  | none => s
  | some r =>
    let e := s.entry r.handle
    let cleared (e' : Entry) : State :=
      { s with dir := { s.dir with entries := s.dir.entries.set r.handle e', reseat := none } }
    match o with
    | .withdrawn => s
    | .answered _ =>
      if e.state.onChain then (cleared { e with position := some r.toPosition, misplaced := 0 }).raise .unitMoved
      else cleared e
    | _ => cleared { e with misplaced := 0 }

/-- An ended transaction of the Unit Directory: a RELEASE drops the head of the release list however it ended (R63). -/
def State.udEnded (s : State) (kind : HeadKind) (o : Ending) : State :=
  if kind = .release then { s with dir := { s.dir with releaseList := s.dir.releaseList.tail } }
  else s.reseatEnded o

/-- The transaction in the slot ends: the slot empties and its requester is told; one whose subject has left ends
WITHDRAWN, whatever came (R83 to R86). -/
def State.endTransaction (s : State) (t : Transaction) (o : Ending) : State :=
  let s' : State := { s with line := { s.line with slot := none } }
  let o' := if t.withdrawn then .withdrawn else o
  match t.requester with
  | .ee => s'.eeEnded t.request.kind o'
  | .ou => s'.ouEnded o'
  | .ud => s'.udEnded t.request.kind o'

end Sys2Proof.Machine
end

