-- ==== Sys2Proof/Machine/EnrolmentSteps.lean ====
section
/-! DEFINITION. The Enrolment Engine's table operations: RESERVATION_OPERATION (R115) and CONCLUSION_OPERATION (R117). -/

namespace Sys2Proof.Machine

/-- A descriptor refused in the reservation operation: no record, the verdict readied, the classification no longer in
hand (R115). -/
def Context.refuse (c : Context) (reason : RefuseReason) : Context :=
  { c with classification := none, verdict := some (.refused reason), phase := .concluding }

/-- The unit stalls: its entry becomes STALLED, UNIT_STALLED is raised, and the context ends (R18, R60, R115). -/
def State.stallUnit (s : State) (c : Context) : State :=
  ((s.setEntry c.handle { s.entry c.handle with state := .stalled }).raise .unitStalled).endContext

/-- A want of room: insert_overflows counts, and the overflow action decides between SKIP and STALL (R17, R18, R115). -/
def State.overflow (s : State) (c : Context) : State :=
  let s' := s.count .insertOverflows
  if s.stallOnOverflow then s'.stallUnit c else (s'.withContext (c.refuse .noRoom)).raise .tablePressure

/-- Whether n bytes of extension are kept: the unit's charge and the free count allow the blocks they take (R34). -/
def State.drawAllowed (s : State) (h : Fin 8) (n : Nat) : Bool :=
  (s.entry h).charge + blocksFor n ≤ (s.entry h).cap && blocksFor n ≤ s.store.free.length

/-- The draw of a reservation: the top blocks are held by the context, the unit's charge rises and FETCHING begins; an
extension of length 0 or withheld draws nothing, and CONCLUDING begins (R34, R115). -/
def State.drawFor (s : State) (c : Context) (n : Nat) : State :=
  let e := s.entry c.handle
  if n = 0 then s.withContext { c with phase := .concluding }
  else if s.drawAllowed c.handle n then
    ({ (s.setEntry c.handle { e with charge := e.charge + blocksFor n }) with
        store := s.store.draw (blocksFor n) } : State).withContext
      { c with phase := .fetching, held := s.store.free.take (blocksFor n), nextSegment := 0 }
  else s.withContext { c with phase := .concluding, withheld := true }

/-- The reservation operation (R115, R13, R3, R48). -/
def State.reserve (s : State) (c : Context) (d : Descriptor) (cl : Classification) : State :=
  let k : Key := ⟨c.handle, d.cls, d.inst⟩
  match s.place k .enrolled with
  | .duplicate => (s.withContext (c.refuse .duplicate)).count .descriptorsRefused
  | .noRoom => s.overflow c
  | .at_ i =>
    let r := newRecord k .enrolled .pending cl.policy c.index d.flags d.feed (storedNominal d.feed cl.lampCheck d.nominal)
    (s.insertAt i r).drawFor { c with pendingKey := some k } d.extLength

/-- RESERVATION_OPERATION (R115): at the EE's grant, for the descriptor classified. -/
def execReservationOperation (s : State) : Host.Outcome State Fault Refusal :=
  match s.ee with
  | some c =>
    match c.descriptor, c.classification with
    | some d, some cl =>
      taken (s.grant = some .ee ∧ c.wantsReservation = true) ((s.granted .ee).reserve c d cl) s
    | _, _ => .next s
  | none => .next s

/-- The record a conclusion makes of a PENDING one (R117): its state by its policy, its interval with HAS_VALUE, its
extension from the held blocks unless the withheld note is set, and then ext_withheld. -/
def concludedRecord (c : Context) (d : Descriptor) (cl : Classification) (r : Record) : Record :=
  { r with
    state := if r.policy = .hold then .held else .active
    interval := if hasValue r.flags then some cl.interval else none
    extension := if c.withheld = false ∧ c.held ≠ [] then some ⟨d.extLength, c.held⟩ else r.extension
    extWithheld := c.withheld }

/-- The blocks and charge of a conclusion: with the withheld note set, the held blocks return (R36, R117). -/
def State.returnHeld (s : State) (c : Context) : State :=
  if c.withheld then
    let e := s.entry c.handle
    { (s.setEntry c.handle { e with charge := e.charge - c.held.length }) with store := s.store.giveBack c.held }
  else s

/-- The context after its conclusion: no PENDING record, no blocks, no classification in hand, and its verdict (R117). -/
def concludedContext (c : Context) (cl : Classification) (st : RecordState) : Context :=
  { c with
    pendingKey := none
    held := []
    classification := none
    verdict := some (if st = .held then .held cl.interval else .accepted cl.interval) }

/-- The conclusion operation (R117, R8, R14, R37). -/
def State.conclude (s : State) (c : Context) (d : Descriptor) (cl : Classification) (i : Fin 256) (r : Record) : State :=
  let r' := concludedRecord c d cl r
  let s1 := ((s.returnHeld c).putRecord i r' true).withContext (concludedContext c cl r'.state)
  let s2 := if r'.state = .held then s1.raise .recordHeld else s1
  let s3 := if c.withheld then s2.count .extensionsWithheld else s2
  s3.noticeFeed r.feed

/-- CONCLUSION_OPERATION (R117): at the EE's grant, for the PENDING record its context names. -/
def execConclusionOperation (s : State) : Host.Outcome State Fault Refusal :=
  match s.ee with
  | some c =>
    match c.descriptor, c.classification, c.pendingKey.bind s.find with
    | some d, some cl, some (i, r) =>
      taken (s.grant = some .ee ∧ c.wantsConclusion = true) ((s.granted .ee).conclude c d cl i r) s
    | _, _, _ => .next s
  | none => .next s

end Sys2Proof.Machine
end

