-- ==== Sys2Proof/Machine/EventRequests.lean ====
section
/-! DEFINITION. The port, event and counter requests: READ_POSTED_FAULT (R167), IDENTIFY (R168), READ_EVENTS (R176),
CLEAR_EVENTS (R175), WRITE_ENABLES (R174), SNAPSHOT_COUNTERS and READ_COUNTERS (R178). They take no table operation. -/

namespace Sys2Proof.Machine

/-- The seven bytes of the posted-fault holding record (R185). -/
def HostPort.faultBytes (p : HostPort) : List Byte :=
  match p.fault with
  | none => [0, 0, 0, 0, 0, 0, 0]
  | some f =>
    [1, f.kind] ++ optionBytes 2 (f.subject.map wordBytes) ++ [f.reason.code, boolByte p.overrun]

/-- The holding record emptied and its overrun flag cleared (R167). -/
def State.emptyFault (s : State) : State := { s with port := { s.port with fault := none, overrun := false } }

/-- READ_POSTED_FAULT (R167). -/
def execReadPostedFault (s : State) : Host.Outcome State Fault Refusal :=
  taken (s.carriesOut .readPostedFault) (s.emptyFault.respond .readPostedFault .ok s.port.faultBytes) s

/-- The payload of IDENTIFY: part code, silicon revision, load outcome (R168, R185). -/
def State.identityBytes (s : State) : List Byte :=
  wordBytes Config.partCode ++ [Config.siliconRevision, boolByte s.loader.fromImage]

/-- IDENTIFY (R168). -/
def execIdentify (s : State) : Host.Outcome State Fault Refusal :=
  taken (s.carriesOut .identify) (s.respond .identify .ok s.identityBytes) s

/-- The payload of READ_EVENTS: the flags, the enables, and the join, left and circuit detail masks (R176, R185). -/
def EventUnit.bytes (e : EventUnit) : List Byte :=
  wordBytes (e.flags.zeroExtend 16) ++ wordBytes (e.enables.zeroExtend 16) ++ [e.joinMask, e.leftMask, e.circuitMask]

/-- READ_EVENTS (R176). -/
def execReadEvents (s : State) : Host.Outcome State Fault Refusal :=
  taken (s.carriesOut .readEvents) (s.respond .readEvents .ok s.events.bytes) s

/-- CLEAR_EVENTS (R175); bits 13 to 15 of the mask are ignored (R185). -/
def execClearEvents (mask : Word) (s : State) : Host.Outcome State Fault Refusal :=
  let q := Request.clearEvents mask
  taken (s.carriesOut q) (({ s with events := s.events.clear (mask.truncate 13) } : State).respond q .ok []) s

/-- WRITE_ENABLES (R174); bits 13 to 15 of the mask are ignored (R185). -/
def execWriteEnables (mask : Word) (s : State) : Host.Outcome State Fault Refusal :=
  let q := Request.writeEnables mask
  taken (s.carriesOut q)
    (({ s with events := { s.events with enables := mask.truncate 13 } } : State).respond q .ok []) s

/-- The counters after a snapshot, the live ones zeroed with the clear switch on (R178). -/
def CounterBank.snap (b : CounterBank) (clear : Bool) : CounterBank where
  snapshot := b.live
  live := if clear then Vector.replicate 13 0 else b.live

/-- SNAPSHOT_COUNTERS (R178); a switch byte above 1 is answered RANGE (R185). -/
def execSnapshotCounters (clear : Byte) (s : State) : Host.Outcome State Fault Refusal :=
  let q := Request.snapshotCounters clear
  taken (s.carriesOut q)
    (if 1 < clear.toNat then s.answer q .range
     else ({ s with counters := s.counters.snap (clear = 1) } : State).respond q .ok []) s

/-- The payload of READ_COUNTERS: the thirteen snapshot counters and the count mode in force (R178). -/
def State.counterBytes (s : State) : List Byte :=
  (s.counters.snapshot.toList.map wordBytes).flatten ++ [byte (s.setting 20)]

/-- READ_COUNTERS (R178). -/
def execReadCounters (s : State) : Host.Outcome State Fault Refusal :=
  taken (s.carriesOut .readCounters) (s.respond .readCounters .ok s.counterBytes) s

end Sys2Proof.Machine
end

