-- ==== Sys2Proof/Machine/RecordRequests.lean ====
section
/-! DEFINITION. The record requests (1.9): LOOKUP, READ_RECORD, FIND_NEXT, ADMIT, RETIRE and DECLARE_RECORD. -/

namespace Sys2Proof.Machine

/-! ### Response payloads -/

/-- The condition flags of a record, bits 0 fault to 4 touched (R185). -/
def conditionByte (r : Record) : Byte :=
  let bit (b : Bool) (i : Nat) : Byte := if b then bitMask 8 i else 0
  bit r.fault 0 ||| bit r.suspect 1 ||| bit r.stale 2 ||| bit r.extWithheld 3 ||| bit r.touched 4

/-- The six bytes of LOOKUP after the slot: state, origin, policy, feed, descriptor flags, condition flags (R24,
R185). -/
def State.lookupBytes (s : State) (r : Record) : List Byte :=
  [s.reportedState r, r.origin.code, r.policy.code, r.feed.code, r.flags.zeroExtend 8, conditionByte r]

/-- The length of a record's extension, 0 when absent (R25). -/
def Record.extLength (r : Record) : Nat := match r.extension with | some x => x.length | none => 0

/-- The chain of a record's extension, empty when absent. -/
def Record.chain (r : Record) : List (Fin 512) := match r.extension with | some x => x.chain | none => []

/-- The 27 bytes of a READ_RECORD response (R25, R185). -/
def State.recordBytes (s : State) (i : Fin 256) (r : Record) : List Byte :=
  [byte i.val] ++ wordBytes r.key.packed ++
    [s.reportedState r, r.origin.code, r.policy.code,
      match r.descIndex with | some d => d.zeroExtend 8 | none => 0xFF,
      r.flags.zeroExtend 8, r.feed.code] ++
    wordBytes (word r.nominal) ++ [byte (r.interval.getD 0)] ++
    optionBytes 2 (r.value.map wordBytes) ++ [if r.value.isSome then byte r.age else 0] ++
    optionBytes 2 (r.demand.map wordBytes) ++ optionBytes 2 (r.applied.map wordBytes) ++
    [match r.demandState with | some d => d.code | none => 0xFF, conditionByte r] ++
    wordBytes (word r.extLength) ++ [byte r.chain.length]

/-! ### LOOKUP, READ_RECORD, FIND_NEXT -/

/-- LOOKUP's operation (R24). -/
def State.lookupOp (s : State) (key : Word) : State :=
  match s.find (Key.ofPacked key) with
  | some (i, r) => s.respond (.lookup key) .ok (byte i.val :: s.lookupBytes r)
  | none => s.answer (.lookup key) .notFound

/-- LOOKUP (R24): at the Host Port's grant. -/
def execLookup (key : Word) (s : State) : Host.Outcome State Fault Refusal :=
  taken (s.granting (.lookup key)) ((s.granted .hp).lookupOp key) s

/-- READ_RECORD's operation: the fields are copied, and then touched is cleared (R25, R9). -/
def State.readRecordOp (s : State) (key : Word) : State :=
  match s.find (Key.ofPacked key) with
  | some (i, r) =>
    (s.setSlot i (some { r with touched := false })).respond (.readRecord key) .ok (s.recordBytes i r)
  | none => s.answer (.readRecord key) .notFound

/-- READ_RECORD (R25): at the Host Port's grant. -/
def execReadRecord (key : Word) (s : State) : Host.Outcome State Fault Refusal :=
  taken (s.granting (.readRecord key)) ((s.granted .hp).readRecordOp key) s

/-- Whether a record meets the tests of FIND_NEXT; `sel` is a handle, or none for ALL (R26, R185). -/
def findMatches (sel : Option (Fin 8)) (classValue classMask touchedOnly : Byte) (r : Record) : Bool :=
  (match sel with | some h => r.key.handle = h | none => true) &&
    r.key.cls &&& classMask.truncate 6 = classValue.truncate 6 &&& classMask.truncate 6 &&
    (touchedOnly = 0 || r.touched)

/-- FIND_NEXT's scan from the cursor (R26). -/
def State.findNextOp (s : State) (q : Request) (cursor : Byte) (sel : Option (Fin 8))
    (classValue classMask touchedOnly : Byte) : State :=
  match s.records.find? fun p => cursor.toNat ≤ p.1.val && findMatches sel classValue classMask touchedOnly p.2 with
  | some (i, r) => s.respond q .ok (byte i.val :: wordBytes r.key.packed ++ s.lookupBytes r)
  | none => s.answer q .end_

/-- The selector of FIND_NEXT: a handle, ALL as `some none`, or neither (R26, R185). -/
def selectorOf (b : Byte) : Option (Option (Fin 8)) :=
  if b = 0xFF then some none else (handleOf b).map some

/-- FIND_NEXT (R26): a touched-only byte above 1 or a selector that names neither a handle nor ALL is answered RANGE. -/
def execFindNext (cursor handleSel classValue classMask touchedOnly : Byte) (s : State) :
    Host.Outcome State Fault Refusal :=
  let q := Request.findNext cursor handleSel classValue classMask touchedOnly
  let s' := s.granted .hp
  taken (s.granting q)
    (if 1 < touchedOnly.toNat then s'.answer q .range
     else
      match selectorOf handleSel with
      | some sel => s'.findNextOp q cursor sel classValue classMask touchedOnly
      | none => s'.answer q .range) s

/-! ### ADMIT, RETIRE -/

/-- ADMIT's operation (R27). -/
def State.admitOp (s : State) (key : Word) : State :=
  match s.find (Key.ofPacked key) with
  | none => s.answer (.admitRecord key) .notFound
  | some (i, r) =>
    if s.leaving r.key.handle then s.answer (.admitRecord key) .retiring
    else if r.state ≠ .held then s.answer (.admitRecord key) .wrongState
    else (s.putRecord i { r with state := .active } true).respond (.admitRecord key) .ok []

/-- ADMIT (R27): at the Host Port's grant. -/
def execAdmitRecord (key : Word) (s : State) : Host.Outcome State Fault Refusal :=
  taken (s.granting (.admitRecord key)) ((s.granted .hp).admitOp key) s

/-- RETIRE's operation (R28, R15). -/
def State.retireOp (s : State) (key : Word) : State :=
  match s.find (Key.ofPacked key) with
  | none => s.answer (.retire key) .notFound
  | some (i, r) =>
    if s.leaving r.key.handle then s.answer (.retire key) .retiring
    else if r.state = .pending then s.answer (.retire key) .wrongState
    else (s.removeRecord i r).respond (.retire key) .ok []

/-- RETIRE (R28): at the Host Port's grant. -/
def execRetire (key : Word) (s : State) : Host.Outcome State Fault Refusal :=
  taken (s.granting (.retire key)) ((s.granted .hp).retireOp key) s

/-! ### DECLARE_RECORD -/

/-- DECLARE_RECORD's operation once its bytes have been found in range (R29, R3, R13, R14). -/
def State.declareRecordOp (s : State) (q : Request) (k : Key) (feed : Feed) (nominal : Nat) (flags : DescFlags) :
    State :=
  if (s.entry k.handle).state ≠ .declared then s.answer q .wrongState
  else
    match s.place k .declared with
    | .duplicate => s.answer q .exists_
    | .noRoom => s.answer q .full
    | .at_ i =>
      let r := newRecord k .declared .active .enrol none flags feed (storedNominal feed true nominal)
      ((s.insertAt i r).noticeFeed feed).respond q .ok [byte i.val]

/-- DECLARE_RECORD (R29): first the RANGE checks of its bytes and of R29, then the operation. -/
def execDeclareRecord (handle cls inst feed : Byte) (nominal : Word) (flags : Byte) (s : State) :
    Host.Outcome State Fault Refusal :=
  let q := Request.declareRecord handle cls inst feed nominal flags
  let s' := s.granted .hp
  taken (s.granting q)
    (match handleOf handle, Feed.ofCode feed with
      | some h, some f =>
        if 64 ≤ cls.toNat ∨ 128 ≤ inst.toNat ∨ 16 ≤ flags.toNat ∨ hasSwitchable (flags.truncate 4) = true ∨
            hasValue (flags.truncate 4) = true then s'.answer q .range
        else s'.declareRecordOp q ⟨h, cls.truncate 6, inst.truncate 7⟩ f nominal.toNat (flags.truncate 4)
      | _, _ => s'.answer q .range) s

end Sys2Proof.Machine
end

