-- ==== Sys2Proof/Machine/ExtensionRequests.lean ====
section
/-! DEFINITION. The extension requests (2.5): READ_EXTENSION, and WRITE_EXTENSION as a first part and as a later part. -/

namespace Sys2Proof.Machine

/-- READ_EXTENSION's operation (R39): the count is the smaller of the length asked and the bytes left. -/
def State.readExtensionOp (s : State) (q : Request) (key : Word) (offset length : Nat) : State :=
  match s.find (Key.ofPacked key) with
  | none => s.answer q .notFound
  | some (_, r) =>
    if length = 0 ∨ 32 < length then s.answer q .range
    else if r.extLength ≤ offset then s.answer q .range
    else
      let count := min length (r.extLength - offset)
      s.respond q .ok (s.reportedState r :: byte count :: s.store.readBytes r.chain offset count)

/-- READ_EXTENSION (R39): at the Host Port's grant. -/
def execReadExtension (key : Word) (offset length : Byte) (s : State) : Host.Outcome State Fault Refusal :=
  let q := Request.readExtension key offset length
  taken (s.granting q) ((s.granted .hp).readExtensionOp q key offset.toNat length.toNat) s

/-- The checks common to every part of a WRITE_EXTENSION, in order (R40); a first-part byte above 1 comes before them
(R185). -/
def State.writeChecks (s : State) (key : Word) (first : Byte) : Except Result (Fin 256 × Record) :=
  if 1 < first.toNat then .error .range
  else
    match s.find (Key.ofPacked key) with
    | none => .error .notFound
    | some (i, r) =>
      if s.leaving r.key.handle then .error .retiring
      else if r.origin = .enrolled then .error .wrongState
      else .ok (i, r)

/-- The record in a slot with another extension, its unit with another charge, and the store with other contents. -/
def State.setExtension (s : State) (i : Fin 256) (r : Record) (x : Option Extension) (charge : Nat) (st : Store) :
    State :=
  { ((s.setSlot i (some { r with extension := x })).setEntry r.key.handle
      { s.entry r.key.handle with charge := charge }) with store := st }

/-- The replacement of a record's extension by a first part of total length n (R40): the old chain returns, and n bytes
are drawn whole, left absent for n = 0, or refused with STORE_FULL. -/
def State.replaceExtension (s : State) (q : Request) (i : Fin 256) (r : Record) (n : Nat) (data : List Byte) : State :=
  let e := s.entry r.key.handle
  let st := s.store.giveBack r.chain
  let charge := e.charge - r.chain.length
  let need := blocksFor n
  if n = 0 then (s.setExtension i r none charge st).respond q .ok []
  else if charge + need ≤ e.cap ∧ need ≤ st.free.length then
    let chain := st.free.take need
    (s.setExtension i r (some ⟨n, chain⟩) (charge + need) ((st.draw need).writeBytes chain 0 data)).respond q .ok []
  else (s.setExtension i r none charge st).respond q .storeFull []

/-- WRITE_EXTENSION_FIRST_PART (R40): WRITE_EXTENSION whose first-part byte has bit 0 set. -/
def execWriteExtensionFirstPart (key : Word) (first : Byte) (total : Word) (part : Byte) (data : List Byte) (s : State) :
    Host.Outcome State Fault Refusal :=
  let q := Request.writeExtension key first total part data
  let s' := s.granted .hp
  taken (s.granting q ∧ first.getLsbD 0 = true)
    (match s'.writeChecks key first with
      | .error e => s'.answer q e
      | .ok (i, r) =>
        if 256 < total.toNat ∨ part ≠ 0 ∨ min 32 total.toNat < data.length then s'.answer q .range
        else s'.replaceExtension q i r total.toNat data) s

/-- WRITE_EXTENSION_PART (R41): WRITE_EXTENSION whose first-part byte has bit 0 clear; it writes into the extension that
is present. -/
def execWriteExtensionPart (key : Word) (first : Byte) (total : Word) (part : Byte) (data : List Byte) (s : State) :
    Host.Outcome State Fault Refusal :=
  let q := Request.writeExtension key first total part data
  let s' := s.granted .hp
  taken (s.granting q ∧ first.getLsbD 0 = false)
    (match s'.writeChecks key first with
      | .error e => s'.answer q e
      | .ok (_, r) =>
        if r.extension = none ∨ data.length = 0 ∨ 32 < data.length ∨
            r.extLength < part.toNat * 32 + data.length then s'.answer q .range
        else
          ({ s' with store := s'.store.writeBytes r.chain (part.toNat * 32) data } : State).respond q .ok []) s

end Sys2Proof.Machine
end

