-- ==== Sys2Proof/Machine/HostTransfers.lean ====
section
/-! DEFINITION. The host port's transfers: STATUS_POLL (R156), SUBMIT (R160), FETCH (R164) and FIRST_BYTE_CLOCKED
(R156, R158, R159, R164). -/

namespace Sys2Proof.Machine

/-- STATUS_POLL (R156, R159): a poll ends after `bytes` whole bytes. One that ends before its first byte is clocked
shifts out no whole byte and leaves the discarded mark. -/
def execStatusPoll (moment bytes : Nat) (s : State) : Host.Outcome State Fault Refusal :=
  let s' := s.advance moment
  if s.port.transfer = none ∧ bytes = 0 then .next s'.endUnclocked
  else
    match s'.atTransferEnd 0 with
    | some (t, s'') => .next (s''.closeTransfer t (List.replicate (bytes - 1) 0))
    | none => .next s

/-- SUBMIT (R160): a submit ends and its frame is judged on the port's state then. -/
def execSubmit (moment : Nat) (frame : List Byte) (s : State) : Host.Outcome State Fault Refusal :=
  match (s.advance moment).atTransferEnd submitMarker with
  | some (t, s') => .next ((s'.closeTransfer t (List.replicate frame.length 0)).judgeSubmit frame)
  | none => .next s

/-- FETCH (R164): a fetch ends after `bytes` bytes past the marker. -/
def execFetch (moment bytes : Nat) (s : State) : Host.Outcome State Fault Refusal :=
  match (s.advance moment).atTransferEnd fetchMarker with
  | some (t, s') => .next (s'.endFetch t bytes)
  | none => .next s

/-- FIRST_BYTE_CLOCKED (R156, R158, R159, R164): HCS_N falls, or the first byte that the fall began has been clocked;
neither is due while a transfer has its first byte behind it, nor a second fall within one transfer. -/
def execFirstByteClocked (moment : Nat) (byte : Option Byte) (s : State) : Host.Outcome State Fault Refusal :=
  match byte with
  | none => taken (s.port.transfer = none ∧ s.port.fallen = none) (s.advance moment).selectPort s
  | some b => taken (s.port.transfer = none) ((s.advance moment).firstByte b) s

end Sys2Proof.Machine
end

