-- ==== Sys2Proof/Machine/Receive.lean ====
section
/-! DEFINITION. What becomes of a received frame: bad or good (R71), polarity (R73), placement (R75 to R79), the claim
of an in-slot PRESENT (R93, R94), the misplaced PRESENT (R95, R65), the taken ANNOUNCE (R77, R54 to R56, R107), the
Announce Meters (R88) and the offer of items to the work list (R123). -/

namespace Sys2Proof.Machine

/-! ### Counting frames -/

/-- A bad frame: counted, and reported to the running cycle (R71). -/
def State.badFrame (s : State) : State :=
  ({ s with rcu := { s.rcu with bad := s.rcu.bad + 1 } } : State).count .framesBad

/-- A misplaced or out-of-slot frame: counted, and reported to the running cycle (R79). -/
def State.strayFrame (s : State) : State :=
  ({ s with rcu := { s.rcu with stray := s.rcu.stray + 1 } } : State).count .framesStray

/-- The polarity run at a good frame, and the change of transmit polarity when it reaches 2 (R73). -/
def TrainLine.notePolarity (l : TrainLine) (inverted : Bool) : TrainLine :=
  if inverted = l.txInverted then { l with run := 0 }
  else if 2 ≤ l.run + 1 then { l with txInverted := !l.txInverted, run := 0 }
  else { l with run := l.run + 1 }

/-! ### Windows -/

/-- Whether an arrival falls in slot window p: its start included, its end not (R75). -/
def State.inSlotWindow (s : State) (arrival p : Nat) : Bool :=
  1 ≤ p && p ≤ 6 && s.rollEnd + (p - 1) * 1500 ≤ arrival && arrival < s.rollEnd + p * 1500

/-- Whether an arrival falls in the open window (R75). -/
def State.inOpenWindow (s : State) (arrival : Nat) : Bool :=
  s.rollEnd + 9000 ≤ arrival && arrival < s.rollEnd + 12000

/-! ### Items -/

/-- The number of items in the work list; ageing marks take no place (R123). -/
def itemCount (l : List WorkEntry) : Nat :=
  (l.filter fun w => match w with | .item _ => true | .mark _ => false).length

/-- One item of a claimed PRESENT offered to the work list (R123): unknown when its code names no kind or its entry is
no longer on the chain, lost when the list is full, and otherwise appended. -/
def State.offerItem (s : State) (h : Fin 8) (it : Byte × Byte × Byte × Word) : State :=
  match ItemKind.ofCode it.1 with
  | none => s.count .itemsUnknown
  | some k =>
    if (s.entry h).state.onChain = false then s.count .itemsUnknown
    else if 24 ≤ itemCount s.workList then s.count .itemsLost
    else { s with workList := s.workList ++ [.item ⟨h, k, it.2.1, it.2.2.1, it.2.2.2⟩] }

/-! ### PRESENT -/

/-- The talking entry that holds a position (R93). -/
def State.talker (s : State) (p : Nat) : Option (Fin 8) :=
  all8.find? fun h => (s.entry h).state.onChain && (s.entry h).position = some p

/-- Whether a position is the new position of the reseat in hand (R55, R59, R94). -/
def State.reseatTo (s : State) (q : Nat) : Bool :=
  match s.dir.reseat with
  | some r => r.toPosition = q
  | none => false

/-- A claimed PRESENT: the answered mark, the streak and the parting flag; with fast leave on, a parting unit departs
with cascade; then the items (R93, R100). -/
def State.claim (s : State) (h : Fin 8) (parting : Bool) (items : List (Byte × Byte × Byte × Word)) : State :=
  let s' := s.setEntry h { s.entry h with answered := true, misplaced := 0, parting := parting }
  let s'' := if parting ∧ s.setting 4 = 1 then s'.depart h true false else s'
  items.foldl (fun a it => a.offerItem h it) s''

/-- An unclaimed PRESENT: its items count as unknown, and its position is owed a RELEASE unless a broadcast is owed, it
is on the release list, or it is the reseat's new position; a DECLARED holder raises POSITION_CONFLICT (R94). -/
def State.unclaimed (s : State) (p : Nat) (items : List (Byte × Byte × Byte × Word)) : State :=
  let s' := s.countTimes .itemsUnknown items.length
  if s.rcu.broadcastOwed ∨ s.dir.releaseList.contains p ∨ s.reseatTo p then s'
  else
    let s'' := s'.owe [p]
    if (s.holder p).any (fun h => (s.entry h).state = .declared) then s''.raise .positionConflict else s''

/-- An in-slot PRESENT (R76, R93, R94). -/
def State.presentInSlot (s : State) (p : Nat) (payload : List Byte) : State :=
  let items := presentItems payload.tail
  match s.talker p with
  | some h => s.claim h ((payload.getD 0 0).getLsbD 0) items
  | none => s.unclaimed p items

/-- A reseat of the handle from p to q is started, if none is in hand and q lies within 1 to 6, is held by no entry and
is not on the release list (R65). -/
def State.reseatCheck (s : State) (h : Fin 8) (p q : Nat) : State :=
  if s.dir.reseat = none ∧ 1 ≤ q ∧ q ≤ 6 ∧ s.holder q = none ∧ s.dir.releaseList.contains q = false then
    { s with dir := { s.dir with reseat := some ⟨h, p, q, false⟩ } }
  else s

/-- A misplaced PRESENT raises the streak of an ENROLLING, LIVE or STALLED holder of its position, and at 2 asks for a
reseat (R95). -/
def State.presentMisplaced (s : State) (p hop : Nat) : State :=
  match s.talker p with
  | some h =>
    let e := s.entry h
    if e.state = .joining then s
    else
      let s' := s.setEntry h { e with misplaced := min 2 (e.misplaced + 1) }
      if 2 ≤ e.misplaced + 1 then s'.reseatCheck h p (hop + 1) else s'
  | none => s

/-- Note that slot window p has had its PRESENT in this cycle (R76). -/
def State.notePlaced (s : State) (p : Nat) : State := { s with rcu := { s.rcu with placed := p :: s.rcu.placed } }

/-- The placement of a good PRESENT (R76). -/
def State.placePresent (s : State) (arrival : Nat) (f : NodeFrame) : State :=
  if s.inSlotWindow arrival f.position ∧ s.rcu.placed.contains f.position = false then
    if f.hop + 1 = f.position then (s.notePlaced f.position).presentInSlot f.position f.payload
    else ((s.notePlaced f.position).strayFrame).presentMisplaced f.position f.hop
  else s.strayFrame

/-! ### The Announce Meters -/

/-- A charge of one token to the meter of a position: whether it passes, and the state after. A dropped frame or item
counts in metered_drops; a position from 7 on has no meter (R77, R88). -/
def State.charge (s : State) (position : Nat) : Bool × State :=
  match s.meterOf position with
  | none => (true, s)
  | some m =>
    let t := s.line.meters[m]
    if 1 ≤ t.tokens then
      (true, { s with line := { s.line with meters := s.line.meters.set m { t with tokens := t.tokens - 1 } } })
    else (false, s.count .meteredDrops)

/-! ### ANNOUNCE -/

/-- A deferred announce (4.2). -/
def State.defer (s : State) : State := s.count .announcesDeferred

/-- The lowest FREE handle is allocated to an announce, and the EE takes its context (R56, R107). -/
def State.allocate (s : State) (h : Fin 8) (uid : Uid) (count q : Nat) : State :=
  (s.setEntry h
    { Entry.empty with
      state := .joining
      uid := some uid
      position := some q
      credit := s.robustness
      descriptorCount := min 64 count
      cap := s.setting 16
      fresh := true }).startContext (newContext h .assigning none)

/-- The entry that is not FREE and has a UID (R54). -/
def State.entryOfUid (s : State) (u : Uid) : Option (Fin 8) :=
  all8.find? fun h => (s.entry h).state ≠ .free && (s.entry h).uid = some u

/-- The directory's judgement of an announce that has passed its meter: the UID check (R54), the position checks (R55),
and allocation (R56, R107). -/
def State.directoryAnnounce (s : State) (uid : Uid) (count q : Nat) : State :=
  match s.entryOfUid uid with
  | some h =>
    if (s.entry h).state = .joining ∨ (s.entry h).state = .leaving then s.defer else (s.depart h true false).defer
  | none =>
    if 6 < q then s.defer
    else
      match s.holder q with
      | some h => if (s.entry h).state = .declared then (s.raise .positionConflict).defer else s.defer
      | none =>
        if s.dir.releaseList.contains q ∨ s.reseatTo q then s.defer
        else if s.ee.isSome then s.defer
        else
          match s.lowestFree with
          | none => (s.raise .tablePressure).defer
          | some h => s.allocate h uid count q

/-- A taken announce: reported to the Roll Call Unit, charged to the meter of its derived position, and if it passes
handed to the directory (R77, R101). -/
def State.takeAnnounce (s : State) (f : NodeFrame) : State :=
  match f.payload with
  | [b5, b4, b3, b2, b1, b0, n] =>
    let q := f.hop + 1
    let c := s.announceTaken.charge q
    if c.1 then c.2.directoryAnnounce (uidOf b5 b4 b3 b2 b1 b0) n.toNat q else c.2
  | _ => s.strayFrame

/-! ### Answers -/

/-- Whether a good DESC, EXTSEG, DONE or DECLINE matches a transaction (R78). -/
def Transaction.matchedBy (t : Transaction) (arrival : Nat) (f : NodeFrame) : Bool :=
  (match t.attempt with | .awaiting d => arrival ≤ d | _ => false) &&
    t.request.kind.answers.contains f.kind &&
    (f.kind < 0xD || namedKind f.payload = some t.request.kind.code) &&
    f.position = t.answerPosition && f.hop + 1 = t.answerPosition

/-- The placement of a good DESC, EXTSEG, DONE or DECLINE: it ends the transaction it matches, and is otherwise
out-of-slot (R78, R85). -/
def State.placeAnswer (s : State) (arrival : Nat) (f : NodeFrame) : State :=
  match s.line.slot with
  | some t =>
    if t.matchedBy arrival f then s.endTransaction t (if f.kind = 0xE then .declined else .answered f.payload)
    else s.strayFrame
  | none => s.strayFrame

/-! ### Placement and the end of a frame -/

/-- The placement of a good frame (R75 to R78): one from the head, of a head kind, or of a length its kind does not
allow is out-of-slot. -/
def State.placeFrame (s : State) (arrival : Nat) (f : NodeFrame) : State :=
  if f.fromNode = false ∨ (nodeLengths f.kind).contains f.payload.length = false then s.strayFrame
  else if f.kind = 0x9 then s.placePresent arrival f
  else if f.kind = 0xA then (if s.inOpenWindow arrival then s.takeAnnounce f else s.strayFrame)
  else s.placeAnswer arrival f

/-- A good frame: counted, its polarity noted, and placed (R71, R73, R75). -/
def State.goodFrame (s : State) (rx : Reception) (f : NodeFrame) : State :=
  let s' := s.count .framesGood
  ({ s' with line := s'.line.notePolarity rx.inverted } : State).placeFrame rx.arrival f

/-- The bytes after the delimiter as the frame meant them: turned upright when it arrived inverted (R73). -/
def Reception.upright (rx : Reception) (bytes : List Byte) : List Byte :=
  if rx.inverted then invertBytes bytes else bytes

/-- Whether a received frame is good: whole, not malformed, its CRC matching, and not inverted while auto polarity,
setting 13, is off (R71, R73). -/
def State.isGood (s : State) (rx : Reception) (bytes : List Byte) : Bool :=
  frameSound (rx.upright bytes) && !(rx.inverted && s.setting 13 ≠ 1)

/-- The end of a frame: 40 µs for each byte taken after its delimiter (R67, R70). -/
def Reception.frameEnd (rx : Reception) (bytes : List Byte) : Nat :=
  rx.arrival + 40 * min (frameSize (rx.upright bytes)) bytes.length

/-- Nothing is being received any more. -/
def State.stopReceiving (s : State) : State := { s with line := { s.line with reception := none } }

/-- The frame being received ends and is judged (R71). -/
def State.frameEnds (s : State) (rx : Reception) (bytes : List Byte) : State :=
  let s' := s.stopReceiving.advance (rx.frameEnd bytes)
  if s.isGood rx bytes then s'.goodFrame rx (readFrame (rx.upright bytes)) else s'.badFrame

end Sys2Proof.Machine
end

