-- ==== Sys2Proof/Machine/ItemSteps.lean ====
section
/-! DEFINITION. The Report Handler's steps: VALUE_ITEM (R127), FAULT_ITEM and CLEAR_ITEM (R128), WITHDRAWN_ITEM (R129),
ADDED_ITEM (R120) and AGEING_PASS (R131), each for the head of the work list (R125); and DRAIN_SWEEPER_REMOVAL (R64). -/

namespace Sys2Proof.Machine

/-- The item at the head of the work list, if it is of a kind (R125). -/
def State.headItem (s : State) (k : ItemKind) : Option Item :=
  match s.workList with
  | .item it :: _ => if it.kind = k then some it else none
  | _ => none

/-- The head leaves the work list (R125). -/
def State.popWork (s : State) : State := { s with workList := s.workList.tail }

/-- The record an item's key names and its slot (R126). -/
def State.itemRecord (s : State) (it : Item) : Option (Fin 256 × Record) := it.key.bind s.find

/-- A VALUE, FAULT or CLEAR item's operation: unknown when no record has its key or the record is PENDING, and otherwise
what the kind does to the record (R126). -/
def State.onItemRecord (s : State) (it : Item) (f : State → Fin 256 → Record → State) : State :=
  match s.itemRecord it with
  | none => s.count .itemsUnknown
  | some (i, r) => if r.state = .pending then s.count .itemsUnknown else f s i r

/-- A VALUE item taken by its record (R127). -/
def State.takeValue (value : Word) (s : State) (i : Fin 256) (r : Record) : State :=
  if hasValue r.flags then
    s.putRecord i { r with value := some value, age := 0, stale := false } (r.value ≠ some value || r.stale)
  else s.count .itemsUnknown

/-- The fault flag of a record set or cleared (R128). -/
def State.setFault (fault : Bool) (s : State) (i : Fin 256) (r : Record) : State :=
  s.putRecord i { r with fault := fault } (r.fault ≠ fault)

/-- VALUE_ITEM (R127): at the RH's grant, for a VALUE item at the head. -/
def execValueItem (s : State) : Host.Outcome State Fault Refusal :=
  match s.headItem .value with
  | some it =>
    taken (s.grant = some .rh) (((s.granted .rh).popWork).onItemRecord it (State.takeValue it.value)) s
  | none => .next s

/-- FAULT_ITEM (R128): at the RH's grant, for a FAULT item at the head. -/
def execFaultItem (s : State) : Host.Outcome State Fault Refusal :=
  match s.headItem .fault with
  | some it => taken (s.grant = some .rh) (((s.granted .rh).popWork).onItemRecord it (State.setFault true)) s
  | none => .next s

/-- CLEAR_ITEM (R128): at the RH's grant, for a CLEAR item at the head. -/
def execClearItem (s : State) : Host.Outcome State Fault Refusal :=
  match s.headItem .clear with
  | some it => taken (s.grant = some .rh) (((s.granted .rh).popWork).onItemRecord it (State.setFault false)) s
  | none => .next s

/-- The context with no descriptor in hand, while the EXTQ of the one given up runs to its end (R106, R121; log entry
25). -/
def State.parkContext (s : State) : State :=
  { s with ee := s.ee.map fun c => { c with index := none, descriptor := none } }

/-- The index of the descriptor given up leaves the pending set while an EXTQ of its own is still in the slot; where that
empties the set, what R58 says follows in this event, and the context stays until the EXTQ has ended (R121, R58). -/
def State.giveUpInSlot (s : State) (c : Context) : State :=
  let s' := (s.dropIndex c).parkContext
  if (s'.entry c.handle).pendingSet = 0 then s'.pendingEmptied c.handle else s'

/-- The descriptor in hand is given up after the removal of its PENDING record: its index leaves the pending set, and the
EE takes its next descriptor unless an EXTQ of its own is still in the slot. An abandoned context is judged for its end
instead (R121, R122). -/
def State.giveUp (s : State) (c : Context) : State :=
  if c.abandoned then s.settleAbandoned
  else if s.slotHeldBy .ee then s.giveUpInSlot c
  else s.finishDescriptor c

/-- A WITHDRAWN item's operation (R129, R15, R121). -/
def State.withdrawItem (s : State) (it : Item) : State :=
  match s.itemRecord it with
  | none => s.count .itemsUnknown
  | some (i, r) =>
    if r.origin = .declared then s.count .itemsUnknown
    else
      match s.ee with
      | some c =>
        if r.state = .pending ∧ c.pendingKey = some r.key then (s.removeRecord i r).giveUp c else s.removeRecord i r
      | none => s.removeRecord i r

/-- WITHDRAWN_ITEM (R129): at the RH's grant, for a WITHDRAWN item at the head. -/
def execWithdrawnItem (s : State) : Host.Outcome State Fault Refusal :=
  match s.headItem .withdrawn with
  | some it => taken (s.grant = some .rh) (((s.granted .rh).popWork).withdrawItem it) s
  | none => .next s

/-- An entry after an ADDED item for an index below 64: the index joins the pending set and the descriptor count covers it
(R120). -/
def Entry.addIndex (e : Entry) (i : Nat) : Entry :=
  { e with
    pendingSet := withIndex e.pendingSet (BitVec.ofNat 6 i)
    descriptorCount := max e.descriptorCount (i + 1) }

/-- The directory's action on an ADDED item, in the order of R120: the entry's state, the meter, the index. -/
def State.addItem (s : State) (it : Item) : State :=
  let e := s.entry it.handle
  if e.state = .enrolling ∨ e.state = .live ∨ e.state = .stalled then
    let c := s.charge (s.positionOf it.handle)
    if c.1 then
      if it.value.toNat < 64 then c.2.setEntry it.handle (e.addIndex it.value.toNat) else c.2.count .itemsUnknown
    else c.2
  else s.count .itemsUnknown

/-- ADDED_ITEM (R120): an ADDED item at the head; it takes no table operation. -/
def execAddedItem (s : State) : Host.Outcome State Fault Refusal :=
  match s.headItem .added with
  | some it => .next (s.popWork.addItem it)
  | none => .next s

/-! ### The ageing pass -/

/-- Whether an ageing pass acts on a record (R131). -/
def State.ages (s : State) (r : Record) : Bool :=
  r.value.isSome && r.state ≠ .pending && !s.leaving r.key.handle

/-- A value is older than twice its record's report interval (R131). -/
def Record.overdue (r : Record) (age : Nat) : Bool :=
  match r.interval with
  | some n => 2 * n < age
  | none => false

/-- One record aged by a step count (R131). -/
def State.ageRecord (steps : Nat) (s : State) (p : Fin 256 × Record) : State :=
  let r := p.2
  if s.ages r then
    let age := min 255 (r.age + steps)
    let due := r.overdue age && !r.stale
    s.putRecord p.1 { r with age := age, stale := r.stale || due } due
  else s

/-- The ageing pass over every slot (R131). -/
def State.agePass (s : State) (steps : Nat) : State := s.records.foldl (State.ageRecord steps) s

/-- AGEING_PASS (R131): at the RH's grant, for an ageing mark at the head. -/
def execAgeingPass (s : State) : Host.Outcome State Fault Refusal :=
  match s.workList with
  | .mark steps :: _ => taken (s.grant = some .rh) (((s.granted .rh).popWork).agePass steps) s
  | _ => .next s

/-! ### The Drain Sweeper -/

/-- The lowest-numbered LEAVING handle with records left (R64). -/
def State.drainHandle (s : State) : Option (Fin 8) :=
  all8.find? fun h => s.leaving h && 0 < (s.entry h).recordCount

/-- The Drain Sweeper's removal: the lowest slot of the lowest leaving handle; the entry becomes FREE once nothing of it is
left, and an abandoned context is judged for its end (R64, R15, R122). -/
def State.sweep (s : State) (h : Fin 8) : State :=
  match s.records.find? fun p => p.2.key.handle = h with
  | some (i, r) => ((s.removeRecord i r).freeIfDrained h).settleAbandoned
  | none => s

/-- DRAIN_SWEEPER_REMOVAL (R64): at the Drain Sweeper's grant. -/
def execDrainSweeperRemoval (s : State) : Host.Outcome State Fault Refusal :=
  match s.drainHandle with
  | some h => taken (s.grant = some .sweeper) ((s.granted .sweeper).sweep h) s
  | none => .next s

end Sys2Proof.Machine
end

