-- ==== Sys2Proof/Machine/LampSteps.lean ====
section
/-! DEFINITION. The Lamp Circuit Monitor's steps: SAMPLE (R147), BLINK_HALF_END (R142), FLASH_PHASE_END (R143) and
ATTRIBUTION_OPERATION (R153). -/

namespace Sys2Proof.Machine

/-- SAMPLE (R147): at the next sampling instant every circuit is read and offered for judgement. -/
def execSample (readings : Vector Nat 8) (s : State) : Host.Outcome State Fault Refusal :=
  let s' := s.advance s.lcm.nextSample
  let s'' : State := { s' with lcm := { s'.lcm with nextSample := s.lcm.nextSample + sampleInterval } }
  taken (s.port.loading = false) (all8.foldl (fun a k => a.sampleCircuit readings k) s'') s

/-- The output of a circuit whose demand is BLINK decided afresh (R141, R142). -/
def State.redecideBlinking (s : State) (k : Fin 8) : State :=
  if (s.circuit k).demand = .blink then s.redecide k else s

/-- BLINK_HALF_END (R142): the running clock passes to its next half, and the circuits whose demand is BLINK follow. -/
def execBlinkHalfEnd (s : State) : Host.Outcome State Fault Refusal :=
  match s.lcm.blink with
  | some b =>
    let s' := s.advance b.halfEnds
    .next (all8.foldl State.redecideBlinking
      { s' with lcm := { s'.lcm with blink := some (b.next (s.setting 17)) } })
  | none => .next s

/-- FLASH_PHASE_END (R143): a phase of the circuit's running flash ends. -/
def execFlashPhaseEnd (circuit : Fin 8) (s : State) : Host.Outcome State Fault Refusal :=
  match (s.circuit circuit).flash with
  | some f =>
    let s' := s.advance f.phaseEnds
    .next ((s'.setCircuit circuit { s'.circuit circuit with flash := f.next }).redecide circuit)
  | none => .next s

/-- ATTRIBUTION_OPERATION (R153): at the LCM's grant, for the lowest circuit with a job. -/
def execAttributionOperation (s : State) : Host.Outcome State Fault Refusal :=
  match s.jobCircuit with
  | some k =>
    match (s.circuit k).job with
    | some j => taken (s.grant = some .lcm) ((s.granted .lcm).attribute k j) s
    | none => .next s
  | none => .next s

end Sys2Proof.Machine
end

