-- ==== Sys2Proof/Machine/RollCallOps.lean ====
section
/-! DEFINITION. The line cycle: the start of a cycle (R90, R91), the settling sequence of the cycle end (R92, R96 to
R98, R102, R103), the refill of the meters (R89) and the ageing mark (R130). -/

namespace Sys2Proof.Machine

/-! ### The cycle start -/

/-- The period chosen at a cycle start: the steady period in STEADY, the formed period in every other state (R91). -/
def State.chosenPeriod (s : State) : Nat := if s.rcu.chain = .steady then s.setting 6 else s.setting 5

/-- The ROLL of a cycle: its number and the chain state, which the head sends in each ROLL and relies on no node to use,
addressed to every assigned node (R68, R72, R90). -/
def State.rollFrame (s : State) : HeadFrame := ⟨.roll, 0, [s.rcu.cycleNumber, s.rcu.chain.code]⟩

/-- A cycle starts now: its period is chosen, its windows are counted from the end of the ROLL, and the ROLL is sent
(R90, R91). -/
def State.startCycle (s : State) : State :=
  let s' : State := { s with rcu := { s.rcu with cycleStart := s.now, period := s.chosenPeriod, phaseOpen := false } }
  s'.transmit s'.rollFrame s.now

/-! ### The settling sequence -/

/-- The void judgement: B at least void_bad or X at least void_stray (R96). -/
def State.cycleVoid (s : State) : Bool := s.setting 8 ≤ s.rcu.bad || s.setting 9 ≤ s.rcu.stray

/-- Step 1: the void streak, and void_cycles for a void cycle (R92, R96). -/
def State.judgeVoid (s : State) : State :=
  if s.cycleVoid then
    ({ s with rcu := { s.rcu with voidStreak := min 255 (s.rcu.voidStreak + 1) } } : State).count .voidCycles
  else { s with rcu := { s.rcu with voidStreak := 0 } }

/-- Step 2: the accounted entries (R97). -/
def State.accounted (s : State) : List (Fin 8) :=
  all8.filter fun h => (s.entry h).state.onChain && !(s.entry h).fresh

/-- How many of the accounted entries answered (R97). -/
def State.answeredCount (s : State) : Nat := (s.accounted.filter fun h => (s.entry h).answered).length

/-- An accounted entry's credit after the cycle end (R98). -/
def State.creditAfter (s : State) (void : Bool) (e : Entry) : Nat :=
  if e.answered then s.robustness
  else if void = false ∨ s.setting 10 < s.rcu.voidStreak then e.credit - 1
  else e.credit

/-- Credit applied to one accounted entry (R98). -/
def State.applyCredit (void : Bool) (s : State) (h : Fin 8) : State :=
  s.setEntry h { s.entry h with credit := s.creditAfter void (s.entry h) }

/-- Step 3: credit applied to the accounted entries, and those whose credit reaches 0 enter LEAVING, each alone and
without a RELEASE (R92, R98, R61). -/
def State.settleCredit (s : State) (void : Bool) : State :=
  let hs := s.accounted
  let s' := hs.foldl (State.applyCredit void) s
  ((hs.filter fun h => (s'.entry h).credit = 0).foldl State.leaveOne s').settleAbandoned

/-- Whether the cycle qualifies for the steady run (R103). -/
def State.qualifies (s : State) (void : Bool) (answered expected : Nat) : Bool :=
  !void && answered = expected && !s.rcu.takenAnnounce && s.ee.isNone

/-- The steady run set (R103). -/
def State.setSteadyRun (s : State) (n : Nat) : State := { s with rcu := { s.rcu with steadyRun := n } }

/-- Step 4 in FORMED, where the cycle is not void and the chain is not DORMANT: the steady run, and STEADY when it
reaches the steady count, setting 7 (R102, R103). -/
def State.judgeFormed (s : State) (void : Bool) (answered expected : Nat) : State :=
  if s.qualifies void answered expected then
    let run := min 255 (s.rcu.steadyRun + 1)
    if s.setting 7 ≤ run then (s.setSteadyRun run).setChain .steady else s.setSteadyRun run
  else s.setSteadyRun 0

/-- Step 4: the chain state judged (R102, R103). -/
def State.judgeChain (s : State) (void : Bool) (answered expected : Nat) : State :=
  match s.rcu.chain with
  | .dormant => s
  | .forming => if void then s.setChain .disturbed else s
  | .formed =>
    if void then s.setChain .disturbed
    else if s.talkingCount = 0 ∧ s.ee = none then s.setChain .dormant
    else s.judgeFormed void answered expected
  | .steady =>
    if void then s.setChain .disturbed
    else if s.talkingCount = 0 ∧ s.ee = none then s.setChain .dormant
    else if answered < expected then s.setChain .formed
    else s
  | .disturbed =>
    if void then s
    else if s.ee.isSome then s.setChain .forming
    else if s.talkingCount = 0 then s.setChain .dormant
    else s.setChain .formed

/-- An entry with the cycle's marks of it cleared (R92 step 5, R97). -/
def Entry.clearMarks (e : Entry) : Entry := { e with answered := false, fresh := false }

/-- Step 5: the accounts are kept for READ_CHAIN, the counts and marks are cleared, and the cycle number rises (R90,
R92, R105). -/
def State.closeCycle (s : State) (void : Bool) (answered expected : Nat) : State :=
  { s with
    dir := { s.dir with entries := perHandle fun h => (s.entry h).clearMarks }
    rcu :=
      { s.rcu with
        cycleNumber := s.rcu.cycleNumber + 1
        bad := 0
        stray := 0
        takenAnnounce := false
        placed := []
        last := some ⟨void, answered, expected, s.rcu.bad, s.rcu.stray⟩ } }

/-- A meter after a cycle end (R89). -/
def Meter.refilled (m : Meter) (depth refill : Nat) : Meter :=
  if m.tokens < depth then
    if refill ≤ m.refill + 1 then ⟨m.tokens + 1, 0⟩ else { m with refill := m.refill + 1 }
  else { m with refill := 0 }

/-- One meter refilled (R89). -/
def State.refillMeter (s : State) (m : Fin 4) : State :=
  { s with
    line :=
      { s.line with
        meters := s.line.meters.set m (s.line.meters[m].refilled (s.meterDepth m) (s.meterRefill m)) } }

/-- Every meter refilled (R89). -/
def State.refillMeters (s : State) : State := ([0, 1, 2, 3] : List (Fin 4)).foldl State.refillMeter s

/-- The work list with one more ageing pass owed: the last mark's step count rises if nothing follows it, and
otherwise a new mark stands at the tail (R130). -/
def oweAgeing (l : List WorkEntry) : List WorkEntry :=
  match l.getLast? with
  | some (.mark n) => l.dropLast ++ [.mark (min 255 (n + 1))]
  | _ => l ++ [.mark 1]

/-- An ageing pass is owed (R130). -/
def State.oweAgeing (s : State) : State := { s with workList := Machine.oweAgeing s.workList }

/-- The settling of a cycle and the start of the next (R92), with the meter refill and the ageing mark, which the spec
does not place in the sequence (log entry 12). -/
def State.settle (s : State) : State :=
  let void := s.cycleVoid
  let s1 := s.judgeVoid
  let answered := s1.answeredCount
  let expected := s1.accounted.length
  let s2 := s1.settleCredit void
  let s3 := s2.judgeChain void answered expected
  (((s3.closeCycle void answered expected).refillMeters).oweAgeing).startCycle

end Sys2Proof.Machine
end

