-- ==== Sys2Proof/Machine/RollCallSteps.lean ====
section
/-! DEFINITION. CYCLE_END (R92). -/

namespace Sys2Proof.Machine

/-- CYCLE_END (R92): one period after the cycle start, once no frame is being received. The accounting never waits for a
transaction. -/
def execCycleEnd (s : State) : Host.Outcome State Fault Refusal :=
  taken (s.port.loading = false ∧ s.line.reception = none) ((s.advance s.cycleEnd).clearOut.settle) s

end Sys2Proof.Machine
end

