-- ==== Sys2Proof/Machine/SettingRequests.lean ====
section
/-! DEFINITION. The settings requests: READ_SETTING (R180) and WRITE_SETTING (R181), with what a write does at once
(R74, R89, R99, R150). They take no table operation. -/

namespace Sys2Proof.Machine

/-- The setting a byte numbers, if it is at most 130 (R179). -/
def settingOf (b : Byte) : Option (Fin 131) := if h : b.toNat < 131 then some ⟨b.toNat, h⟩ else none

/-- READ_SETTING (R180). -/
def execReadSetting (number : Byte) (s : State) : Host.Outcome State Fault Refusal :=
  let q := Request.readSetting number
  taken (s.carriesOut q)
    (match settingOf number with
      | some n => s.respond q .ok (number :: wordBytes (word (s.setting n)))
      | none => s.answer q .range) s

/-- A classification is in hand while the enrolment context keeps one (R51). -/
def State.classificationInHand (s : State) : Bool :=
  match s.ee with
  | some c => c.classification.isSome
  | none => false

/-- Whether a write is refused with IN_USE, judged on the clamped value (R181 step 3, R10, R16, R51). -/
def State.settingInUse (s : State) (n : Fin 131) (v : Nat) : Bool :=
  (n.val = 0 && !s.records.isEmpty) || (n.val = 1 && v * 32 < s.table.enrolledCount) ||
    (35 ≤ n.val && n.val ≤ 98 && s.classificationInHand)

/-- A robustness value lowers every credit above it (R99). -/
def State.lowerCredits (s : State) (v : Nat) : State :=
  { s with
    dir :=
      { s.dir with
        entries := perHandle fun h =>
          let e := s.entry h
          if e.state.onChain then { e with credit := min e.credit v } else e } }

/-- A meter changed. -/
def State.withMeter (s : State) (m : Fin 4) (t : Meter) : State :=
  { s with line := { s.line with meters := s.line.meters.set m t } }

/-- What a setting that has just taken a value does at once to the state of its block; `was` is the value before: the
credits (R99), the polarity (R74), a meter's tokens and its refill count (R89), and a circuit's tol (R150). Every other
setting is read where its owning rule takes it. -/
def State.settingEffect (s : State) (n : Fin 131) (was v : Nat) : State :=
  if n.val = 3 then s.lowerCredits v
  else if n.val = 13 then
    if v = 0 ∧ was ≠ 0 then { s with line := { s.line with txInverted := false, run := 0 } } else s
  else if 21 ≤ n.val ∧ n.val ≤ 24 then
    let m : Fin 4 := Fin.ofNat 4 (n.val - 21)
    s.withMeter m { s.line.meters[m] with tokens := min s.line.meters[m].tokens v }
  else if 25 ≤ n.val ∧ n.val ≤ 28 then
    let m : Fin 4 := Fin.ofNat 4 (n.val - 25)
    s.withMeter m { s.line.meters[m] with refill := 0 }
  else if 99 ≤ n.val ∧ ((n.val - 99) % 4 = 1 ∨ (n.val - 99) % 4 = 2) then
    let k : Fin 8 := Fin.ofNat 8 ((n.val - 99) / 4)
    s.setCircuit k { s.circuit k with tol := s.tolerance k (s.circuit k).expected }
  else s

/-- A setting takes a value (R181 step 4). -/
def State.takeSetting (s : State) (n : Fin 131) (v : Nat) : State :=
  ({ s with settings := s.settings.set n v } : State).settingEffect n (s.setting n) v

/-- WRITE_SETTING (R181): RANGE, clamp, IN_USE, and otherwise the clamped value is taken and answered. -/
def execWriteSetting (number : Byte) (value : Word) (s : State) : Host.Outcome State Fault Refusal :=
  let q := Request.writeSetting number value
  taken (s.carriesOut q)
    (match settingOf number with
      | none => s.answer q .range
      | some n =>
        let v := clampSetting n.val value.toNat
        if s.settingInUse n v then s.answer q .inUse
        else (s.takeSetting n v).respond q .ok (number :: wordBytes (word v))) s

end Sys2Proof.Machine
end

