-- ==== Sys2Proof/Machine/StartUp.lean ====
section
/-! DEFINITION. The start-up commands: RESET (R182) and SETTINGS_LOAD_END (R183, R186). -/

namespace Sys2Proof.Machine

/-- RESET (R182): every block takes its reset values, every setting its default, the loading mark is set and the load
begins anew. The queue of waiting commands is the sender's and stays. -/
def execReset (s : State) : Host.Outcome State Fault Refusal := .next { State.reset with pending := s.pending }

/-- Whether the image is taken: marker 0x4B and format 1 (R182). -/
def imageTaken (image : List Byte) : Bool := image.getD 0 0 = 0x4B && image.getD 1 0 = 1

/-- The settings of an image, each clamped (R182, R186). -/
def imageSettings (image : List Byte) : Vector Nat 131 :=
  ⟨((List.range 131).map fun n => clampSetting n (imageValue image n)).toArray, by simp⟩

/-- The settings after the judgement of the image, the marker and the load outcome; a load that ends with the defaults
raises CONFIG_DEFAULTED (R182, R183). -/
def State.judgeImage (s : State) (image : List Byte) : State :=
  let marker := image.getD 0 0
  if imageTaken image then
    { s with settings := imageSettings image, loader := { marker := marker, fromImage := true } }
  else ({ s with loader := { marker := marker, fromImage := false } } : State).raise .configDefaulted

/-- A circuit context at the end of the load: tol follows the settings in force (R140, R150; log entry 8). -/
def State.refreshTol (s : State) (k : Fin 8) : State :=
  let c := s.circuit k
  s.setCircuit k { c with tol := s.tolerance k c.expected }

/-- One meter filled to its depth (R88). -/
def State.fillMeter (s : State) (m : Fin 4) : State :=
  { s with line := { s.line with meters := s.line.meters.set m ⟨s.meterDepth m, 0⟩ } }

/-- What the end of the load does once the image has been judged: the loading mark clears, the meters fill, the blink
clock and sampling start, and the first cycle starts; the device's clock starts here (R183, R88, R142, R147, R90). -/
def State.finishLoad (s : State) : State :=
  let s1 : State := { s with now := 0, port := { s.port with loading := false } }
  let s2 := ([0, 1, 2, 3] : List (Fin 4)).foldl State.fillMeter s1
  let s3 := all8.foldl State.refreshTol s2
  let s4 : State :=
    { s3 with lcm := { s3.lcm with blink := some (Blink.start (s3.setting 17) 0), nextSample := sampleInterval } }
  s4.clearOut.startCycle

/-- SETTINGS_LOAD_END (R183): due while the load runs, once all 256 bytes have been read. -/
def execSettingsLoadEnd (image : List Byte) (s : State) : Host.Outcome State Fault Refusal :=
  taken (s.port.loading = true ∧ image.length = 256) (s.judgeImage image).finishLoad s

end Sys2Proof.Machine
end

