-- ==== Sys2Proof/Machine/TrainLine.lean ====
section
/-! DEFINITION. The train-line commands: FRAME_ARRIVAL (R70), RECEIVE_FRAME (R71), LINE_IDLE_TRUNCATION (R70),
TRANSACTION_PHASE_START (R82, R87, R108), TRANSACTION_START (R81), REQUEST_FRAME_END (R83), ANSWER_TIMEOUT (R84) and
SEND_OPERATION (R136). -/

namespace Sys2Proof.Machine

/-! ### Reception -/

/-- The sense of a preamble and delimiter pair: upright, inverted, or no pair (R70). -/
def pairSense (preamble delimiter : Byte) : Option Bool :=
  if preamble = 0x55 ∧ delimiter = 0xD3 then some false
  else if preamble = 0xAA ∧ delimiter = 0x2C then some true
  else none

/-- Whether the head is sending a request frame whose end has not been taken yet (R83). -/
def State.sendingRequest (s : State) : Bool :=
  match s.line.slot with
  | some t => match t.attempt with | .sending .. => true | _ => false
  | none => false

/-- Whether a frame that arrives at a moment is seen: the load has ended, no frame is being received, the cycle has not
ended, and the frame, whose preamble began 80 µs earlier, does not overlap one the head sends (R67, R70, R75). -/
def State.sees (s : State) (moment : Nat) : Bool :=
  !s.port.loading && s.line.reception.isNone && moment < s.cycleEnd && s.line.txEnd + 80 ≤ moment &&
    !s.sendingRequest

/-- FRAME_ARRIVAL (R70): a pair the head sees opens a reception; other bytes are ignored. -/
def execFrameArrival (moment : Nat) (preamble delimiter : Byte) (s : State) : Host.Outcome State Fault Refusal :=
  match pairSense preamble delimiter with
  | none => .next s
  | some inverted =>
    let s' := s.advance moment
    taken (s'.sees s'.now = true) { s' with line := { s'.line with reception := some ⟨s'.now, inverted⟩ } } s

/-- RECEIVE_FRAME (R71): the frame being received ends, and is judged by the head's rules whatever node sent it (R72). -/
def execReceiveFrame (bytes : List Byte) (s : State) : Host.Outcome State Fault Refusal :=
  match s.line.reception with
  | some rx => .next (s.frameEnds rx bytes)
  | none => .next s

/-- LINE_IDLE_TRUNCATION (R70, R71): more than 120 µs of idle line end the frame as truncated, and so bad. Its end is the
moment the last byte before the idle line was received (R70; log entry 17). -/
def execLineIdleTruncation (bytes : Nat) (s : State) : Host.Outcome State Fault Refusal :=
  match s.line.reception with
  | some rx => .next (s.stopReceiving.advance (rx.arrival + 40 * bytes)).badFrame
  | none => .next s

/-! ### The transaction phase -/

/-- The LIVE entry with the lowest position among those with a pending index (R108). -/
def State.rescanEntry (s : State) : Option (Fin 8) :=
  ([1, 2, 3, 4, 5, 6] : List Nat).findSome? fun p =>
    all8.find? fun h =>
      (s.entry h).state = .live && (s.entry h).pendingSet ≠ 0 && (s.entry h).position = some p

/-- An idle EE takes a context for a rescan, if an entry calls for one (R108). -/
def State.rescan (s : State) : State :=
  match s.ee, s.rescanEntry with
  | none, some h => s.startContext (newContext h .reading (lowestIndex (s.entry h).pendingSet))
  | _, _ => s

/-- The owed broadcast RELEASE is sent first, and is owed no longer (R87, R104). -/
def State.sendBroadcast (s : State) : State :=
  if s.rcu.broadcastOwed then
    ({ s with rcu := { s.rcu with broadcastOwed := false } } : State).transmit ⟨.release, 0, []⟩
      (max s.now s.line.txEnd)
  else s

/-- A held transaction is sent before any new start (R82). -/
def State.sendHeld (s : State) : State :=
  match s.line.slot with
  | some t => if t.attempt = .held then s.trySend else s
  | none => s

/-- The transaction phase opens, 12 ms after the ROLL's end (R75, R82, R87, R108). -/
def State.openPhase (s : State) : State :=
  let s' := (s.advance (s.rollEnd + 12000)).clearOut
  (({ s' with rcu := { s'.rcu with phaseOpen := true } } : State).rescan.sendBroadcast).sendHeld

/-- TRANSACTION_PHASE_START (R82): once in each cycle. -/
def execTransactionPhaseStart (s : State) : Host.Outcome State Fault Refusal :=
  taken (s.port.loading = false ∧ s.rcu.phaseOpen = false) s.openPhase s

/-- Whether the engine starts a transaction (R81); while it holds a turn for the OU it starts nothing else (R136). -/
abbrev State.mayStart (s : State) : Prop :=
  s.port.loading = false ∧ s.line.slot = none ∧ s.line.ouTurn = false ∧ s.rcu.phaseOpen = true ∧ s.now < s.cycleEnd ∧
    s.rcu.chain ≠ .disturbed

/-- The turn goes to a requester (R81). -/
def State.giveTurn (s : State) (r : Requester) : State :=
  let s' := ({ s with line := { s.line with turn := r } } : State).clearOut
  match r with
  | .ee => s'.startEe
  | .ou => s'.startOu
  | .ud => s'.startUd

/-- TRANSACTION_START (R81): the next waiting requester in rotation starts a transaction. -/
def execTransactionStart (s : State) : Host.Outcome State Fault Refusal :=
  match s.nextTurn with
  | some r => taken s.mayStart (s.giveTurn r) s
  | none => .next s

/-- REQUEST_FRAME_END (R83): the answer deadline is the end of the request plus the answer timeout that the attempt was
sent under (R84; log entry 19). -/
def execRequestFrameEnd (s : State) : Host.Outcome State Fault Refusal :=
  match s.line.slot with
  | some t =>
    match t.attempt with
    | .sending ends timeout => .next ((s.advance ends).occupy { t with attempt := .awaiting (ends + timeout) })
    | _ => .next s
  | none => .next s

/-- Whether a frame that arrived by a deadline is still being received (R83). -/
def State.stillReceiving (s : State) (deadline : Nat) : Bool :=
  match s.line.reception with
  | some rx => rx.arrival ≤ deadline
  | none => false

/-- A timeout of the transaction in the slot: a withdrawn one ends; otherwise the request is sent again while the attempt
count is at most the retries setting, and fails past it (R84, R86). -/
def State.timeout (s : State) (t : Transaction) : State :=
  if t.withdrawn then s.endTransaction t .withdrawn
  else if t.attempts ≤ s.setting 12 then (s.occupy { t with attempt := .held }).trySend
  else (s.count .transactionsFailed).endTransaction t .failed

/-- ANSWER_TIMEOUT (R84): the deadline has passed, and no frame that arrived by it is still being received (R83). -/
def execAnswerTimeout (s : State) : Host.Outcome State Fault Refusal :=
  match s.line.slot with
  | some t =>
    match t.attempt with
    | .awaiting deadline =>
      taken (s.stillReceiving deadline = false) ((s.advance deadline).clearOut.timeout t) s
    | _ => .next s
  | none => .next s

/-! ### The send operation -/

/-- The payload of a SETPOINT: class, instance, value (R184). -/
def setpointPayload (k : Key) (value : Word) : List Byte :=
  k.cls.zeroExtend 8 :: k.inst.zeroExtend 8 :: wordBytes value

/-- The send operation: the head entry leaves the queue, the in-flight note is made with the demand read, and the
SETPOINT is handed over and starts. With an empty queue the turn ends without a transaction (R136, R137). -/
def State.sendOp (s : State) : State :=
  let s' : State := { s with line := { s.line with ouTurn := false } }
  match s.ou.queue with
  | [] => s'
  | k :: rest =>
    match s.find k with
    | none => { s' with ou := { s'.ou with queue := rest } }
    | some (i, r) =>
      let value := r.demand.getD 0
      let s'' : State := { s' with ou := { s'.ou with queue := rest, note := some ⟨k, i, value, false, none⟩ } }
      let p := s.positionOf k.handle
      (s''.clearOut.occupy (newTransaction .ou ⟨.setpoint, p, setpointPayload k value⟩ p (some k.handle))).trySend

/-- SEND_OPERATION (R136): at the OU's grant, while it holds a turn and has no outcome to apply. -/
def execSendOperation (s : State) : Host.Outcome State Fault Refusal :=
  taken (s.grant = some .ou ∧ s.line.ouTurn = true ∧ s.wantsOutcome = false) (s.granted .ou).sendOp s

end Sys2Proof.Machine
end

