-- ==== Sys2Proof/Machine/UnitRequests.lean ====
section
/-! DEFINITION. The unit and chain requests: DECLARE_UNIT, READ_UNIT, RELEASE_UNIT, RESUME_UNIT (chapter 4),
RESTART_CHAIN and READ_CHAIN (6.7). They take no table operation. -/

namespace Sys2Proof.Machine

/-! ### DECLARE_UNIT -/

/-- The position byte of DECLARE_UNIT: absent for 0xFF, none where it is out of range (R59, R185). -/
def positionOfByte (b : Byte) : Option (Option Nat) :=
  if b = 0xFF then some none
  else if 1 ≤ b.toNat ∧ b.toNat ≤ 6 then some (some b.toNat)
  else none

/-- Whether a position is held by any entry, on the release list, or the new position of the reseat in hand (R59). -/
def State.positionTaken (s : State) (p : Nat) : Bool :=
  (s.holder p).isSome || s.dir.releaseList.contains p || s.reseatTo p

/-- The entry a DECLARE_UNIT makes (R59). -/
def State.declaredEntry (s : State) (position : Option Nat) : Entry :=
  { Entry.empty with state := .declared, position := position, cap := s.setting 16 }

/-- DECLARE_UNIT's checks and allocation (R59). -/
def State.declareUnitOp (s : State) (position : Byte) : State :=
  let q := Request.declareUnit position
  match positionOfByte position with
  | none => s.answer q .range
  | some p =>
    if p.any s.positionTaken then s.answer q .positionHeld
    else
      match s.lowestFree with
      | none => s.answer q .noHandle
      | some h => (s.setEntry h (s.declaredEntry p)).respond q .ok [byte h.val]

/-- DECLARE_UNIT (R59). -/
def execDeclareUnit (position : Byte) (s : State) : Host.Outcome State Fault Refusal :=
  taken (s.carriesOut (.declareUnit position)) (s.declareUnitOp position) s

/-! ### READ_UNIT -/

/-- The fields of an entry as READ_UNIT reports them, with whether the handle is the subject of the reseat in hand (R66,
R185). -/
def State.unitBytes (s : State) (h : Fin 8) : List Byte :=
  let e := s.entry h
  [e.state.code] ++ optionBytes 6 (e.uid.map uidBytes) ++ optionBytes 1 (e.position.map fun p => [byte p]) ++
    [byte e.credit, byte e.descriptorCount] ++ pendingBytes e.pendingSet ++ wordBytes (word e.cap) ++
    wordBytes (word e.charge) ++ wordBytes (word e.recordCount) ++
    [boolByte e.parting, byte e.misplaced, boolByte e.joined,
      boolByte (match s.dir.reseat with | some r => r.handle = h | none => false)]

/-- READ_UNIT (R66). -/
def execReadUnit (handle : Byte) (s : State) : Host.Outcome State Fault Refusal :=
  let q := Request.readUnit handle
  taken (s.carriesOut q)
    (match handleOf handle with
      | some h => s.respond q .ok (s.unitBytes h)
      | none => s.answer q .range) s

/-! ### RELEASE_UNIT, RESUME_UNIT -/

/-- RELEASE_UNIT (R63): a handle above 7 is answered RANGE, a FREE or LEAVING entry WRONG_STATE; otherwise the entry
departs, a talking one with cascade and owed RELEASEs. -/
def execReleaseUnit (handle : Byte) (s : State) : Host.Outcome State Fault Refusal :=
  let q := Request.releaseUnit handle
  taken (s.carriesOut q)
    (match handleOf handle with
      | none => s.answer q .range
      | some h =>
        if (s.entry h).state = .free ∨ (s.entry h).state = .leaving then s.answer q .wrongState
        else (s.depart h true true).respond q .ok []) s

/-- RESUME_UNIT (R60): a STALLED entry becomes LIVE. -/
def execResumeUnit (handle : Byte) (s : State) : Host.Outcome State Fault Refusal :=
  let q := Request.resumeUnit handle
  taken (s.carriesOut q)
    (match handleOf handle with
      | none => s.answer q .range
      | some h =>
        if (s.entry h).state = .stalled then (s.setEntry h { s.entry h with state := .live }).respond q .ok []
        else s.answer q .wrongState) s

/-! ### RESTART_CHAIN, READ_CHAIN -/

/-- The release list after a RESTART_CHAIN: empty, except for a RELEASE that is in the slot (R104). -/
def State.restartList (s : State) : List Nat :=
  match s.line.slot with
  | some t => if t.request.kind = .release then [t.request.position] else []
  | none => []

/-- The effects of RESTART_CHAIN: every talking entry enters LEAVING in one event, the release list empties, and a
broadcast RELEASE becomes owed (R104). -/
def State.restartChainOp (s : State) : State :=
  let s' := (all8.filter fun h => (s.entry h).state.onChain).foldl State.leaveOne s
  ({ s' with
      dir := { s'.dir with releaseList := s.restartList }
      rcu := { s'.rcu with broadcastOwed := true } } : State).settleAbandoned

/-- RESTART_CHAIN (R104). -/
def execRestartChain (s : State) : Host.Outcome State Fault Refusal :=
  taken (s.carriesOut .restartChain) (s.restartChainOp.respond .restartChain .ok []) s

/-- The fields of READ_CHAIN: chain state, cycle number, period, void streak, steady run, transmit polarity, whether a
broadcast is owed, talking count, and the last settled cycle's void mark, A, Ex, B and X. Until a first cycle has been
settled the last fields read 0, the period as the formed period in force and the talking count as 0 (R105; what
R185 leaves open is in log entry 6). -/
def State.chainBytes (s : State) : List Byte :=
  let acc := s.rcu.last.getD ⟨false, 0, 0, 0, 0⟩
  let settled := s.rcu.last.isSome
  [s.rcu.chain.code, s.rcu.cycleNumber] ++ wordBytes (word (if settled then s.rcu.period else s.setting 5)) ++
    [byte s.rcu.voidStreak, byte s.rcu.steadyRun, Config.polarityCode s.line.txInverted, boolByte s.rcu.broadcastOwed,
      byte (if settled then s.talkingCount else 0), boolByte acc.void, byte acc.answered, byte acc.expected] ++
    wordBytes (word acc.bad) ++ wordBytes (word acc.stray)

/-- READ_CHAIN (R105). -/
def execReadChain (s : State) : Host.Outcome State Fault Refusal :=
  taken (s.carriesOut .readChain) (s.respond .readChain .ok s.chainBytes) s

end Sys2Proof.Machine
end

