-- ==== Sys2Proof/Machine/Dispatch.lean ====
section
/-! DEFINITION. The dispatch of a command to its meaning: one arm per constructor of Instr, one direct call each. -/

namespace Sys2Proof.Machine

def exec (i : Instr) (s : State) : Host.Outcome State Fault Refusal :=
  match i with
  | .reset => Sys2Proof.Machine.execReset s
  | .settingsLoadEnd image => Sys2Proof.Machine.execSettingsLoadEnd image s
  | .statusPoll moment bytes => Sys2Proof.Machine.execStatusPoll moment bytes s
  | .submit moment frame => Sys2Proof.Machine.execSubmit moment frame s
  | .fetch moment bytes => Sys2Proof.Machine.execFetch moment bytes s
  | .lookup key => Sys2Proof.Machine.execLookup key s
  | .readRecord key => Sys2Proof.Machine.execReadRecord key s
  | .findNext cursor handleSel classValue classMask touchedOnly => Sys2Proof.Machine.execFindNext cursor handleSel classValue classMask touchedOnly s
  | .admitRecord key => Sys2Proof.Machine.execAdmitRecord key s
  | .retire key => Sys2Proof.Machine.execRetire key s
  | .declareRecord handle cls inst feed nominal flags => Sys2Proof.Machine.execDeclareRecord handle cls inst feed nominal flags s
  | .readExtension key offset length => Sys2Proof.Machine.execReadExtension key offset length s
  | .writeExtensionFirstPart key first total part data => Sys2Proof.Machine.execWriteExtensionFirstPart key first total part data s
  | .writeExtensionPart key first total part data => Sys2Proof.Machine.execWriteExtensionPart key first total part data s
  | .declareUnit position => Sys2Proof.Machine.execDeclareUnit position s
  | .readUnit handle => Sys2Proof.Machine.execReadUnit handle s
  | .releaseUnit handle => Sys2Proof.Machine.execReleaseUnit handle s
  | .resumeUnit handle => Sys2Proof.Machine.execResumeUnit handle s
  | .restartChain => Sys2Proof.Machine.execRestartChain s
  | .readChain => Sys2Proof.Machine.execReadChain s
  | .setDemand key value => Sys2Proof.Machine.execSetDemand key value s
  | .setCircuit circuit demand => Sys2Proof.Machine.execSetCircuit circuit demand s
  | .setOverride circuit mode => Sys2Proof.Machine.execSetOverride circuit mode s
  | .readCircuit circuit => Sys2Proof.Machine.execReadCircuit circuit s
  | .readPostedFault => Sys2Proof.Machine.execReadPostedFault s
  | .identify => Sys2Proof.Machine.execIdentify s
  | .readEvents => Sys2Proof.Machine.execReadEvents s
  | .clearEvents mask => Sys2Proof.Machine.execClearEvents mask s
  | .writeEnables mask => Sys2Proof.Machine.execWriteEnables mask s
  | .snapshotCounters clear => Sys2Proof.Machine.execSnapshotCounters clear s
  | .readCounters => Sys2Proof.Machine.execReadCounters s
  | .readSetting number => Sys2Proof.Machine.execReadSetting number s
  | .writeSetting number value => Sys2Proof.Machine.execWriteSetting number value s
  | .receiveFrame bytes => Sys2Proof.Machine.execReceiveFrame bytes s
  | .lineIdleTruncation bytes => Sys2Proof.Machine.execLineIdleTruncation bytes s
  | .transactionPhaseStart => Sys2Proof.Machine.execTransactionPhaseStart s
  | .transactionStart => Sys2Proof.Machine.execTransactionStart s
  | .requestFrameEnd => Sys2Proof.Machine.execRequestFrameEnd s
  | .answerTimeout => Sys2Proof.Machine.execAnswerTimeout s
  | .cycleEnd => Sys2Proof.Machine.execCycleEnd s
  | .reservationOperation => Sys2Proof.Machine.execReservationOperation s
  | .conclusionOperation => Sys2Proof.Machine.execConclusionOperation s
  | .valueItem => Sys2Proof.Machine.execValueItem s
  | .faultItem => Sys2Proof.Machine.execFaultItem s
  | .clearItem => Sys2Proof.Machine.execClearItem s
  | .withdrawnItem => Sys2Proof.Machine.execWithdrawnItem s
  | .addedItem => Sys2Proof.Machine.execAddedItem s
  | .ageingPass => Sys2Proof.Machine.execAgeingPass s
  | .refillOperation => Sys2Proof.Machine.execRefillOperation s
  | .sendOperation => Sys2Proof.Machine.execSendOperation s
  | .completionOperation => Sys2Proof.Machine.execCompletionOperation s
  | .failureOperation => Sys2Proof.Machine.execFailureOperation s
  | .drainSweeperRemoval => Sys2Proof.Machine.execDrainSweeperRemoval s
  | .attributionOperation => Sys2Proof.Machine.execAttributionOperation s
  | .sample readings => Sys2Proof.Machine.execSample readings s
  | .blinkHalfEnd => Sys2Proof.Machine.execBlinkHalfEnd s
  | .flashPhaseEnd circuit => Sys2Proof.Machine.execFlashPhaseEnd circuit s
  | .frameArrival moment preamble delimiter => Sys2Proof.Machine.execFrameArrival moment preamble delimiter s
  | .firstByteClocked moment byte => Sys2Proof.Machine.execFirstByteClocked moment byte s

end Sys2Proof.Machine
end

