-- ==== Sys2Proof/Safety.lean ====
section
/-! DEFINITION. What a safe run keeps: the laws of the state that every step preserves, in the terms the statements use,
and the short names of those terms for what the host port sees of a finished request. -/

namespace Sys2Proof.Machine

/-- A step proceeds: the machine neither faults nor refuses. -/
def State.proceeds (s : State) : Prop := ∃ t, step s = .next t

/-! ### Laws of the state -/

/-- Every setting holds a value of its range, its steps and its parity (R179, R181). -/
def State.settingsInRange (s : State) : Prop := ∀ n : Fin 131, clampSetting n.val s.settings[n] = s.settings[n]

/-- Every meter's token count is at most its depth, and its refill count below its refill setting (R88). -/
def State.metersInRange (s : State) : Prop :=
  ∀ m : Fin 4, s.line.meters[m].tokens ≤ s.meterDepth m ∧ s.line.meters[m].refill < s.meterRefill m

/-- The bytes of the Extension Store are in canonical form (R30; log entry 9). -/
def State.storeCanonical (s : State) : Prop := Memory.wf s.store.mem

/-- While a detail mask holds any bit, its flag is set (R173). -/
def State.detailsFlagged (s : State) : Prop :=
  (s.events.joinMask ≠ 0 → s.events.isSet .unitJoined = true) ∧
    (s.events.leftMask ≠ 0 → s.events.isSet .unitLeft = true) ∧
    (s.events.circuitMask ≠ 0 → s.events.isSet .circuitVerdict = true)

/-- The Demand Queue holds at most 32 entries and the work list at most 24 items (R123, R134). -/
def State.listsBounded (s : State) : Prop := s.ou.queue.length ≤ 32 ∧ itemCount s.workList ≤ 24

/-- A FREE entry has no UID, and a FREE or LEAVING entry holds no position; the UIDs present are distinct; the positions
present are distinct and lie within 1 to 6; and the new position of a reseat in hand lies within 1 to 6 and is held by no
entry (R53, R65). -/
def Directory.distinct (d : Directory) : Prop :=
  (∀ h : Fin 8, d.entries[h].state = .free → d.entries[h].uid = none) ∧
    (∀ h : Fin 8, d.entries[h].state = .free ∨ d.entries[h].state = .leaving → d.entries[h].position = none) ∧
    (∀ g h : Fin 8, g ≠ h → ∀ u, d.entries[g].uid = some u → d.entries[h].uid ≠ some u) ∧
    (∀ g h : Fin 8, g ≠ h → ∀ p, d.entries[g].position = some p → d.entries[h].position ≠ some p) ∧
    (∀ h : Fin 8, ∀ p, d.entries[h].position = some p → 1 ≤ p ∧ p ≤ 6) ∧
    ∀ r, d.reseat = some r → 1 ≤ r.toPosition ∧ r.toPosition ≤ 6 ∧
      ∀ h : Fin 8, d.entries[h].position ≠ some r.toPosition

/-- The release list holds positions 1 to 6 without duplicates, and a RELEASE in the transaction slot is for one of
them (R63). -/
def State.releasesSound (s : State) : Prop :=
  s.dir.releaseList.Nodup ∧ (∀ p ∈ s.dir.releaseList, 1 ≤ p ∧ p ≤ 6) ∧
    ∀ t, s.line.slot = some t → t.request.kind = .release → 1 ≤ t.request.position ∧ t.request.position ≤ 6

/-- The enrolled count is the number of records whose origin is ENROLLED (R1). -/
def State.enrolledCounted (s : State) : Prop :=
  s.table.enrolledCount = (s.records.filter fun p => p.2.origin = .enrolled).length

/-- A QUIET record's touched flag is clear (R8). -/
def State.quietUntouched (s : State) : Prop :=
  ∀ (i : Fin 256) (r : Record), s.table.slots[i] = some r → r.policy = .quiet → r.touched = false

/-- Every record is in the bucket its key gives under the P in force, and no two records have the same key (R10, R13). -/
def State.bucketsSound (s : State) : Prop :=
  (∀ (i : Fin 256) (r : Record), s.table.slots[i] = some r → i.val / 4 = (s.bucketOf r.key).val) ∧
    ∀ (i j : Fin 256) (r q : Record), s.table.slots[i] = some r → s.table.slots[j] = some q → r.key = q.key → i = j

/-- While the settings load runs, the table is empty, no request is present, no context is held and nothing is being
received (R1, R67, R106, R169). -/
def State.loadIdle (s : State) : Prop :=
  s.port.loading = true →
    (∀ i : Fin 256, s.table.slots[i] = none) ∧ s.table.enrolledCount = 0 ∧ s.port.nonPosted = none ∧
      s.port.posted = none ∧ s.ee = none ∧ s.line.reception = none ∧ s.workList = []

/-- The enrolled count is at most the dynamic limit (R16). -/
def State.withinLimit (s : State) : Prop := s.table.enrolledCount ≤ s.settings[(1 : Fin 131)] * 32

/-- A PENDING record is ENROLLED, has no extension, and is the one the enrolment context names (R7). -/
def State.pendingSound (s : State) : Prop :=
  ∀ (i : Fin 256) (r : Record), s.table.slots[i] = some r → r.state = .pending →
    r.origin = .enrolled ∧ r.extension = none ∧ ∃ c, s.ee = some c ∧ c.pendingKey = some r.key

/-- At most one record is PENDING (R7). -/
def State.onePending (s : State) : Prop :=
  ∀ (i j : Fin 256) (r q : Record), s.table.slots[i] = some r → s.table.slots[j] = some q → r.state = .pending →
    q.state = .pending → i = j

/-- The enrolment context agrees with the directory, the table and the transaction slot (R106, R109, R122): while it is
not abandoned its unit is JOINING in ASSIGNING and otherwise ENROLLING or LIVE; a record it names is a PENDING record of
its unit, in FETCHING or CONCLUDING, and without one it holds no block; and a transaction of the Enrolment Engine in the
slot is the context's, of the kind its phase calls for, and withdrawn exactly when the context is abandoned. -/
def State.contextSound (s : State) : Prop :=
  (∀ c, s.ee = some c →
    (c.abandoned = false →
      if c.phase = .assigning then s.dir.entries[c.handle].state = .joining
      else s.dir.entries[c.handle].state = .enrolling ∨ s.dir.entries[c.handle].state = .live) ∧
    (c.pendingKey = none → c.held = []) ∧
    ∀ k, c.pendingKey = some k → k.handle = c.handle ∧ (c.phase = .fetching ∨ c.phase = .concluding) ∧
      ∃ (i : Fin 256) (r : Record), s.table.slots[i] = some r ∧ r.key = k ∧ r.state = .pending) ∧
  ∀ x, s.line.slot = some x → x.requester = .ee →
    ∃ c, s.ee = some c ∧ x.subject = some c.handle ∧ x.withdrawn = c.abandoned ∧
      (c.abandoned = false →
        match x.request.kind with
        | .assign => c.phase = .assigning ∧ c.pendingKey = none
        | .descq => c.phase = .reading ∧ c.classification = none ∧ c.pendingKey = none
        | .extq => c.phase = .fetching
        | _ => c.phase = .concluding ∧ c.pendingKey = none)

/-- Every handle's record count is the number of its records, and a FREE or JOINING entry has none (R52, R57, R64). -/
def State.countsSound (s : State) : Prop :=
  ∀ h : Fin 8, s.dir.entries[h].recordCount = (s.records.filter fun p => p.2.key.handle = h).length ∧
    (s.dir.entries[h].state = .free ∨ s.dir.entries[h].state = .joining → s.dir.entries[h].recordCount = 0)

/-- Each of the 512 blocks is in exactly one place: on the free stack, in the chain of one record, or held by the
enrolment context (R30). -/
def State.blocksSound (s : State) : Prop :=
  ∀ b : Fin 512, s.store.free.count b + (s.records.map fun p => p.2.chain.count b).sum +
    (match s.ee with | some c => c.held.count b | none => 0) = 1

/-- Every circuit's expected current is the sum over its counted records (R149). -/
def State.expectedSound (s : State) : Prop :=
  ∀ k : Fin 8, s.lcm.circuits[k].expected =
    min 4095 (((s.records.filter fun p => p.2.feed = .circuit k && p.2.state ≠ .pending &&
      s.dir.entries[p.2.key.handle].state ≠ .leaving).map fun p => p.2.nominal).sum)

/-! ### What the host port sees of a finished request -/

/-- The state with a response placed for a non-posted request that has finished (R163). -/
def State.hostAnswered (s : State) (kind : Byte) (result : Result) (payload : List Byte) : State :=
  { s with port := { s.port with response := some ⟨result, kind, payload⟩, nonPosted := none, order := none } }

/-- The state after the arbiter has granted the Host Port (R20). -/
def State.hostGranted (s : State) : State := { s with table := { s.table with lastGrantHost := true } }

/-- The state with the posted slot emptied (R165). -/
def State.postedDone (s : State) : State := { s with port := { s.port with posted := none, order := none } }

/-- The state with a posted fault placed: an empty holding record takes it, a full one sets its overrun flag, and
POSTED_FAULT is set (R166). -/
def State.postedFault (s : State) (kind : Byte) (subject : Option Word) (reason : Result) : State :=
  { s with
    events := { s.events with flags := s.events.flags ||| 0x100 }
    port :=
      { s.port with
        fault := if s.port.fault = none then some ⟨kind, subject, reason⟩ else s.port.fault
        overrun := s.port.fault.isSome } }

/-- The code of a record's state as a read reports it: RETIRING 3 while its unit is LEAVING (R6, R185). -/
def State.reportedAs (s : State) (r : Record) : Byte :=
  if s.dir.entries[r.key.handle].state = .leaving then 3
  else match r.state with | .pending => 0 | .active => 1 | .held => 2

/-- The condition flags of a record: bits 0 fault, 1 suspect, 2 stale, 3 ext_withheld, 4 touched (R185). -/
def Record.conditionsAs (r : Record) : Byte :=
  BitVec.ofNat 8 (r.fault.toNat + 2 * r.suspect.toNat + 4 * r.stale.toNat + 8 * r.extWithheld.toNat +
    16 * r.touched.toNat)

/-! ### Settings -/

/-- The lowest value, the highest value and the default of each setting, in the order of the setting numbers (R179, R42;
the flash mask is a byte, and that its bit 6 stands for circuit 6, the default, is log entry 36). -/
def settingTable : List (Nat × Nat × Nat) :=
  [(1, 255, 7), (0, 8, 7), (0, 1, 0), (1, 15, 4), (0, 1, 1), (50, 200, 100), (100, 500, 250), (1, 255, 20), (1, 15, 3),
    (1, 15, 2), (0, 63, 10), (1, 15, 3), (0, 3, 2), (0, 1, 1), (0, 3, 0), (1, 64, 1), (0, 512, 96), (400, 1000, 670),
    (0, 7, 3), (0, 255, 64), (0, 1, 0)] ++
    List.replicate 4 (1, 15, 4) ++ List.replicate 4 (1, 16, 5) ++ List.replicate 6 (0, 3, 0) ++
    (List.replicate 8 [(0, 1, 0), (0, 63, 0), (0, 63, 0), (0, 15, 0), (0, 15, 0), (0, 3, 0), (1, 64, 16),
      (0, 1, 1)]).flatten ++
    (List.replicate 8 [(10, 150, 40), (0, 50, 15), (1, 255, 8), (1, 7, 3)]).flatten

/-! ### Transfers on the host port -/

/-- A transfer of a kind is there to be ended, having shifted out `status` in its first byte and left the discarded mark
as `marked`: one whose first byte has been clocked, or, with none open, one whose first byte is clocked now, under the
status byte composed at its fall of HCS_N (R156, R158, R159; log entry 4). -/
def State.transferStands (s : State) (kind : TransferKind) (status : Byte) (marked : Bool) : Prop :=
  match s.port.transfer with
  | some x => x.kind = kind ∧ status = x.status ∧ marked = s.port.discarded
  | none => status = s.port.fallen.getD s.statusByte ∧ marked = (s.port.discarded && !status.getLsbD 4)

/-- The frame a fetch shifts out, and whether it is the waiting response: the frame fixed at its first byte, or, with no
transfer open, the response that waits now, or NONE (R164, R185). -/
def State.fetched (s : State) : List Byte × Bool :=
  match s.port.transfer, s.port.response with
  | some x, _ => (x.frame, x.response)
  | none, some r => ([r.result.code, r.kind, byte r.payload.length] ++ r.payload, true)
  | none, none => ([0x0E, 0x00, 0x00], false)

/-- The payload lengths a kind code allows; none for a code that names no request (R185). -/
def requestLengths (kind : Byte) : List Nat :=
  match kind.toNat with
  | 0x14 | 0x15 | 0x30 | 0x31 | 0x32 | 0x36 => [0]
  | 0x10 | 0x11 | 0x12 | 0x13 | 0x23 | 0x35 | 0x37 => [1]
  | 0x01 | 0x02 | 0x04 | 0x05 | 0x21 | 0x22 | 0x33 | 0x34 => [2]
  | 0x38 => [3]
  | 0x07 | 0x20 => [4]
  | 0x03 => [5]
  | 0x06 => [7]
  | 0x08 => (List.range 33).map (· + 6)
  | _ => []

/-! ### What a change of the table does around it -/

/-- A record as an operation that changes it leaves it, and the event flags: touched and RECORD_CHANGED are set when the
change counts and the applied policy is not QUIET (R8). -/
def Record.changedTo (r : Record) (changed : Bool) : Record :=
  { r with touched := r.touched || (changed && r.policy ≠ .quiet) }

/-- The event flags after an operation that changes a record (R8). -/
def State.eventsAfterChange (s : State) (r : Record) (changed : Bool) : EventUnit :=
  if changed && r.policy ≠ .quiet then { s.events with flags := s.events.flags ||| 0x20 } else s.events

/-- The Lamp Circuit Monitor after notice of the circuit of a feed: E follows the table that the operation leaves; where
it changes, the streak and the candidate are dropped and tol is recomputed; every other circuit stays (R14, R149,
R150). -/
def noticed (s t : State) (feed : Feed) : Prop :=
  t.lcm.blink = s.lcm.blink ∧ t.lcm.nextSample = s.lcm.nextSample ∧
    (∀ k : Fin 8, feed ≠ .circuit k → t.lcm.circuits[k] = s.lcm.circuits[k]) ∧
    ∀ k : Fin 8, feed = .circuit k →
      t.lcm.circuits[k] =
        if t.expectedCurrent k = s.lcm.circuits[k].expected then s.lcm.circuits[k]
        else
          { s.lcm.circuits[k] with
            expected := t.expectedCurrent k
            streak := 0
            candidate := none
            tol := max (t.expectedCurrent k * s.tolpct k / 100) (s.tolmin k) }

/-- The state once the transaction engine has a transaction to send in the slot (R82, R83, R84): it is sent, from the
end of the head's latest frame on, if the frame time and the answer timeout end before the guard of an open transaction
phase, and is otherwise held. A sending raises the attempt count and keeps the answer timeout it was sent under (log
entry 19); one after the first counts in retries. A frame being received when a sending starts is lost (log entry 11);
the guard is log entry 18. -/
def State.sentOrHeld (s : State) (x : Transaction) : State :=
  let start := max s.now s.line.txEnd
  let ends := start + (x.request.payload.length + 7) * 40
  if s.rcu.phaseOpen = true ∧
      ends + s.settings[(11 : Fin 131)] * 1000 + 2000 < s.rcu.cycleStart + s.rcu.period * 1000 then
    let t : State :=
      { s with
        line :=
          { s.line with
            reception := none
            slot := some { x with attempts := x.attempts + 1, attempt := .sending ends (s.settings[(11 : Fin 131)] * 1000) }
            txEnd := ends
            lineOut := s.line.lineOut ++ [x.request.bytes s.line.txInverted] } }
    if x.attempts = 0 then t else t.count .retries
  else { s with line := { s.line with slot := some { x with attempt := .held } } }

/-- A record's removal (R15): its slot empties and an ENROLLED one leaves the enrolled count, `blocks` return to the top
of the stack, the Demand Queue loses the entry of its key and its handle's waiting count a WAITING record, and an
in-flight note that names it is marked gone, or cleared where its outcome was waiting to be applied. The rest of the
store, the queue's pointer, what a refill has noted (log entry 29) and every other handle's count stay. -/
def removed (s t : State) (i : Fin 256) (r : Record) (blocks : List (Fin 512)) : Prop :=
  t.table.slots = s.table.slots.set i none ∧
    t.table.enrolledCount = (if r.origin = .enrolled then s.table.enrolledCount - 1 else s.table.enrolledCount) ∧
    t.store = { s.store with free := blocks ++ s.store.free } ∧
    t.ou.queue = s.ou.queue.filter (· ≠ r.key) ∧
    (∀ g : Fin 8, t.ou.waiting[g] =
      if g = r.key.handle ∧ r.demandState = some .waiting then s.ou.waiting[g] - 1 else s.ou.waiting[g]) ∧
    t.ou.note =
      (match s.ou.note with
      | none => none
      | some n =>
        if n.key = r.key ∧ n.gone = false then (if n.outcome = none then some { n with gone := true } else none)
        else some n) ∧
    t.ou.pointer = s.ou.pointer ∧ t.ou.refillStop = s.ou.refillStop

/-- The state after a grant to a user of the table that is not the Host Port: the arbiter's mark clears, and its pointer
moves to the place granted (R20, R21). -/
def State.grantedTo (s : State) (p : Place) (user : RhUser) : State :=
  { s with
    table :=
      { s.table with
        lastGrantHost := false, pointer := p, rhServedLast := if p = .rh then user else s.table.rhServedLast } }

/-- The output of a circuit as R141's table decides it. -/
def outputOf (mode : Override) (flash : Option Flash) (demand : CircuitDemand) (onHalf : Bool) : Bool :=
  match mode, flash, demand with
  | .forceOn, _, _ => true
  | .forceOff, _, _ => false
  | .normal, some f, _ => f.on
  | .normal, none, .on => true
  | .normal, none, .off => false
  | .normal, none, .blink => onHalf

/-- A circuit whose output has become `out` at a moment (R141): off to on starts the on-time, on to off drops the streak
and the candidate, and an output that stays changes nothing. -/
def Circuit.withOutput (c : Circuit) (out : Bool) (moment : Nat) : Circuit :=
  match c.output, out with
  | false, true => { c with output := true, onSince := moment }
  | true, false => { c with output := false, streak := 0, candidate := none }
  | _, _ => c

/-! ### The enrolment context -/

/-- The context ends: the Enrolment Engine is idle, and a FORMING chain becomes FORMED while a talking entry exists, and
otherwise DORMANT, with CHAIN_STATE (R101, R103, R106). -/
def State.contextDone (s : State) : State :=
  if s.rcu.chain = .forming then
    { s with
      ee := none
      rcu :=
        if ∃ g : Fin 8, s.dir.entries[g].state.onChain = true then { s.rcu with chain := .formed, steadyRun := 0 }
        else { s.rcu with chain := .dormant }
      events := { s.events with flags := s.events.flags ||| 0x80 } }
  else { s with ee := none }

/-- Whether the transaction slot holds a transaction of the Enrolment Engine (R80). -/
def State.eeInSlot (s : State) : Bool :=
  match s.line.slot with
  | some x => x.requester = .ee
  | none => false

/-- An abandoned context ends once the slot holds no transaction of it and it names no PENDING record (R122). -/
def State.settledContext (s : State) : State :=
  match s.ee with
  | some c => if c.abandoned = true ∧ c.pendingKey = none ∧ s.eeInSlot = false then s.contextDone else s
  | none => s

/-- A unit joins: its joined mark, UNIT_JOINED with its join bit, and a confirmation flash of the flash count on every
circuit of the flash mask whose override is NORMAL, each in an ON phase of 300 ms (R58, R143, R144, R173; that bit k of
the mask names circuit k is log entry 36). -/
def State.unitJoined (s : State) (h : Fin 8) : State :=
  { s with
    dir := { s.dir with entries := s.dir.entries.set h { s.dir.entries[h] with joined := true } }
    events :=
      { s.events with
        flags := s.events.flags ||| 0x01, joinMask := s.events.joinMask ||| BitVec.ofNat 8 (2 ^ h.val) }
    lcm :=
      { s.lcm with
        circuits := Vector.ofFn fun k : Fin 8 =>
          let x := s.lcm.circuits[k]
          let n := s.settings[(18 : Fin 131)]
          if s.settings[(19 : Fin 131)].testBit k.val = true ∧ x.mode = .normal ∧ n ≠ 0 then
            ({ x with flash := some ⟨n, true, s.now + 300000⟩ } : Circuit).withOutput true s.now
          else x } }

/-- What follows in the event that empties the pending set of an ENROLLING or LIVE unit: it is LIVE, and it joins if its
joined mark is off (R58). -/
def State.setEmptied (s : State) (h : Fin 8) : State :=
  let e := s.dir.entries[h]
  if e.state = .enrolling ∨ e.state = .live then
    let s' : State := { s with dir := { s.dir with entries := s.dir.entries.set h { e with state := .live } } }
    if e.joined then s' else s'.unitJoined h
  else s

/-- The context of a unit takes its next descriptor: the lowest index of the pending set, in READING with every other
field clear; with the set empty the unit completes and the context ends (R110, R119). -/
def State.nextTaken (s : State) (h : Fin 8) : State :=
  match (List.finRange 64).find? fun i => s.dir.entries[h].pendingSet.getLsbD i.val with
  | some i =>
    { s with ee := some ⟨h, .reading, some (BitVec.ofNat 6 i.val), none, none, none, [], false, 0, none, false⟩ }
  | none => (s.setEmptied h).contextDone

/-- An index leaves the pending set of a unit, once its descriptor is finished with (R110). -/
def State.indexGone (s : State) (h : Fin 8) (i : BitVec 6) : State :=
  let e := s.dir.entries[h]
  { s with
    dir :=
      { s.dir with
        entries := s.dir.entries.set h { e with pendingSet := e.pendingSet &&& ~~~BitVec.ofNat 64 (2 ^ i.toNat) } } }

/-! ### Departure -/

/-- Whether an element of the work list is an item of one of some handles. -/
def WorkEntry.ofHandles (leaves : Fin 8 → Bool) : WorkEntry → Bool
  | .item it => leaves it.handle
  | .mark _ => false

/-- The items of some handles leave the work list, each counted in items_unknown (R124). -/
def State.purged (s : State) (leaves : Fin 8 → Bool) : State :=
  ({ s with workList := s.workList.filter fun w => !w.ofHandles leaves } : State).countTimes .itemsUnknown
    (s.workList.filter (·.ofHandles leaves)).length

/-- Whether a transaction's subject is one of some handles; a RELEASE has none (R80, R86). -/
def Transaction.about (x : Transaction) (leaves : Fin 8 → Bool) : Bool := x.subject.any leaves

/-- Entries that are neither FREE nor LEAVING leave together in one event (R61), from s to t; the end of an abandoned
context is judged after it (`settledContext`), and RELEASEs are owed apart. -/
structure Left (s t : State) (leaves : Fin 8 → Bool) : Prop where
  /-- Nothing but what the other fields say changes. -/
  rest : t = { s with
    dir := t.dir, line := { s.line with slot := t.line.slot }, ee := t.ee, workList := (s.purged leaves).workList,
    ou := { s.ou with queue := s.ou.queue.filter fun k => !leaves k.handle, note := t.ou.note }, lcm := t.lcm,
    events := t.events, counters := (s.purged leaves).counters }
  /-- Each is LEAVING without position, credit, pending set and streak, or FREE with nothing to drain (R61, R64). -/
  entries : ∀ g : Fin 8, t.dir.entries[g] =
    if leaves g = false then s.dir.entries[g]
    else if s.dir.entries[g].recordCount = 0 ∧ s.dir.entries[g].charge = 0 then Entry.empty
    else
      { s.dir.entries[g] with state := .leaving, position := none, credit := 0, pendingSet := 0, misplaced := 0 }
  /-- The release list stays. -/
  releases : t.dir.releaseList = s.dir.releaseList
  /-- A reseat in hand for one of them is dropped (R61, R65). -/
  reseat : t.dir.reseat = match s.dir.reseat with | some r => if leaves r.handle then none else some r | none => none
  /-- A transaction about one of them leaves the slot if it is not on the line, and is otherwise withdrawn (R86). -/
  slot : t.line.slot =
    match s.line.slot with
    | some x =>
      if x.about leaves then (if x.attempt = .held then none else some { x with withdrawn := true }) else some x
    | none => none
  /-- A SETPOINT that leaves the slot so clears the in-flight note (R86, R137). -/
  note : t.ou.note =
    match s.line.slot with
    | some x => if x.about leaves ∧ x.attempt = .held ∧ x.requester = .ou then none else s.ou.note
    | none => s.ou.note
  /-- The context of one of them is abandoned, with a classification in hand only while it names a PENDING record
  (R122). -/
  context : t.ee =
    match s.ee with
    | some c =>
      if leaves c.handle then
        some { c with abandoned := true, classification := if c.pendingKey = none then none else c.classification }
      else some c
    | none => none
  /-- UNIT_LEFT is raised with the left bit of each that is FREE at once (R64, R173). -/
  events : (let freed (g : Fin 8) : Bool :=
      leaves g && s.dir.entries[g].recordCount = 0 && s.dir.entries[g].charge = 0
    t.events = { (s.purged leaves).events with flags := t.events.flags, leftMask := t.events.leftMask } ∧
    t.events.flags = (s.purged leaves).events.flags ||| (if ∃ g, freed g = true then 0x02 else 0) ∧
    ∀ g : Fin 8, t.events.leftMask.getLsbD g.val = (s.events.leftMask.getLsbD g.val || freed g))
  /-- Every circuit takes notice of the records that are counted no longer, in a state whose expected currents and
  record counts agree with the table (R14, R149, R150). -/
  circuits : t.lcm.blink = s.lcm.blink ∧ t.lcm.nextSample = s.lcm.nextSample ∧
    (s.expectedSound → s.countsSound → ∀ k : Fin 8, t.lcm.circuits[k] =
      if t.expectedCurrent k = s.lcm.circuits[k].expected then s.lcm.circuits[k]
      else
        { s.lcm.circuits[k] with
          expected := t.expectedCurrent k
          streak := 0
          candidate := none
          tol := max (t.expectedCurrent k * s.tolpct k / 100) (s.tolmin k) })

/-- The entries that leave with a departing one: itself, and for a talking one every entry at a greater position that is
neither FREE nor LEAVING (R62). -/
def State.cascade (s : State) (h : Fin 8) : Fin 8 → Bool := fun g =>
  g = h ||
    (s.dir.entries[h].state ≠ .declared && s.dir.entries[g].state ≠ .free && s.dir.entries[g].state ≠ .leaving &&
      match s.dir.entries[h].position, s.dir.entries[g].position with
      | some p, some q => p < q
      | _, _ => false)

/-- The positions that the talking ones among some departing entries are owed a RELEASE for, rearmost first, but for those
on the release list (R63). -/
def State.owes (s : State) (leaves : Fin 8 → Bool) (owed : List Nat) : Prop :=
  owed.Pairwise (· > ·) ∧ ∀ p, p ∈ owed ↔ 1 ≤ p ∧ p ≤ 6 ∧ p ∉ s.dir.releaseList ∧
    ∃ g : Fin 8, leaves g = true ∧ s.dir.entries[g].state.onChain = true ∧ s.dir.entries[g].position = some p

/-- A departure with cascade and owed RELEASEs, from s to t: a host release or an enrolment failure (R61 to R63, R113). -/
def State.releasedTo (s t : State) (h : Fin 8) : Prop :=
  ∃ u owed, Left s u (s.cascade h) ∧ s.owes (s.cascade h) owed ∧
    t = ({ u with dir := { u.dir with releaseList := s.dir.releaseList ++ owed } } : State).settledContext

/-- A departure with cascade for which no RELEASE is owed, from s to t: a re-announce or fast leave (R54, R61, R100). -/
def State.cascadedTo (s t : State) (h : Fin 8) : Prop := ∃ u, Left s u (s.cascade h) ∧ t = u.settledContext

/-! ### The end of a transaction -/

/-- A JOINING entry whose ASSIGN has failed is FREE at once; its items leave the work list and its context ends (R57,
R109, R124). -/
def State.joiningFreed (s : State) (h : Fin 8) : State :=
  (({ s with dir := { s.dir with entries := s.dir.entries.set h Entry.empty } } : State).purged (· = h)).contextDone

/-- The classification of a descriptor (R43 to R46): with no filter matching the default policy, an interval of 16 raised
to the floor and the lamp check on; otherwise the most restrictive policy, the smallest interval raised to the floor,
and the lamp check if any matching filter has it on. -/
def State.classified (s : State) (cls : BitVec 6) (flags : DescFlags) (cl : Classification) : Prop :=
  let field (f : Fin 8) (i : Fin 8) : Nat := s.settings[35 + 8 * f.val + i.val]
  let floor := s.settings[(15 : Fin 131)]
  let hit (f : Fin 8) : Prop := field f 0 = 1 ∧
    cls &&& BitVec.ofNat 6 (field f 2) = BitVec.ofNat 6 (field f 1) &&& BitVec.ofNat 6 (field f 2) ∧
    flags &&& BitVec.ofNat 4 (field f 4) = BitVec.ofNat 4 (field f 3) &&& BitVec.ofNat 4 (field f 4)
  ((∀ f, ¬ hit f) → cl = ⟨policyOf s.settings[(14 : Fin 131)], max floor 16, true⟩) ∧
  ((∃ f, hit f) →
    (∃ f, hit f ∧ cl.policy = policyOf (field f 5) ∧ ∀ g, hit g → field g 5 ≤ field f 5) ∧
    (∃ f, hit f ∧ cl.interval = max floor (field f 6) ∧ ∀ g, hit g → field f 6 ≤ field g 6) ∧
    (cl.lampCheck = true ↔ ∃ f, hit f ∧ field f 7 = 1))

/-- The answer to a DESCQ, from s to t: a descriptor in range is classified, REFUSE counting in descriptors_refused and
readying its verdict, any other policy waiting for the reservation; one out of range is an enrolment failure (R112 to
R114). -/
def State.descriptorRead (s t : State) (c : Context) (payload : List Byte) : Prop :=
  ∀ (j : BitVec 6) (i cls inst fl fd m1 m0 x1 x0 : Byte), c.index = some j →
    payload = [i, cls, inst, fl, fd, m1, m0, x1, x0] →
    let inRange (f : Feed) : Prop :=
      i.toNat = j.toNat ∧ cls.toNat < 64 ∧ inst.toNat < 128 ∧ fl.toNat < 16 ∧ f.code = fd
    (∀ f : Feed, inRange f →
      let d : Descriptor := ⟨cls.truncate 6, inst.truncate 7, fl.truncate 4, f, min 1023 (ofBytes m1 m0).toNat,
        min 256 (ofBytes x1 x0).toNat⟩
      ∃ cl, s.classified d.cls d.flags cl ∧
        t =
          if cl.policy = .refuse then
            ({ s with
                ee := some
                  { c with descriptor := some d, phase := .concluding, verdict := some (.refused .policy) } } :
              State).count .descriptorsRefused
          else { s with ee := some { c with descriptor := some d, classification := some cl } }) ∧
    ((∀ f : Feed, ¬ inRange f) → s.releasedTo t c.handle)

/-- The answer to an EXTQ for a record that is still there, from s to t: the 32 bytes of the segment asked for go into the
held block at its chain position, those beyond the extension left out, and the next segment or the conclusion follows;
another index or segment is a failed fetch (R35, R116). -/
def State.segmentTaken (s t : State) (c : Context) (payload : List Byte) : Prop :=
  ∀ (i seg : Byte) (data : List Byte) (d : Descriptor) (j : BitVec 6), payload = i :: seg :: data → data.length = 32 →
    c.descriptor = some d → c.index = some j → s.storeCanonical →
    if i.toNat = j.toNat ∧ seg.toNat = c.nextSegment then
      t = { s with
        store := t.store
        ee := some
          { c with
            nextSegment := c.nextSegment + 1
            phase := if c.nextSegment + 1 = c.held.length then .concluding else .fetching } } ∧
      t.store.free = s.store.free ∧
      ∀ a, c.nextSegment < c.held.length → Memory.read t.store.mem a =
        if a / 32 = (c.held.getD c.nextSegment 0).val ∧ 32 * c.nextSegment + a % 32 < d.extLength then
          data.getD (a % 32) 0
        else Memory.read s.store.mem a
    else t = { s with ee := some { c with withheld := true, phase := .concluding } }

/-- What the Enrolment Engine does at the end of a transaction of its context, from s, where the slot is empty, to t
(R57, R109, R111 to R113, R116, R118, R121, R122). -/
def State.contextTold (s t : State) (kind : HeadKind) (o : Ending) (c : Context) : Prop :=
  let h := c.handle
  let e := s.dir.entries[h]
  match kind, o with
  | _, .withdrawn => t = s.settledContext
  | .assign, .answered _ =>
    t = ({ s with
      dir :=
        { s.dir with
          entries := s.dir.entries.set h
            { e with state := .enrolling, pendingSet := BitVec.ofNat 64 (2 ^ e.descriptorCount - 1) } } } :
      State).nextTaken h
  | .assign, _ => t = s.joiningFreed h
  | .descq, .answered payload => s.descriptorRead t c payload
  | .descq, .declined => ∀ i, c.index = some i → t = (s.indexGone h i).nextTaken h
  | .descq, .failed => s.releasedTo t h
  | .extq, .answered payload => if c.pendingKey = none then t = s.nextTaken h else s.segmentTaken t c payload
  | .extq, _ =>
    if c.pendingKey = none then t = s.nextTaken h
    else t = { s with ee := some { c with withheld := true, phase := .concluding } }
  | _, _ => ∀ i, c.index = some i → t = (s.indexGone h i).nextTaken h

/-- What the requester of an ended transaction does with its outcome, from s, where the slot is empty, to t: the Output
Unit keeps the outcome of a SETPOINT for its record, or clears the note of one gone or withdrawn (R137); the Unit
Directory drops the head of the release list, however its RELEASE ended (R63), and moves a reseated entry at DONE, and
otherwise leaves it in place (R65); the Enrolment Engine goes on with its context. -/
def State.toldTo (s t : State) (x : Transaction) (o : Ending) : Prop :=
  match x.requester with
  | .ou =>
    t = { s with
      ou :=
        { s.ou with
          note := s.ou.note.bind fun n =>
            if n.gone = true ∨ o = .withdrawn then none
            else some { n with outcome := some (match o with | .answered _ => .done | _ => .failed) } } }
  | .ud =>
    if x.request.kind = .release then t = { s with dir := { s.dir with releaseList := s.dir.releaseList.tail } }
    else if o = .withdrawn then t = s
    else ∀ r, s.dir.reseat = some r → s.dir.entries[r.handle].state.onChain = true →
      let e := s.dir.entries[r.handle]
      let settled (e' : Entry) : State :=
        { s with dir := { s.dir with entries := s.dir.entries.set r.handle e', reseat := none } }
      match o with
      | .answered _ =>
        t = ({ settled { e with position := some r.toPosition, misplaced := 0 } with
          events := { s.events with flags := s.events.flags ||| 0x04 } } : State)
      | _ => t = settled { e with misplaced := 0 }
  | .ee =>
    ∀ c, s.ee = some c → s.dir.entries[c.handle].state.onChain = true ∨ o = .withdrawn →
      s.contextTold t x.request.kind o c

/-! ### Received frames -/

/-- The bytes of a frame after its delimiter: header, payload and CRC (R68, R69, R184). -/
def frameBytes (kind hop : Nat) (fromNode : Bool) (position : Nat) (payload : List Byte) : List Byte :=
  let covered := BitVec.ofNat 8 (16 * kind + 2 * hop + fromNode.toNat) :: BitVec.ofNat 8 position ::
    BitVec.ofNat 8 payload.length :: payload
  covered ++ [hiByte (crc16 covered), loByte (crc16 covered)]

/-- A reception takes bytes in the sense it came in: every byte inverted where the frame arrived inverted, which is taken
only with auto polarity, setting 13, on (R73). -/
def State.carries (s : State) (rx : Reception) (bytes sent : List Byte) : Prop :=
  s.line.reception = some rx ∧ sent = (if rx.inverted then bytes.map (~~~·) else bytes) ∧
    (rx.inverted = true → s.settings[(13 : Fin 131)] = 1)

/-- The state after a good frame of n payload bytes has ended, before its placement: the reception is over, it counts in
frames_good, and the polarity run and the transmit polarity follow the sense it came in (R70, R71, R73). -/
def State.afterGood (s : State) (rx : Reception) (n : Nat) : State :=
  let counted := s.count .framesGood
  { counted with
    now := max s.now (rx.arrival + 40 * (n + 5))
    line :=
      { s.line with
        reception := none
        txInverted := if rx.inverted ≠ s.line.txInverted ∧ 1 ≤ s.line.run then !s.line.txInverted else s.line.txInverted
        run := if rx.inverted ≠ s.line.txInverted ∧ s.line.run = 0 then 1 else 0 } }

/-- The state after a frame has been placed misplaced or out-of-slot: one stray frame of the cycle, counted in
frames_stray (R79). -/
def State.afterStray (s : State) : State :=
  ({ s with rcu := { s.rcu with stray := s.rcu.stray + 1 } } : State).count .framesStray

/-- Whether an arrival falls in slot window p: its start included, its end not (R75). -/
def State.inWindow (s : State) (arrival p : Nat) : Prop :=
  1 ≤ p ∧ p ≤ 6 ∧ s.rcu.cycleStart + 360 + (p - 1) * 1500 ≤ arrival ∧ arrival < s.rcu.cycleStart + 360 + p * 1500

/-- Whether an arrival falls in the open window (R75). -/
def State.inOpen (s : State) (arrival : Nat) : Prop :=
  s.rcu.cycleStart + 360 + 9000 ≤ arrival ∧ arrival < s.rcu.cycleStart + 360 + 12000

/-- Whether an answer frame matches a transaction (R78). -/
def Transaction.answeredBy (x : Transaction) (arrival kind hop position : Nat) (payload : List Byte) : Prop :=
  (∃ deadline, x.attempt = .awaiting deadline ∧ arrival ≤ deadline) ∧ kind ∈ x.request.kind.answers ∧
    (0xD ≤ kind → payload.head? = some (BitVec.ofNat 8 x.request.kind.code)) ∧ position = x.answerPosition ∧
    hop + 1 = x.answerPosition

/-! ### Items and announces -/

/-- The kind of item a code names (R184). -/
def itemKindNamed (code : Byte) : Option ItemKind :=
  match code.toNat with
  | 1 => some .value
  | 2 => some .fault
  | 3 => some .clear
  | 4 => some .withdrawn
  | 5 => some .added
  | _ => none

/-- The items of a claimed PRESENT, each its kind code, class, instance and value, offered to the work list under the
handle of an entry on the chain: those whose code names a kind join it in order while it holds fewer than 24 items, and
count in items_lost past that; the others count in items_unknown (R123). -/
def State.offered (s : State) (h : Fin 8) (items : List (Byte × Byte × Byte × Word)) : State :=
  let known := items.filterMap fun x =>
    (itemKindNamed x.1).map fun k => WorkEntry.item ⟨h, k, x.2.1, x.2.2.1, x.2.2.2⟩
  let room := 24 - itemCount s.workList
  (({ s with workList := s.workList ++ known.take room } : State).countTimes .itemsUnknown
    (items.length - known.length)).countTimes .itemsLost (known.length - room)

/-- The directory's judgement of an announce that has passed its meter, from s to t: the UID check, which puts a matched
entry that is neither JOINING nor LEAVING into LEAVING with cascade (R54); the checks of the derived position q (R55);
and the allocation of the lowest FREE handle, whose context the Enrolment Engine takes (R56, R101, R107). -/
def State.announced (s t : State) (uid : Uid) (n q : Nat) : Prop :=
  let deferred (u : State) : State := u.count .announcesDeferred
  let raised (flag : BitVec 13) : State := { s with events := { s.events with flags := s.events.flags ||| flag } }
  let bears (g : Fin 8) : Prop := s.dir.entries[g].state ≠ .free ∧ s.dir.entries[g].uid = some uid
  let holds (g : Fin 8) : Prop := s.dir.entries[g].state ≠ .free ∧ s.dir.entries[g].position = some q
  (∀ g : Fin 8, bears g → (∀ k, bears k → k = g) →
    if s.dir.entries[g].state = .joining ∨ s.dir.entries[g].state = .leaving then t = deferred s
    else ∃ u, s.cascadedTo u g ∧ t = deferred u) ∧
  ((∀ g, ¬ bears g) →
    let listed : Prop := q ∈ s.dir.releaseList ∨ ∃ r, s.dir.reseat = some r ∧ r.toPosition = q
    (6 < q → t = deferred s) ∧
    (q ≤ 6 → ∀ g, holds g → (∀ k, holds k → k = g) →
      t = deferred (if s.dir.entries[g].state = .declared then raised 0x400 else s)) ∧
    (q ≤ 6 → (∀ g, ¬ holds g) →
      (listed ∨ s.ee ≠ none → t = deferred s) ∧
      (¬ listed → s.ee = none →
        ((∀ h : Fin 8, s.dir.entries[h].state ≠ .free) → t = deferred (raised 0x200)) ∧
        ∀ h : Fin 8, s.dir.entries[h].state = .free → (∀ g : Fin 8, g < h → s.dir.entries[g].state ≠ .free) →
          let c : ChainState := if s.rcu.chain = .disturbed then .disturbed else .forming
          t = { s with
            dir :=
              { s.dir with
                entries := s.dir.entries.set h
                  { Entry.empty with
                    state := .joining
                    uid := some uid
                    position := some q
                    credit := s.settings[(3 : Fin 131)]
                    descriptorCount := min 64 n
                    cap := s.settings[(16 : Fin 131)]
                    fresh := true } }
            ee := some ⟨h, .assigning, none, none, none, none, [], false, 0, none, false⟩
            rcu := { s.rcu with chain := c }
            events := if c = s.rcu.chain then s.events else { s.events with flags := s.events.flags ||| 0x80 } })))

end Sys2Proof.Machine
end

