-- ==== Sys2Proof/Certificates/Slice0/Obligations.lean ====
section
/-! DEFINITION. The statements about the CL46 that are to be proved. Each docstring names the rules it formalises; where
a clause rests on a choice of the model it names the log entry. -/

open Sys2Proof Sys2Proof.Machine

/-! ### The queue of commands -/

/-- The step takes the command at the front of the queue and carries it out with the rest waiting; with no command
waiting it changes nothing, which is the model's choice (log entry 5). -/
def Obligations.StepTakesFront : Prop :=
  (∀ (c : Instr) (rest : List Instr) (s : State),
    step { s with pending := c :: rest } = exec c { s with pending := rest }) ∧
  ∀ s : State, s.pending = [] → step s = .next s

/-- Every command, in every state, answers a next state and leaves the waiting commands as they are: no rule of the spec
gives a command an effect to stop on (that a command is carried out in any state is log entry 1). -/
def Obligations.EveryCommandCompletes : Prop :=
  ∀ (c : Instr) (s : State), ∃ t, exec c s = .next t ∧ t.pending = s.pending

/-! ### Start-up -/

/-- RESET returns every block to the reset values the spec gives it (R1, R20, R21, R30, R31, R52, R73, R80, R88, R106,
R93, R105, R123, R134, R136, R140, R157, R172 to R174, R177, R178, R182): the cycle's counts and marks are cleared, and a
transfer, a reception, a turn and a settled account are lost. The waiting commands stay (log entry 13). A field that no
rule gives a reset value, a time or an observed output, has the one of the machine right after reset (log entry 30; the
flash mask's default as a byte is log entry 36). -/
def Obligations.ResetRestoresEveryBlock : Prop :=
  ∀ s : State, ∃ t, exec .reset s = .next t ∧ t.pending = s.pending ∧
    t = { State.reset with pending := s.pending } ∧
    (∀ n : Fin 131, t.settings[n] = settingDefault n.val) ∧ t.loader.marker = 0 ∧ t.loader.fromImage = false ∧
    (∀ i : Fin 256, t.table.slots[i] = none) ∧ t.table.enrolledCount = 0 ∧ t.table.lastGrantHost = false ∧
    t.table.pointer = .sweeper ∧ t.table.rhServedLast = .lcm ∧
    t.store.free.length = 512 ∧ (∀ b : Fin 512, t.store.free[b.val]? = some b) ∧
    (∀ h : Fin 8, t.dir.entries[h] = Entry.empty) ∧ t.dir.releaseList = [] ∧ t.dir.reseat = none ∧
    t.line.txInverted = false ∧ t.line.run = 0 ∧ t.line.slot = none ∧ t.line.turn = .ud ∧
    (∀ m : Fin 4, t.line.meters[m].tokens = settingDefault (21 + m.val) ∧ t.line.meters[m].refill = 0) ∧
    t.rcu.chain = .dormant ∧ t.rcu.cycleNumber = 0 ∧ t.rcu.voidStreak = 0 ∧ t.rcu.steadyRun = 0 ∧
    t.rcu.broadcastOwed = false ∧ t.rcu.bad = 0 ∧ t.rcu.stray = 0 ∧ t.rcu.takenAnnounce = false ∧ t.rcu.placed = [] ∧
    t.rcu.last = none ∧ t.rcu.phaseOpen = false ∧ t.line.reception = none ∧ t.line.ouTurn = false ∧
    t.port.transfer = none ∧ t.port.fallen = none ∧ t.ee = none ∧ t.workList = [] ∧
    t.ou.queue = [] ∧ (∀ h : Fin 8, t.ou.waiting[h] = 0) ∧ t.ou.pointer = 0 ∧ t.ou.note = none ∧
    t.lcm.blink = none ∧
    (∀ k : Fin 8, t.lcm.circuits[k].demand = .off ∧ t.lcm.circuits[k].mode = .normal ∧
      t.lcm.circuits[k].flash = none ∧ t.lcm.circuits[k].output = false ∧ t.lcm.circuits[k].lastM = 0 ∧
      t.lcm.circuits[k].expected = 0 ∧ t.lcm.circuits[k].tol = settingDefault (101 + 4 * k.val) ∧
      t.lcm.circuits[k].candidate = none ∧ t.lcm.circuits[k].streak = 0 ∧ t.lcm.circuits[k].verdict = .idle ∧
      t.lcm.circuits[k].job = none) ∧
    t.port.loading = true ∧ t.port.response = none ∧ t.port.nonPosted = none ∧ t.port.posted = none ∧
    t.port.order = none ∧ t.port.discarded = false ∧ t.port.fault = none ∧ t.port.overrun = false ∧
    t.events.flags = 0 ∧ t.events.enables = 0 ∧ t.events.joinMask = 0 ∧ t.events.leftMask = 0 ∧
    t.events.circuitMask = 0 ∧ ∀ c : Fin 13, t.counters.live[c] = 0 ∧ t.counters.snapshot[c] = 0

/-- SETTINGS_LOAD_END on a taken image gives every setting the clamped value of its bytes, as the layout of R186 places
them; on a refused image every setting stays and CONFIG_DEFAULTED is set. In both cases the loading mark clears, the meters fill,
the blink clock starts in an on-half, every circuit's tol follows the settings, the chain stays as it was, and the first
cycle starts with its ROLL, outside its transaction phase and with the period that the chain state chooses, the formed
period but in STEADY (R88, R90, R91, R142, R150, R182, R183, R186; tol at the load's end is log entry 8, the instant of
the first sample log entry 16). -/
def Obligations.LoadEndFillsSettings : Prop :=
  ∀ (image : List Byte) (s : State), s.port.loading = true → image.length = 256 →
    ∃ t, exec (.settingsLoadEnd image) s = .next t ∧
      (if image.getD 0 0 = 0x4B ∧ image.getD 1 0 = 1 then
        (∀ n : Fin 131, t.settings[n] = clampSetting n.val
          (let b (i : Nat) : Nat := (image.getD i 0).toNat
           if n.val ≤ 5 then b (n.val + 2) else if n.val = 6 then b 8 * 256 + b 9
           else if n.val ≤ 15 then b (n.val + 3) else if n.val = 16 then b 19 * 256 + b 20
           else if n.val = 17 then b 21 * 256 + b 22 else b (n.val + 5))) ∧
        t.loader.fromImage = true ∧ t.events = s.events
      else
        t.settings = s.settings ∧ t.loader.fromImage = false ∧
        t.events = { s.events with flags := s.events.flags ||| 0x800 }) ∧
      t.loader.marker = image.getD 0 0 ∧
      t.port = { s.port with loading := false } ∧
      (∀ m : Fin 4, t.line.meters[m].tokens = t.meterDepth m ∧ t.line.meters[m].refill = 0) ∧
      (∃ b, t.lcm.blink = some b ∧ b.onHalf = true ∧ b.halfEnds = t.now + b.period * 500 ∧ b.period = t.setting 17) ∧
      t.lcm.nextSample = t.now + 10000 ∧
      (∀ k : Fin 8, t.lcm.circuits[k] =
        { s.lcm.circuits[k] with
          tol := max (s.lcm.circuits[k].expected * t.settings[100 + 4 * k.val] / 100) t.settings[101 + 4 * k.val] }) ∧
      t.rcu =
        { s.rcu with
          cycleStart := t.now
          period := if s.rcu.chain = .steady then t.settings[(6 : Fin 131)] else t.settings[(5 : Fin 131)]
          phaseOpen := false } ∧
      t.line =
        { s.line with
          reception := t.line.reception
          meters := t.line.meters
          txEnd := t.now + 360
          lineOut := [HeadFrame.bytes ⟨.roll, 0, [s.rcu.cycleNumber, s.rcu.chain.code]⟩ s.line.txInverted] } ∧
      t.table = s.table ∧ t.store = s.store ∧ t.dir = s.dir ∧ t.ee = s.ee ∧ t.workList = s.workList ∧
      t.ou = s.ou ∧ t.counters = s.counters ∧ t.pending = s.pending

/-! ### Transfers on the host port -/

/-- The port status byte has its six fields in the bits of R185, each set exactly while its condition of R158 holds. -/
def Obligations.StatusByteFields : Prop :=
  ∀ s : State,
    s.statusByte.getLsbD 0 = s.port.loading ∧
    s.statusByte.getLsbD 1 = (!s.port.loading && s.port.nonPosted.isNone && s.port.response.isNone) ∧
    s.statusByte.getLsbD 2 = s.port.posted.isNone ∧
    s.statusByte.getLsbD 3 = s.port.response.isSome ∧
    s.statusByte.getLsbD 4 = s.port.discarded ∧
    s.statusByte.getLsbD 5 = decide (∃ f : Fin 13, s.events.flags.getLsbD f.val = true ∧
      s.events.enables.getLsbD f.val = true) ∧
    s.statusByte.getLsbD 6 = false ∧ s.statusByte.getLsbD 7 = false

/-- FIRST_BYTE_CLOCKED without a byte is the fall of HCS_N: it composes the status byte and keeps it for the transfer.
With a byte, the transfer's first byte has been clocked: the status byte shifted out is the one composed at the fall, a
DISCARDED in it clears the discarded mark, the host's byte decides the kind of transfer, and a fetch's frame is fixed:
the waiting response, or NONE (R156, R158, R159, R164; that the command stands for both moments, and for the fall too
where no step stood for it, is log entry 4). -/
def Obligations.FirstByteDecidesTransfer : Prop :=
  (∀ (moment : Nat) (s : State), s.port.transfer = none → s.port.fallen = none →
    exec (.firstByteClocked moment none) s = .next
      { s with now := max s.now moment, port := { s.port with fallen := some s.statusByte } }) ∧
  ∀ (moment : Nat) (b : Byte) (s : State), s.port.transfer = none →
    let status := s.port.fallen.getD s.statusByte
    exec (.firstByteClocked moment (some b)) s = .next
      { s with
        now := max s.now moment
        port :=
          { s.port with
            discarded := s.port.discarded && !status.getLsbD 4
            fallen := none
            shiftedOut := [status]
            transfer := some
              { kind := if b = 0xA5 then .submit else if b = 0x5A then .fetch else .poll
                status := status
                frame :=
                  if b = 0x5A then
                    match s.port.response with
                    | some r => [r.result.code, r.kind, byte r.payload.length] ++ r.payload
                    | none => [0x0E, 0x00, 0x00]
                  else []
                response := b = 0x5A && s.port.response.isSome } } }

/-- STATUS_POLL of n + 1 whole bytes ends a poll, which shifted out its status byte and then n times 0x00; a poll that
ends before its first byte is clocked shifts out no whole byte and leaves the discarded mark. FETCH ends a fetch: after
its status byte it shifted out the frame fixed at its first byte, the waiting response's result, kind, payload length
and payload, or NONE, then 0x00, and the response buffer empties only when the whole response was clocked. Either holds
of a transfer that FIRST_BYTE_CLOCKED opened and of one that the command stands for whole (R156, R158, R159, R164; that
it may is log entry 4). -/
def Obligations.PollAndFetchShiftOut : Prop :=
  (∀ (moment n : Nat) (status : Byte) (marked : Bool) (s : State), s.transferStands .poll status marked →
    exec (.statusPoll moment (n + 1)) s = .next
      { s with
        now := max s.now moment
        port :=
          { s.port with
            fallen := none, transfer := none, discarded := marked, shiftedOut := status :: List.replicate n 0 } }) ∧
  (∀ (moment : Nat) (s : State), s.port.transfer = none →
    exec (.statusPoll moment 0) s = .next
      { s with now := max s.now moment, port := { s.port with fallen := none, shiftedOut := [] } }) ∧
  ∀ (moment n : Nat) (status : Byte) (marked : Bool) (s : State), s.transferStands .fetch status marked →
    exec (.fetch moment n) s = .next
      { s with
        now := max s.now moment
        port :=
          { s.port with
            fallen := none
            transfer := none
            discarded := marked
            shiftedOut := status :: (s.fetched.1 ++ List.replicate n 0).take n
            response := if s.fetched.2 = true ∧ s.fetched.1.length ≤ n then none else s.port.response } }

/-- A submit that carries fewer than two bytes, ends during the settings load, or finds no place for its kind is
discarded: the discarded mark is set, and nothing else of the device changes. A submit of an unknown kind, of a payload
length other than its length field, or of a length its kind does not allow, is answered FORMAT when its kind is not
posted; for a posted kind a FORMAT fault without a subject is placed, which an empty holding record takes and a full one
answers with its overrun flag (R160 steps 1 to 6, R161, R166, R185; that the command may stand for the whole transfer is
log entry 4). -/
def Obligations.SubmitTurnedAway : Prop :=
  (∀ (moment : Nat) (frame : List Byte) (status : Byte) (marked : Bool) (s : State),
    s.transferStands .submit status marked →
    (let posted := frame.getD 0 0 = 0x20 ∨ frame.getD 0 0 = 0x21 ∨ frame.getD 0 0 = 0x22
     frame.length < 2 ∨ s.port.loading = true ∨ (posted ∧ s.port.posted.isSome = true) ∨
       (¬ posted ∧ (s.port.nonPosted.isSome = true ∨ s.port.response.isSome = true))) →
    exec (.submit moment frame) s = .next
      { s with
        now := max s.now moment
        port :=
          { s.port with
            fallen := none
            transfer := none
            discarded := true
            shiftedOut := status :: List.replicate frame.length 0 } }) ∧
  ∀ (moment : Nat) (kind len : Byte) (payload : List Byte) (status : Byte) (marked : Bool) (s : State),
    s.transferStands .submit status marked → s.port.loading = false →
    payload.length ≠ len.toNat ∨ payload.length ∉ requestLengths kind →
    let ended : State :=
      { s with
        now := max s.now moment
        port :=
          { s.port with
            fallen := none
            transfer := none
            discarded := marked
            shiftedOut := status :: List.replicate (payload.length + 2) 0 } }
    if kind = 0x20 ∨ kind = 0x21 ∨ kind = 0x22 then
      s.port.posted = none →
        exec (.submit moment (kind :: len :: payload)) s = .next (ended.postedFault kind none .format)
    else
      s.port.nonPosted = none → s.port.response = none →
        exec (.submit moment (kind :: len :: payload)) s = .next
          { ended with port := { ended.port with response := some ⟨.format, kind, []⟩ } }

/-- Every request of the host port, sent as R185 lays it out, is accepted as that very request: a posted one takes the
posted slot, another becomes the non-posted request, and the order mark names the one that was there before (R160
step 7, R185; that the command may stand for the whole transfer is log entry 4). -/
def Obligations.SubmitTakesEveryRequest : Prop :=
  ∀ (moment : Nat) (r : Request) (status : Byte) (marked : Bool) (s : State), s.transferStands .submit status marked →
    s.port.loading = false → (∀ k f t p d, r = .writeExtension k f t p d → d.length ≤ 32) →
    let ended : HostPort :=
      { s.port with
        fallen := none
        transfer := none
        discarded := marked
        shiftedOut := status :: List.replicate (requestFrame r).length 0 }
    if requestKind r = 0x20 ∨ requestKind r = 0x21 ∨ requestKind r = 0x22 then
      s.port.posted = none →
        exec (.submit moment (requestFrame r)) s = .next
          { s with
            now := max s.now moment
            port :=
              { ended with
                posted := some r
                order := if s.port.nonPosted.isSome then some .nonPosted else s.port.order } }
    else
      s.port.nonPosted = none → s.port.response = none →
        exec (.submit moment (requestFrame r)) s = .next
          { s with
            now := max s.now moment
            port :=
              { ended with
                nonPosted := some r
                order := if s.port.posted.isSome then some .posted else s.port.order } }

/-- Accepted requests are carried out in order of acceptance: accepting another request leaves the one in hand in hand,
and when the one in hand finishes the other comes into hand, with the order mark absent (R162). -/
def Obligations.RequestsCarriedOutInOrder : Prop :=
  ∀ (s : State) (q r : Request),
    (postedKind (requestKind q) = true → s.port.posted = none → s.port.nonPosted = some r →
      (s.accept q).port.inHand = some r ∧ ((s.accept q).respond r .ok []).port.inHand = some q ∧
        ((s.accept q).respond r .ok []).port.order = none) ∧
    (postedKind (requestKind q) = false → s.port.nonPosted = none → s.port.posted = some r →
      (s.accept q).port.inHand = some r ∧ (s.accept q).finishPosted.port.inHand = some q ∧
        (s.accept q).finishPosted.port.order = none) ∧
    (s.port.nonPosted = none → s.port.posted = none → (s.accept q).port.inHand = some q)

/-! ### The Table Arbiter and the table -/

/-- The arbiter grants the Host Port when it waits and either its mark is clear or nobody else waits; otherwise the
first waiting place after the pointer, and nobody when nobody waits. The Host Port is never granted twice in a row while
another place waits (R20). At the Report Handler's place the one that waits alone is served, and the one that was not
served there last time when both wait (R21). The Host Port waits while the request it carries out takes a table
operation; the Enrolment Engine for its reservation or its conclusion operation; the Report Handler while a VALUE,
FAULT, CLEAR or WITHDRAWN item or an ageing mark heads its list; the Lamp Circuit Monitor while a circuit holds a job;
the Output Unit with an outcome to apply, a turn, or, with neither, a refill: room in the queue and a record waiting
under a handle that is not LEAVING, unless the latest refill found nothing and no waiting count and no entry's state
has changed since; the Drain Sweeper while a LEAVING entry has records (R21, R64, R114, R115, R117, R125, R135, R136,
R153, R162; that the state shows who waits is log entry 3, how a vain refill is noted log entry 29). -/
def Obligations.ArbiterGrantsInTurn : Prop :=
  ∀ s : State,
    (s.grant = some .hp ↔
      s.hpWaits = true ∧ (s.table.lastGrantHost = false ∨ ∀ p : Place, s.placeWaits p = false)) ∧
    (s.grant = none ↔ s.hpWaits = false ∧ ∀ p : Place, s.placeWaits p = false) ∧
    (∀ g, s.grant = some g → g ≠ .hp → ∃ before p after,
      s.table.pointer.after = before ++ p :: after ∧ (∀ q ∈ before, s.placeWaits q = false) ∧
        s.placeWaits p = true ∧ g = s.served p) ∧
    (s.hostGranted.grant = some .hp → ∀ p : Place, s.placeWaits p = false) ∧
    (s.rhWaits = true → s.lcmWaits = true →
      (s.table.rhServedLast = .lcm → s.served .rh = .rh) ∧ (s.table.rhServedLast = .rh → s.served .rh = .lcm)) ∧
    (s.rhWaits = true → s.lcmWaits = false → s.served .rh = .rh) ∧
    (s.rhWaits = false → s.lcmWaits = true → s.served .rh = .lcm) ∧
    (s.served .ee = .ee ∧ s.served .ou = .ou ∧ s.served .sweeper = .sweeper) ∧
    (Place.ee.after = [.rh, .ou, .sweeper, .ee] ∧ Place.rh.after = [.ou, .sweeper, .ee, .rh] ∧
      Place.ou.after = [.sweeper, .ee, .rh, .ou] ∧ Place.sweeper.after = [.ee, .rh, .ou, .sweeper]) ∧
    (s.hpWaits = true ↔ ∃ r, s.port.inHand = some r ∧
      requestKind r ∈ ([0x01, 0x02, 0x03, 0x04, 0x05, 0x06, 0x07, 0x08, 0x20] : List Byte)) ∧
    (s.placeWaits .ee = true ↔ ∃ c, s.ee = some c ∧ c.abandoned = false ∧
      ((c.phase = .reading ∧ c.classification ≠ none ∧ c.pendingKey = none) ∨
        (c.phase = .concluding ∧ c.pendingKey ≠ none))) ∧
    (s.placeWaits .rh = true ↔ s.rhWaits = true ∨ s.lcmWaits = true) ∧
    (s.rhWaits = true ↔ ∃ w rest, s.workList = w :: rest ∧ ∀ it, w = .item it → it.kind ≠ .added) ∧
    (s.lcmWaits = true ↔ ∃ k : Fin 8, s.lcm.circuits[k].job ≠ none) ∧
    (let outcome : Prop := ∃ n, s.ou.note = some n ∧ n.outcome ≠ none
     (s.placeWaits .ou = true ↔ outcome ∨ s.line.ouTurn = true ∨ s.wantsRefill = true) ∧
     (s.wantsRefill = true ↔ ¬ outcome ∧ s.line.ouTurn = false ∧ s.ou.queue.length < 32 ∧
       (∃ h : Fin 8, s.dir.entries[h].state ≠ .leaving ∧ s.ou.waiting[h] ≠ 0) ∧
       ¬ ∃ x, s.ou.refillStop = some x ∧ x.1 = s.ou.waiting ∧ ∀ h : Fin 8, x.2[h] = s.dir.entries[h].state)) ∧
    (s.placeWaits .sweeper = true ↔ ∃ h : Fin 8, s.dir.entries[h].state = .leaving ∧ s.dir.entries[h].recordCount ≠ 0)

/-- In a table whose records are in their buckets and have distinct keys, the lookup of a key finds the record of that
key and its slot, and finds none exactly when no record has the key (R12). The bucket of a packed key: the CRC register
starts at 0x00 and takes the high byte and then the low byte, by eight shifts each under P, and the bucket is its low
six bits (R11). -/
def Obligations.LookupFollowsTheHash : Prop :=
  (∀ (s : State) (k : Key), s.bucketsSound →
     (∀ (i : Fin 256) (r : Record), s.find k = some (i, r) ↔ s.table.slots[i] = some r ∧ r.key = k) ∧
     (s.find k = none ↔ ∀ (i : Fin 256) (r : Record), s.table.slots[i] = some r → r.key ≠ k)) ∧
  ∀ (p : Byte) (k : Key),
    let shift (r : Byte) : Byte := if r.getLsbD 7 then BitVec.ofNat 8 (r.toNat * 2) ^^^ p else BitVec.ofNat 8 (r.toNat * 2)
    let feed (r b : Byte) : Byte := shift (shift (shift (shift (shift (shift (shift (shift (r ^^^ b))))))))
    let packed := k.handle.val * 8192 + k.cls.toNat * 128 + k.inst.toNat
    (k.bucket p).val =
      (feed (feed 0 (BitVec.ofNat 8 (packed / 256))) (BitVec.ofNat 8 (packed % 256))).toNat % 64

/-! ### Record requests -/

/-- LOOKUP answers the slot, the state with RETIRING derived, the origin, the policy, the feed, the descriptor flags and
the condition flags of the record of its key, or NOT_FOUND, and changes nothing else (R24, R6). -/
def Obligations.LookupAnswersRecord : Prop :=
  ∀ (key : Word) (s : State), s.port.inHand = some (.lookup key) → s.grant = some .hp →
    (∀ (i : Fin 256) (r : Record), s.find (Key.ofPacked key) = some (i, r) →
      exec (.lookup key) s = .next (s.hostGranted.hostAnswered 0x01 .ok
        [BitVec.ofNat 8 i.val, s.reportedAs r, r.origin.code, r.policy.code, r.feed.code, r.flags.zeroExtend 8,
          r.conditionsAs])) ∧
    (s.find (Key.ofPacked key) = none →
      exec (.lookup key) s = .next (s.hostGranted.hostAnswered 0x01 .notFound []))

/-- READ_RECORD answers the 27 bytes of the record as they stand and then clears its touched flag, or answers NOT_FOUND;
nothing else changes (R25, R9, R185). -/
def Obligations.ReadRecordClearsTouched : Prop :=
  ∀ (key : Word) (s : State), s.port.inHand = some (.readRecord key) → s.grant = some .hp →
    (∀ (i : Fin 256) (r : Record), s.find (Key.ofPacked key) = some (i, r) → ∃ p : List Byte,
      exec (.readRecord key) s = .next
        (({ s with table := { s.table with slots := s.table.slots.set i (some { r with touched := false }) } } :
          State).hostGranted.hostAnswered 0x02 .ok p) ∧
      p.length = 27 ∧ p[0]? = some (BitVec.ofNat 8 i.val) ∧
      p[1]? = some (hiByte r.key.packed) ∧ p[2]? = some (loByte r.key.packed) ∧
      p[3]? = some (s.reportedAs r) ∧ p[4]? = some r.origin.code ∧ p[5]? = some r.policy.code ∧
      p[6]? = some (r.descIndex.elim 0xFF fun d => d.zeroExtend 8) ∧ p[7]? = some (r.flags.zeroExtend 8) ∧
      p[8]? = some r.feed.code ∧ p[9]? = some (BitVec.ofNat 8 (r.nominal / 256)) ∧
      p[10]? = some (BitVec.ofNat 8 r.nominal) ∧ p[11]? = some (r.interval.elim 0 fun n => BitVec.ofNat 8 n) ∧
      p[12]? = some (BitVec.ofNat 8 r.value.isSome.toNat) ∧ p[13]? = some (hiByte (r.value.getD 0)) ∧
      p[14]? = some (loByte (r.value.getD 0)) ∧
      p[15]? = some (if r.value.isSome then BitVec.ofNat 8 r.age else 0) ∧
      p[16]? = some (BitVec.ofNat 8 r.demand.isSome.toNat) ∧ p[17]? = some (hiByte (r.demand.getD 0)) ∧
      p[18]? = some (loByte (r.demand.getD 0)) ∧
      p[19]? = some (BitVec.ofNat 8 r.applied.isSome.toNat) ∧ p[20]? = some (hiByte (r.applied.getD 0)) ∧
      p[21]? = some (loByte (r.applied.getD 0)) ∧
      p[22]? = some (r.demandState.elim 0xFF fun d => d.code) ∧ p[23]? = some r.conditionsAs ∧
      p[24]? = some (BitVec.ofNat 8 (r.extLength / 256)) ∧ p[25]? = some (BitVec.ofNat 8 r.extLength) ∧
      p[26]? = some (BitVec.ofNat 8 r.chain.length)) ∧
    (s.find (Key.ofPacked key) = none →
      exec (.readRecord key) s = .next (s.hostGranted.hostAnswered 0x02 .notFound []))

/-- FIND_NEXT answers the first slot from the cursor to 255 whose record passes the three tests, with its key and the
fields of LOOKUP, or END when none does; a selector that names neither a handle nor ALL, or a touched-only byte above 1,
is answered RANGE. Nothing else changes (R26, R185). -/
def Obligations.FindNextScansFromCursor : Prop :=
  ∀ (cursor sel value mask only : Byte) (s : State),
    s.port.inHand = some (.findNext cursor sel value mask only) → s.grant = some .hp →
    let passes (r : Record) : Prop :=
      (sel = 0xFF ∨ r.key.handle.val = sel.toNat) ∧
        r.key.cls &&& mask.truncate 6 = value.truncate 6 &&& mask.truncate 6 ∧ (only = 0 ∨ r.touched = true)
    if (8 ≤ sel.toNat ∧ sel ≠ 0xFF) ∨ 1 < only.toNat then
      exec (.findNext cursor sel value mask only) s = .next (s.hostGranted.hostAnswered 0x03 .range [])
    else
      (∀ (i : Fin 256) (r : Record), cursor.toNat ≤ i.val → s.table.slots[i] = some r → passes r →
        (∀ (j : Fin 256) (q : Record), cursor.toNat ≤ j.val → j < i → s.table.slots[j] = some q → ¬ passes q) →
        exec (.findNext cursor sel value mask only) s = .next (s.hostGranted.hostAnswered 0x03 .ok
          [BitVec.ofNat 8 i.val, hiByte r.key.packed, loByte r.key.packed, s.reportedAs r, r.origin.code,
            r.policy.code, r.feed.code, r.flags.zeroExtend 8, r.conditionsAs])) ∧
      ((∀ (j : Fin 256) (q : Record), cursor.toNat ≤ j.val → s.table.slots[j] = some q → ¬ passes q) →
        exec (.findNext cursor sel value mask only) s = .next (s.hostGranted.hostAnswered 0x03 .end_ []))

/-- ADMIT makes its three checks in order, and otherwise the HELD record becomes ACTIVE with its policy kept; unless
that policy is QUIET it becomes touched and RECORD_CHANGED is set. Nothing else changes (R27, R8). -/
def Obligations.AdmitActivatesHeldRecord : Prop :=
  ∀ (key : Word) (s : State), s.port.inHand = some (.admitRecord key) → s.grant = some .hp →
    match s.find (Key.ofPacked key) with
    | none => exec (.admitRecord key) s = .next (s.hostGranted.hostAnswered 0x04 .notFound [])
    | some (i, r) =>
      if s.dir.entries[r.key.handle].state = .leaving then
        exec (.admitRecord key) s = .next (s.hostGranted.hostAnswered 0x04 .retiring [])
      else if r.state ≠ .held then
        exec (.admitRecord key) s = .next (s.hostGranted.hostAnswered 0x04 .wrongState [])
      else
        exec (.admitRecord key) s = .next
          (({ s with
              table :=
                { s.table with
                  slots := s.table.slots.set i
                    (some { r with state := .active, touched := r.policy ≠ .quiet || r.touched }) }
              events :=
                if r.policy = .quiet then s.events else { s.events with flags := s.events.flags ||| 0x20 } } :
            State).hostGranted.hostAnswered 0x04 .ok [])

/-- RETIRE makes its three checks in order, and otherwise removes the ACTIVE or HELD record with all the effects of a
removal: the slot, the chain back on the stack with block position 0 on top, the unit's charge and record count, the
enrolled count, the queue entry, the waiting count, the in-flight note, and the circuit notice; no event is set (R28,
R15, R31, R38; a note with its outcome is log entry 28, what a refill has noted log entry 29). -/
def Obligations.RetireRemovesRecord : Prop :=
  ∀ (key : Word) (s : State), s.port.inHand = some (.retire key) → s.grant = some .hp →
    match s.find (Key.ofPacked key) with
    | none => exec (.retire key) s = .next (s.hostGranted.hostAnswered 0x05 .notFound [])
    | some (i, r) =>
      let h := r.key.handle
      if s.dir.entries[h].state = .leaving then
        exec (.retire key) s = .next (s.hostGranted.hostAnswered 0x05 .retiring [])
      else if r.state = .pending then
        exec (.retire key) s = .next (s.hostGranted.hostAnswered 0x05 .wrongState [])
      else
        ∃ t, exec (.retire key) s = .next t ∧
          t = { s with
            table := t.table, store := t.store, dir := t.dir, ou := t.ou, lcm := t.lcm, port := t.port } ∧
          removed s t i r r.chain ∧
          t.table = { s.hostGranted.table with slots := t.table.slots, enrolledCount := t.table.enrolledCount } ∧
          t.dir = { s.dir with
            entries := s.dir.entries.set h
              { s.dir.entries[h] with
                recordCount := s.dir.entries[h].recordCount - 1
                charge := s.dir.entries[h].charge - r.chain.length } } ∧
          noticed s t r.feed ∧
          t.port = (s.hostAnswered 0x05 .ok []).port

/-- DECLARE_RECORD answers RANGE, WRONG_STATE, EXISTS and FULL in that order, and otherwise inserts an ACTIVE DECLARED
record with the fields of R3 in the lowest free way of its bucket, answers the slot, raises the unit's record count
and gives notice of its circuit; it sets no event (R29, R3, R13, R14; a flags byte above 15 is log entry 21). -/
def Obligations.DeclareRecordInserts : Prop :=
  ∀ (handle cls inst feed : Byte) (nominal : Word) (flags : Byte) (s : State),
    s.port.inHand = some (.declareRecord handle cls inst feed nominal flags) → s.grant = some .hp →
    let c := Instr.declareRecord handle cls inst feed nominal flags
    ((8 ≤ handle.toNat ∨ 64 ≤ cls.toNat ∨ 128 ≤ inst.toNat ∨ 16 ≤ flags.toNat ∨ flags.getLsbD 1 = true ∨
        flags.getLsbD 2 = true ∨ (8 ≤ feed.toNat ∧ feed ≠ 0x10 ∧ feed ≠ 0x20)) →
      exec c s = .next (s.hostGranted.hostAnswered 0x06 .range [])) ∧
    ∀ (h : Fin 8) (f : Feed), h.val = handle.toNat → f.code = feed → cls.toNat < 64 → inst.toNat < 128 →
      flags.toNat < 16 → flags.getLsbD 1 = false → flags.getLsbD 2 = false →
      let k : Key := ⟨h, cls.truncate 6, inst.truncate 7⟩
      if s.dir.entries[h].state ≠ .declared then
        exec c s = .next (s.hostGranted.hostAnswered 0x06 .wrongState [])
      else if s.find k ≠ none then exec c s = .next (s.hostGranted.hostAnswered 0x06 .exists_ [])
      else
        ((∀ j : Fin 256, j.val / 4 = (s.bucketOf k).val → s.table.slots[j] ≠ none) →
          exec c s = .next (s.hostGranted.hostAnswered 0x06 .full [])) ∧
        ∀ i : Fin 256, i.val / 4 = (s.bucketOf k).val → s.table.slots[i] = none →
          (∀ j : Fin 256, j.val / 4 = (s.bucketOf k).val → j < i → s.table.slots[j] ≠ none) →
          ∃ t, exec c s = .next t ∧
            t = { s with table := t.table, dir := t.dir, lcm := t.lcm, port := t.port } ∧
            t.table = { s.hostGranted.table with
              slots := s.table.slots.set i (some
                { key := k, origin := .declared, state := .active, policy := .enrol, descIndex := none,
                  flags := flags.truncate 4, feed := f,
                  nominal := (match f with | .circuit _ => min 1023 nominal.toNat | _ => 0),
                  interval := none, value := none, age := 0, demand := none, applied := none, demandState := none,
                  fault := false, suspect := false, stale := false, extWithheld := false, touched := false,
                  extension := none }) } ∧
            t.dir = { s.dir with
              entries := s.dir.entries.set h
                { s.dir.entries[h] with recordCount := s.dir.entries[h].recordCount + 1 } } ∧
            noticed s t f ∧ t.port = (s.hostAnswered 0x06 .ok [BitVec.ofNat 8 i.val]).port

/-! ### Extension requests -/

/-- READ_EXTENSION answers NOT_FOUND or RANGE, and otherwise the state, the count of bytes returned and those bytes,
byte i of the extension being byte i mod 32 of the block at chain position i ÷ 32; nothing else changes (R39, R32, R6). -/
def Obligations.ReadExtensionReadsChain : Prop :=
  ∀ (key : Word) (offset length : Byte) (s : State),
    s.port.inHand = some (.readExtension key offset length) → s.grant = some .hp →
    let c := Instr.readExtension key offset length
    match s.find (Key.ofPacked key) with
    | none => exec c s = .next (s.hostGranted.hostAnswered 0x07 .notFound [])
    | some (_, r) =>
      if length = 0 ∨ 32 < length.toNat ∨ r.extLength ≤ offset.toNat then
        exec c s = .next (s.hostGranted.hostAnswered 0x07 .range [])
      else
        ∃ p : List Byte,
          exec c s = .next (s.hostGranted.hostAnswered 0x07 .ok
            (s.reportedAs r :: BitVec.ofNat 8 (min length.toNat (r.extLength - offset.toNat)) :: p)) ∧
          p.length = min length.toNat (r.extLength - offset.toNat) ∧
          ∀ j, j < p.length → p[j]? = some (Memory.read s.store.mem
            ((r.chain.getD ((offset.toNat + j) / 32) 0).val * 32 + (offset.toNat + j) % 32))

/-- A first part of WRITE_EXTENSION, one whose first-part byte has bit 0 set, answers RANGE for a byte above 1, and then
NOT_FOUND, RETIRING, WRONG_STATE and RANGE in that order, with nothing changed. Otherwise the old chain returns, and the
new extension is absent for a total length of 0, drawn whole and zeroed with the data as its first bytes where cap and
stack allow it, and refused with STORE_FULL otherwise (R40, R30 to R33, R185; that bit 0 chooses the row is log entry
20). -/
def Obligations.FirstPartReplacesExtension : Prop :=
  ∀ (key : Word) (first : Byte) (total : Word) (part : Byte) (data : List Byte) (s : State),
    s.port.inHand = some (.writeExtension key first total part data) → first.getLsbD 0 = true → s.grant = some .hp →
    s.storeCanonical →
    let c := Instr.writeExtensionFirstPart key first total part data
    if 1 < first.toNat then exec c s = .next (s.hostGranted.hostAnswered 0x08 .range [])
    else match s.find (Key.ofPacked key) with
    | none => exec c s = .next (s.hostGranted.hostAnswered 0x08 .notFound [])
    | some (i, r) =>
      let h := r.key.handle
      let e := s.dir.entries[h]
      let n := (total.toNat + 31) / 32
      let stack := r.chain ++ s.store.free
      let charge := e.charge - r.chain.length
      if e.state = .leaving then exec c s = .next (s.hostGranted.hostAnswered 0x08 .retiring [])
      else if r.origin = .enrolled then exec c s = .next (s.hostGranted.hostAnswered 0x08 .wrongState [])
      else if 256 < total.toNat ∨ part ≠ 0 ∨ min 32 total.toNat < data.length then
        exec c s = .next (s.hostGranted.hostAnswered 0x08 .range [])
      else
        ∃ t, exec c s = .next t ∧
          t = { s with table := t.table, store := t.store, dir := t.dir, port := t.port } ∧
          (if total = 0 ∨ ¬ (charge + n ≤ e.cap ∧ n ≤ stack.length) then
            t.table = { s.hostGranted.table with slots := s.table.slots.set i (some { r with extension := none }) } ∧
            t.store = { s.store with free := stack } ∧
            t.dir = { s.dir with entries := s.dir.entries.set h { e with charge := charge } } ∧
            t.port = (s.hostAnswered 0x08 (if total = 0 then .ok else .storeFull) []).port
          else
            t.table = { s.hostGranted.table with
              slots := s.table.slots.set i (some { r with extension := some ⟨total.toNat, stack.take n⟩ }) } ∧
            t.store.free = stack.drop n ∧
            (∀ a, Memory.read t.store.mem a =
              if a / 32 = (stack.getD 0 0).val ∧ a % 32 < data.length then data.getD (a % 32) 0
              else if ∃ b ∈ stack.take n, b.val = a / 32 then 0 else Memory.read s.store.mem a) ∧
            t.dir = { s.dir with entries := s.dir.entries.set h { e with charge := charge + n } } ∧
            t.port = (s.hostAnswered 0x08 .ok []).port)

/-- A later part of WRITE_EXTENSION, one whose first-part byte has bit 0 clear, answers RANGE for a byte above 1, makes
the common checks, and answers RANGE where the record has no extension, the data is empty or too long, or the bytes pass
the extension's end. Otherwise it writes the data into the block at the chain position of its part index: those bytes
change and no other byte of the store, and neither length, chain nor stack does (R41, R40, R185; that bit 0 chooses the
row is log entry 20). -/
def Obligations.LaterPartWritesInPlace : Prop :=
  ∀ (key : Word) (first : Byte) (total : Word) (part : Byte) (data : List Byte) (s : State),
    s.port.inHand = some (.writeExtension key first total part data) → first.getLsbD 0 = false → s.grant = some .hp →
    s.storeCanonical →
    let c := Instr.writeExtensionPart key first total part data
    if 1 < first.toNat then exec c s = .next (s.hostGranted.hostAnswered 0x08 .range [])
    else match s.find (Key.ofPacked key) with
    | none => exec c s = .next (s.hostGranted.hostAnswered 0x08 .notFound [])
    | some (_, r) =>
      if s.dir.entries[r.key.handle].state = .leaving then
        exec c s = .next (s.hostGranted.hostAnswered 0x08 .retiring [])
      else if r.origin = .enrolled then exec c s = .next (s.hostGranted.hostAnswered 0x08 .wrongState [])
      else if r.extension = none ∨ data.length = 0 ∨ 32 < data.length ∨
          r.extLength < part.toNat * 32 + data.length then
        exec c s = .next (s.hostGranted.hostAnswered 0x08 .range [])
      else
        ∃ t, exec c s = .next t ∧
          t = ({ s with store := t.store } : State).hostGranted.hostAnswered 0x08 .ok [] ∧
          t.store.free = s.store.free ∧
          ∀ a, Memory.read t.store.mem a =
            (let base := (r.chain.getD part.toNat 0).val * 32
             if base ≤ a ∧ a < base + data.length then data.getD (a - base) 0 else Memory.read s.store.mem a)

/-! ### Unit and chain requests -/

/-- DECLARE_UNIT answers RANGE, POSITION_HELD and NO_HANDLE in that order, and otherwise makes the lowest-numbered FREE
entry DECLARED with the position given, the extension cap in force and every other field at its FREE value, and answers
the handle; nothing else changes (R59, R33). -/
def Obligations.DeclareUnitTakesLowestFree : Prop :=
  ∀ (b : Byte) (s : State), s.port.inHand = some (.declareUnit b) →
    let given : Option Nat := if b = 0xFF then none else some b.toNat
    let held : Prop := ∃ p, given = some p ∧
      ((∃ h : Fin 8, s.dir.entries[h].state ≠ .free ∧ s.dir.entries[h].position = some p) ∨
        p ∈ s.dir.releaseList ∨ ∃ r, s.dir.reseat = some r ∧ r.toPosition = p)
    if b ≠ 0xFF ∧ (b = 0 ∨ 6 < b.toNat) then exec (.declareUnit b) s = .next (s.hostAnswered 0x10 .range [])
    else
      (held → exec (.declareUnit b) s = .next (s.hostAnswered 0x10 .positionHeld [])) ∧
      (¬ held → (∀ h : Fin 8, s.dir.entries[h].state ≠ .free) →
        exec (.declareUnit b) s = .next (s.hostAnswered 0x10 .noHandle [])) ∧
      (¬ held → ∀ h : Fin 8, s.dir.entries[h].state = .free →
        (∀ g : Fin 8, g < h → s.dir.entries[g].state ≠ .free) →
        exec (.declareUnit b) s = .next
          (({ s with
              dir :=
                { s.dir with
                  entries := s.dir.entries.set h
                    { Entry.empty with state := .declared, position := given, cap := s.settings[(16 : Fin 131)] } } } :
            State).hostAnswered 0x10 .ok [BitVec.ofNat 8 h.val]))

/-- READ_UNIT answers RANGE for a handle above 7, and otherwise every field of the entry as R66 lists them, with whether
the handle is the subject of the reseat in hand; nothing else changes (R66, R185; the 0 and 1 of its marks are
deduced, log entry 6). -/
def Obligations.ReadUnitReportsEntry : Prop :=
  ∀ (b : Byte) (s : State), s.port.inHand = some (.readUnit b) →
    (8 ≤ b.toNat → exec (.readUnit b) s = .next (s.hostAnswered 0x11 .range [])) ∧
    ∀ h : Fin 8, h.val = b.toNat →
      let e := s.dir.entries[h]
      exec (.readUnit b) s = .next (s.hostAnswered 0x11 .ok
        ([(match e.state with
          | .free => 0 | .joining => 1 | .enrolling => 2 | .live => 3 | .stalled => 4 | .leaving => 5 | .declared => 6 : Byte)] ++
          (match e.uid with
            | some u => [1, u.extractLsb' 40 8, u.extractLsb' 32 8, u.extractLsb' 24 8, u.extractLsb' 16 8,
                u.extractLsb' 8 8, u.extractLsb' 0 8]
            | none => [0, 0, 0, 0, 0, 0, 0]) ++
          (match e.position with | some p => [1, BitVec.ofNat 8 p] | none => [0, 0]) ++
          [BitVec.ofNat 8 e.credit, BitVec.ofNat 8 e.descriptorCount] ++
          ((List.range 8).map fun i => e.pendingSet.extractLsb' (8 * i) 8) ++
          [BitVec.ofNat 8 (e.cap / 256), BitVec.ofNat 8 e.cap, BitVec.ofNat 8 (e.charge / 256), BitVec.ofNat 8 e.charge,
            BitVec.ofNat 8 (e.recordCount / 256), BitVec.ofNat 8 e.recordCount, BitVec.ofNat 8 e.parting.toNat,
            BitVec.ofNat 8 e.misplaced, BitVec.ofNat 8 e.joined.toNat,
            (match s.dir.reseat with | some r => if r.handle = h then 1 else 0 | none => 0 : Byte)]))

/-- RELEASE_UNIT answers RANGE for a handle above 7 and WRONG_STATE for a FREE or LEAVING entry. Otherwise the entry,
and for a talking one every entry at a greater position, leaves with all that a departure does (`Left`): its position,
credit and pending set go, and it is FREE at once, with UNIT_LEFT, when it has neither records nor charge; the Demand
Queue, the work list, the transaction, the context and the reseat of the units that left follow, and the circuits take
notice. The positions of the talking ones are owed a RELEASE, rearmost first, and a context abandoned with nothing left
to wait for ends. Nothing else changes (R14, R61, R62, R63, R64, R86, R122, R124, R149). -/
def Obligations.ReleaseUnitDeparts : Prop :=
  ∀ (b : Byte) (s : State), s.port.inHand = some (.releaseUnit b) →
    (8 ≤ b.toNat → exec (.releaseUnit b) s = .next (s.hostAnswered 0x12 .range [])) ∧
    ∀ h : Fin 8, h.val = b.toNat →
      if s.dir.entries[h].state = .free ∨ s.dir.entries[h].state = .leaving then
        exec (.releaseUnit b) s = .next (s.hostAnswered 0x12 .wrongState [])
      else
        ∃ u owed, Left s u (s.cascade h) ∧ s.owes (s.cascade h) owed ∧
          exec (.releaseUnit b) s = .next
            (({ u with dir := { u.dir with releaseList := s.dir.releaseList ++ owed } } :
              State).settledContext.hostAnswered 0x12 .ok [])

/-- RESUME_UNIT answers RANGE for a handle above 7, WRONG_STATE for an entry that is not STALLED, and otherwise makes
the entry LIVE with everything else as it was (R60). -/
def Obligations.ResumeUnitMakesLive : Prop :=
  ∀ (b : Byte) (s : State), s.port.inHand = some (.resumeUnit b) →
    (8 ≤ b.toNat → exec (.resumeUnit b) s = .next (s.hostAnswered 0x13 .range [])) ∧
    ∀ h : Fin 8, h.val = b.toNat →
      exec (.resumeUnit b) s = .next
        (if s.dir.entries[h].state = .stalled then
          ({ s with dir := { s.dir with entries := s.dir.entries.set h { s.dir.entries[h] with state := .live } } } :
            State).hostAnswered 0x13 .ok []
        else s.hostAnswered 0x13 .wrongState [])

/-- RESTART_CHAIN is answered OK: every talking entry leaves in one event with all that a departure does (`Left`), a
DECLARED, LEAVING or FREE one stays, the release list empties except for a RELEASE in the transaction slot, a broadcast
RELEASE becomes owed, and a context abandoned with nothing left to wait for ends. Nothing else changes (R14, R61, R64,
R86, R104, R122, R124, R149). -/
def Obligations.RestartChainReleasesAll : Prop :=
  ∀ s : State, s.port.inHand = some .restartChain →
    ∃ u, Left s u (fun h => s.dir.entries[h].state.onChain) ∧
      exec .restartChain s = .next
        (({ u with
            dir :=
              { u.dir with
                releaseList :=
                  match s.line.slot with
                  | some x => if x.request.kind = .release then [x.request.position] else []
                  | none => [] }
            rcu := { u.rcu with broadcastOwed := true } } : State).settledContext.hostAnswered 0x14 .ok [])

/-- READ_CHAIN answers the chain state, the cycle number, the period, the void streak, the steady run, the transmit
polarity, whether a broadcast is owed, the talking count and the last settled cycle's account, and changes nothing else
(R105; the widths, and the polarity's code, which is a free value, are those of log entry 6,
and the fields before a first settled cycle those of log entry 24). -/
def Obligations.ReadChainReportsChain : Prop :=
  ∀ s : State, s.port.inHand = some .readChain →
    let talking := ((List.finRange 8).filter fun h =>
      s.dir.entries[h].state = .joining || s.dir.entries[h].state = .enrolling || s.dir.entries[h].state = .live ||
        s.dir.entries[h].state = .stalled).length
    let code : Byte := match s.rcu.chain with
      | .dormant => 0 | .forming => 1 | .formed => 2 | .steady => 3 | .disturbed => 4
    let two (n : Nat) : List Byte := [BitVec.ofNat 8 (n / 256), BitVec.ofNat 8 n]
    exec .readChain s = .next (s.hostAnswered 0x15 .ok
      ([code, s.rcu.cycleNumber] ++ two (if s.rcu.last = none then s.settings[(5 : Fin 131)] else s.rcu.period) ++
        [BitVec.ofNat 8 s.rcu.voidStreak, BitVec.ofNat 8 s.rcu.steadyRun, Config.polarityCode s.line.txInverted,
          BitVec.ofNat 8 s.rcu.broadcastOwed.toNat] ++
        (match s.rcu.last with
        | none => [0, 0, 0, 0, 0, 0, 0, 0]
        | some a => [BitVec.ofNat 8 talking, BitVec.ofNat 8 a.void.toNat, BitVec.ofNat 8 a.answered,
            BitVec.ofNat 8 a.expected] ++ two a.bad ++ two a.stray)))

/-! ### Demands -/

/-- SET_DEMAND makes its checks in order, and a check that fails places a posted fault with the key as its subject.
Otherwise the record's demand takes the value and the first row of R133's table that applies decides the demand state;
the waiting count follows a change into or out of WAITING, and a new entry goes to the tail of the Demand Queue. The
posted slot empties and nothing else changes (R132, R133, R165, R166, R8). -/
def Obligations.SetDemandTakesFirstRow : Prop :=
  ∀ (key value : Word) (s : State), s.port.inHand = some (.setDemand key value) → s.grant = some .hp →
    let c := Instr.setDemand key value
    let refused (e : Result) : State := (s.postedFault 0x20 (some key) e).hostGranted.postedDone
    match s.find (Key.ofPacked key) with
    | none => exec c s = .next (refused .notFound)
    | some (i, r) =>
      let h := r.key.handle
      if s.dir.entries[h].state = .leaving then exec c s = .next (refused .retiring)
      else if r.flags.getLsbD 1 = false ∨ r.feed ≠ .node then exec c s = .next (refused .range)
      else if r.state = .pending ∨ s.dir.entries[h].state = .enrolling then exec c s = .next (refused .wrongState)
      else if r.state = .held then exec c s = .next (refused .notAdmitted)
      else
        let inFlight : Bool := match s.ou.note with | some n => n.key = r.key && !n.gone | none => false
        let row : DemandState × Bool :=
          if r.key ∈ s.ou.queue then (.outstanding, false)
          else if inFlight = false ∧ r.applied = some value then (.settled, false)
          else if ∃ g : Fin 8, s.dir.entries[g].state ≠ .leaving ∧ s.ou.waiting[g] ≠ 0 then (.waiting, false)
          else if s.ou.queue.length < 32 then (.outstanding, true)
          else (.waiting, false)
        let touches : Bool := r.demandState ≠ some row.1 && (row.1 = .settled || row.1 = .failed)
        exec c s = .next
          ({ s with
              table :=
                { s.table with
                  slots := s.table.slots.set i
                    (some ({ r with demand := some value, demandState := some row.1 }.changedTo touches)) }
              events := s.eventsAfterChange r touches
              ou :=
                { s.ou with
                  queue := if row.2 then s.ou.queue ++ [r.key] else s.ou.queue
                  waiting :=
                    if r.demandState = some .waiting ∧ row.1 ≠ .waiting then
                      s.ou.waiting.set h (s.ou.waiting[h] - 1)
                    else if r.demandState ≠ some .waiting ∧ row.1 = .waiting then
                      s.ou.waiting.set h (s.ou.waiting[h] + 1)
                    else s.ou.waiting } } : State).hostGranted.postedDone

/-! ### Circuits -/

/-- SET_CIRCUIT with a circuit above 7 or a demand code above 2 places a RANGE fault. Otherwise the demand already held
changes nothing, and a new one decides the output afresh; a demand of BLINK while no other circuit blinks restarts the
blink clock at the start of an on-half with the period in force (R145, R141, R142, R166; that a restarted clock takes
the period in force is log entry 32). -/
def Obligations.SetCircuitDecidesOutput : Prop :=
  ∀ (circuit demand : Byte) (s : State), s.port.inHand = some (.setCircuit circuit demand) →
    let c := Instr.setCircuit circuit demand
    (8 ≤ circuit.toNat ∨ 3 ≤ demand.toNat →
      exec c s = .next (s.postedFault 0x21 (some (circuit.zeroExtend 16)) .range).postedDone) ∧
    ∀ (k : Fin 8) (d : CircuitDemand), k.val = circuit.toNat → d.code = demand →
      let x := s.lcm.circuits[k]
      let blink : Option Blink :=
        if d = .blink ∧ ∀ j : Fin 8, j ≠ k → s.lcm.circuits[j].demand ≠ .blink then
          some ⟨true, s.now + s.settings[(17 : Fin 131)] * 500, s.settings[(17 : Fin 131)]⟩
        else s.lcm.blink
      let out := outputOf x.mode x.flash d (match blink with | some b => b.onHalf | none => false)
      exec c s = .next
        (if x.demand = d then s.postedDone
        else
          ({ s with
              lcm :=
                { s.lcm with
                  blink := blink
                  circuits := s.lcm.circuits.set k ({ x with demand := d }.withOutput out s.now) } } : State).postedDone)

/-- SET_OVERRIDE with a circuit or a code out of range places a RANGE fault. Otherwise the override already held changes
nothing, and a new one decides the output afresh, a forcing one after cancelling a running flash; the demand stays
(R146, R144, R141, R166). -/
def Obligations.SetOverrideDecidesOutput : Prop :=
  ∀ (circuit mode : Byte) (s : State), s.port.inHand = some (.setOverride circuit mode) →
    let c := Instr.setOverride circuit mode
    (8 ≤ circuit.toNat ∨ 3 ≤ mode.toNat →
      exec c s = .next (s.postedFault 0x22 (some (circuit.zeroExtend 16)) .range).postedDone) ∧
    ∀ (k : Fin 8) (m : Override), k.val = circuit.toNat → m.code = mode →
      let x := s.lcm.circuits[k]
      let flash := if m = .normal then x.flash else none
      let out := outputOf m flash x.demand (match s.lcm.blink with | some b => b.onHalf | none => false)
      exec c s = .next
        (if x.mode = m then s.postedDone
        else
          ({ s with
              lcm :=
                { s.lcm with
                  circuits := s.lcm.circuits.set k ({ x with mode := m, flash := flash }.withOutput out s.now) } } :
            State).postedDone)

/-- READ_CIRCUIT answers RANGE for a circuit above 7, and otherwise the circuit's context as it stands and its four
settings; nothing else changes (R155; the widths, and the flash phase's code, which is a free value, are those of log
entry 6). -/
def Obligations.ReadCircuitReportsContext : Prop :=
  ∀ (circuit : Byte) (s : State), s.port.inHand = some (.readCircuit circuit) →
    (8 ≤ circuit.toNat → exec (.readCircuit circuit) s = .next (s.hostAnswered 0x23 .range [])) ∧
    ∀ k : Fin 8, k.val = circuit.toNat →
      let x := s.lcm.circuits[k]
      let two (n : Nat) : List Byte := [BitVec.ofNat 8 (n / 256), BitVec.ofNat 8 n]
      let field (j : Fin 4) : Byte := BitVec.ofNat 8 (s.settings[99 + 4 * k.val + j.val])
      exec (.readCircuit circuit) s = .next (s.hostAnswered 0x23 .ok
        ([(match x.demand with | .off => 0 | .on => 1 | .blink => 2 : Byte),
            (match x.mode with | .normal => 0 | .forceOn => 1 | .forceOff => 2 : Byte)] ++
          (match x.flash with
            | some f => [1, BitVec.ofNat 8 f.remaining, Config.flashPhaseCode f.on]
            | none => [0, 0, 0]) ++
          [BitVec.ofNat 8 x.output.toNat] ++ two x.lastM ++ two x.expected ++ two x.tol ++
          [x.verdict.code] ++ (match x.candidate with | some v => [1, v.code] | none => [0, 0]) ++
          [BitVec.ofNat 8 x.streak, BitVec.ofNat 8 x.job.isSome.toNat, field 0, field 1, field 2, field 3]))

/-! ### Port, event, counter and setting requests -/

/-- READ_POSTED_FAULT answers the holding record's presence, kind, subject, reason and overrun flag, and empties the
record and clears the flag (R167). IDENTIFY answers the part code 0x0C46, the silicon revision 1 and the load outcome,
and changes nothing else (R168; that a mark reads 0 or 1 is log entry 6). -/
def Obligations.PortReadsReportAndEmpty : Prop :=
  (∀ s : State, s.port.inHand = some .readPostedFault →
     exec .readPostedFault s = .next
       (({ s with port := { s.port with fault := none, overrun := false } } : State).hostAnswered 0x30 .ok
         (match s.port.fault with
         | none => [0, 0, 0, 0, 0, 0, 0]
         | some f =>
           [1, f.kind] ++ (match f.subject with | some w => [1, hiByte w, loByte w] | none => [0, 0, 0]) ++
             [f.reason.code, BitVec.ofNat 8 s.port.overrun.toNat]))) ∧
  ∀ s : State, s.port.inHand = some .identify →
    exec .identify s = .next
      (s.hostAnswered 0x31 .ok [0x0C, 0x46, 1, if s.loader.fromImage then 1 else 0])

/-- READ_EVENTS answers the flags, the enables and the three detail masks; CLEAR_EVENTS clears the flags its mask names
and, with each of the three that have one, its detail mask; WRITE_ENABLES gives each enable its bit of the mask. Nothing
else changes (R174, R175, R176). -/
def Obligations.EventRequestsActOnFlags : Prop :=
  (∀ s : State, s.port.inHand = some .readEvents →
    exec .readEvents s = .next (s.hostAnswered 0x32 .ok
      [BitVec.ofNat 8 (s.events.flags.toNat / 256), BitVec.ofNat 8 s.events.flags.toNat,
        BitVec.ofNat 8 (s.events.enables.toNat / 256), BitVec.ofNat 8 s.events.enables.toNat, s.events.joinMask,
        s.events.leftMask, s.events.circuitMask])) ∧
  (∀ (mask : Word) (s : State), s.port.inHand = some (.clearEvents mask) →
    ∃ e : EventUnit, exec (.clearEvents mask) s = .next (({ s with events := e } : State).hostAnswered 0x33 .ok []) ∧
      e.enables = s.events.enables ∧
      (∀ f : Fin 13, e.flags.getLsbD f.val = (s.events.flags.getLsbD f.val && !mask.getLsbD f.val)) ∧
      e.joinMask = (if mask.getLsbD 0 then 0 else s.events.joinMask) ∧
      e.leftMask = (if mask.getLsbD 1 then 0 else s.events.leftMask) ∧
      e.circuitMask = (if mask.getLsbD 6 then 0 else s.events.circuitMask)) ∧
  ∀ (mask : Word) (s : State), s.port.inHand = some (.writeEnables mask) →
    ∃ e : BitVec 13, (∀ f : Fin 13, e.getLsbD f.val = mask.getLsbD f.val) ∧
      exec (.writeEnables mask) s = .next
        (({ s with events := { s.events with enables := e } } : State).hostAnswered 0x34 .ok [])

/-- SNAPSHOT_COUNTERS copies the live counters into the snapshot and with the clear switch on sets every live counter to
0; a switch above 1 is answered RANGE. READ_COUNTERS answers the thirteen snapshot counters in order and the count mode
in force, and changes nothing else (R178, R185; that the count mode is one byte after the counters is log
entry 6). -/
def Obligations.CounterRequestsUseSnapshot : Prop :=
  (∀ (clear : Byte) (s : State), s.port.inHand = some (.snapshotCounters clear) →
    exec (.snapshotCounters clear) s = .next
      (if 1 < clear.toNat then s.hostAnswered 0x35 .range []
      else
        ({ s with
            counters :=
              { snapshot := s.counters.live
                live := if clear = 1 then Vector.replicate 13 0 else s.counters.live } } : State).hostAnswered
          0x35 .ok [])) ∧
  ∀ s : State, s.port.inHand = some .readCounters → ∃ p : List Byte,
    exec .readCounters s = .next (s.hostAnswered 0x36 .ok p) ∧ p.length = 27 ∧
      (∀ c : Fin 13, p[2 * c.val]? = some (hiByte s.counters.snapshot[c]) ∧
        p[2 * c.val + 1]? = some (loByte s.counters.snapshot[c])) ∧
      p[26]? = some (BitVec.ofNat 8 s.settings[(20 : Fin 131)])

/-- A live counter that is raised rises by one. Under SATURATE it stays at 65,535 and COUNTER_LIMIT is set at each raise
that leaves it there; under WRAP it returns to 0 from 65,535 and COUNTER_LIMIT is set then. Nothing else changes
(R177). -/
def Obligations.CounterRaiseFollowsMode : Prop :=
  ∀ (s : State) (x : Counter),
    let v := s.counters.live[x.index].toNat
    let wrap : Bool := s.settings[(20 : Fin 131)] = 1
    s.count x =
      { s with
        counters :=
          { s.counters with
            live := s.counters.live.set x.index
              (BitVec.ofNat 16 (if wrap then (v + 1) % 65536 else min 65535 (v + 1))) }
        events :=
          { s.events with
            flags :=
              if (if wrap then v = 65535 else 65534 ≤ v) then s.events.flags ||| 0x1000 else s.events.flags } }

/-- Each setting has the range and the default of its row, and the clamp brings a value into the range: the two periods
and the blink period to the step of 10 below, the hash polynomial to an odd value, the flash mask to its low eight bits.
READ_SETTING answers RANGE for a number above 130, and otherwise the number and its value in force; nothing else
changes. WRITE_SETTING answers RANGE for a number above 130. Otherwise the value is clamped, and answered IN_USE for the
hash polynomial while the table holds a record, for dynamic eighths below the enrolled count, and for a class filter
while a classification is in hand; else the setting takes the clamped value, which the response carries, and nothing
changes beyond what its owning rule changes at once: the credits above a lower robustness, the polarity, a meter's
tokens or refill count, a circuit's tol (R42, R179 to R181, R10, R16, R51, R74, R89, R99, R150; the flash mask's default
as a byte is log entry 36). -/
def Obligations.SettingRequestsReadAndClamp : Prop :=
  (settingTable.length = 131 ∧ ∀ (n : Fin 131) (v lo hi dflt : Nat), settingTable[n.val]? = some (lo, hi, dflt) →
    settingDefault n.val = dflt ∧
    (let bounded := min hi (max lo v)
     clampSetting n.val v =
       if n.val = 0 then (if bounded % 2 = 0 then bounded + 1 else bounded)
       else if n.val = 5 ∨ n.val = 6 ∨ n.val = 17 then bounded - bounded % 10
       else if n.val = 19 then v % 256 else bounded)) ∧
  (∀ (number : Byte) (s : State), s.port.inHand = some (.readSetting number) →
     (130 < number.toNat → exec (.readSetting number) s = .next (s.hostAnswered 0x37 .range [])) ∧
     ∀ n : Fin 131, n.val = number.toNat →
       exec (.readSetting number) s = .next (s.hostAnswered 0x37 .ok
         [number, BitVec.ofNat 8 (s.settings[n] / 256), BitVec.ofNat 8 s.settings[n]])) ∧
  ∀ (number : Byte) (value : Word) (s : State), s.port.inHand = some (.writeSetting number value) →
    let c := Instr.writeSetting number value
    (130 < number.toNat → exec c s = .next (s.hostAnswered 0x38 .range [])) ∧
    ∀ n : Fin 131, n.val = number.toNat →
      let v := clampSetting n.val value.toNat
      if (n.val = 0 ∧ ∃ i : Fin 256, s.table.slots[i] ≠ none) ∨ (n.val = 1 ∧ v * 32 < s.table.enrolledCount) ∨
          (35 ≤ n.val ∧ n.val ≤ 98 ∧ ∃ x ∈ s.ee, x.classification ≠ none) then
        exec c s = .next (s.hostAnswered 0x38 .inUse [])
      else
        ∃ t : State, exec c s = .next (t.hostAnswered 0x38 .ok [number, BitVec.ofNat 8 (v / 256), BitVec.ofNat 8 v]) ∧
          t = { s with settings := s.settings.set n v, dir := t.dir, line := t.line, lcm := t.lcm } ∧
          t.dir.releaseList = s.dir.releaseList ∧ t.dir.reseat = s.dir.reseat ∧
          (∀ h : Fin 8, t.dir.entries[h] =
            if n.val = 3 ∧ (s.dir.entries[h].state = .joining ∨ s.dir.entries[h].state = .enrolling ∨
                s.dir.entries[h].state = .live ∨ s.dir.entries[h].state = .stalled) then
              { s.dir.entries[h] with credit := min s.dir.entries[h].credit v }
            else s.dir.entries[h]) ∧
          t.line = { s.line with txInverted := t.line.txInverted, run := t.line.run, meters := t.line.meters } ∧
          (if n.val = 13 ∧ v = 0 ∧ s.settings[n] ≠ 0 then t.line.txInverted = false ∧ t.line.run = 0
            else t.line.txInverted = s.line.txInverted ∧ t.line.run = s.line.run) ∧
          (∀ m : Fin 4, t.line.meters[m] =
            if n.val = 21 + m.val then { s.line.meters[m] with tokens := min s.line.meters[m].tokens v }
            else if n.val = 25 + m.val then { s.line.meters[m] with refill := 0 }
            else s.line.meters[m]) ∧
          t.lcm.blink = s.lcm.blink ∧ t.lcm.nextSample = s.lcm.nextSample ∧
          ∀ k : Fin 8, t.lcm.circuits[k] =
            if n.val = 100 + 4 * k.val ∨ n.val = 101 + 4 * k.val then
              { s.lcm.circuits[k] with
                tol := max (s.lcm.circuits[k].expected * t.settings[100 + 4 * k.val] / 100)
                  t.settings[101 + 4 * k.val] }
            else s.lcm.circuits[k]

/-! ### The train line -/

/-- FRAME_ARRIVAL of an upright or an inverted pair that the head sees opens a reception with the arrival time and the
sense it came in; other bytes are ignored. The head sees a pair after the load, while nothing is being received, before
the cycle end, and clear of what it sends itself (R70, R73; the last two limits are log entries 11 and 14). -/
def Obligations.FrameArrivalOpensReception : Prop :=
  ∀ (moment : Nat) (p d : Byte) (s : State),
    let upright : Prop := p = 0x55 ∧ d = 0xD3
    let inverted : Prop := p = 0xAA ∧ d = 0x2C
    (¬ upright → ¬ inverted → exec (.frameArrival moment p d) s = .next s) ∧
    (upright ∨ inverted → s.port.loading = false → s.line.reception = none →
      max s.now moment < s.rcu.cycleStart + s.rcu.period * 1000 → s.line.txEnd + 80 ≤ max s.now moment →
      (∀ x n m, s.line.slot = some x → x.attempt ≠ .sending n m) →
      exec (.frameArrival moment p d) s = .next
        { s with
          now := max s.now moment
          line := { s.line with reception := some ⟨max s.now moment, p = 0xAA⟩ } })

/-- A received frame is bad when it is truncated, its payload length is above 36, its kind is none the protocol has, its
position field has bits 7 to 3 set, its CRC does not match, or it came inverted with auto polarity off; and a line that
falls idle truncates it, its end being the last byte received. A bad frame counts once in frames_bad and once against
the cycle, and does nothing else. A good frame, upright or inverted, that is out-of-slot counts in frames_good, once in
frames_stray and once against the cycle, and does nothing else: one from the head or of a head kind, of a length its kind
does not allow, a PRESENT outside its slot window or after another one there, an ANNOUNCE outside the open window, or an
answer that matches no transaction (R70, R71, R73, R75 to R79; the moment of a truncation is log entry 17). -/
def Obligations.BadFramesAreCounted : Prop :=
  (∀ (bytes : List Byte) (idle : Nat) (rx : Reception) (s : State), s.line.reception = some rx →
    let bs := if rx.inverted then bytes.map (~~~·) else bytes
    let n := (bs.getD 2 0).toNat
    let bad : State :=
      { s with
        line := { s.line with reception := none }
        rcu := { s.rcu with bad := s.rcu.bad + 1 } }
    ((bs.length < 3 ∨ 36 < n ∨ bs.length < n + 5 ∨
        (bs.getD 0 0).toNat / 16 ∈ [0x0, 0x8, 0xF] ∨ 8 ≤ (bs.getD 1 0).toNat ∨
        crc16 (bs.take (n + 3)) ≠ ofBytes (bs.getD (n + 3) 0) (bs.getD (n + 4) 0) ∨
        (rx.inverted = true ∧ s.settings[(13 : Fin 131)] ≠ 1)) →
      exec (.receiveFrame bytes) s = .next
        (({ bad with now := max s.now (rx.arrival + 40 * min (if n ≤ 36 then n + 5 else 3) bytes.length) } :
          State).count .framesBad)) ∧
    exec (.lineIdleTruncation idle) s = .next
      (({ bad with now := max s.now (rx.arrival + 40 * idle) } : State).count .framesBad)) ∧
  ∀ (kind hop position : Nat) (fromNode : Bool) (payload sent : List Byte) (rx : Reception) (s : State),
    0 < kind → kind < 15 → kind ≠ 8 → hop < 8 → position < 8 → payload.length ≤ 36 →
    s.carries rx (frameBytes kind hop fromNode position payload) sent →
    let allowed : Prop := (kind = 0x9 ∧ payload.length ∈ [1, 6, 11, 16, 21]) ∨ (kind = 0xA ∧ payload.length = 7) ∨
      (kind = 0xB ∧ payload.length = 9) ∨ (kind = 0xC ∧ payload.length = 34) ∨ (kind = 0xD ∧ payload.length = 1) ∨
      (kind = 0xE ∧ payload.length = 2)
    (fromNode = false ∨ ¬ allowed ∨
      (kind = 0x9 ∧ (¬ s.inWindow rx.arrival position ∨ position ∈ s.rcu.placed)) ∨
      (kind = 0xA ∧ ¬ s.inOpen rx.arrival) ∨
      (0xB ≤ kind ∧ ∀ x, s.line.slot = some x → ¬ x.answeredBy rx.arrival kind hop position payload)) →
    exec (.receiveFrame sent) s = .next (s.afterGood rx payload.length).afterStray

/-- A good PRESENT, upright or inverted, that is the first to arrive in its own slot window. With the hop tally of its
position it is in-slot. It then claims the talking entry that holds the position: the answered mark, the streak and the
parting flag, and its items join the work list under the entry's handle; with fast leave on a parting unit departs with
cascade, and the items count in items_unknown. An unclaimed one counts its items unknown and puts its position on the
release list unless a RELEASE is owed already or a reseat goes there. With another hop tally it is misplaced: one stray
frame, which raises the streak of its ENROLLING, LIVE or STALLED holder and at 2 starts a reseat where it may. A good
ANNOUNCE in the open window is taken: the mark, the chain state, its meter, and, where that passes it, the directory's
judgement. Each counts in frames_good (R54 to R56, R61, R65, R71, R73, R76, R77, R79, R88, R93 to R95, R100, R101, R107,
R123; the items of a unit that is FREE at once are log entry 22). -/
def Obligations.PresentClaimsItsEntry : Prop :=
  (∀ (p hop : Nat) (status : Byte) (items : List (Byte × Byte × Byte × Word)) (sent : List Byte) (rx : Reception)
    (s : State), hop < 8 → items.length ≤ 4 →
    let payload := status :: items.flatMap fun x => [x.1, x.2.1, x.2.2.1, hiByte x.2.2.2, loByte x.2.2.2]
    s.carries rx (frameBytes 0x9 hop true p payload) sent → s.inWindow rx.arrival p → p ∉ s.rcu.placed →
    let e (g : Fin 8) : Entry := s.dir.entries[g]
    let talks (g : Fin 8) : Prop := (e g).state.onChain = true ∧ (e g).position = some p
    let good : State :=
      { s.afterGood rx payload.length with rcu := { s.rcu with placed := p :: s.rcu.placed } }
    let entered (u : State) (g : Fin 8) (e' : Entry) : State :=
      { u with dir := { u.dir with entries := u.dir.entries.set g e' } }
    (∀ h, hop + 1 = p → talks h → (∀ g, talks g → g = h) →
      let claimed := entered good h { e h with answered := true, misplaced := 0, parting := status.getLsbD 0 }
      if status.getLsbD 0 = true ∧ s.settings[(4 : Fin 131)] = 1 then
        ∃ u, claimed.cascadedTo u h ∧
          exec (.receiveFrame sent) s = .next (u.countTimes .itemsUnknown items.length)
      else exec (.receiveFrame sent) s = .next (claimed.offered h items)) ∧
    (hop + 1 = p → (∀ g, ¬ talks g) →
      (∀ g k, (e g).state ≠ .free → (e g).position = some p → (e k).state ≠ .free → (e k).position = some p → g = k) →
      let counted := good.countTimes .itemsUnknown items.length
      exec (.receiveFrame sent) s = .next
        (if s.rcu.broadcastOwed = true ∨ p ∈ s.dir.releaseList ∨ s.dir.reseat.any (·.toPosition = p) = true then counted
        else
          { counted with
            dir := { s.dir with releaseList := s.dir.releaseList ++ [p] }
            events :=
              { counted.events with
                flags := counted.events.flags |||
                  if ∃ g : Fin 8, (e g).state = .declared ∧ (e g).position = some p then 0x400 else 0 } })) ∧
    (hop + 1 ≠ p →
      let strayed := good.afterStray
      (∀ h, talks h → (∀ g, talks g → g = h) →
        let raised := entered strayed h { e h with misplaced := min 2 ((e h).misplaced + 1) }
        exec (.receiveFrame sent) s = .next
          (if (e h).state = .joining then strayed
          else if 1 ≤ (e h).misplaced ∧ s.dir.reseat = none ∧ hop + 1 ≤ 6 ∧ hop + 1 ∉ s.dir.releaseList ∧
              ∀ g : Fin 8, (e g).state = .free ∨ (e g).position ≠ some (hop + 1) then
            { raised with dir := { raised.dir with reseat := some ⟨h, p, hop + 1, false⟩ } }
          else raised)) ∧
      ((∀ g, ¬ talks g) → exec (.receiveFrame sent) s = .next strayed))) ∧
  ∀ (uid : Uid) (n : Byte) (hop position : Nat) (sent : List Byte) (rx : Reception) (s : State), hop < 8 →
    position < 8 → s.carries rx (frameBytes 0xA hop true position (uidBytes uid ++ [n])) sent → s.inOpen rx.arrival →
    let good := s.afterGood rx 7
    let taken : State :=
      { good with
        rcu :=
          { s.rcu with
            takenAnnounce := true
            chain := if s.rcu.chain = .steady then .formed else s.rcu.chain
            steadyRun := if s.rcu.chain = .steady then 0 else s.rcu.steadyRun }
        events :=
          { good.events with flags := good.events.flags ||| if s.rcu.chain = .steady then 0x80 else 0 } }
    (∀ (i : Fin 6) (m : Fin 4), hop = i.val → m.val = s.settings[29 + i.val] →
      if s.line.meters[m].tokens = 0 then exec (.receiveFrame sent) s = .next (taken.count .meteredDrops)
      else
        let x := s.line.meters[m]
        ∃ t, exec (.receiveFrame sent) s = .next t ∧
          ({ taken with
              line := { taken.line with meters := s.line.meters.set m { x with tokens := x.tokens - 1 } } } :
            State).announced t uid n.toNat (hop + 1)) ∧
    (6 ≤ hop → ∃ t, exec (.receiveFrame sent) s = .next t ∧ taken.announced t uid n.toNat (hop + 1))

/-- TRANSACTION_PHASE_START opens the phase, once in a cycle, 12 ms after the end of the ROLL. With no context held, the
LIVE entry of the lowest position with a pending index gets one in READING with its lowest index, and the chain moves to
FORMING from DORMANT, FORMED and STEADY. An owed broadcast RELEASE is sent to position 0 and is owed no longer, and a
transaction held in the slot is sent after it if its span fits (R75, R81, R82, R87, R101, R104, R108; that a
span ends strictly before the guard is log entry 18, that a frame being received when the head sends is lost is log
entry 11). -/
def Obligations.PhaseStartSendsWhatWaits : Prop :=
  ∀ s : State, s.port.loading = false → s.rcu.phaseOpen = false →
    let moment := max s.now (s.rcu.cycleStart + 12360)
    let calls (g : Fin 8) : Prop := s.dir.entries[g].state = .live ∧ s.dir.entries[g].pendingSet ≠ 0 ∧
      ∃ p, s.dir.entries[g].position = some p ∧ 1 ≤ p ∧ p ≤ 6
    let release : State → State := fun u =>
      if s.rcu.broadcastOwed then
        { u with
          rcu := { u.rcu with broadcastOwed := false }
          line :=
            { u.line with
              reception := none
              txEnd := max moment s.line.txEnd + 280
              lineOut := [HeadFrame.bytes ⟨.release, 0, []⟩ s.line.txInverted] } }
      else u
    let sends : State → State := fun u =>
      match s.line.slot with
      | some x => if x.attempt = .held then u.sentOrHeld x else u
      | none => u
    let opened : State :=
      { s with now := moment, line := { s.line with lineOut := [] }, rcu := { s.rcu with phaseOpen := true } }
    ((s.ee ≠ none ∨ ∀ g, ¬ calls g) → exec .transactionPhaseStart s = .next (sends (release opened))) ∧
    ∀ (h : Fin 8) (i : Fin 64), s.ee = none → calls h →
      (∀ g, calls g → ∀ p q, s.dir.entries[h].position = some p → s.dir.entries[g].position = some q →
        p < q ∨ g = h) →
      s.dir.entries[h].pendingSet.getLsbD i.val = true →
      (∀ j : Fin 64, j < i → s.dir.entries[h].pendingSet.getLsbD j.val = false) →
      let c : ChainState := if s.rcu.chain = .disturbed then .disturbed else .forming
      exec .transactionPhaseStart s = .next (sends (release
        { opened with
          ee := some ⟨h, .reading, some (BitVec.ofNat 6 i.val), none, none, none, [], false, 0, none, false⟩
          rcu := { opened.rcu with chain := c }
          events :=
            if c = s.rcu.chain then s.events else { s.events with flags := s.events.flags ||| 0x80 } }))

/-- TRANSACTION_START gives the turn to the first requester that waits in rotation after the one served last, and moves
the pointer to it; where none waits it changes nothing, which is the model's choice (log entry 1). The Enrolment Engine
waits while its context's next step is a transaction, the Output Unit while its queue is not empty and it has no
in-flight note, the Unit Directory while its release list is not empty or a reseat is unsent. During the load, with the
slot full or a turn held for the Output Unit, outside the transaction phase, or in DISTURBED, nothing starts. The Unit
Directory's turn places a RELEASE to the head of the release list, or with an empty list the reseat's ASSIGN; the
Enrolment Engine's places the ASSIGN of a JOINING unit, a DESCQ, in READING, an EXTQ, in FETCHING, or the readied
VERDICT, in CONCLUDING; each goes out if its span fits and is else held. The Output Unit's turn is held for its send
operation (R80, R81, R82, R109, R111, R116, R118, R136; the guard is log entry 18, the end of the phase log entry 26, a
frame being received when the head sends log entry 11, a UID that is absent log entry 34). -/
def Obligations.TransactionStartServesInTurn : Prop :=
  (Requester.ee.after = [.ou, .ud, .ee] ∧ Requester.ou.after = [.ud, .ee, .ou] ∧ Requester.ud.after = [.ee, .ou, .ud]) ∧
  (∀ s : State,
    (s.turnWanted .ee = true ↔ ∃ x, s.ee = some x ∧ x.abandoned = false ∧
      (x.phase = .assigning ∨ (x.phase = .reading ∧ x.index ≠ none ∧ x.classification = none) ∨
        (x.phase = .fetching ∧ x.pendingKey ≠ none) ∨
        (x.phase = .concluding ∧ x.pendingKey = none ∧ x.verdict ≠ none))) ∧
    (s.turnWanted .ou = true ↔ s.ou.queue ≠ [] ∧ s.ou.note = none) ∧
    (s.turnWanted .ud = true ↔ s.dir.releaseList ≠ [] ∨ ∃ r, s.dir.reseat = some r ∧ r.sent = false)) ∧
  (∀ s : State, (s.port.loading = true ∨ s.line.slot ≠ none ∨ s.line.ouTurn = true ∨ s.rcu.phaseOpen = false ∨
      s.rcu.cycleStart + s.rcu.period * 1000 ≤ s.now ∨ s.rcu.chain = .disturbed) →
    exec .transactionStart s = .next s) ∧
  ∀ s : State, s.port.loading = false → s.line.slot = none → s.line.ouTurn = false → s.rcu.phaseOpen = true →
    s.now < s.rcu.cycleStart + s.rcu.period * 1000 → s.rcu.chain ≠ .disturbed →
    let c := Instr.transactionStart
    let turned (r : Requester) : State := { s with line := { s.line with turn := r, lineOut := [] } }
    (∀ r, s.nextTurn = some r ↔ ∃ before after,
      s.line.turn.after = before ++ r :: after ∧ (∀ q ∈ before, s.turnWanted q = false) ∧ s.turnWanted r = true) ∧
    (s.nextTurn = none → exec c s = .next s) ∧
    (s.nextTurn = some .ou →
      exec c s = .next { s with line := { s.line with turn := .ou, lineOut := [], ouTurn := true } }) ∧
    (∀ p ps, s.nextTurn = some .ud → s.dir.releaseList = p :: ps →
      exec c s = .next ((turned .ud).sentOrHeld ⟨.ud, ⟨.release, p, []⟩, p, none, 0, .held, false⟩)) ∧
    (∀ r, s.nextTurn = some .ud → s.dir.releaseList = [] → s.dir.reseat = some r →
      exec c s = .next
        (({ turned .ud with dir := { s.dir with reseat := some { r with sent := true } } } : State).sentOrHeld
          ⟨.ud, ⟨.assign, r.fromPosition, BitVec.ofNat 8 r.toPosition :: BitVec.ofNat 8 r.handle.val ::
            uidBytes (s.dir.entries[r.handle].uid.getD 0)⟩, r.toPosition, some r.handle, 0, .held, false⟩)) ∧
    ∀ (x : Context) (p : Nat), s.nextTurn = some .ee → s.ee = some x → s.dir.entries[x.handle].position = some p →
      let sends (kind : HeadKind) (payload : List Byte) : Prop :=
        exec c s = .next ((turned .ee).sentOrHeld ⟨.ee, ⟨kind, p, payload⟩, p, some x.handle, 0, .held, false⟩)
      (x.phase = .assigning → sends .assign
        (BitVec.ofNat 8 p :: BitVec.ofNat 8 x.handle.val :: uidBytes (s.dir.entries[x.handle].uid.getD 0))) ∧
      ∀ i : BitVec 6, x.index = some i →
        (x.phase = .reading → sends .descq [i.zeroExtend 8]) ∧
        (x.phase = .fetching → sends .extq [i.zeroExtend 8, BitVec.ofNat 8 x.nextSegment]) ∧
        (∀ n, x.phase = .concluding → x.verdict = some (.accepted n) →
          sends .verdict [i.zeroExtend 8, 0, BitVec.ofNat 8 n]) ∧
        (∀ n, x.phase = .concluding → x.verdict = some (.held n) →
          sends .verdict [i.zeroExtend 8, 1, BitVec.ofNat 8 n]) ∧
        ∀ r, x.phase = .concluding → x.verdict = some (.refused r) → sends .verdict [i.zeroExtend 8, 2, r.code]

/-- REQUEST_FRAME_END sets the answer deadline to the end of the request plus the answer timeout the attempt was sent
under. ANSWER_TIMEOUT is taken once no frame that arrived by the deadline is still being received, and until then
changes nothing: while the attempt count is at most the retries setting the request goes out again or is held, and past
it the transaction ends FAILED, counted in transactions_failed, and the slot empties. A good frame that matches ends it
ANSWERED, or DECLINED for a DECLINE. A withdrawn transaction ends WITHDRAWN either way, without a retry and counted as no
failure. In each case the requester does with the outcome what its rules say (R57, R63, R65, R78, R83 to R86, R109 to
R118, R137; an ANSWER_TIMEOUT before its time is log entry 1, a frame being received when the head sends again log entry
11, the guard log entry 18, the timeout log entry 19, the flash mask's bits log entry 36). -/
def Obligations.TimeoutRetriesThenFails : Prop :=
  (∀ (x : Transaction) (ends timeout : Nat) (s : State), s.line.slot = some x → x.attempt = .sending ends timeout →
    exec .requestFrameEnd s = .next
      { s with
        now := max s.now ends
        line := { s.line with slot := some { x with attempt := .awaiting (ends + timeout) } } }) ∧
  (∀ (x : Transaction) (deadline : Nat) (s : State), s.line.slot = some x → x.attempt = .awaiting deadline →
    (∀ rx, s.line.reception = some rx → deadline < rx.arrival) →
    let late : State := { s with now := max s.now deadline, line := { s.line with lineOut := [] } }
    let emptied (u : State) : State := { u with line := { u.line with slot := none } }
    if x.withdrawn = true then
      ∃ t, exec .answerTimeout s = .next t ∧ (emptied late).toldTo t x .withdrawn
    else if x.attempts ≤ s.settings[(12 : Fin 131)] then exec .answerTimeout s = .next (late.sentOrHeld x)
    else
      ∃ t, exec .answerTimeout s = .next t ∧ (emptied (late.count .transactionsFailed)).toldTo t x .failed) ∧
  (∀ (x : Transaction) (deadline : Nat) (rx : Reception) (s : State), s.line.slot = some x →
    x.attempt = .awaiting deadline → s.line.reception = some rx → rx.arrival ≤ deadline →
    exec .answerTimeout s = .next s) ∧
  ∀ (x : Transaction) (kind hop position : Nat) (payload sent : List Byte) (rx : Reception) (s : State),
    hop < 8 → position < 8 → (kind, payload.length) ∈ [(0xB, 9), (0xC, 34), (0xD, 1), (0xE, 2)] →
    s.carries rx (frameBytes kind hop true position payload) sent → s.line.slot = some x →
    x.answeredBy rx.arrival kind hop position payload →
    let good := s.afterGood rx payload.length
    ∃ t, exec (.receiveFrame sent) s = .next t ∧
      ({ good with line := { good.line with slot := none } } : State).toldTo t x
        (if x.withdrawn = true then .withdrawn else if kind = 0xE then .declined else .answered payload)

/-! ### The cycle end -/

/-- CYCLE_END settles the cycle, waiting for the end of a frame being received, until which it changes nothing, and never
for a transaction, and starts the next: the void streak and void_cycles;
the credit of each accounted entry, and those at credit 0 gone, alone and without a RELEASE, with all that a departure
does (`Left`), and the context of one of them ended where nothing is left to wait for; the chain state by R102's table
on the state then found, a context held or not, the steady run by R103, and CHAIN_STATE; the counts and marks cleared,
the cycle number raised, the period chosen by the chain state and the ROLL sent; the meters refilled, and an ageing pass
owed: the last mark's step count raised, up to 255, where no item follows it, and else a new mark. Nothing else changes
(R61, R72, R89 to R92, R96 to R98, R102, R103, R105, R122, R130; the place of the meters and the ageing mark in the
sequence is log entry 12, that a CYCLE_END before its time changes nothing log entry 1). -/
def Obligations.CycleEndSettlesAndRolls : Prop :=
  (∀ s : State, s.line.reception ≠ none → exec .cycleEnd s = .next s) ∧
  ∀ s : State, s.port.loading = false → s.line.reception = none →
    let isVoid : Bool := s.settings[(8 : Fin 131)] ≤ s.rcu.bad || s.settings[(9 : Fin 131)] ≤ s.rcu.stray
    let streak := if isVoid then min 255 (s.rcu.voidStreak + 1) else 0
    let accounted (h : Fin 8) : Bool := s.dir.entries[h].state.onChain && !s.dir.entries[h].fresh
    let expected := ((List.finRange 8).filter accounted).length
    let answered := ((List.finRange 8).filter fun h => accounted h && s.dir.entries[h].answered).length
    let credit (h : Fin 8) : Nat :=
      if s.dir.entries[h].answered then s.settings[(3 : Fin 131)]
      else if isVoid = false ∨ s.settings[(10 : Fin 131)] < streak then s.dir.entries[h].credit - 1
      else s.dir.entries[h].credit
    let due : State :=
      { s with
        now := max s.now (s.rcu.cycleStart + s.rcu.period * 1000)
        line := { s.line with lineOut := [] }
        rcu := { s.rcu with voidStreak := streak } }
    let judged := if isVoid then due.count .voidCycles else due
    let credited : State :=
      { judged with
        dir :=
          { s.dir with
            entries := Vector.ofFn fun h : Fin 8 =>
              if accounted h then { s.dir.entries[h] with credit := credit h } else s.dir.entries[h] } }
    ∃ u, Left credited u (fun h => accounted h && credit h = 0) ∧
      let v := u.settledContext
      let silent : Prop := ∀ g : Fin 8, v.dir.entries[g].state.onChain = false
      let run := min 255 (v.rcu.steadyRun + 1)
      let row : ChainState × Nat :=
        match v.rcu.chain with
        | .dormant => (.dormant, v.rcu.steadyRun)
        | .forming => (if isVoid then .disturbed else .forming, v.rcu.steadyRun)
        | .formed =>
          if isVoid then (.disturbed, v.rcu.steadyRun)
          else if silent ∧ v.ee = none then (.dormant, v.rcu.steadyRun)
          else if answered = expected ∧ s.rcu.takenAnnounce = false ∧ v.ee = none then
            if s.settings[(7 : Fin 131)] ≤ run then (.steady, 0) else (.formed, run)
          else (.formed, 0)
        | .steady =>
          if isVoid then (.disturbed, v.rcu.steadyRun)
          else if silent ∧ v.ee = none then (.dormant, v.rcu.steadyRun)
          else if answered < expected then (.formed, 0)
          else (.steady, v.rcu.steadyRun)
        | .disturbed =>
          if isVoid then (.disturbed, v.rcu.steadyRun)
          else if v.ee ≠ none then (.forming, v.rcu.steadyRun)
          else if silent then (.dormant, v.rcu.steadyRun)
          else (.formed, 0)
      exec .cycleEnd s = .next
        { v with
          dir :=
            { v.dir with
              entries := Vector.ofFn fun h : Fin 8 => { v.dir.entries[h] with answered := false, fresh := false } }
          events := { v.events with flags := v.events.flags ||| if row.1 = v.rcu.chain then 0 else 0x80 }
          rcu :=
            { v.rcu with
              chain := row.1
              steadyRun := row.2
              cycleNumber := s.rcu.cycleNumber + 1
              cycleStart := v.now
              period := if row.1 = .steady then s.settings[(6 : Fin 131)] else s.settings[(5 : Fin 131)]
              phaseOpen := false
              bad := 0
              stray := 0
              takenAnnounce := false
              placed := []
              last := some ⟨isVoid, answered, expected, s.rcu.bad, s.rcu.stray⟩ }
          line :=
            { v.line with
              txEnd := v.now + 360
              lineOut := [HeadFrame.bytes ⟨.roll, 0, [s.rcu.cycleNumber + 1, row.1.code]⟩ s.line.txInverted]
              meters := Vector.ofFn fun m : Fin 4 =>
                let x := s.line.meters[m]
                if s.meterDepth m ≤ x.tokens then { x with refill := 0 }
                else if s.meterRefill m ≤ x.refill + 1 then ⟨x.tokens + 1, 0⟩
                else { x with refill := x.refill + 1 } }
          workList :=
            match v.workList.getLast? with
            | some (.mark n) => v.workList.dropLast ++ [.mark (min 255 (n + 1))]
            | _ => v.workList ++ [.mark 1] }

/-! ### The Enrolment Engine's table operations -/

/-- The reservation operation refuses a duplicate key; on a want of room (no free way, or the dynamic limit) it counts
in insert_overflows and by the overflow action refuses and raises TABLE_PRESSURE, or stalls the unit and ends its
context; and otherwise inserts the PENDING record in the lowest free way and draws the whole extension where cap and
stack allow it, or withholds it. No event is set by the insertion (R3, R13, R16 to R18, R34, R48, R115). -/
def Obligations.ReservationInsertsPending : Prop :=
  ∀ (c : Context) (d : Descriptor) (cl : Classification) (s : State), s.ee = some c → c.abandoned = false →
    c.phase = .reading → c.descriptor = some d → c.classification = some cl → c.pendingKey = none →
    s.grant = some .ee →
    let k : Key := ⟨c.handle, d.cls, d.inst⟩
    let e := s.dir.entries[c.handle]
    let granted := s.grantedTo .ee .lcm
    let refused (reason : RefuseReason) : Context :=
      { c with classification := none, verdict := some (.refused reason), phase := .concluding }
    let full : Prop := ∀ j : Fin 256, j.val / 4 = (s.bucketOf k).val → s.table.slots[j] ≠ none
    let limited : Prop := s.settings[(1 : Fin 131)] * 32 ≤ s.table.enrolledCount
    let counted := granted.count .insertOverflows
    (s.find k ≠ none → exec .reservationOperation s = .next
      (({ granted with ee := some (refused .duplicate) } : State).count .descriptorsRefused)) ∧
    (s.find k = none → full ∨ limited → s.settings[(2 : Fin 131)] ≠ 1 → exec .reservationOperation s = .next
      { counted with
        ee := some (refused .noRoom)
        events := { counted.events with flags := counted.events.flags ||| 0x200 } }) ∧
    (s.find k = none → full ∨ limited → s.settings[(2 : Fin 131)] = 1 → exec .reservationOperation s = .next
      { counted with
        dir := { s.dir with entries := s.dir.entries.set c.handle { e with state := .stalled } }
        ee := none
        rcu := if s.rcu.chain = .forming then { s.rcu with chain := .formed, steadyRun := 0 } else s.rcu
        events :=
          { counted.events with
            flags := counted.events.flags ||| if s.rcu.chain = .forming then 0x88 else 0x08 } }) ∧
    ∀ i : Fin 256, s.find k = none → ¬ limited → i.val / 4 = (s.bucketOf k).val → s.table.slots[i] = none →
      (∀ j : Fin 256, j.val / 4 = (s.bucketOf k).val → j < i → s.table.slots[j] ≠ none) →
      let n := (d.extLength + 31) / 32
      let kept : Bool := d.extLength ≠ 0 && e.charge + n ≤ e.cap && n ≤ s.store.free.length
      ∃ t, exec .reservationOperation s = .next t ∧
        t = { s with table := t.table, dir := t.dir, store := t.store, ee := t.ee } ∧
        t.table = { granted.table with
          enrolledCount := s.table.enrolledCount + 1
          slots := s.table.slots.set i (some
            { key := k, origin := .enrolled, state := .pending, policy := cl.policy, descIndex := c.index,
              flags := d.flags, feed := d.feed,
              nominal := (match d.feed with | .circuit _ => if cl.lampCheck then min 1023 d.nominal else 0 | _ => 0),
              interval := none, value := none, age := 0, demand := none, applied := none,
              demandState := if d.flags.getLsbD 1 then some .settled else none, fault := false, suspect := false,
              stale := false, extWithheld := false, touched := false, extension := none }) } ∧
        t.dir = { s.dir with
          entries := s.dir.entries.set c.handle
            { e with recordCount := e.recordCount + 1, charge := if kept then e.charge + n else e.charge } } ∧
        t.store.free = (if kept then s.store.free.drop n else s.store.free) ∧
        (∀ a, Memory.read t.store.mem a =
          if kept = true ∧ ∃ b ∈ s.store.free.take n, b.val = a / 32 then 0 else Memory.read s.store.mem a) ∧
        t.ee = some
          (if d.extLength = 0 then { c with pendingKey := some k, phase := .concluding }
          else if kept then
            { c with pendingKey := some k, phase := .fetching, held := s.store.free.take n, nextSegment := 0 }
          else { c with pendingKey := some k, phase := .concluding, withheld := true })

/-- The conclusion operation makes the PENDING record HELD or ACTIVE by its policy, with its interval when HAS_VALUE,
its extension from the held blocks, or ext_withheld with the blocks and their charge returned; it touches the record and
sets RECORD_CHANGED unless its policy is QUIET, sets RECORD_HELD for a HELD one, counts a withheld extension, readies
the verdict and gives notice of the circuit (R117, R8, R14, R36, R37). -/
def Obligations.ConclusionSettlesRecord : Prop :=
  ∀ (c : Context) (d : Descriptor) (cl : Classification) (k : Key) (i : Fin 256) (r : Record) (s : State),
    s.ee = some c → c.abandoned = false → c.phase = .concluding → c.descriptor = some d →
    c.classification = some cl → c.pendingKey = some k → s.find k = some (i, r) → s.grant = some .ee →
    let e := s.dir.entries[c.handle]
    let becomes : RecordState := if r.policy = .hold then .held else .active
    let raised : State :=
      { s with
        events :=
          { s.events with
            flags := s.events.flags ||| (if r.policy = .quiet then 0 else 0x20) |||
              if r.policy = .hold then 0x10 else 0 } }
    let counted := if c.withheld then raised.count .extensionsWithheld else raised
    ∃ t, exec .conclusionOperation s = .next t ∧
      t = { s with
        table := t.table, dir := t.dir, store := t.store, ee := t.ee, lcm := t.lcm, events := counted.events,
        counters := counted.counters } ∧
      t.table = { (s.grantedTo .ee .lcm).table with
        slots := s.table.slots.set i (some
          ({ r with
            state := becomes
            interval := if r.flags.getLsbD 2 then some cl.interval else none
            extension := if c.withheld = false ∧ c.held ≠ [] then some ⟨d.extLength, c.held⟩ else r.extension
            extWithheld := c.withheld }.changedTo true)) } ∧
      t.store = { s.store with free := if c.withheld then c.held ++ s.store.free else s.store.free } ∧
      t.dir = { s.dir with
        entries :=
          if c.withheld then s.dir.entries.set c.handle { e with charge := e.charge - c.held.length }
          else s.dir.entries } ∧
      t.ee = some
        { c with
          pendingKey := none
          held := []
          classification := none
          verdict := some (if becomes = .held then .held cl.interval else .accepted cl.interval) } ∧
      noticed s t r.feed

/-! ### Items, ageing and draining -/

/-- A VALUE, FAULT or CLEAR item at the head of the work list leaves it and, at the RH's grant, acts on the record of
its key that is ACTIVE or HELD: VALUE on a HAS_VALUE record takes the value, sets the age to 0 and clears stale; FAULT
and CLEAR set and clear the fault flag; a change touches the record and sets RECORD_CHANGED unless its policy is QUIET.
An item without such a record, or a VALUE without HAS_VALUE, counts in items_unknown and changes no record (R125 to
R128, R8; that an item with a class or instance out of range names no record is log entry 10). -/
def Obligations.ItemsUpdateTheirRecord : Prop :=
  ∀ (it : Item) (rest : List WorkEntry) (s : State), s.workList = .item it :: rest → s.grant = some .rh →
    let popped : State := { s.grantedTo .rh .rh with workList := rest }
    let unknown : State := popped.count .itemsUnknown
    let put (i : Fin 256) (r r' : Record) (changed : Bool) : State :=
      { popped with
        table := { popped.table with slots := s.table.slots.set i (some (r'.changedTo changed)) }
        events := s.eventsAfterChange r changed }
    ((∀ k i r, it.key = some k → s.find k = some (i, r) → r.state = .pending) →
      (it.kind = .value → exec .valueItem s = .next unknown) ∧
      (it.kind = .fault → exec .faultItem s = .next unknown) ∧
      (it.kind = .clear → exec .clearItem s = .next unknown)) ∧
    ∀ k i r, it.key = some k → s.find k = some (i, r) → r.state ≠ .pending →
      (it.kind = .value → exec .valueItem s = .next
        (if r.flags.getLsbD 2 then
          put i r { r with value := some it.value, age := 0, stale := false }
            (r.value ≠ some it.value || r.stale)
        else unknown)) ∧
      (it.kind = .fault → exec .faultItem s = .next (put i r { r with fault := true } (!r.fault))) ∧
      (it.kind = .clear → exec .clearItem s = .next (put i r { r with fault := false } r.fault))

/-- A WITHDRAWN item that names no record, or a DECLARED one, counts in items_unknown; one that names an ENROLLED record
that is ACTIVE or HELD removes it, with its unit's counts, its blocks and the notice of its circuit, and sets no event.
One that names the PENDING record of the context removes it with the held blocks and their charge, and the descriptor in
hand is given up: its index leaves the pending set and the next is taken, at once, or once the EXTQ in the slot has
ended, and an emptied set makes the unit LIVE and lets it join in the same event; an abandoned context is judged for
its end instead. An ADDED item leaves the work list; for an entry in ENROLLING, LIVE or STALLED it is charged to the
meter of the entry's position: with no token it counts in metered_drops; with one, its index joins the pending set and
the descriptor count covers it, or it counts in items_unknown when the index is above 63. For any other entry it counts
in items_unknown and charges nothing (R129, R15, R38, R58, R88, R120 to R122; class and instance out of range are log
entry 10, the fields of a context that waits for its EXTQ log entry 25, a DECLARED record log entry 27, a note with its
outcome log entry 28, what a refill has noted log entry 29, the flash mask's bits log entry 36). -/
def Obligations.WithdrawnAndAddedItems : Prop :=
  (∀ (it : Item) (rest : List WorkEntry) (s : State), s.workList = .item it :: rest → it.kind = .withdrawn →
     s.grant = some .rh →
     let popped : State := { s.grantedTo .rh .rh with workList := rest }
     ((∀ k i r, it.key = some k → s.find k = some (i, r) → r.origin = .declared) →
       exec .withdrawnItem s = .next (popped.count .itemsUnknown)) ∧
     ∀ k i r, it.key = some k → s.find k = some (i, r) → r.origin = .enrolled →
       let h := r.key.handle
       let e := s.dir.entries[h]
       let takenOff (t : State) (blocks : List (Fin 512)) : Prop :=
         removed s t i r blocks ∧
         t.table = { popped.table with slots := t.table.slots, enrolledCount := t.table.enrolledCount } ∧
         t.dir = { s.dir with
           entries := s.dir.entries.set h
             { e with recordCount := e.recordCount - 1, charge := e.charge - blocks.length } }
       (r.state ≠ .pending →
         ∃ t, exec .withdrawnItem s = .next t ∧ takenOff t r.chain ∧
           t = { s with workList := rest, table := t.table, store := t.store, dir := t.dir, ou := t.ou, lcm := t.lcm } ∧
           (if e.state = .leaving then t.lcm = s.lcm else noticed s t r.feed)) ∧
       ∀ c, r.state = .pending → s.ee = some c → c.pendingKey = some r.key →
         let c' : Context := { c with pendingKey := none, held := [], classification := none }
         ∃ u, takenOff u (c.held ++ r.chain) ∧
           u = { s with workList := rest, table := u.table, store := u.store, dir := u.dir, ou := u.ou, ee := some c' } ∧
           (c.abandoned = true → exec .withdrawnItem s = .next u.settledContext) ∧
           ∀ j, c.abandoned = false → c.index = some j →
             let gone := u.indexGone c.handle j
             let parked : State := { gone with ee := some { c' with index := none, descriptor := none } }
             exec .withdrawnItem s = .next
               (if s.eeInSlot = true then
                 if gone.dir.entries[c.handle].pendingSet = 0 then parked.setEmptied c.handle else parked
               else gone.nextTaken c.handle)) ∧
  ∀ (it : Item) (rest : List WorkEntry) (s : State), s.workList = .item it :: rest → it.kind = .added →
    let e := s.dir.entries[it.handle]
    let popped : State := { s with workList := rest }
    if e.state ≠ .enrolling ∧ e.state ≠ .live ∧ e.state ≠ .stalled then
      exec .addedItem s = .next (popped.count .itemsUnknown)
    else
      ∀ (p : Fin 6) (m : Fin 4), e.position = some (p.val + 1) → m.val = s.settings[29 + p.val] →
        let x := s.line.meters[m]
        let charged : State :=
          { popped with line := { s.line with meters := s.line.meters.set m { x with tokens := x.tokens - 1 } } }
        if x.tokens = 0 then exec .addedItem s = .next (popped.count .meteredDrops)
        else if 63 < it.value.toNat then exec .addedItem s = .next (charged.count .itemsUnknown)
        else
          ∃ ps : BitVec 64,
            (∀ j : Fin 64, ps.getLsbD j.val = (e.pendingSet.getLsbD j.val || j.val = it.value.toNat)) ∧
            exec .addedItem s = .next
              { charged with
                dir :=
                  { s.dir with
                    entries := s.dir.entries.set it.handle
                      { e with pendingSet := ps, descriptorCount := max e.descriptorCount (it.value.toNat + 1) } } }

/-- An ageing pass raises the age of every record that has a value, is ACTIVE or HELD and whose unit is not LEAVING by
its step count, up to 255, and sets stale where the age passes twice the interval, which touches the record and sets
RECORD_CHANGED unless its policy is QUIET. Every other record stays as it was (R131, R8). -/
def Obligations.AgeingPassAgesEveryValue : Prop :=
  ∀ (n : Nat) (rest : List WorkEntry) (s : State), s.workList = .mark n :: rest → s.grant = some .rh →
    let ages (r : Record) : Bool :=
      r.value ≠ none && r.state ≠ .pending && s.dir.entries[r.key.handle].state ≠ .leaving
    let due (r : Record) : Bool :=
      ages r && !r.stale && match r.interval with | some m => 2 * m < min 255 (r.age + n) | none => false
    ∃ t, exec .ageingPass s = .next t ∧
      t = { s with
        workList := rest
        table := { (s.grantedTo .rh .rh).table with slots := t.table.slots }
        events := t.events } ∧
      (∀ i : Fin 256, t.table.slots[i] = s.table.slots[i].map fun r =>
        if ages r then { r with age := min 255 (r.age + n), stale := r.stale || due r }.changedTo (due r) else r) ∧
      t.events =
        if ∃ i : Fin 256, (match s.table.slots[i] with | some r => due r && r.policy ≠ .quiet | none => false) = true
        then { s.events with flags := s.events.flags ||| 0x20 } else s.events

/-- The Drain Sweeper removes the record in the lowest slot among those of the lowest-numbered LEAVING handle with
records left; the PENDING record of an abandoned context goes with the blocks the context holds, and names nothing any
more. The entry becomes FREE, with UNIT_LEFT and its left bit, once neither records nor charge remain, and an abandoned
context ends once it waits for nothing. It touches no record and gives no notice of a circuit (R64, R7, R15, R38, R122;
a note with its outcome is log entry 28, what a refill has noted log entry 29). -/
def Obligations.SweeperRemovesLowestSlot : Prop :=
  ∀ (h : Fin 8) (i : Fin 256) (r : Record) (s : State), s.grant = some .sweeper →
    s.dir.entries[h].state = .leaving → s.dir.entries[h].recordCount ≠ 0 →
    (∀ g : Fin 8, g < h → s.dir.entries[g].state = .leaving → s.dir.entries[g].recordCount = 0) →
    s.table.slots[i] = some r → r.key.handle = h →
    (∀ (j : Fin 256) (q : Record), j < i → s.table.slots[j] = some q → q.key.handle ≠ h) →
    let e := s.dir.entries[h]
    let names (c : Context) : Prop := r.state = .pending ∧ c.pendingKey = some r.key
    let blocks := (match s.ee with | some c => if names c then c.held else [] | none => []) ++ r.chain
    let drained : Prop := e.recordCount = 1 ∧ e.charge ≤ blocks.length
    ∃ u, exec .drainSweeperRemoval s = .next u.settledContext ∧ removed s u i r blocks ∧
      u = { s with table := u.table, store := u.store, dir := u.dir, ou := u.ou, ee := u.ee, events := u.events } ∧
      u.table = { (s.grantedTo .sweeper .lcm).table with
        slots := u.table.slots, enrolledCount := u.table.enrolledCount } ∧
      u.ee = (match s.ee with
        | some c => some (if names c then { c with pendingKey := none, held := [], classification := none } else c)
        | none => none) ∧
      (drained →
        u.dir = { s.dir with entries := s.dir.entries.set h Entry.empty } ∧
        u.events = { s.events with flags := s.events.flags ||| 0x02, leftMask := u.events.leftMask } ∧
        ∀ g : Fin 8, u.events.leftMask.getLsbD g.val = (s.events.leftMask.getLsbD g.val || g = h)) ∧
      (¬ drained →
        u.dir = { s.dir with
          entries := s.dir.entries.set h
            { e with recordCount := e.recordCount - 1, charge := e.charge - blocks.length } } ∧
        u.events = s.events)

/-! ### The Output Unit -/

/-- The refill operation takes, from the rotating pointer forward, the first WAITING record whose unit is not LEAVING:
it becomes OUTSTANDING, its handle's waiting count falls, its entry goes to the tail of the queue and the pointer moves
past its slot. With none it changes nothing but the unit's note that it found none, by which the unit stops waiting for
a refill (R135; that note is log entry 29). -/
def Obligations.RefillTakesNextWaiting : Prop :=
  ∀ s : State, s.grant = some .ou → s.wantsRefill = true →
    let granted := s.grantedTo .ou .lcm
    let waits (r : Record) : Prop :=
      r.demandState = some .waiting ∧ s.dir.entries[r.key.handle].state ≠ .leaving
    (∀ (i : Fin 256) (r : Record), s.table.slots[i] = some r → waits r →
      (∀ (j : Fin 256) (q : Record), s.table.slots[j] = some q → waits q → i - s.ou.pointer ≤ j - s.ou.pointer) →
      exec .refillOperation s = .next
        { granted with
          table :=
            { granted.table with slots := s.table.slots.set i (some { r with demandState := some .outstanding }) }
          ou :=
            { s.ou with
              queue := s.ou.queue ++ [r.key]
              waiting := s.ou.waiting.set r.key.handle (s.ou.waiting[r.key.handle] - 1)
              pointer := i + 1
              refillStop := none } }) ∧
    ((∀ (j : Fin 256) (q : Record), s.table.slots[j] = some q → ¬ waits q) →
      ∃ found, let t : State := { granted with ou := { s.ou with refillStop := found } }
        exec .refillOperation s = .next t ∧ t.wantsRefill = false)

/-- A completion gives the record in flight the value sent as its applied value and decides its demand state: SETTLED
when its demand is that value and it is not queued, WAITING when it was WAITING, and else OUTSTANDING. A failure makes
its demand state FAILED. Either clears the in-flight note, lowers the waiting count when the record leaves WAITING, and
touches the record where it becomes SETTLED or FAILED (R137 to R139, R134, R8; that it does so
under a LEAVING unit too is log entry 35). -/
def Obligations.OutcomeIsAppliedToRecord : Prop :=
  ∀ (n : InFlight) (r : Record) (s : State), s.ou.note = some n → s.grant = some .ou →
    s.table.slots[n.slot] = some r → r.key = n.key →
    let granted := s.grantedTo .ou .lcm
    let becomes (r' : Record) (d : DemandState) : State :=
      let touches : Bool := r.demandState ≠ some d && (d = .settled || d = .failed)
      { granted with
        table :=
          { granted.table with
            slots := s.table.slots.set n.slot (some ({ r' with demandState := some d }.changedTo touches)) }
        events := s.eventsAfterChange r touches
        ou :=
          { s.ou with
            note := none
            waiting :=
              if r.demandState = some .waiting ∧ d ≠ .waiting then
                s.ou.waiting.set r.key.handle (s.ou.waiting[r.key.handle] - 1)
              else s.ou.waiting } }
    (n.outcome = some .done →
      exec .completionOperation s = .next
        (becomes { r with applied := some n.value }
          (if r.demand = some n.value ∧ r.key ∉ s.ou.queue then .settled
          else if r.demandState = some .waiting then .waiting else .outstanding))) ∧
    (n.outcome = some .failed → exec .failureOperation s = .next (becomes r .failed))

/-- The send operation takes the head of the Demand Queue, notes it in flight with the demand its record holds, and
hands over a SETPOINT of its class, instance and demand to its unit's position, which goes out if its span fits and is
else held. With the queue empty the turn ends without a transaction (R136, R137, R81, R82; the guard is log entry 18, a
late grant log entry 26, a frame being received when the head sends log entry 11, a demand that is absent log entry 34). -/
def Obligations.SendHandsOverTheHead : Prop :=
  ∀ s : State, s.grant = some .ou → s.line.ouTurn = true → (∀ n, s.ou.note = some n → n.outcome = none) →
    let granted := s.grantedTo .ou .lcm
    (s.ou.queue = [] →
      exec .sendOperation s = .next { granted with line := { s.line with ouTurn := false } }) ∧
    ∀ (k : Key) (rest : List Key) (i : Fin 256) (r : Record) (p : Nat), s.ou.queue = k :: rest →
      s.find k = some (i, r) → s.dir.entries[k.handle].position = some p →
      let v := r.demand.getD 0
      exec .sendOperation s = .next
        (({ granted with
            line := { s.line with ouTurn := false, lineOut := [] }
            ou := { s.ou with queue := rest, note := some ⟨k, i, v, false, none⟩ } } : State).sentOrHeld
          ⟨.ou, ⟨.setpoint, p, [k.cls.zeroExtend 8, k.inst.zeroExtend 8, hiByte v, loByte v]⟩, p, some k.handle, 0,
            .held, false⟩)

/-! ### The Lamp Circuit Monitor -/

/-- An attribution operation serves the lowest-numbered circuit with a job: the first counted record at or past the
cursor that qualifies, for MARK one whose nominal current lies within the tolerance of D and for CLEAR any, has its
suspect flag set or cleared and the cursor passes its slot; a flag that changes touches the record and sets
RECORD_CHANGED unless its policy is QUIET. With no such record the job ends (R149, R153, R154, R8). -/
def Obligations.AttributionMarksNextRecord : Prop :=
  ∀ (k : Fin 8) (j : Job) (s : State), s.grant = some .lcm → s.lcm.circuits[k].job = some j →
    (∀ g : Fin 8, g < k → s.lcm.circuits[g].job = none) →
    let granted := s.grantedTo .rh .lcm
    let cursor := match j with | .mark _ _ n => n | .clear n => n
    let mark : Bool := match j with | .mark .. => true | .clear _ => false
    let takes (i : Fin 256) (r : Record) : Prop :=
      cursor ≤ i.val ∧ r.feed = .circuit k ∧ r.state ≠ .pending ∧ s.dir.entries[r.key.handle].state ≠ .leaving ∧
        match j with
        | .mark d tol _ => (r.nominal : Int) - d ≤ tol ∧ (d : Int) - r.nominal ≤ tol
        | .clear _ => True
    let withJob (o : Option Job) : LampMonitor :=
      { s.lcm with circuits := s.lcm.circuits.set k { s.lcm.circuits[k] with job := o } }
    (∀ (i : Fin 256) (r : Record), s.table.slots[i] = some r → takes i r →
      (∀ (m : Fin 256) (q : Record), m < i → s.table.slots[m] = some q → ¬ takes m q) →
      exec .attributionOperation s = .next
        { granted with
          table :=
            { granted.table with
              slots := s.table.slots.set i (some ({ r with suspect := mark }.changedTo (r.suspect != mark))) }
          events := s.eventsAfterChange r (r.suspect != mark)
          lcm := withJob (some (match j with | .mark d tol _ => .mark d tol (i.val + 1) | .clear _ => .clear (i.val + 1))) }) ∧
    ((∀ (m : Fin 256) (q : Record), s.table.slots[m] = some q → ¬ takes m q) →
      exec .attributionOperation s = .next { granted with lcm := withJob none })

/-- SAMPLE gives every circuit its reading, limited at 1023, and judges those whose output is on and whose on-time is at
least the settle time: the raw result by R150's table, the candidate and the streak, and the verdict at once for
OVER_RANGE and else at the debounce setting. A changed verdict sets CIRCUIT_VERDICT and the circuit's detail bit, and
DEFICIT and BALANCED set its attribution job. Nothing else changes (R147, R148, R150, R151, R152). -/
def Obligations.SampleJudgesEveryCircuit : Prop :=
  ∀ (readings : Vector Nat 8) (s : State), s.port.loading = false →
    ∃ t, exec (.sample readings) s = .next t ∧ t = { s with now := t.now, lcm := t.lcm, events := t.events } ∧
      t.now = max s.now s.lcm.nextSample ∧ t.lcm.nextSample = s.lcm.nextSample + 10000 ∧
      t.lcm.blink = s.lcm.blink ∧
      (∀ k : Fin 8, t.lcm.circuits[k] =
        (let x := s.lcm.circuits[k]
         let m := min 1023 readings[k]
         let raw : CircuitVerdict :=
           if 1023 ≤ x.expected then .overRange
           else if (m : Int) < x.expected - x.tol then .deficit
           else if x.expected + x.tol < m then .surplus
           else .balanced
         let streak := if x.candidate = some raw then min 7 (x.streak + 1) else 1
         let verdict : CircuitVerdict :=
           if raw = .overRange then .overRange
           else if s.settings[102 + 4 * k.val] ≤ streak then raw else x.verdict
         if x.output = true ∧ x.onSince + s.settings[99 + 4 * k.val] * 1000 ≤ t.now then
           { x with
             lastM := m
             candidate := if raw = .overRange then none else some raw
             streak := if raw = .overRange then 0 else streak
             verdict := verdict
             job :=
               if verdict = x.verdict then x.job
               else if verdict = .deficit then some (.mark (x.expected - m) x.tol 0)
               else if verdict = .balanced then some (.clear 0) else x.job }
         else { x with lastM := m })) ∧
      (let changed (k : Fin 8) : Bool := t.lcm.circuits[k].verdict ≠ s.lcm.circuits[k].verdict
       t.events = { s.events with flags := t.events.flags, circuitMask := t.events.circuitMask } ∧
       t.events.flags = (if ∃ k, changed k = true then s.events.flags ||| 0x40 else s.events.flags) ∧
       ∀ k : Fin 8, t.events.circuitMask.getLsbD k.val = (s.events.circuitMask.getLsbD k.val || changed k))

/-- BLINK_HALF_END passes the running blink clock to its next half, a new on-half taking the period in force, and the
circuits whose demand is BLINK follow. FLASH_PHASE_END turns an ON phase into an OFF phase; an OFF phase lowers the
remaining count and gives the next ON phase, or ends the flash at 0; each phase lasts 300 ms and the circuit's output is
decided afresh. Nothing else changes (R141, R142, R143). -/
def Obligations.BlinkAndFlashDecideOutputs : Prop :=
  (∀ (b : Blink) (s : State), s.lcm.blink = some b →
    let moment := max s.now b.halfEnds
    let period := s.settings[(17 : Fin 131)]
    ∃ t, exec .blinkHalfEnd s = .next t ∧ t = { s with now := moment, lcm := t.lcm } ∧
      t.lcm.nextSample = s.lcm.nextSample ∧
      t.lcm.blink = some
        (if b.onHalf then ⟨false, b.halfEnds + b.period * 500, b.period⟩
        else ⟨true, b.halfEnds + period * 500, period⟩) ∧
      ∀ k : Fin 8, t.lcm.circuits[k] =
        (let x := s.lcm.circuits[k]
         if x.demand = .blink then x.withOutput (outputOf x.mode x.flash .blink (!b.onHalf)) moment else x)) ∧
  ∀ (k : Fin 8) (f : Flash) (s : State), s.lcm.circuits[k].flash = some f →
    let x := s.lcm.circuits[k]
    let moment := max s.now f.phaseEnds
    let flash : Option Flash :=
      if f.on then some ⟨f.remaining, false, f.phaseEnds + 300000⟩
      else if f.remaining ≤ 1 then none
      else some ⟨f.remaining - 1, true, f.phaseEnds + 300000⟩
    let out := outputOf x.mode flash x.demand (match s.lcm.blink with | some b => b.onHalf | none => false)
    exec (.flashPhaseEnd k) s = .next
      { s with
        now := moment
        lcm := { s.lcm with circuits := s.lcm.circuits.set k ({ x with flash := flash }.withOutput out moment) } }

/-! ### What every step keeps -/

/-- The machine right after reset meets every law of the state that a step keeps. -/
def Obligations.ResetMeetsTheLaws : Prop :=
  (State.reset.settingsInRange ∧ State.reset.metersInRange ∧ State.reset.storeCanonical ∧
    State.reset.detailsFlagged ∧ State.reset.listsBounded ∧ State.reset.dir.distinct ∧ State.reset.releasesSound ∧
    State.reset.enrolledCounted ∧ State.reset.quietUntouched ∧ State.reset.bucketsSound ∧ State.reset.loadIdle) ∧
  State.reset.withinLimit ∧ State.reset.pendingSound ∧ State.reset.onePending ∧ State.reset.contextSound ∧
    State.reset.countsSound ∧ State.reset.blocksSound ∧ State.reset.expectedSound

/-- Every step keeps every setting in its range, its steps and its parity, and every meter within its depth and its
refill setting (R88, R179, R181). -/
def Obligations.StepKeepsSettingsAndMeters : Prop :=
  ∀ s t : State, s.settingsInRange → s.metersInRange → step s = .next t → t.settingsInRange ∧ t.metersInRange

/-- Every step keeps the Extension Store's bytes in canonical form within its 16,384 addresses (R30; log entry 9). Every
step keeps a flag set while its detail mask holds a bit, the Demand Queue within 32 entries and the work list within 24
items (R123, R134, R173). In a state whose table, counts and context are sound, every step keeps each of the 512 blocks
in exactly one place, the free stack, one record's chain or the context's hold (R30), and every circuit's expected
current the sum over its counted records (R149). -/
def Obligations.StepKeepsStoreMasksAndBounds : Prop :=
  (∀ s t : State, s.storeCanonical → step s = .next t → t.storeCanonical) ∧
  (∀ s t : State, s.detailsFlagged → s.listsBounded → step s = .next t → t.detailsFlagged ∧ t.listsBounded) ∧
  ∀ s t : State, s.bucketsSound → s.loadIdle → s.countsSound → s.pendingSound → s.contextSound → step s = .next t →
    (s.blocksSound → t.blocksSound) ∧ (s.expectedSound → t.expectedSound)

/-- Every step keeps the UIDs and the positions of the directory distinct, the positions within 1 to 6, the release list
free of duplicates and within 1 to 6, and the reseat's new position held by no entry (R53, R63, R65). -/
def Obligations.StepKeepsDirectoryDistinct : Prop :=
  ∀ s t : State, s.dir.distinct → s.releasesSound → step s = .next t → t.dir.distinct ∧ t.releasesSound

/-- Every step keeps every record in the bucket its key gives under the hash polynomial in force, no two records of one
key, the enrolled count the number of ENROLLED records, and the touched flag of a QUIET record clear (R1, R8, R10,
R13). In such a state it also keeps the enrolled count within the dynamic limit (R16), every unit's record count the
number of its records, and 0 while it is FREE or JOINING (R52), at most one PENDING record, ENROLLED, without an
extension and named by the context (R7), and the context in agreement with its unit, its record and its transaction
(R106, R109, R122). -/
def Obligations.StepKeepsTableSound : Prop :=
  (∀ s t : State, s.bucketsSound → s.loadIdle → s.enrolledCounted → s.quietUntouched → step s = .next t →
    t.bucketsSound ∧ t.loadIdle ∧ t.enrolledCounted ∧ t.quietUntouched) ∧
  ∀ s t : State, s.bucketsSound → s.loadIdle → s.enrolledCounted → s.withinLimit → s.countsSound → s.pendingSound →
    s.onePending → s.contextSound → step s = .next t →
    t.withinLimit ∧ t.countsSound ∧ t.pendingSound ∧ t.onePending ∧ t.contextSound
end

