-- ==== Sys2Proof/Laws/Table.lean ====
section
/-! SUPPORT. What the table's lists and searches say: the eight handles and the 256 slots in order, the records of a table
as its slots hold them, the first record that passes a test, lookup (R12) and the free way of a bucket (R13). -/

namespace Sys2Proof.Machine

/-! ### The lists of handles and slots -/

theorem mem_all8 (k : Fin 8) : k ∈ all8 := by revert k; decide

theorem all8_sorted : all8.Pairwise (· < ·) := by decide

theorem allSlots_eq : allSlots = List.finRange 256 := by
  apply List.ext_getElem
  · simp [allSlots]
  · intro n h1 h2
    simp [allSlots] at h1
    simp only [allSlots, List.getElem_map, List.getElem_range, List.getElem_finRange]
    apply Fin.ext
    simp [Nat.mod_eq_of_lt h1]

/-- The first element of a rising list that passes a test is the lowest one that does. -/
theorem find_rising {α : Type} (f : α → Nat) (P : α → Bool) :
    ∀ l : List α, l.Pairwise (fun a b => f a < f b) → ∀ a,
      (l.find? P = some a ↔ a ∈ l ∧ P a = true ∧ ∀ b ∈ l, f b < f a → P b = false)
  | [], _, a => by simp
  | x :: l, hp, a => by
    rw [List.pairwise_cons] at hp
    have ih := find_rising f P l hp.2 a
    rw [List.find?_cons]
    cases hx : P x with
    | true =>
      simp only [Option.some.injEq]
      constructor
      · rintro rfl
        refine ⟨List.mem_cons_self, hx, fun b hb hlt => ?_⟩
        rcases List.mem_cons.1 hb with rfl | hb
        · omega
        · have := hp.1 b hb; omega
      · rintro ⟨ha, -, hmin⟩
        rcases List.mem_cons.1 ha with rfl | ha
        · rfl
        · have := hmin x List.mem_cons_self (hp.1 a ha)
          rw [hx] at this; cases this
    | false =>
      rw [ih]
      constructor
      · rintro ⟨ha, hP, hmin⟩
        refine ⟨List.mem_cons_of_mem _ ha, hP, fun b hb hlt => ?_⟩
        rcases List.mem_cons.1 hb with rfl | hb
        · exact hx
        · exact hmin b hb hlt
      · rintro ⟨ha, hP, hmin⟩
        rcases List.mem_cons.1 ha with rfl | ha
        · rw [hx] at hP; cases hP
        · exact ⟨ha, hP, fun b hb hlt => hmin b (List.mem_cons_of_mem _ hb) hlt⟩

/-- The lowest handle that passes a test. -/
theorem find_all8 (P : Fin 8 → Bool) (h : Fin 8) :
    all8.find? P = some h ↔ P h = true ∧ ∀ g : Fin 8, g < h → P g = false := by
  rw [find_rising (fun k : Fin 8 => k.val) P all8 all8_sorted h]
  exact ⟨fun ⟨_, a, b⟩ => ⟨a, fun g hg => b g (mem_all8 g) hg⟩, fun ⟨a, b⟩ => ⟨mem_all8 h, a, fun g _ hg => b g hg⟩⟩

theorem find_all8_none (P : Fin 8 → Bool) : all8.find? P = none ↔ ∀ h : Fin 8, P h = false := by
  rw [List.find?_eq_none]
  exact ⟨fun h k => Bool.eq_false_iff.2 (h k (mem_all8 k)), fun h k _ => Bool.eq_false_iff.1 (h k)⟩

theorem any_all8 (P : Fin 8 → Bool) : all8.any P = true ↔ ∃ h : Fin 8, P h = true := by
  rw [List.any_eq_true]
  exact ⟨fun ⟨k, _, h⟩ => ⟨k, h⟩, fun ⟨k, h⟩ => ⟨k, mem_all8 k, h⟩⟩

/-! ### The records of a table -/

/-- A slot and its record are among the records exactly when the slot holds the record. -/
theorem Table.mem_records (t : Table) (i : Fin 256) (r : Record) : (i, r) ∈ Table.records t ↔ t[i] = some r := by
  unfold Table.records
  rw [List.mem_filterMap, allSlots_eq]
  constructor
  · rintro ⟨⟨j, o⟩, hm, ho⟩
    obtain ⟨n, hn, he⟩ := List.getElem_of_mem hm
    rw [List.getElem_zip] at he
    simp only [List.getElem_finRange, Prod.mk.injEq, Vector.getElem_toList] at he
    obtain ⟨rfl, rfl⟩ := he
    rw [Option.map_eq_some_iff] at ho
    obtain ⟨q, hq, h2⟩ := ho
    cases h2
    simpa using hq
  · intro h
    refine ⟨(i, some r), ?_, rfl⟩
    rw [← h]
    have hl : i.val < ((List.finRange 256).zip t.toList).length := by simp
    have : ((List.finRange 256).zip t.toList)[i.val] = (i, t[i]) := by simp
    exact this ▸ List.getElem_mem hl

/-- The records of a table stand in slot order. -/
theorem Table.records_sorted (t : Table) :
    (Table.records t).Pairwise fun p q : Fin 256 × Record => p.1.val < q.1.val := by
  unfold Table.records
  rw [allSlots_eq]
  apply List.Pairwise.filterMap (R := fun p q : Fin 256 × Option Record => p.1.val < q.1.val)
  · rintro ⟨i, o⟩ ⟨j, q⟩ h a ha b hb
    simp only [Option.map_eq_some_iff] at ha hb
    obtain ⟨_, _, rfl⟩ := ha
    obtain ⟨_, _, rfl⟩ := hb
    exact h
  · apply List.pairwise_iff_getElem.2
    intro m n hm hn h
    simpa using h

/-- The first record that passes a test is the one in the lowest slot that does. -/
theorem Table.find_record (t : Table) (P : Fin 256 × Record → Bool) (i : Fin 256) (r : Record) :
    (Table.records t).find? P = some (i, r) ↔
      t[i] = some r ∧ P (i, r) = true ∧ ∀ (j : Fin 256) (q : Record), j < i → t[j] = some q → P (j, q) = false := by
  rw [find_rising (fun p : Fin 256 × Record => p.1.val) P _ (Table.records_sorted t) (i, r), Table.mem_records]
  refine and_congr_right fun _ => and_congr_right fun _ => ⟨fun h j q hj hq => ?_, fun h p hp hlt => ?_⟩
  · exact h (j, q) ((Table.mem_records t j q).2 hq) hj
  · exact h p.1 p.2 hlt ((Table.mem_records t p.1 p.2).1 hp)

theorem Table.find_record_none (t : Table) (P : Fin 256 × Record → Bool) :
    (Table.records t).find? P = none ↔ ∀ (j : Fin 256) (q : Record), t[j] = some q → P (j, q) = false := by
  rw [List.find?_eq_none]
  refine ⟨fun h j q hq => Bool.eq_false_iff.2 (h (j, q) ((Table.mem_records t j q).2 hq)), fun h p hp => ?_⟩
  exact Bool.eq_false_iff.1 (h p.1 p.2 ((Table.mem_records t p.1 p.2).1 hp))

/-! ### Lookup and the free way -/

theorem slotOf_div (b : Fin 64) (w : Fin 4) : (slotOf b w).val / 4 = b.val := by
  simp only [slotOf]; omega

theorem slot_is_way (b : Fin 64) (i : Fin 256) (h : i.val / 4 = b.val) : ∃ w : Fin 4, slotOf b w = i :=
  ⟨⟨i.val % 4, by omega⟩, Fin.ext (by simp only [slotOf]; omega)⟩

theorem mem_ways (w : Fin 4) : w ∈ ways := by revert w; decide

/-- What a lookup finds stands in the slot it names, has the key, and lies in the key's bucket (R12). -/
theorem State.find_spec {s : State} {k : Key} {i : Fin 256} {r : Record} (h : s.find k = some (i, r)) :
    s.table.slots[i] = some r ∧ r.key = k ∧ i.val / 4 = (s.bucketOf k).val := by
  unfold State.find at h
  obtain ⟨w, -, hw⟩ := List.exists_of_findSome?_eq_some h
  dsimp only at hw
  split at hw
  · rename_i q hq
    split at hw
    · rename_i hk
      simp only [Option.some.injEq, Prod.mk.injEq] at hw
      obtain ⟨rfl, rfl⟩ := hw
      exact ⟨hq, hk, slotOf_div _ _⟩
    · cases hw
  · cases hw

/-- A lookup that finds nothing leaves no record of the key in its bucket (R12). -/
theorem State.find_none_spec {s : State} {k : Key} (h : s.find k = none) (i : Fin 256) (r : Record)
    (hi : i.val / 4 = (s.bucketOf k).val) (hr : s.table.slots[i] = some r) : r.key ≠ k := by
  unfold State.find at h
  rw [List.findSome?_eq_none_iff] at h
  obtain ⟨w, rfl⟩ := slot_is_way _ i hi
  have := h w (mem_ways w)
  simp only [hr] at this
  split at this
  · cases this
  · assumption

/-- The free way found is the lowest empty slot of the key's bucket (R13). -/
theorem State.freeWay_spec (s : State) (k : Key) (i : Fin 256) :
    s.freeWay k = some i ↔ i.val / 4 = (s.bucketOf k).val ∧ s.table.slots[i] = none ∧
      ∀ j : Fin 256, j.val / 4 = (s.bucketOf k).val → j < i → s.table.slots[j] ≠ none := by
  unfold State.freeWay
  have hp : (ways.map (slotOf (s.bucketOf k))).Pairwise fun a b : Fin 256 => a.val < b.val := by
    rw [List.pairwise_map]
    have : ways.Pairwise (· < ·) := by decide
    exact this.imp fun {a b} h => by simp only [slotOf]; have : a.val < b.val := h; omega
  rw [find_rising (fun a : Fin 256 => a.val) _ _ hp i]
  have hm : ∀ j : Fin 256, j ∈ ways.map (slotOf (s.bucketOf k)) ↔ j.val / 4 = (s.bucketOf k).val := by
    intro j
    rw [List.mem_map]
    constructor
    · rintro ⟨w, -, rfl⟩; exact slotOf_div _ _
    · intro h; obtain ⟨w, rfl⟩ := slot_is_way _ j h; exact ⟨w, mem_ways w, rfl⟩
  simp only [hm, Option.isNone_iff_eq_none, Option.isNone_eq_false_iff, Option.isSome_iff_ne_none]
  exact and_congr_right fun _ => and_congr_right fun _ =>
    ⟨fun h j hj hlt => h j hj hlt, fun h j hj hlt => h j hj hlt⟩

/-- No free way is found exactly when the bucket is full (R13). -/
theorem State.freeWay_none (s : State) (k : Key) :
    s.freeWay k = none ↔ ∀ j : Fin 256, j.val / 4 = (s.bucketOf k).val → s.table.slots[j] ≠ none := by
  unfold State.freeWay
  rw [List.find?_eq_none]
  constructor
  · intro h j hj
    obtain ⟨w, rfl⟩ := slot_is_way _ j hj
    have := h _ (List.mem_map.2 ⟨w, mem_ways w, rfl⟩)
    rwa [Option.isNone_iff_eq_none] at this
  · intro h j hj
    obtain ⟨w, -, rfl⟩ := List.mem_map.1 hj
    rw [Option.isNone_iff_eq_none]
    exact h _ (slotOf_div _ _)

end Sys2Proof.Machine
end

