-- ==== Sys2Proof/Laws/Operations.lean ====
section
/-! SUPPORT. One lemma for each shared operation that says everything it does, in the terms of Safety.lean, so that no
later proof unfolds it: the outcome of a command, the bytes of a response, the arbiter's grant, the host port's
finishing of requests, a record's change and removal, the sending of a transaction, a counter's raise, a circuit's output
and its notice, the end of the load. -/

namespace Sys2Proof.Machine

/-- A command that is due answers the state after it. -/
theorem taken_due {due : Prop} [Decidable due] (h : due) (after s : State) : taken due after s = .next after := by
  simp only [taken, if_pos h]

/-- A command that is not due changes nothing (log entry 1). -/
theorem taken_not {due : Prop} [Decidable due] (h : ¬ due) (after s : State) : taken due after s = .next s := by
  simp only [taken, if_neg h]

/-! ### Bytes and bits -/

theorem hiByte_word (n : Nat) : hiByte (word n) = BitVec.ofNat 8 (n / 256) := by
  apply BitVec.eq_of_toNat_eq
  simp [hiByte, word, BitVec.extractLsb'_toNat, Nat.shiftRight_eq_div_pow]; omega

theorem loByte_word (n : Nat) : loByte (word n) = BitVec.ofNat 8 n := by
  apply BitVec.eq_of_toNat_eq
  simp [loByte, word, BitVec.extractLsb'_toNat]

theorem wordBytes_word (n : Nat) : wordBytes (word n) = [BitVec.ofNat 8 (n / 256), BitVec.ofNat 8 n] := by
  simp only [wordBytes, hiByte_word, loByte_word]

theorem boolByte_eq (b : Bool) : boolByte b = BitVec.ofNat 8 b.toNat := by cases b <;> rfl

/-- One bit of a mask with one bit set. -/
theorem bitMask_getLsbD (n i j : Nat) (h : i < n) : (bitMask n i).getLsbD j = decide (j = i) := by
  have : bitMask n i = BitVec.twoPow n i := by
    apply BitVec.eq_of_toNat_eq; simp only [bitMask, BitVec.toNat_twoPow, BitVec.toNat_ofNat]
  rw [this, BitVec.getLsbD_twoPow]
  simp [h, eq_comm]

theorem handleOf_none {b : Byte} (h : 8 ≤ b.toNat) : handleOf b = none := by
  simp only [handleOf]; exact dif_neg (by omega)

theorem handleOf_some {b : Byte} {k : Fin 8} (h : k.val = b.toNat) : handleOf b = some k := by
  have hk := k.isLt
  simp only [handleOf]
  rw [dif_pos (by omega)]
  exact congrArg some (Fin.ext h.symm)

/-! ### Grants -/

theorem State.granted_hp (s : State) : s.granted .hp = s.hostGranted := rfl
theorem State.granted_ee (s : State) (u : RhUser) : s.granted .ee = s.grantedTo .ee u := rfl
theorem State.granted_ou (s : State) (u : RhUser) : s.granted .ou = s.grantedTo .ou u := rfl
theorem State.granted_sweeper (s : State) (u : RhUser) : s.granted .sweeper = s.grantedTo .sweeper u := rfl
theorem State.granted_rh (s : State) : s.granted .rh = s.grantedTo .rh .rh := rfl
theorem State.granted_lcm (s : State) : s.granted .lcm = s.grantedTo .rh .lcm := rfl

/-- A grant does not change what a lookup finds. -/
@[simp] theorem State.find_granted (s : State) (g : Grantee) (k : Key) : (s.granted g).find k = s.find k := by
  cases g <;> rfl

/-- A grant does not change the records. -/
@[simp] theorem State.records_granted (s : State) (g : Grantee) : (s.granted g).records = s.records := by
  cases g <;> rfl

/-! ### The host port -/

theorem State.respond_eq (s : State) (q : Request) (r : Result) (p : List Byte) :
    s.respond q r p = s.hostAnswered (requestKind q) r p := rfl

theorem State.answer_eq (s : State) (q : Request) (r : Result) :
    s.answer q r = s.hostAnswered (requestKind q) r [] := rfl

theorem State.finishPosted_eq (s : State) : s.finishPosted = s.postedDone := rfl

theorem State.postFault_eq (s : State) (k : Byte) (w : Option Word) (r : Result) :
    s.postFault k w r = s.postedFault k w r := by
  cases h : s.port.fault <;>
    simp [State.postFault, State.postedFault, h, State.raise, EventUnit.set, bitMask, EventFlag.bit]

/-! ### Records -/

theorem State.leaving_iff (s : State) (h : Fin 8) : s.leaving h = true ↔ s.dir.entries[h].state = .leaving := by
  unfold State.leaving State.entry; exact decide_eq_true_iff

theorem State.reportedState_eq (s : State) (r : Record) : s.reportedState r = s.reportedAs r := by
  simp only [State.reportedState, State.reportedAs, State.leaving_iff]; rfl

theorem conditionByte_eq (r : Record) : conditionByte r = r.conditionsAs := by
  unfold conditionByte Record.conditionsAs
  cases r.fault <;> cases r.suspect <;> cases r.stale <;> cases r.extWithheld <;> cases r.touched <;> rfl

/-- The touched rule in one equation (R8). -/
theorem State.putRecord_eq (s : State) (i : Fin 256) (r r' : Record) (changed : Bool) (hp : r'.policy = r.policy) :
    s.putRecord i r' changed =
      { s with
        table := { s.table with slots := s.table.slots.set i (some (r'.changedTo changed)) }
        events := s.eventsAfterChange r changed } := by
  unfold State.putRecord Record.changedTo State.eventsAfterChange
  rw [← hp]
  by_cases h : (changed && decide (r'.policy ≠ .quiet)) = true
  · simp only [h, if_true]; simp [State.raise, State.setSlot, EventUnit.set, bitMask, EventFlag.bit]
  · have h' := Bool.eq_false_iff.2 h
    simp only [h', Bool.or_false]; rfl

/-- A record given a demand state: the waiting count of its handle follows, and the record is touched where it becomes
SETTLED or FAILED (R8, R133, R134). `rp` is any record of the same policy. -/
theorem State.setDemandState_eq (s : State) (i : Fin 256) (r rp : Record) (d : DemandState)
    (hp : rp.policy = r.policy) :
    s.setDemandState i r d =
      (let touches : Bool := r.demandState ≠ some d && (d = .settled || d = .failed)
       { s with
         table :=
           { s.table with
             slots := s.table.slots.set i (some (({ r with demandState := some d } : Record).changedTo touches)) }
         events := s.eventsAfterChange rp touches
         ou :=
           { s.ou with
             waiting :=
               if r.demandState = some .waiting ∧ d ≠ .waiting then
                 s.ou.waiting.set r.key.handle (s.ou.waiting[r.key.handle] - 1)
               else if r.demandState ≠ some .waiting ∧ d = .waiting then
                 s.ou.waiting.set r.key.handle (s.ou.waiting[r.key.handle] + 1)
               else s.ou.waiting } }) := by
  unfold State.setDemandState
  dsimp only
  rw [State.putRecord_eq _ _ rp _ _ (by exact hp.symm)]
  have h : (if r.demandState = some .waiting ∧ d ≠ .waiting then s.ou.waitLess r.key.handle
      else if r.demandState ≠ some .waiting ∧ d = .waiting then s.ou.waitMore r.key.handle
      else s.ou) =
      { s.ou with
        waiting :=
          if r.demandState = some .waiting ∧ d ≠ .waiting then
            s.ou.waiting.set r.key.handle (s.ou.waiting[r.key.handle] - 1)
          else if r.demandState ≠ some .waiting ∧ d = .waiting then
            s.ou.waiting.set r.key.handle (s.ou.waiting[r.key.handle] + 1)
          else s.ou.waiting } := by
    split
    · rfl
    · split <;> rfl
  rw [h]
  rfl

/-- The eligible waiting total is above 0 exactly when a handle that is not LEAVING has a waiting count (R134). -/
theorem State.eligibleWaiting_pos (s : State) :
    0 < s.eligibleWaiting ↔ ∃ g : Fin 8, s.dir.entries[g].state ≠ .leaving ∧ s.ou.waiting[g] ≠ 0 := by
  unfold State.eligibleWaiting
  rw [Nat.pos_iff_ne_zero, Ne, List.sum_eq_zero_iff]
  constructor
  · intro h
    by_contra hn
    refine h fun x hx => ?_
    obtain ⟨g, -, rfl⟩ := List.mem_map.1 hx
    split
    · rfl
    · rename_i hl
      by_contra h0
      exact hn ⟨g, fun e => hl ((s.leaving_iff g).2 e), h0⟩
  · rintro ⟨g, h1, h2⟩ h
    have := h _ (List.mem_map.2 ⟨g, mem_all8 g, rfl⟩)
    rw [if_neg fun hl => h1 ((s.leaving_iff g).1 hl)] at this
    exact h2 this

/-- Everything a removal does to the table, the store and the Output Unit (R15). -/
theorem State.removeRecord_removed (s : State) (i : Fin 256) (r : Record) :
    removed s (s.removeRecord i r) i r (s.removalBlocks r) := by
  have key : ∀ u : State, (u.table = (s.removeRecord i r).table ∧ u.store = (s.removeRecord i r).store ∧
      u.ou = (s.removeRecord i r).ou) → removed s u i r (s.removalBlocks r) →
      removed s (s.removeRecord i r) i r (s.removalBlocks r) := by
    rintro u ⟨h1, h2, h3⟩ h
    simpa only [removed, h1, h2, h3] using h
  let ou : OutputUnit :=
    { s.ou with queue := s.ou.queue.filter (fun k => k ≠ r.key), note := noteAfterRemoval r.key s.ou.note }
  refine key
    { s with
      table :=
        { s.table with
          slots := s.table.slots.set i none
          enrolledCount := if r.origin = .enrolled then s.table.enrolledCount - 1 else s.table.enrolledCount }
      store := s.store.giveBack (s.removalBlocks r)
      ou := if r.demandState = some .waiting then ou.waitLess r.key.handle else ou } ?_ ?_
  · unfold State.removeRecord State.noticeFeed State.notice State.setCircuit
    refine ⟨?_, ?_, ?_⟩ <;> (dsimp only; repeat' split) <;> rfl
  · have hw : ∀ o : OutputUnit, (if r.demandState = some .waiting then o.waitLess r.key.handle else o).queue = o.queue ∧
        (if r.demandState = some .waiting then o.waitLess r.key.handle else o).note = o.note ∧
        (if r.demandState = some .waiting then o.waitLess r.key.handle else o).pointer = o.pointer ∧
        (if r.demandState = some .waiting then o.waitLess r.key.handle else o).refillStop = o.refillStop := by
      intro o; split <;> exact ⟨rfl, rfl, rfl, rfl⟩
    refine ⟨rfl, rfl, rfl, (hw ou).1, fun g => ?_, ?_, (hw ou).2.2⟩
    · by_cases hd : r.demandState = some .waiting
      · simp only [hd, if_true, and_true, OutputUnit.waitLess, ou]
        by_cases hg : g = r.key.handle
        · subst hg; simp
        · rw [if_neg hg]
          exact Vector.getElem_set_ne r.key.handle.isLt g.isLt fun h => hg (Fin.ext h.symm)
      · simp only [hd, if_false, and_false, ou]
    · refine (hw ou).2.1.trans ?_
      simp only [ou]
      cases hn : s.ou.note with
      | none => rfl
      | some n =>
        simp only [noteAfterRemoval]
        split
        · cases ho : n.outcome <;> simp
        · rfl

/-! ### The line, the counters and the circuits -/

/-- The sending of the transaction in the slot (R82 to R84). -/
theorem State.trySend_eq (s : State) (x : Transaction) (h : s.line.slot = some x) : s.trySend = s.sentOrHeld x := by
  have hf : s.spanFits x.request.payload.length (max s.now s.line.txEnd) = true ↔
      s.rcu.phaseOpen = true ∧ max s.now s.line.txEnd + (x.request.payload.length + 7) * 40 +
        s.settings[(11 : Fin 131)] * 1000 + 2000 < s.rcu.cycleStart + s.rcu.period * 1000 := by
    simp only [State.spanFits, Bool.and_eq_true, decide_eq_true_eq]; rfl
  unfold State.trySend State.sentOrHeld
  rw [h]
  dsimp only
  by_cases hs : s.spanFits x.request.payload.length (max s.now s.line.txEnd) = true
  · rw [if_pos hs, if_pos (hf.1 hs)]
    by_cases ha : x.attempts = 0
    · rw [if_neg (by omega), if_pos ha]; rfl
    · rw [if_pos (by omega), if_neg ha]; rfl
  · rw [if_neg hs, if_neg (fun c => hs (hf.2 c))]

/-- A counter's raise in one equation (R177). -/
theorem State.count_eq (s : State) (x : Counter) :
    s.count x =
      { s with
        counters :=
          { s.counters with
            live := s.counters.live.set x.index
              (BitVec.ofNat 16
                (if s.settings[(20 : Fin 131)] = 1 then (s.counters.live[x.index].toNat + 1) % 65536
                else min 65535 (s.counters.live[x.index].toNat + 1))) }
        events :=
          if (if s.settings[(20 : Fin 131)] = 1 then s.counters.live[x.index].toNat = 65535
            else 65534 ≤ s.counters.live[x.index].toNat) then s.events.set .counterLimit else s.events } := by
  have hlt := (s.counters.live[x.index]).isLt
  unfold State.count raisedCounter State.setting
  by_cases hw : s.settings[(20 : Fin 131)] = 1
  · simp only [hw, decide_true, if_true]
    have e : s.counters.live[x.index] + 1 =
        BitVec.ofNat 16 ((s.counters.live[x.index].toNat + 1) % 65536) := by
      apply BitVec.eq_of_toNat_eq; simp
    rw [e]
    by_cases hv : s.counters.live[x.index].toNat = 65535
    · have : s.counters.live[x.index] = 0xFFFF := by apply BitVec.eq_of_toNat_eq; rw [hv]; rfl
      rw [if_pos (by simpa using this), if_pos hv]; rfl
    · have : ¬ s.counters.live[x.index] = 0xFFFF := fun h => hv (by rw [h]; rfl)
      rw [if_neg (by simpa using this), if_neg hv]
  · simp only [hw, decide_false, if_false, Bool.false_eq_true]
    by_cases hv : 65534 ≤ s.counters.live[x.index].toNat
    · rw [if_pos hv, if_pos hv, if_pos rfl, show min 65535 (s.counters.live[x.index].toNat + 1) = 65535 by omega]; rfl
    · rw [if_neg hv, if_neg hv, if_neg (by simp),
        show min 65535 (s.counters.live[x.index].toNat + 1) = s.counters.live[x.index].toNat + 1 by omega]
      have e : s.counters.live[x.index] + 1 = BitVec.ofNat 16 (s.counters.live[x.index].toNat + 1) := by
        apply BitVec.eq_of_toNat_eq; simp
      rw [e]

/-- A circuit's output decided afresh (R141). -/
theorem Circuit.redecide_eq (c : Circuit) (on : Bool) (moment : Nat) :
    c.redecide on moment = c.withOutput (outputOf c.mode c.flash c.demand on) moment := by
  have h : c.decided on = outputOf c.mode c.flash c.demand on := by
    unfold Circuit.decided outputOf
    cases c.mode <;> cases c.flash <;> cases c.demand <;> rfl
  unfold Circuit.redecide Circuit.withOutput
  rw [h]
  cases h1 : c.output <;> cases h2 : outputOf c.mode c.flash c.demand on <;> simp

/-- The notice of a feed, in the terms of R149 and R150. -/
theorem State.noticeFeed_noticed (s : State) (f : Feed) :
    noticed s (s.noticeFeed f) f ∧ s.noticeFeed f = { s with lcm := (s.noticeFeed f).lcm } := by
  cases f with
  | circuit k =>
    have hs : s.noticeFeed (.circuit k) = s.notice k := rfl
    rw [hs]
    have he : (s.notice k).expectedCurrent k = s.expectedCurrent k := by
      unfold State.notice State.setCircuit; dsimp only; split <;> rfl
    refine ⟨⟨?_, ?_, ?_, ?_⟩, ?_⟩
    · unfold State.notice State.setCircuit; dsimp only; split <;> rfl
    · unfold State.notice State.setCircuit; dsimp only; split <;> rfl
    · intro g hg
      unfold State.notice State.setCircuit; dsimp only
      split
      · rfl
      · exact Vector.getElem_set_ne k.isLt g.isLt fun h => hg (congrArg Feed.circuit (Fin.ext h))
    · intro g hg
      cases hg
      rw [he]
      unfold State.notice State.setCircuit; dsimp only
      by_cases h : s.expectedCurrent k = (s.circuit k).expected
      · rw [if_pos h, if_pos (show _ = s.lcm.circuits[k].expected from h)]
      · rw [if_neg h, if_neg (show ¬ _ = s.lcm.circuits[k].expected from h)]
        exact Vector.getElem_set_self _
    · unfold State.notice State.setCircuit; dsimp only; split <;> rfl
  | node => exact ⟨⟨rfl, rfl, fun _ _ => rfl, fun _ h => by cases h⟩, rfl⟩
  | none => exact ⟨⟨rfl, rfl, fun _ _ => rfl, fun _ h => by cases h⟩, rfl⟩

/-! ### The end of the load -/

/-- The first cycle starts at the load's end with the period that the chain state chooses, outside its transaction phase
(R90, R91, R183). -/
theorem State.finishLoad_rcu (s : State) :
    s.finishLoad.rcu =
      { s.rcu with cycleStart := s.finishLoad.now, period := s.finishLoad.chosenPeriod, phaseOpen := false } := by
  simp only [State.finishLoad, all8, List.foldl, State.refreshTol, State.setCircuit, State.startCycle, State.transmit,
    State.clearOut, State.fillMeter, State.chosenPeriod, State.setting]

/-- The ROLL is all that the end of the load sends (R90, R183). -/
theorem State.finishLoad_line (s : State) :
    s.finishLoad.line =
      { s.line with
        reception := none
        meters := s.finishLoad.line.meters
        txEnd := s.finishLoad.now + frameTime 2
        lineOut := [s.rollFrame.bytes s.line.txInverted] } := by
  simp only [State.finishLoad, all8, List.foldl, State.refreshTol, State.setCircuit, State.startCycle, State.transmit,
    State.clearOut, State.fillMeter, State.rollFrame, List.nil_append, List.length]

end Sys2Proof.Machine
end

