-- ==== Sys2Proof/Laws/Contexts.lean ====
section
/-! SUPPORT. What the steps of the enrolment context do, in the terms of Safety.lean, one lemma for each shared
operation: the end of a context, the joining of a unit, the next descriptor, and an index that leaves the pending
set. -/

namespace Sys2Proof.Machine

theorem State.talkingCount_pos (s : State) :
    0 < s.talkingCount ↔ ∃ g : Fin 8, s.dir.entries[g].state.onChain = true := by
  unfold State.talkingCount
  rw [List.length_pos_iff_exists_mem]
  constructor
  · rintro ⟨g, hg⟩
    exact ⟨g, by simpa [State.entry] using (List.mem_filter.1 hg).2⟩
  · rintro ⟨g, hg⟩
    exact ⟨g, List.mem_filter.2 ⟨mem_all8 g, by simpa [State.entry] using hg⟩⟩

/-- The end of a context (R101, R106). -/
theorem State.endContext_eq (s : State) : s.endContext = s.contextDone := by
  have h0 : ({ s with ee := none } : State).talkingCount = s.talkingCount := rfl
  have ht := s.talkingCount_pos
  unfold State.endContext State.contextEnded State.contextDone
  dsimp only
  by_cases h : s.rcu.chain = .forming
  · rw [if_pos h, if_pos h, h0]
    by_cases hc : 0 < s.talkingCount
    · rw [if_pos hc, if_pos (ht.1 hc)]
      unfold State.setChain
      rw [if_neg (by rw [h]; decide)]
      rfl
    · rw [if_neg hc, if_neg fun e => hc (ht.2 e)]
      unfold State.setChain
      rw [if_neg (by rw [h]; decide)]
      rfl
  · rw [if_neg h, if_neg h]

theorem State.slotHeldBy_ee (s : State) : s.slotHeldBy .ee = s.eeInSlot := rfl

/-- The judgement of an abandoned context (R122). -/
theorem State.settleAbandoned_eq (s : State) : s.settleAbandoned = s.settledContext := by
  unfold State.settleAbandoned State.settledContext
  rw [State.endContext_eq]
  rfl

/-- A circuit as a UNIT_JOINED leaves it (R143, R144). -/
def State.flashed (s : State) (k : Fin 8) (x : Circuit) : Circuit :=
  if s.settings[(19 : Fin 131)].testBit k.val = true ∧ x.mode = .normal ∧ s.settings[(18 : Fin 131)] ≠ 0 then
    ({ x with flash := some ⟨s.settings[(18 : Fin 131)], true, s.now + 300000⟩ } : Circuit).withOutput true s.now
  else x

theorem State.setCircuit_self (s : State) (k : Fin 8) : s.setCircuit k (s.circuit k) = s := by
  have : s.lcm.circuits.set k s.lcm.circuits[k] = s.lcm.circuits := by
    apply Vector.ext; intro i hi
    by_cases hik : k.val = i
    · subst hik; simp
    · rw [Vector.getElem_set_ne _ _ hik]
  unfold State.setCircuit State.circuit
  rw [this]

/-- The start of a flash on one circuit (R143, R144). -/
theorem State.flashOn_eq (s : State) (k : Fin 8) : s.flashOn k = s.setCircuit k (s.flashed k (s.circuit k)) := by
  unfold State.flashOn State.flashed
  dsimp only
  by_cases h : s.flashMasked k = true ∧ (s.circuit k).mode = .normal ∧ s.setting 18 ≠ 0
  · have h' : s.settings[(19 : Fin 131)].testBit k.val = true ∧ (s.circuit k).mode = .normal ∧
        s.settings[(18 : Fin 131)] ≠ 0 := h
    rw [if_pos h, if_pos h']
    unfold State.redecide
    rw [Circuit.redecide_eq]
    simp [State.setCircuit, State.circuit, State.setting, flashPhase, outputOf,
      show s.lcm.circuits[k.val].mode = .normal from h.2.1]
  · have h' : ¬ (s.settings[(19 : Fin 131)].testBit k.val = true ∧ (s.circuit k).mode = .normal ∧
        s.settings[(18 : Fin 131)] ≠ 0) := h
    rw [if_neg h, if_neg h', State.setCircuit_self]

/-- The start of a flash on every circuit (R143, R144). -/
theorem State.startFlash_eq (s : State) :
    s.startFlash =
      { s with lcm := { s.lcm with circuits := Vector.ofFn fun k => s.flashed k s.lcm.circuits[k] } } := by
  have all : ∀ (l : List (Fin 8)) (u : State), l.Nodup → (∀ k x, u.flashed k x = s.flashed k x) →
      l.foldl State.flashOn u =
        { u with
          lcm :=
            { u.lcm with
              circuits := Vector.ofFn fun k => if k ∈ l then s.flashed k u.lcm.circuits[k] else u.lcm.circuits[k] } } := by
    intro l
    induction l with
    | nil =>
      intro u _ _
      simp
    | cons a l ih =>
      intro u hn hu
      have hn' := List.nodup_cons.1 hn
      rw [List.foldl_cons, State.flashOn_eq,
        ih (u.setCircuit a (u.flashed a (u.circuit a))) hn'.2 fun k x => hu k x, hu]
      unfold State.setCircuit State.circuit
      dsimp only
      congr 2
      apply Vector.ext
      intro i hi
      simp only [Vector.getElem_ofFn]
      by_cases hia : a.val = i
      · subst hia
        have : (⟨a.val, hi⟩ : Fin 8) = a := rfl
        simp [hn'.1, this]
      · have hne : (⟨i, hi⟩ : Fin 8) ≠ a := fun e => hia (by rw [← e])
        simp only [List.mem_cons, hne, false_or]
        simp [Vector.getElem_set_ne _ _ hia]
  have := all all8 s (by decide) fun _ _ => rfl
  unfold State.startFlash
  simpa only [mem_all8, if_true] using this

/-- A unit joins (R58). -/
theorem State.joinUnit_eq (s : State) (h : Fin 8) : s.joinUnit h = s.unitJoined h := by
  unfold State.joinUnit
  rw [State.startFlash_eq]
  rfl

/-- The event that empties a pending set (R58). -/
theorem State.pendingEmptied_eq (s : State) (h : Fin 8) : s.pendingEmptied h = s.setEmptied h := by
  unfold State.pendingEmptied State.setEmptied
  simp only [State.joinUnit_eq]
  rfl

/-- The next descriptor of a context (R110, R119). -/
theorem State.nextDescriptor_eq (s : State) (c : Context) (hc : s.ee = some c) :
    s.nextDescriptor = s.nextTaken c.handle := by
  have hl : lowestIndex (s.entry c.handle).pendingSet =
      ((List.finRange 64).find? fun i => s.dir.entries[c.handle].pendingSet.getLsbD i.val).map
        fun i => BitVec.ofNat 6 i.val := by
    unfold lowestIndex
    rw [show List.range 64 = (List.finRange 64).map Fin.val by decide, List.find?_map, Option.map_map]
    rfl
  unfold State.nextDescriptor State.nextTaken
  rw [hc]
  dsimp only
  rw [hl]
  cases (List.finRange 64).find? fun i => s.dir.entries[c.handle].pendingSet.getLsbD i.val with
  | none =>
    simp only [Option.map_none]
    unfold State.completeContext
    rw [State.pendingEmptied_eq, State.endContext_eq]
  | some i => rfl

/-- An index leaves the pending set of the context's unit (R110). -/
theorem State.dropIndex_eq (s : State) (c : Context) (i : BitVec 6) (hi : c.index = some i) :
    s.dropIndex c = s.indexGone c.handle i := by
  unfold State.dropIndex
  rw [hi]
  rfl

/-- A descriptor is finished with (R110, R118). -/
theorem State.finishDescriptor_eq (s : State) (c : Context) (i : BitVec 6) (hc : s.ee = some c)
    (hi : c.index = some i) : s.finishDescriptor c = (s.indexGone c.handle i).nextTaken c.handle := by
  unfold State.finishDescriptor
  rw [State.dropIndex_eq s c i hi]
  exact State.nextDescriptor_eq _ c hc

end Sys2Proof.Machine
end

