-- ==== Sys2Proof/Laws/State.lean ====
section
/-! SUPPORT. What each update of the state leaves as it was, field by field, for the updates whose definition shows it
at once: every lemma here is true by rfl. -/

namespace Sys2Proof.Machine

@[simp] theorem State.raise_frame (s : State) (f : EventFlag) :
    (s.raise f).now = s.now ∧ (s.raise f).settings = s.settings ∧ (s.raise f).loader = s.loader ∧
    (s.raise f).table = s.table ∧ (s.raise f).store = s.store ∧ (s.raise f).dir = s.dir ∧ (s.raise f).line = s.line ∧
    (s.raise f).rcu = s.rcu ∧ (s.raise f).ee = s.ee ∧ (s.raise f).workList = s.workList ∧ (s.raise f).ou = s.ou ∧
    (s.raise f).lcm = s.lcm ∧ (s.raise f).port = s.port ∧ (s.raise f).counters = s.counters ∧
    (s.raise f).pending = s.pending :=
  ⟨rfl, rfl, rfl, rfl, rfl, rfl, rfl, rfl, rfl, rfl, rfl, rfl, rfl, rfl, rfl⟩

@[simp] theorem State.raiseJoined_frame (s : State) (h : Fin 8) :
    (s.raiseJoined h).now = s.now ∧ (s.raiseJoined h).settings = s.settings ∧ (s.raiseJoined h).loader = s.loader ∧
    (s.raiseJoined h).table = s.table ∧ (s.raiseJoined h).store = s.store ∧ (s.raiseJoined h).dir = s.dir ∧
    (s.raiseJoined h).line = s.line ∧ (s.raiseJoined h).rcu = s.rcu ∧ (s.raiseJoined h).ee = s.ee ∧
    (s.raiseJoined h).workList = s.workList ∧ (s.raiseJoined h).ou = s.ou ∧ (s.raiseJoined h).lcm = s.lcm ∧
    (s.raiseJoined h).port = s.port ∧ (s.raiseJoined h).counters = s.counters ∧
    (s.raiseJoined h).pending = s.pending :=
  ⟨rfl, rfl, rfl, rfl, rfl, rfl, rfl, rfl, rfl, rfl, rfl, rfl, rfl, rfl, rfl⟩

@[simp] theorem State.raiseLeft_frame (s : State) (h : Fin 8) :
    (s.raiseLeft h).now = s.now ∧ (s.raiseLeft h).settings = s.settings ∧ (s.raiseLeft h).loader = s.loader ∧
    (s.raiseLeft h).table = s.table ∧ (s.raiseLeft h).store = s.store ∧ (s.raiseLeft h).dir = s.dir ∧
    (s.raiseLeft h).line = s.line ∧ (s.raiseLeft h).rcu = s.rcu ∧ (s.raiseLeft h).ee = s.ee ∧
    (s.raiseLeft h).workList = s.workList ∧ (s.raiseLeft h).ou = s.ou ∧ (s.raiseLeft h).lcm = s.lcm ∧
    (s.raiseLeft h).port = s.port ∧ (s.raiseLeft h).counters = s.counters ∧ (s.raiseLeft h).pending = s.pending :=
  ⟨rfl, rfl, rfl, rfl, rfl, rfl, rfl, rfl, rfl, rfl, rfl, rfl, rfl, rfl, rfl⟩

@[simp] theorem State.raiseVerdict_frame (s : State) (k : Fin 8) :
    (s.raiseVerdict k).now = s.now ∧ (s.raiseVerdict k).settings = s.settings ∧
    (s.raiseVerdict k).loader = s.loader ∧ (s.raiseVerdict k).table = s.table ∧ (s.raiseVerdict k).store = s.store ∧
    (s.raiseVerdict k).dir = s.dir ∧ (s.raiseVerdict k).line = s.line ∧ (s.raiseVerdict k).rcu = s.rcu ∧
    (s.raiseVerdict k).ee = s.ee ∧ (s.raiseVerdict k).workList = s.workList ∧ (s.raiseVerdict k).ou = s.ou ∧
    (s.raiseVerdict k).lcm = s.lcm ∧ (s.raiseVerdict k).port = s.port ∧ (s.raiseVerdict k).counters = s.counters ∧
    (s.raiseVerdict k).pending = s.pending :=
  ⟨rfl, rfl, rfl, rfl, rfl, rfl, rfl, rfl, rfl, rfl, rfl, rfl, rfl, rfl, rfl⟩

@[simp] theorem State.advance_frame (s : State) (moment : Nat) :
    (s.advance moment).settings = s.settings ∧ (s.advance moment).loader = s.loader ∧
    (s.advance moment).table = s.table ∧ (s.advance moment).store = s.store ∧ (s.advance moment).dir = s.dir ∧
    (s.advance moment).line = s.line ∧ (s.advance moment).rcu = s.rcu ∧ (s.advance moment).ee = s.ee ∧
    (s.advance moment).workList = s.workList ∧ (s.advance moment).ou = s.ou ∧ (s.advance moment).lcm = s.lcm ∧
    (s.advance moment).port = s.port ∧ (s.advance moment).events = s.events ∧
    (s.advance moment).counters = s.counters ∧ (s.advance moment).pending = s.pending :=
  ⟨rfl, rfl, rfl, rfl, rfl, rfl, rfl, rfl, rfl, rfl, rfl, rfl, rfl, rfl, rfl⟩

@[simp] theorem State.setEntry_frame (s : State) (h : Fin 8) (e : Entry) :
    (s.setEntry h e).now = s.now ∧ (s.setEntry h e).settings = s.settings ∧ (s.setEntry h e).loader = s.loader ∧
    (s.setEntry h e).table = s.table ∧ (s.setEntry h e).store = s.store ∧ (s.setEntry h e).line = s.line ∧
    (s.setEntry h e).rcu = s.rcu ∧ (s.setEntry h e).ee = s.ee ∧ (s.setEntry h e).workList = s.workList ∧
    (s.setEntry h e).ou = s.ou ∧ (s.setEntry h e).lcm = s.lcm ∧ (s.setEntry h e).port = s.port ∧
    (s.setEntry h e).events = s.events ∧ (s.setEntry h e).counters = s.counters ∧
    (s.setEntry h e).pending = s.pending :=
  ⟨rfl, rfl, rfl, rfl, rfl, rfl, rfl, rfl, rfl, rfl, rfl, rfl, rfl, rfl, rfl⟩

@[simp] theorem State.setCircuit_frame (s : State) (k : Fin 8) (c : Circuit) :
    (s.setCircuit k c).now = s.now ∧ (s.setCircuit k c).settings = s.settings ∧
    (s.setCircuit k c).loader = s.loader ∧ (s.setCircuit k c).table = s.table ∧ (s.setCircuit k c).store = s.store ∧
    (s.setCircuit k c).dir = s.dir ∧ (s.setCircuit k c).line = s.line ∧ (s.setCircuit k c).rcu = s.rcu ∧
    (s.setCircuit k c).ee = s.ee ∧ (s.setCircuit k c).workList = s.workList ∧ (s.setCircuit k c).ou = s.ou ∧
    (s.setCircuit k c).port = s.port ∧ (s.setCircuit k c).events = s.events ∧
    (s.setCircuit k c).counters = s.counters ∧ (s.setCircuit k c).pending = s.pending :=
  ⟨rfl, rfl, rfl, rfl, rfl, rfl, rfl, rfl, rfl, rfl, rfl, rfl, rfl, rfl, rfl⟩

@[simp] theorem State.setSlot_frame (s : State) (i : Fin 256) (o : Option Record) :
    (s.setSlot i o).now = s.now ∧ (s.setSlot i o).settings = s.settings ∧ (s.setSlot i o).loader = s.loader ∧
    (s.setSlot i o).store = s.store ∧ (s.setSlot i o).dir = s.dir ∧ (s.setSlot i o).line = s.line ∧
    (s.setSlot i o).rcu = s.rcu ∧ (s.setSlot i o).ee = s.ee ∧ (s.setSlot i o).workList = s.workList ∧
    (s.setSlot i o).ou = s.ou ∧ (s.setSlot i o).lcm = s.lcm ∧ (s.setSlot i o).port = s.port ∧
    (s.setSlot i o).events = s.events ∧ (s.setSlot i o).counters = s.counters ∧ (s.setSlot i o).pending = s.pending :=
  ⟨rfl, rfl, rfl, rfl, rfl, rfl, rfl, rfl, rfl, rfl, rfl, rfl, rfl, rfl, rfl⟩

@[simp] theorem State.granted_frame (s : State) (g : Grantee) :
    (s.granted g).now = s.now ∧ (s.granted g).settings = s.settings ∧ (s.granted g).loader = s.loader ∧
    (s.granted g).store = s.store ∧ (s.granted g).dir = s.dir ∧ (s.granted g).line = s.line ∧
    (s.granted g).rcu = s.rcu ∧ (s.granted g).ee = s.ee ∧ (s.granted g).workList = s.workList ∧
    (s.granted g).ou = s.ou ∧ (s.granted g).lcm = s.lcm ∧ (s.granted g).port = s.port ∧
    (s.granted g).events = s.events ∧ (s.granted g).counters = s.counters ∧ (s.granted g).pending = s.pending :=
  ⟨rfl, rfl, rfl, rfl, rfl, rfl, rfl, rfl, rfl, rfl, rfl, rfl, rfl, rfl, rfl⟩

@[simp] theorem State.redecide_frame (s : State) (k : Fin 8) :
    (s.redecide k).now = s.now ∧ (s.redecide k).settings = s.settings ∧ (s.redecide k).loader = s.loader ∧
    (s.redecide k).table = s.table ∧ (s.redecide k).store = s.store ∧ (s.redecide k).dir = s.dir ∧
    (s.redecide k).line = s.line ∧ (s.redecide k).rcu = s.rcu ∧ (s.redecide k).ee = s.ee ∧
    (s.redecide k).workList = s.workList ∧ (s.redecide k).ou = s.ou ∧ (s.redecide k).port = s.port ∧
    (s.redecide k).events = s.events ∧ (s.redecide k).counters = s.counters ∧ (s.redecide k).pending = s.pending :=
  ⟨rfl, rfl, rfl, rfl, rfl, rfl, rfl, rfl, rfl, rfl, rfl, rfl, rfl, rfl, rfl⟩

@[simp] theorem State.selectPort_frame (s : State) :
    s.selectPort.now = s.now ∧ s.selectPort.settings = s.settings ∧ s.selectPort.loader = s.loader ∧
    s.selectPort.table = s.table ∧ s.selectPort.store = s.store ∧ s.selectPort.dir = s.dir ∧
    s.selectPort.line = s.line ∧ s.selectPort.rcu = s.rcu ∧ s.selectPort.ee = s.ee ∧
    s.selectPort.workList = s.workList ∧ s.selectPort.ou = s.ou ∧ s.selectPort.lcm = s.lcm ∧
    s.selectPort.events = s.events ∧ s.selectPort.counters = s.counters ∧ s.selectPort.pending = s.pending :=
  ⟨rfl, rfl, rfl, rfl, rfl, rfl, rfl, rfl, rfl, rfl, rfl, rfl, rfl, rfl, rfl⟩

@[simp] theorem State.endUnclocked_frame (s : State) :
    s.endUnclocked.now = s.now ∧ s.endUnclocked.settings = s.settings ∧ s.endUnclocked.loader = s.loader ∧
    s.endUnclocked.table = s.table ∧ s.endUnclocked.store = s.store ∧ s.endUnclocked.dir = s.dir ∧
    s.endUnclocked.line = s.line ∧ s.endUnclocked.rcu = s.rcu ∧ s.endUnclocked.ee = s.ee ∧
    s.endUnclocked.workList = s.workList ∧ s.endUnclocked.ou = s.ou ∧ s.endUnclocked.lcm = s.lcm ∧
    s.endUnclocked.events = s.events ∧ s.endUnclocked.counters = s.counters ∧
    s.endUnclocked.pending = s.pending :=
  ⟨rfl, rfl, rfl, rfl, rfl, rfl, rfl, rfl, rfl, rfl, rfl, rfl, rfl, rfl, rfl⟩

@[simp] theorem State.firstByte_frame (s : State) (b : Byte) :
    (s.firstByte b).now = s.now ∧ (s.firstByte b).settings = s.settings ∧ (s.firstByte b).loader = s.loader ∧
    (s.firstByte b).table = s.table ∧ (s.firstByte b).store = s.store ∧ (s.firstByte b).dir = s.dir ∧
    (s.firstByte b).line = s.line ∧ (s.firstByte b).rcu = s.rcu ∧ (s.firstByte b).ee = s.ee ∧
    (s.firstByte b).workList = s.workList ∧ (s.firstByte b).ou = s.ou ∧ (s.firstByte b).lcm = s.lcm ∧
    (s.firstByte b).events = s.events ∧ (s.firstByte b).counters = s.counters ∧ (s.firstByte b).pending = s.pending :=
  ⟨rfl, rfl, rfl, rfl, rfl, rfl, rfl, rfl, rfl, rfl, rfl, rfl, rfl, rfl, rfl⟩

@[simp] theorem State.closeTransfer_frame (s : State) (t : Transfer) (out : List Byte) :
    (s.closeTransfer t out).now = s.now ∧ (s.closeTransfer t out).settings = s.settings ∧
    (s.closeTransfer t out).loader = s.loader ∧ (s.closeTransfer t out).table = s.table ∧
    (s.closeTransfer t out).store = s.store ∧ (s.closeTransfer t out).dir = s.dir ∧
    (s.closeTransfer t out).line = s.line ∧ (s.closeTransfer t out).rcu = s.rcu ∧ (s.closeTransfer t out).ee = s.ee ∧
    (s.closeTransfer t out).workList = s.workList ∧ (s.closeTransfer t out).ou = s.ou ∧
    (s.closeTransfer t out).lcm = s.lcm ∧ (s.closeTransfer t out).events = s.events ∧
    (s.closeTransfer t out).counters = s.counters ∧ (s.closeTransfer t out).pending = s.pending :=
  ⟨rfl, rfl, rfl, rfl, rfl, rfl, rfl, rfl, rfl, rfl, rfl, rfl, rfl, rfl, rfl⟩

@[simp] theorem State.discard_frame (s : State) :
    (s.discard).now = s.now ∧ (s.discard).settings = s.settings ∧ (s.discard).loader = s.loader ∧
    (s.discard).table = s.table ∧ (s.discard).store = s.store ∧ (s.discard).dir = s.dir ∧ (s.discard).line = s.line ∧
    (s.discard).rcu = s.rcu ∧ (s.discard).ee = s.ee ∧ (s.discard).workList = s.workList ∧ (s.discard).ou = s.ou ∧
    (s.discard).lcm = s.lcm ∧ (s.discard).events = s.events ∧ (s.discard).counters = s.counters ∧
    (s.discard).pending = s.pending :=
  ⟨rfl, rfl, rfl, rfl, rfl, rfl, rfl, rfl, rfl, rfl, rfl, rfl, rfl, rfl, rfl⟩

@[simp] theorem State.respond_frame (s : State) (r : Request) (result : Result) (payload : List Byte) :
    (s.respond r result payload).now = s.now ∧ (s.respond r result payload).settings = s.settings ∧
    (s.respond r result payload).loader = s.loader ∧ (s.respond r result payload).table = s.table ∧
    (s.respond r result payload).store = s.store ∧ (s.respond r result payload).dir = s.dir ∧
    (s.respond r result payload).line = s.line ∧ (s.respond r result payload).rcu = s.rcu ∧
    (s.respond r result payload).ee = s.ee ∧ (s.respond r result payload).workList = s.workList ∧
    (s.respond r result payload).ou = s.ou ∧ (s.respond r result payload).lcm = s.lcm ∧
    (s.respond r result payload).events = s.events ∧ (s.respond r result payload).counters = s.counters ∧
    (s.respond r result payload).pending = s.pending :=
  ⟨rfl, rfl, rfl, rfl, rfl, rfl, rfl, rfl, rfl, rfl, rfl, rfl, rfl, rfl, rfl⟩

@[simp] theorem State.answer_frame (s : State) (r : Request) (result : Result) :
    (s.answer r result).now = s.now ∧ (s.answer r result).settings = s.settings ∧
    (s.answer r result).loader = s.loader ∧ (s.answer r result).table = s.table ∧
    (s.answer r result).store = s.store ∧ (s.answer r result).dir = s.dir ∧ (s.answer r result).line = s.line ∧
    (s.answer r result).rcu = s.rcu ∧ (s.answer r result).ee = s.ee ∧ (s.answer r result).workList = s.workList ∧
    (s.answer r result).ou = s.ou ∧ (s.answer r result).lcm = s.lcm ∧ (s.answer r result).events = s.events ∧
    (s.answer r result).counters = s.counters ∧ (s.answer r result).pending = s.pending :=
  ⟨rfl, rfl, rfl, rfl, rfl, rfl, rfl, rfl, rfl, rfl, rfl, rfl, rfl, rfl, rfl⟩

@[simp] theorem State.finishPosted_frame (s : State) :
    (s.finishPosted).now = s.now ∧ (s.finishPosted).settings = s.settings ∧ (s.finishPosted).loader = s.loader ∧
    (s.finishPosted).table = s.table ∧ (s.finishPosted).store = s.store ∧ (s.finishPosted).dir = s.dir ∧
    (s.finishPosted).line = s.line ∧ (s.finishPosted).rcu = s.rcu ∧ (s.finishPosted).ee = s.ee ∧
    (s.finishPosted).workList = s.workList ∧ (s.finishPosted).ou = s.ou ∧ (s.finishPosted).lcm = s.lcm ∧
    (s.finishPosted).events = s.events ∧ (s.finishPosted).counters = s.counters ∧
    (s.finishPosted).pending = s.pending :=
  ⟨rfl, rfl, rfl, rfl, rfl, rfl, rfl, rfl, rfl, rfl, rfl, rfl, rfl, rfl, rfl⟩

@[simp] theorem State.freeEntry_frame (s : State) (h : Fin 8) :
    (s.freeEntry h).now = s.now ∧ (s.freeEntry h).settings = s.settings ∧ (s.freeEntry h).loader = s.loader ∧
    (s.freeEntry h).table = s.table ∧ (s.freeEntry h).store = s.store ∧ (s.freeEntry h).line = s.line ∧
    (s.freeEntry h).rcu = s.rcu ∧ (s.freeEntry h).ee = s.ee ∧ (s.freeEntry h).workList = s.workList ∧
    (s.freeEntry h).ou = s.ou ∧ (s.freeEntry h).lcm = s.lcm ∧ (s.freeEntry h).port = s.port ∧
    (s.freeEntry h).counters = s.counters ∧ (s.freeEntry h).pending = s.pending :=
  ⟨rfl, rfl, rfl, rfl, rfl, rfl, rfl, rfl, rfl, rfl, rfl, rfl, rfl, rfl⟩

@[simp] theorem State.owe_frame (s : State) (ps : List Nat) :
    (s.owe ps).now = s.now ∧ (s.owe ps).settings = s.settings ∧ (s.owe ps).loader = s.loader ∧
    (s.owe ps).table = s.table ∧ (s.owe ps).store = s.store ∧ (s.owe ps).line = s.line ∧ (s.owe ps).rcu = s.rcu ∧
    (s.owe ps).ee = s.ee ∧ (s.owe ps).workList = s.workList ∧ (s.owe ps).ou = s.ou ∧ (s.owe ps).lcm = s.lcm ∧
    (s.owe ps).port = s.port ∧ (s.owe ps).events = s.events ∧ (s.owe ps).counters = s.counters ∧
    (s.owe ps).pending = s.pending :=
  ⟨rfl, rfl, rfl, rfl, rfl, rfl, rfl, rfl, rfl, rfl, rfl, rfl, rfl, rfl, rfl⟩

@[simp] theorem State.transmit_frame (s : State) (f : HeadFrame) (start : Nat) :
    (s.transmit f start).now = s.now ∧ (s.transmit f start).settings = s.settings ∧
    (s.transmit f start).loader = s.loader ∧ (s.transmit f start).table = s.table ∧
    (s.transmit f start).store = s.store ∧ (s.transmit f start).dir = s.dir ∧ (s.transmit f start).rcu = s.rcu ∧
    (s.transmit f start).ee = s.ee ∧ (s.transmit f start).workList = s.workList ∧ (s.transmit f start).ou = s.ou ∧
    (s.transmit f start).lcm = s.lcm ∧ (s.transmit f start).port = s.port ∧ (s.transmit f start).events = s.events ∧
    (s.transmit f start).counters = s.counters ∧ (s.transmit f start).pending = s.pending :=
  ⟨rfl, rfl, rfl, rfl, rfl, rfl, rfl, rfl, rfl, rfl, rfl, rfl, rfl, rfl, rfl⟩

@[simp] theorem State.clearOut_frame (s : State) :
    (s.clearOut).now = s.now ∧ (s.clearOut).settings = s.settings ∧ (s.clearOut).loader = s.loader ∧
    (s.clearOut).table = s.table ∧ (s.clearOut).store = s.store ∧ (s.clearOut).dir = s.dir ∧
    (s.clearOut).rcu = s.rcu ∧ (s.clearOut).ee = s.ee ∧ (s.clearOut).workList = s.workList ∧ (s.clearOut).ou = s.ou ∧
    (s.clearOut).lcm = s.lcm ∧ (s.clearOut).port = s.port ∧ (s.clearOut).events = s.events ∧
    (s.clearOut).counters = s.counters ∧ (s.clearOut).pending = s.pending :=
  ⟨rfl, rfl, rfl, rfl, rfl, rfl, rfl, rfl, rfl, rfl, rfl, rfl, rfl, rfl, rfl⟩

@[simp] theorem State.occupy_frame (s : State) (t : Transaction) :
    (s.occupy t).now = s.now ∧ (s.occupy t).settings = s.settings ∧ (s.occupy t).loader = s.loader ∧
    (s.occupy t).table = s.table ∧ (s.occupy t).store = s.store ∧ (s.occupy t).dir = s.dir ∧
    (s.occupy t).rcu = s.rcu ∧ (s.occupy t).ee = s.ee ∧ (s.occupy t).workList = s.workList ∧ (s.occupy t).ou = s.ou ∧
    (s.occupy t).lcm = s.lcm ∧ (s.occupy t).port = s.port ∧ (s.occupy t).events = s.events ∧
    (s.occupy t).counters = s.counters ∧ (s.occupy t).pending = s.pending :=
  ⟨rfl, rfl, rfl, rfl, rfl, rfl, rfl, rfl, rfl, rfl, rfl, rfl, rfl, rfl, rfl⟩

@[simp] theorem State.startOu_frame (s : State) :
    (s.startOu).now = s.now ∧ (s.startOu).settings = s.settings ∧ (s.startOu).loader = s.loader ∧
    (s.startOu).table = s.table ∧ (s.startOu).store = s.store ∧ (s.startOu).dir = s.dir ∧ (s.startOu).rcu = s.rcu ∧
    (s.startOu).ee = s.ee ∧ (s.startOu).workList = s.workList ∧ (s.startOu).ou = s.ou ∧ (s.startOu).lcm = s.lcm ∧
    (s.startOu).port = s.port ∧ (s.startOu).events = s.events ∧ (s.startOu).counters = s.counters ∧
    (s.startOu).pending = s.pending :=
  ⟨rfl, rfl, rfl, rfl, rfl, rfl, rfl, rfl, rfl, rfl, rfl, rfl, rfl, rfl, rfl⟩

@[simp] theorem State.withContext_frame (s : State) (c : Context) :
    (s.withContext c).now = s.now ∧ (s.withContext c).settings = s.settings ∧ (s.withContext c).loader = s.loader ∧
    (s.withContext c).table = s.table ∧ (s.withContext c).store = s.store ∧ (s.withContext c).dir = s.dir ∧
    (s.withContext c).line = s.line ∧ (s.withContext c).rcu = s.rcu ∧ (s.withContext c).workList = s.workList ∧
    (s.withContext c).ou = s.ou ∧ (s.withContext c).lcm = s.lcm ∧ (s.withContext c).port = s.port ∧
    (s.withContext c).events = s.events ∧ (s.withContext c).counters = s.counters ∧
    (s.withContext c).pending = s.pending :=
  ⟨rfl, rfl, rfl, rfl, rfl, rfl, rfl, rfl, rfl, rfl, rfl, rfl, rfl, rfl, rfl⟩

@[simp] theorem State.parkContext_frame (s : State) :
    s.parkContext.now = s.now ∧ s.parkContext.settings = s.settings ∧ s.parkContext.loader = s.loader ∧
    s.parkContext.table = s.table ∧ s.parkContext.store = s.store ∧ s.parkContext.dir = s.dir ∧
    s.parkContext.line = s.line ∧ s.parkContext.rcu = s.rcu ∧ s.parkContext.workList = s.workList ∧
    s.parkContext.ou = s.ou ∧ s.parkContext.lcm = s.lcm ∧ s.parkContext.port = s.port ∧
    s.parkContext.events = s.events ∧ s.parkContext.counters = s.counters ∧ s.parkContext.pending = s.pending :=
  ⟨rfl, rfl, rfl, rfl, rfl, rfl, rfl, rfl, rfl, rfl, rfl, rfl, rfl, rfl, rfl⟩

@[simp] theorem State.takeSegment_frame (s : State) (c : Context) (data : List Byte) :
    (s.takeSegment c data).now = s.now ∧ (s.takeSegment c data).settings = s.settings ∧
    (s.takeSegment c data).loader = s.loader ∧ (s.takeSegment c data).table = s.table ∧
    (s.takeSegment c data).dir = s.dir ∧ (s.takeSegment c data).line = s.line ∧ (s.takeSegment c data).rcu = s.rcu ∧
    (s.takeSegment c data).workList = s.workList ∧ (s.takeSegment c data).ou = s.ou ∧
    (s.takeSegment c data).lcm = s.lcm ∧ (s.takeSegment c data).port = s.port ∧
    (s.takeSegment c data).events = s.events ∧ (s.takeSegment c data).counters = s.counters ∧
    (s.takeSegment c data).pending = s.pending :=
  ⟨rfl, rfl, rfl, rfl, rfl, rfl, rfl, rfl, rfl, rfl, rfl, rfl, rfl, rfl⟩

@[simp] theorem State.ouEnded_frame (s : State) (o : Ending) :
    (s.ouEnded o).now = s.now ∧ (s.ouEnded o).settings = s.settings ∧ (s.ouEnded o).loader = s.loader ∧
    (s.ouEnded o).table = s.table ∧ (s.ouEnded o).store = s.store ∧ (s.ouEnded o).dir = s.dir ∧
    (s.ouEnded o).line = s.line ∧ (s.ouEnded o).rcu = s.rcu ∧ (s.ouEnded o).ee = s.ee ∧
    (s.ouEnded o).workList = s.workList ∧ (s.ouEnded o).lcm = s.lcm ∧ (s.ouEnded o).port = s.port ∧
    (s.ouEnded o).events = s.events ∧ (s.ouEnded o).counters = s.counters ∧ (s.ouEnded o).pending = s.pending :=
  ⟨rfl, rfl, rfl, rfl, rfl, rfl, rfl, rfl, rfl, rfl, rfl, rfl, rfl, rfl, rfl⟩

@[simp] theorem State.notePlaced_frame (s : State) (p : Nat) :
    (s.notePlaced p).now = s.now ∧ (s.notePlaced p).settings = s.settings ∧ (s.notePlaced p).loader = s.loader ∧
    (s.notePlaced p).table = s.table ∧ (s.notePlaced p).store = s.store ∧ (s.notePlaced p).dir = s.dir ∧
    (s.notePlaced p).line = s.line ∧ (s.notePlaced p).ee = s.ee ∧ (s.notePlaced p).workList = s.workList ∧
    (s.notePlaced p).ou = s.ou ∧ (s.notePlaced p).lcm = s.lcm ∧ (s.notePlaced p).port = s.port ∧
    (s.notePlaced p).events = s.events ∧ (s.notePlaced p).counters = s.counters ∧
    (s.notePlaced p).pending = s.pending :=
  ⟨rfl, rfl, rfl, rfl, rfl, rfl, rfl, rfl, rfl, rfl, rfl, rfl, rfl, rfl, rfl⟩

@[simp] theorem State.stopReceiving_frame (s : State) :
    (s.stopReceiving).now = s.now ∧ (s.stopReceiving).settings = s.settings ∧ (s.stopReceiving).loader = s.loader ∧
    (s.stopReceiving).table = s.table ∧ (s.stopReceiving).store = s.store ∧ (s.stopReceiving).dir = s.dir ∧
    (s.stopReceiving).rcu = s.rcu ∧ (s.stopReceiving).ee = s.ee ∧ (s.stopReceiving).workList = s.workList ∧
    (s.stopReceiving).ou = s.ou ∧ (s.stopReceiving).lcm = s.lcm ∧ (s.stopReceiving).port = s.port ∧
    (s.stopReceiving).events = s.events ∧ (s.stopReceiving).counters = s.counters ∧
    (s.stopReceiving).pending = s.pending :=
  ⟨rfl, rfl, rfl, rfl, rfl, rfl, rfl, rfl, rfl, rfl, rfl, rfl, rfl, rfl, rfl⟩

@[simp] theorem State.startCycle_frame (s : State) :
    (s.startCycle).now = s.now ∧ (s.startCycle).settings = s.settings ∧ (s.startCycle).loader = s.loader ∧
    (s.startCycle).table = s.table ∧ (s.startCycle).store = s.store ∧ (s.startCycle).dir = s.dir ∧
    (s.startCycle).ee = s.ee ∧ (s.startCycle).workList = s.workList ∧ (s.startCycle).ou = s.ou ∧
    (s.startCycle).lcm = s.lcm ∧ (s.startCycle).port = s.port ∧ (s.startCycle).events = s.events ∧
    (s.startCycle).counters = s.counters ∧ (s.startCycle).pending = s.pending :=
  ⟨rfl, rfl, rfl, rfl, rfl, rfl, rfl, rfl, rfl, rfl, rfl, rfl, rfl, rfl⟩

@[simp] theorem State.applyCredit_frame (void : Bool) (s : State) (h : Fin 8) :
    (State.applyCredit void s h).now = s.now ∧ (State.applyCredit void s h).settings = s.settings ∧
    (State.applyCredit void s h).loader = s.loader ∧ (State.applyCredit void s h).table = s.table ∧
    (State.applyCredit void s h).store = s.store ∧ (State.applyCredit void s h).line = s.line ∧
    (State.applyCredit void s h).rcu = s.rcu ∧ (State.applyCredit void s h).ee = s.ee ∧
    (State.applyCredit void s h).workList = s.workList ∧ (State.applyCredit void s h).ou = s.ou ∧
    (State.applyCredit void s h).lcm = s.lcm ∧ (State.applyCredit void s h).port = s.port ∧
    (State.applyCredit void s h).events = s.events ∧ (State.applyCredit void s h).counters = s.counters ∧
    (State.applyCredit void s h).pending = s.pending :=
  ⟨rfl, rfl, rfl, rfl, rfl, rfl, rfl, rfl, rfl, rfl, rfl, rfl, rfl, rfl, rfl⟩

@[simp] theorem State.setSteadyRun_frame (s : State) (n : Nat) :
    (s.setSteadyRun n).now = s.now ∧ (s.setSteadyRun n).settings = s.settings ∧
    (s.setSteadyRun n).loader = s.loader ∧ (s.setSteadyRun n).table = s.table ∧ (s.setSteadyRun n).store = s.store ∧
    (s.setSteadyRun n).dir = s.dir ∧ (s.setSteadyRun n).line = s.line ∧ (s.setSteadyRun n).ee = s.ee ∧
    (s.setSteadyRun n).workList = s.workList ∧ (s.setSteadyRun n).ou = s.ou ∧ (s.setSteadyRun n).lcm = s.lcm ∧
    (s.setSteadyRun n).port = s.port ∧ (s.setSteadyRun n).events = s.events ∧
    (s.setSteadyRun n).counters = s.counters ∧ (s.setSteadyRun n).pending = s.pending :=
  ⟨rfl, rfl, rfl, rfl, rfl, rfl, rfl, rfl, rfl, rfl, rfl, rfl, rfl, rfl, rfl⟩

@[simp] theorem State.closeCycle_frame (s : State) (void : Bool) (answered expected : Nat) :
    (s.closeCycle void answered expected).now = s.now ∧ (s.closeCycle void answered expected).settings = s.settings ∧
    (s.closeCycle void answered expected).loader = s.loader ∧ (s.closeCycle void answered expected).table = s.table ∧
    (s.closeCycle void answered expected).store = s.store ∧ (s.closeCycle void answered expected).line = s.line ∧
    (s.closeCycle void answered expected).ee = s.ee ∧ (s.closeCycle void answered expected).workList = s.workList ∧
    (s.closeCycle void answered expected).ou = s.ou ∧ (s.closeCycle void answered expected).lcm = s.lcm ∧
    (s.closeCycle void answered expected).port = s.port ∧ (s.closeCycle void answered expected).events = s.events ∧
    (s.closeCycle void answered expected).counters = s.counters ∧
    (s.closeCycle void answered expected).pending = s.pending :=
  ⟨rfl, rfl, rfl, rfl, rfl, rfl, rfl, rfl, rfl, rfl, rfl, rfl, rfl, rfl⟩

@[simp] theorem State.refillMeter_frame (s : State) (m : Fin 4) :
    (s.refillMeter m).now = s.now ∧ (s.refillMeter m).settings = s.settings ∧ (s.refillMeter m).loader = s.loader ∧
    (s.refillMeter m).table = s.table ∧ (s.refillMeter m).store = s.store ∧ (s.refillMeter m).dir = s.dir ∧
    (s.refillMeter m).rcu = s.rcu ∧ (s.refillMeter m).ee = s.ee ∧ (s.refillMeter m).workList = s.workList ∧
    (s.refillMeter m).ou = s.ou ∧ (s.refillMeter m).lcm = s.lcm ∧ (s.refillMeter m).port = s.port ∧
    (s.refillMeter m).events = s.events ∧ (s.refillMeter m).counters = s.counters ∧
    (s.refillMeter m).pending = s.pending :=
  ⟨rfl, rfl, rfl, rfl, rfl, rfl, rfl, rfl, rfl, rfl, rfl, rfl, rfl, rfl, rfl⟩

@[simp] theorem State.oweAgeing_frame (s : State) :
    (s.oweAgeing).now = s.now ∧ (s.oweAgeing).settings = s.settings ∧ (s.oweAgeing).loader = s.loader ∧
    (s.oweAgeing).table = s.table ∧ (s.oweAgeing).store = s.store ∧ (s.oweAgeing).dir = s.dir ∧
    (s.oweAgeing).line = s.line ∧ (s.oweAgeing).rcu = s.rcu ∧ (s.oweAgeing).ee = s.ee ∧ (s.oweAgeing).ou = s.ou ∧
    (s.oweAgeing).lcm = s.lcm ∧ (s.oweAgeing).port = s.port ∧ (s.oweAgeing).events = s.events ∧
    (s.oweAgeing).counters = s.counters ∧ (s.oweAgeing).pending = s.pending :=
  ⟨rfl, rfl, rfl, rfl, rfl, rfl, rfl, rfl, rfl, rfl, rfl, rfl, rfl, rfl, rfl⟩

@[simp] theorem State.refreshTol_frame (s : State) (k : Fin 8) :
    (s.refreshTol k).now = s.now ∧ (s.refreshTol k).settings = s.settings ∧ (s.refreshTol k).loader = s.loader ∧
    (s.refreshTol k).table = s.table ∧ (s.refreshTol k).store = s.store ∧ (s.refreshTol k).dir = s.dir ∧
    (s.refreshTol k).line = s.line ∧ (s.refreshTol k).rcu = s.rcu ∧ (s.refreshTol k).ee = s.ee ∧
    (s.refreshTol k).workList = s.workList ∧ (s.refreshTol k).ou = s.ou ∧ (s.refreshTol k).port = s.port ∧
    (s.refreshTol k).events = s.events ∧ (s.refreshTol k).counters = s.counters ∧
    (s.refreshTol k).pending = s.pending :=
  ⟨rfl, rfl, rfl, rfl, rfl, rfl, rfl, rfl, rfl, rfl, rfl, rfl, rfl, rfl, rfl⟩

@[simp] theorem State.fillMeter_frame (s : State) (m : Fin 4) :
    (s.fillMeter m).now = s.now ∧ (s.fillMeter m).settings = s.settings ∧ (s.fillMeter m).loader = s.loader ∧
    (s.fillMeter m).table = s.table ∧ (s.fillMeter m).store = s.store ∧ (s.fillMeter m).dir = s.dir ∧
    (s.fillMeter m).rcu = s.rcu ∧ (s.fillMeter m).ee = s.ee ∧ (s.fillMeter m).workList = s.workList ∧
    (s.fillMeter m).ou = s.ou ∧ (s.fillMeter m).lcm = s.lcm ∧ (s.fillMeter m).port = s.port ∧
    (s.fillMeter m).events = s.events ∧ (s.fillMeter m).counters = s.counters ∧ (s.fillMeter m).pending = s.pending :=
  ⟨rfl, rfl, rfl, rfl, rfl, rfl, rfl, rfl, rfl, rfl, rfl, rfl, rfl, rfl, rfl⟩

@[simp] theorem State.finishLoad_frame (s : State) :
    (s.finishLoad).settings = s.settings ∧ (s.finishLoad).loader = s.loader ∧ (s.finishLoad).table = s.table ∧
    (s.finishLoad).store = s.store ∧ (s.finishLoad).dir = s.dir ∧ (s.finishLoad).ee = s.ee ∧
    (s.finishLoad).workList = s.workList ∧ (s.finishLoad).ou = s.ou ∧ (s.finishLoad).events = s.events ∧
    (s.finishLoad).counters = s.counters ∧ (s.finishLoad).pending = s.pending :=
  ⟨rfl, rfl, rfl, rfl, rfl, rfl, rfl, rfl, rfl, rfl, rfl⟩

@[simp] theorem State.setExtension_frame (s : State) (i : Fin 256) (r : Record) (x : Option Extension) (charge : Nat) (st : Store) :
    (s.setExtension i r x charge st).now = s.now ∧ (s.setExtension i r x charge st).settings = s.settings ∧
    (s.setExtension i r x charge st).loader = s.loader ∧ (s.setExtension i r x charge st).line = s.line ∧
    (s.setExtension i r x charge st).rcu = s.rcu ∧ (s.setExtension i r x charge st).ee = s.ee ∧
    (s.setExtension i r x charge st).workList = s.workList ∧ (s.setExtension i r x charge st).ou = s.ou ∧
    (s.setExtension i r x charge st).lcm = s.lcm ∧ (s.setExtension i r x charge st).port = s.port ∧
    (s.setExtension i r x charge st).events = s.events ∧ (s.setExtension i r x charge st).counters = s.counters ∧
    (s.setExtension i r x charge st).pending = s.pending :=
  ⟨rfl, rfl, rfl, rfl, rfl, rfl, rfl, rfl, rfl, rfl, rfl, rfl, rfl⟩

@[simp] theorem State.enqueue_frame (s : State) (k : Key) :
    (s.enqueue k).now = s.now ∧ (s.enqueue k).settings = s.settings ∧ (s.enqueue k).loader = s.loader ∧
    (s.enqueue k).table = s.table ∧ (s.enqueue k).store = s.store ∧ (s.enqueue k).dir = s.dir ∧
    (s.enqueue k).line = s.line ∧ (s.enqueue k).rcu = s.rcu ∧ (s.enqueue k).ee = s.ee ∧
    (s.enqueue k).workList = s.workList ∧ (s.enqueue k).lcm = s.lcm ∧ (s.enqueue k).port = s.port ∧
    (s.enqueue k).events = s.events ∧ (s.enqueue k).counters = s.counters ∧ (s.enqueue k).pending = s.pending :=
  ⟨rfl, rfl, rfl, rfl, rfl, rfl, rfl, rfl, rfl, rfl, rfl, rfl, rfl, rfl, rfl⟩

@[simp] theorem State.clearNote_frame (s : State) :
    (s.clearNote).now = s.now ∧ (s.clearNote).settings = s.settings ∧ (s.clearNote).loader = s.loader ∧
    (s.clearNote).table = s.table ∧ (s.clearNote).store = s.store ∧ (s.clearNote).dir = s.dir ∧
    (s.clearNote).line = s.line ∧ (s.clearNote).rcu = s.rcu ∧ (s.clearNote).ee = s.ee ∧
    (s.clearNote).workList = s.workList ∧ (s.clearNote).lcm = s.lcm ∧ (s.clearNote).port = s.port ∧
    (s.clearNote).events = s.events ∧ (s.clearNote).counters = s.counters ∧ (s.clearNote).pending = s.pending :=
  ⟨rfl, rfl, rfl, rfl, rfl, rfl, rfl, rfl, rfl, rfl, rfl, rfl, rfl, rfl, rfl⟩

@[simp] theorem State.emptyFault_frame (s : State) :
    (s.emptyFault).now = s.now ∧ (s.emptyFault).settings = s.settings ∧ (s.emptyFault).loader = s.loader ∧
    (s.emptyFault).table = s.table ∧ (s.emptyFault).store = s.store ∧ (s.emptyFault).dir = s.dir ∧
    (s.emptyFault).line = s.line ∧ (s.emptyFault).rcu = s.rcu ∧ (s.emptyFault).ee = s.ee ∧
    (s.emptyFault).workList = s.workList ∧ (s.emptyFault).ou = s.ou ∧ (s.emptyFault).lcm = s.lcm ∧
    (s.emptyFault).events = s.events ∧ (s.emptyFault).counters = s.counters ∧ (s.emptyFault).pending = s.pending :=
  ⟨rfl, rfl, rfl, rfl, rfl, rfl, rfl, rfl, rfl, rfl, rfl, rfl, rfl, rfl, rfl⟩

@[simp] theorem State.lowerCredits_frame (s : State) (v : Nat) :
    (s.lowerCredits v).now = s.now ∧ (s.lowerCredits v).settings = s.settings ∧
    (s.lowerCredits v).loader = s.loader ∧ (s.lowerCredits v).table = s.table ∧ (s.lowerCredits v).store = s.store ∧
    (s.lowerCredits v).line = s.line ∧ (s.lowerCredits v).rcu = s.rcu ∧ (s.lowerCredits v).ee = s.ee ∧
    (s.lowerCredits v).workList = s.workList ∧ (s.lowerCredits v).ou = s.ou ∧ (s.lowerCredits v).lcm = s.lcm ∧
    (s.lowerCredits v).port = s.port ∧ (s.lowerCredits v).events = s.events ∧
    (s.lowerCredits v).counters = s.counters ∧ (s.lowerCredits v).pending = s.pending :=
  ⟨rfl, rfl, rfl, rfl, rfl, rfl, rfl, rfl, rfl, rfl, rfl, rfl, rfl, rfl, rfl⟩

@[simp] theorem State.withMeter_frame (s : State) (m : Fin 4) (t : Meter) :
    (s.withMeter m t).now = s.now ∧ (s.withMeter m t).settings = s.settings ∧ (s.withMeter m t).loader = s.loader ∧
    (s.withMeter m t).table = s.table ∧ (s.withMeter m t).store = s.store ∧ (s.withMeter m t).dir = s.dir ∧
    (s.withMeter m t).rcu = s.rcu ∧ (s.withMeter m t).ee = s.ee ∧ (s.withMeter m t).workList = s.workList ∧
    (s.withMeter m t).ou = s.ou ∧ (s.withMeter m t).lcm = s.lcm ∧ (s.withMeter m t).port = s.port ∧
    (s.withMeter m t).events = s.events ∧ (s.withMeter m t).counters = s.counters ∧
    (s.withMeter m t).pending = s.pending :=
  ⟨rfl, rfl, rfl, rfl, rfl, rfl, rfl, rfl, rfl, rfl, rfl, rfl, rfl, rfl, rfl⟩

@[simp] theorem State.popWork_frame (s : State) :
    (s.popWork).now = s.now ∧ (s.popWork).settings = s.settings ∧ (s.popWork).loader = s.loader ∧
    (s.popWork).table = s.table ∧ (s.popWork).store = s.store ∧ (s.popWork).dir = s.dir ∧ (s.popWork).line = s.line ∧
    (s.popWork).rcu = s.rcu ∧ (s.popWork).ee = s.ee ∧ (s.popWork).ou = s.ou ∧ (s.popWork).lcm = s.lcm ∧
    (s.popWork).port = s.port ∧ (s.popWork).events = s.events ∧ (s.popWork).counters = s.counters ∧
    (s.popWork).pending = s.pending :=
  ⟨rfl, rfl, rfl, rfl, rfl, rfl, rfl, rfl, rfl, rfl, rfl, rfl, rfl, rfl, rfl⟩

end Sys2Proof.Machine
end

