-- ==== Sys2Proof/Laws/Frames.lean ====
section
/-! SUPPORT. What each shared operation leaves as it was, field by field, for the operations that decide between cases
or run over several handles, circuits, items or slots. -/

namespace Sys2Proof.Machine

/-- A projection that every step of a fold keeps is kept by the fold. -/
theorem foldl_keeps {α β γ : Type} (P : α → γ) {f : α → β → α} (h : ∀ a x, P (f a x) = P a) (l : List β) (a : α) :
    P (l.foldl f a) = P a := by
  induction l generalizing a with
  | nil => rfl
  | cons x xs ih => rw [List.foldl_cons, ih, h]

@[simp] theorem State.count_frame (s : State) (c : Counter) :
    (s.count c).now = s.now ∧ (s.count c).settings = s.settings ∧ (s.count c).loader = s.loader ∧
    (s.count c).table = s.table ∧ (s.count c).store = s.store ∧ (s.count c).dir = s.dir ∧ (s.count c).line = s.line ∧
    (s.count c).rcu = s.rcu ∧ (s.count c).ee = s.ee ∧ (s.count c).workList = s.workList ∧ (s.count c).ou = s.ou ∧
    (s.count c).lcm = s.lcm ∧ (s.count c).port = s.port ∧ (s.count c).pending = s.pending := by
  simp only [State.count]
  split <;> simp

@[simp] theorem State.countTimes_frame (s : State) (c : Counter) (x0 : Nat) :
    (s.countTimes c x0).now = s.now ∧ (s.countTimes c x0).settings = s.settings ∧
    (s.countTimes c x0).loader = s.loader ∧ (s.countTimes c x0).table = s.table ∧
    (s.countTimes c x0).store = s.store ∧ (s.countTimes c x0).dir = s.dir ∧ (s.countTimes c x0).line = s.line ∧
    (s.countTimes c x0).rcu = s.rcu ∧ (s.countTimes c x0).ee = s.ee ∧ (s.countTimes c x0).workList = s.workList ∧
    (s.countTimes c x0).ou = s.ou ∧ (s.countTimes c x0).lcm = s.lcm ∧ (s.countTimes c x0).port = s.port ∧
    (s.countTimes c x0).pending = s.pending := by
  induction x0 with
  | zero => simp [State.countTimes]
  | succ n ih => simp [State.countTimes, ih]

@[simp] theorem State.putRecord_frame (s : State) (i : Fin 256) (r : Record) (changed : Bool) :
    (s.putRecord i r changed).now = s.now ∧ (s.putRecord i r changed).settings = s.settings ∧
    (s.putRecord i r changed).loader = s.loader ∧ (s.putRecord i r changed).store = s.store ∧
    (s.putRecord i r changed).dir = s.dir ∧ (s.putRecord i r changed).line = s.line ∧
    (s.putRecord i r changed).rcu = s.rcu ∧ (s.putRecord i r changed).ee = s.ee ∧
    (s.putRecord i r changed).workList = s.workList ∧ (s.putRecord i r changed).ou = s.ou ∧
    (s.putRecord i r changed).lcm = s.lcm ∧ (s.putRecord i r changed).port = s.port ∧
    (s.putRecord i r changed).counters = s.counters ∧ (s.putRecord i r changed).pending = s.pending := by
  simp only [State.putRecord]
  split <;> simp

@[simp] theorem State.insertAt_frame (s : State) (i : Fin 256) (r : Record) :
    (s.insertAt i r).now = s.now ∧ (s.insertAt i r).settings = s.settings ∧ (s.insertAt i r).loader = s.loader ∧
    (s.insertAt i r).store = s.store ∧ (s.insertAt i r).line = s.line ∧ (s.insertAt i r).rcu = s.rcu ∧
    (s.insertAt i r).ee = s.ee ∧ (s.insertAt i r).workList = s.workList ∧ (s.insertAt i r).ou = s.ou ∧
    (s.insertAt i r).lcm = s.lcm ∧ (s.insertAt i r).port = s.port ∧ (s.insertAt i r).events = s.events ∧
    (s.insertAt i r).counters = s.counters ∧ (s.insertAt i r).pending = s.pending := by
  simp only [State.insertAt]
  split <;> simp

@[simp] theorem State.notice_frame (s : State) (k : Fin 8) :
    (s.notice k).now = s.now ∧ (s.notice k).settings = s.settings ∧ (s.notice k).loader = s.loader ∧
    (s.notice k).table = s.table ∧ (s.notice k).store = s.store ∧ (s.notice k).dir = s.dir ∧
    (s.notice k).line = s.line ∧ (s.notice k).rcu = s.rcu ∧ (s.notice k).ee = s.ee ∧
    (s.notice k).workList = s.workList ∧ (s.notice k).ou = s.ou ∧ (s.notice k).port = s.port ∧
    (s.notice k).events = s.events ∧ (s.notice k).counters = s.counters ∧ (s.notice k).pending = s.pending := by
  simp only [State.notice]
  split <;> simp

@[simp] theorem State.noticeFeed_frame (s : State) (f : Feed) :
    (s.noticeFeed f).now = s.now ∧ (s.noticeFeed f).settings = s.settings ∧ (s.noticeFeed f).loader = s.loader ∧
    (s.noticeFeed f).table = s.table ∧ (s.noticeFeed f).store = s.store ∧ (s.noticeFeed f).dir = s.dir ∧
    (s.noticeFeed f).line = s.line ∧ (s.noticeFeed f).rcu = s.rcu ∧ (s.noticeFeed f).ee = s.ee ∧
    (s.noticeFeed f).workList = s.workList ∧ (s.noticeFeed f).ou = s.ou ∧ (s.noticeFeed f).port = s.port ∧
    (s.noticeFeed f).events = s.events ∧ (s.noticeFeed f).counters = s.counters ∧
    (s.noticeFeed f).pending = s.pending := by
  simp only [State.noticeFeed]
  split <;> simp

@[simp] theorem State.setDemandState_frame (s : State) (i : Fin 256) (r : Record) (d : DemandState) :
    (s.setDemandState i r d).now = s.now ∧ (s.setDemandState i r d).settings = s.settings ∧
    (s.setDemandState i r d).loader = s.loader ∧ (s.setDemandState i r d).store = s.store ∧
    (s.setDemandState i r d).dir = s.dir ∧ (s.setDemandState i r d).line = s.line ∧
    (s.setDemandState i r d).rcu = s.rcu ∧ (s.setDemandState i r d).ee = s.ee ∧
    (s.setDemandState i r d).workList = s.workList ∧ (s.setDemandState i r d).lcm = s.lcm ∧
    (s.setDemandState i r d).port = s.port ∧ (s.setDemandState i r d).counters = s.counters ∧
    (s.setDemandState i r d).pending = s.pending := by simp [State.setDemandState]

@[simp] theorem State.removeRecord_frame (s : State) (i : Fin 256) (r : Record) :
    (s.removeRecord i r).now = s.now ∧ (s.removeRecord i r).settings = s.settings ∧
    (s.removeRecord i r).loader = s.loader ∧ (s.removeRecord i r).line = s.line ∧ (s.removeRecord i r).rcu = s.rcu ∧
    (s.removeRecord i r).workList = s.workList ∧ (s.removeRecord i r).port = s.port ∧
    (s.removeRecord i r).events = s.events ∧ (s.removeRecord i r).counters = s.counters ∧
    (s.removeRecord i r).pending = s.pending := by
  simp only [State.removeRecord]
  split <;> simp

@[simp] theorem State.flashOn_frame (s : State) (k : Fin 8) :
    (s.flashOn k).now = s.now ∧ (s.flashOn k).settings = s.settings ∧ (s.flashOn k).loader = s.loader ∧
    (s.flashOn k).table = s.table ∧ (s.flashOn k).store = s.store ∧ (s.flashOn k).dir = s.dir ∧
    (s.flashOn k).line = s.line ∧ (s.flashOn k).rcu = s.rcu ∧ (s.flashOn k).ee = s.ee ∧
    (s.flashOn k).workList = s.workList ∧ (s.flashOn k).ou = s.ou ∧ (s.flashOn k).port = s.port ∧
    (s.flashOn k).events = s.events ∧ (s.flashOn k).counters = s.counters ∧ (s.flashOn k).pending = s.pending := by
  simp only [State.flashOn]
  split <;> simp

@[simp] theorem State.startFlash_frame (s : State) :
    (s.startFlash).now = s.now ∧ (s.startFlash).settings = s.settings ∧ (s.startFlash).loader = s.loader ∧
    (s.startFlash).table = s.table ∧ (s.startFlash).store = s.store ∧ (s.startFlash).dir = s.dir ∧
    (s.startFlash).line = s.line ∧ (s.startFlash).rcu = s.rcu ∧ (s.startFlash).ee = s.ee ∧
    (s.startFlash).workList = s.workList ∧ (s.startFlash).ou = s.ou ∧ (s.startFlash).port = s.port ∧
    (s.startFlash).events = s.events ∧ (s.startFlash).counters = s.counters ∧ (s.startFlash).pending = s.pending := by
  simp only [State.startFlash]
  refine ⟨?_, ?_, ?_, ?_, ?_, ?_, ?_, ?_, ?_, ?_, ?_, ?_, ?_, ?_, ?_⟩
  · simp [foldl_keeps (fun x : State => x.now)]
  · simp [foldl_keeps (fun x : State => x.settings)]
  · simp [foldl_keeps (fun x : State => x.loader)]
  · simp [foldl_keeps (fun x : State => x.table)]
  · simp [foldl_keeps (fun x : State => x.store)]
  · simp [foldl_keeps (fun x : State => x.dir)]
  · simp [foldl_keeps (fun x : State => x.line)]
  · simp [foldl_keeps (fun x : State => x.rcu)]
  · simp [foldl_keeps (fun x : State => x.ee)]
  · simp [foldl_keeps (fun x : State => x.workList)]
  · simp [foldl_keeps (fun x : State => x.ou)]
  · simp [foldl_keeps (fun x : State => x.port)]
  · simp [foldl_keeps (fun x : State => x.events)]
  · simp [foldl_keeps (fun x : State => x.counters)]
  · simp [foldl_keeps (fun x : State => x.pending)]

@[simp] theorem State.judge_frame (s : State) (k : Fin 8) (m : Nat) :
    (s.judge k m).now = s.now ∧ (s.judge k m).settings = s.settings ∧ (s.judge k m).loader = s.loader ∧
    (s.judge k m).table = s.table ∧ (s.judge k m).store = s.store ∧ (s.judge k m).dir = s.dir ∧
    (s.judge k m).line = s.line ∧ (s.judge k m).rcu = s.rcu ∧ (s.judge k m).ee = s.ee ∧
    (s.judge k m).workList = s.workList ∧ (s.judge k m).ou = s.ou ∧ (s.judge k m).port = s.port ∧
    (s.judge k m).counters = s.counters ∧ (s.judge k m).pending = s.pending := by
  simp only [State.judge]
  split <;> simp

@[simp] theorem State.sampleCircuit_frame (s : State) (readings : Vector Nat 8) (k : Fin 8) :
    (s.sampleCircuit readings k).now = s.now ∧ (s.sampleCircuit readings k).settings = s.settings ∧
    (s.sampleCircuit readings k).loader = s.loader ∧ (s.sampleCircuit readings k).table = s.table ∧
    (s.sampleCircuit readings k).store = s.store ∧ (s.sampleCircuit readings k).dir = s.dir ∧
    (s.sampleCircuit readings k).line = s.line ∧ (s.sampleCircuit readings k).rcu = s.rcu ∧
    (s.sampleCircuit readings k).ee = s.ee ∧ (s.sampleCircuit readings k).workList = s.workList ∧
    (s.sampleCircuit readings k).ou = s.ou ∧ (s.sampleCircuit readings k).port = s.port ∧
    (s.sampleCircuit readings k).counters = s.counters ∧ (s.sampleCircuit readings k).pending = s.pending := by
  simp only [State.sampleCircuit]
  split <;> simp

@[simp] theorem State.attribute_frame (s : State) (k : Fin 8) (j : Job) :
    (s.attribute k j).now = s.now ∧ (s.attribute k j).settings = s.settings ∧ (s.attribute k j).loader = s.loader ∧
    (s.attribute k j).store = s.store ∧ (s.attribute k j).dir = s.dir ∧ (s.attribute k j).line = s.line ∧
    (s.attribute k j).rcu = s.rcu ∧ (s.attribute k j).ee = s.ee ∧ (s.attribute k j).workList = s.workList ∧
    (s.attribute k j).ou = s.ou ∧ (s.attribute k j).port = s.port ∧ (s.attribute k j).counters = s.counters ∧
    (s.attribute k j).pending = s.pending := by
  simp only [State.attribute]
  split <;> simp

@[simp] theorem State.endFetch_frame (s : State) (t : Transfer) (n : Nat) :
    (s.endFetch t n).now = s.now ∧ (s.endFetch t n).settings = s.settings ∧ (s.endFetch t n).loader = s.loader ∧
    (s.endFetch t n).table = s.table ∧ (s.endFetch t n).store = s.store ∧ (s.endFetch t n).dir = s.dir ∧
    (s.endFetch t n).line = s.line ∧ (s.endFetch t n).rcu = s.rcu ∧ (s.endFetch t n).ee = s.ee ∧
    (s.endFetch t n).workList = s.workList ∧ (s.endFetch t n).ou = s.ou ∧ (s.endFetch t n).lcm = s.lcm ∧
    (s.endFetch t n).events = s.events ∧ (s.endFetch t n).counters = s.counters ∧
    (s.endFetch t n).pending = s.pending := by
  simp only [State.endFetch]
  split <;> simp

@[simp] theorem State.postFault_frame (s : State) (kind : Byte) (subject : Option Word) (reason : Result) :
    (s.postFault kind subject reason).now = s.now ∧ (s.postFault kind subject reason).settings = s.settings ∧
    (s.postFault kind subject reason).loader = s.loader ∧ (s.postFault kind subject reason).table = s.table ∧
    (s.postFault kind subject reason).store = s.store ∧ (s.postFault kind subject reason).dir = s.dir ∧
    (s.postFault kind subject reason).line = s.line ∧ (s.postFault kind subject reason).rcu = s.rcu ∧
    (s.postFault kind subject reason).ee = s.ee ∧ (s.postFault kind subject reason).workList = s.workList ∧
    (s.postFault kind subject reason).ou = s.ou ∧ (s.postFault kind subject reason).lcm = s.lcm ∧
    (s.postFault kind subject reason).counters = s.counters ∧ (s.postFault kind subject reason).pending = s.pending := by
  simp only [State.postFault]
  split <;> simp

@[simp] theorem State.formatError_frame (s : State) (kind : Byte) :
    (s.formatError kind).now = s.now ∧ (s.formatError kind).settings = s.settings ∧
    (s.formatError kind).loader = s.loader ∧ (s.formatError kind).table = s.table ∧
    (s.formatError kind).store = s.store ∧ (s.formatError kind).dir = s.dir ∧ (s.formatError kind).line = s.line ∧
    (s.formatError kind).rcu = s.rcu ∧ (s.formatError kind).ee = s.ee ∧ (s.formatError kind).workList = s.workList ∧
    (s.formatError kind).ou = s.ou ∧ (s.formatError kind).lcm = s.lcm ∧ (s.formatError kind).counters = s.counters ∧
    (s.formatError kind).pending = s.pending := by
  simp only [State.formatError]
  split <;> simp

@[simp] theorem State.accept_frame (s : State) (r : Request) :
    (s.accept r).now = s.now ∧ (s.accept r).settings = s.settings ∧ (s.accept r).loader = s.loader ∧
    (s.accept r).table = s.table ∧ (s.accept r).store = s.store ∧ (s.accept r).dir = s.dir ∧
    (s.accept r).line = s.line ∧ (s.accept r).rcu = s.rcu ∧ (s.accept r).ee = s.ee ∧
    (s.accept r).workList = s.workList ∧ (s.accept r).ou = s.ou ∧ (s.accept r).lcm = s.lcm ∧
    (s.accept r).events = s.events ∧ (s.accept r).counters = s.counters ∧ (s.accept r).pending = s.pending := by
  simp only [State.accept]
  split <;> simp

@[simp] theorem State.judgeSubmit_frame (s : State) (frame : List Byte) :
    (s.judgeSubmit frame).now = s.now ∧ (s.judgeSubmit frame).settings = s.settings ∧
    (s.judgeSubmit frame).loader = s.loader ∧ (s.judgeSubmit frame).table = s.table ∧
    (s.judgeSubmit frame).store = s.store ∧ (s.judgeSubmit frame).dir = s.dir ∧ (s.judgeSubmit frame).line = s.line ∧
    (s.judgeSubmit frame).rcu = s.rcu ∧ (s.judgeSubmit frame).ee = s.ee ∧
    (s.judgeSubmit frame).workList = s.workList ∧ (s.judgeSubmit frame).ou = s.ou ∧
    (s.judgeSubmit frame).lcm = s.lcm ∧ (s.judgeSubmit frame).counters = s.counters ∧
    (s.judgeSubmit frame).pending = s.pending := by
  refine ⟨?_, ?_, ?_, ?_, ?_, ?_, ?_, ?_, ?_, ?_, ?_, ?_, ?_, ?_⟩ <;> (simp only [State.judgeSubmit]; (repeat' split) <;> simp)

@[simp] theorem State.setChain_frame (s : State) (c : ChainState) :
    (s.setChain c).now = s.now ∧ (s.setChain c).settings = s.settings ∧ (s.setChain c).loader = s.loader ∧
    (s.setChain c).table = s.table ∧ (s.setChain c).store = s.store ∧ (s.setChain c).dir = s.dir ∧
    (s.setChain c).line = s.line ∧ (s.setChain c).ee = s.ee ∧ (s.setChain c).workList = s.workList ∧
    (s.setChain c).ou = s.ou ∧ (s.setChain c).lcm = s.lcm ∧ (s.setChain c).port = s.port ∧
    (s.setChain c).counters = s.counters ∧ (s.setChain c).pending = s.pending := by
  simp only [State.setChain]
  split <;> simp

@[simp] theorem State.contextStarted_frame (s : State) :
    (s.contextStarted).now = s.now ∧ (s.contextStarted).settings = s.settings ∧
    (s.contextStarted).loader = s.loader ∧ (s.contextStarted).table = s.table ∧ (s.contextStarted).store = s.store ∧
    (s.contextStarted).dir = s.dir ∧ (s.contextStarted).line = s.line ∧ (s.contextStarted).ee = s.ee ∧
    (s.contextStarted).workList = s.workList ∧ (s.contextStarted).ou = s.ou ∧ (s.contextStarted).lcm = s.lcm ∧
    (s.contextStarted).port = s.port ∧ (s.contextStarted).counters = s.counters ∧
    (s.contextStarted).pending = s.pending := by simp [State.contextStarted]

@[simp] theorem State.contextEnded_frame (s : State) :
    (s.contextEnded).now = s.now ∧ (s.contextEnded).settings = s.settings ∧ (s.contextEnded).loader = s.loader ∧
    (s.contextEnded).table = s.table ∧ (s.contextEnded).store = s.store ∧ (s.contextEnded).dir = s.dir ∧
    (s.contextEnded).line = s.line ∧ (s.contextEnded).ee = s.ee ∧ (s.contextEnded).workList = s.workList ∧
    (s.contextEnded).ou = s.ou ∧ (s.contextEnded).lcm = s.lcm ∧ (s.contextEnded).port = s.port ∧
    (s.contextEnded).counters = s.counters ∧ (s.contextEnded).pending = s.pending := by
  simp only [State.contextEnded]
  split <;> simp

@[simp] theorem State.announceTaken_frame (s : State) :
    (s.announceTaken).now = s.now ∧ (s.announceTaken).settings = s.settings ∧ (s.announceTaken).loader = s.loader ∧
    (s.announceTaken).table = s.table ∧ (s.announceTaken).store = s.store ∧ (s.announceTaken).dir = s.dir ∧
    (s.announceTaken).line = s.line ∧ (s.announceTaken).ee = s.ee ∧ (s.announceTaken).workList = s.workList ∧
    (s.announceTaken).ou = s.ou ∧ (s.announceTaken).lcm = s.lcm ∧ (s.announceTaken).port = s.port ∧
    (s.announceTaken).counters = s.counters ∧ (s.announceTaken).pending = s.pending := by
  simp only [State.announceTaken]
  split <;> simp

@[simp] theorem State.endContext_frame (s : State) :
    (s.endContext).now = s.now ∧ (s.endContext).settings = s.settings ∧ (s.endContext).loader = s.loader ∧
    (s.endContext).table = s.table ∧ (s.endContext).store = s.store ∧ (s.endContext).dir = s.dir ∧
    (s.endContext).line = s.line ∧ (s.endContext).workList = s.workList ∧ (s.endContext).ou = s.ou ∧
    (s.endContext).lcm = s.lcm ∧ (s.endContext).port = s.port ∧ (s.endContext).counters = s.counters ∧
    (s.endContext).pending = s.pending := by simp [State.endContext]

@[simp] theorem State.settleAbandoned_frame (s : State) :
    (s.settleAbandoned).now = s.now ∧ (s.settleAbandoned).settings = s.settings ∧
    (s.settleAbandoned).loader = s.loader ∧ (s.settleAbandoned).table = s.table ∧
    (s.settleAbandoned).store = s.store ∧ (s.settleAbandoned).dir = s.dir ∧ (s.settleAbandoned).line = s.line ∧
    (s.settleAbandoned).workList = s.workList ∧ (s.settleAbandoned).ou = s.ou ∧ (s.settleAbandoned).lcm = s.lcm ∧
    (s.settleAbandoned).port = s.port ∧ (s.settleAbandoned).counters = s.counters ∧
    (s.settleAbandoned).pending = s.pending := by
  refine ⟨?_, ?_, ?_, ?_, ?_, ?_, ?_, ?_, ?_, ?_, ?_, ?_, ?_⟩ <;> (simp only [State.settleAbandoned]; (repeat' split) <;> simp)

@[simp] theorem State.purgeItems_frame (s : State) (h : Fin 8) :
    (s.purgeItems h).now = s.now ∧ (s.purgeItems h).settings = s.settings ∧ (s.purgeItems h).loader = s.loader ∧
    (s.purgeItems h).table = s.table ∧ (s.purgeItems h).store = s.store ∧ (s.purgeItems h).dir = s.dir ∧
    (s.purgeItems h).line = s.line ∧ (s.purgeItems h).rcu = s.rcu ∧ (s.purgeItems h).ee = s.ee ∧
    (s.purgeItems h).ou = s.ou ∧ (s.purgeItems h).lcm = s.lcm ∧ (s.purgeItems h).port = s.port ∧
    (s.purgeItems h).pending = s.pending := by simp [State.purgeItems]

@[simp] theorem State.withdraw_frame (s : State) (h : Fin 8) :
    (s.withdraw h).now = s.now ∧ (s.withdraw h).settings = s.settings ∧ (s.withdraw h).loader = s.loader ∧
    (s.withdraw h).table = s.table ∧ (s.withdraw h).store = s.store ∧ (s.withdraw h).dir = s.dir ∧
    (s.withdraw h).rcu = s.rcu ∧ (s.withdraw h).ee = s.ee ∧ (s.withdraw h).workList = s.workList ∧
    (s.withdraw h).lcm = s.lcm ∧ (s.withdraw h).port = s.port ∧ (s.withdraw h).events = s.events ∧
    (s.withdraw h).counters = s.counters ∧ (s.withdraw h).pending = s.pending := by
  refine ⟨?_, ?_, ?_, ?_, ?_, ?_, ?_, ?_, ?_, ?_, ?_, ?_, ?_, ?_⟩ <;> (simp only [State.withdraw]; (repeat' split) <;> simp)

@[simp] theorem State.abandon_frame (s : State) (h : Fin 8) :
    (s.abandon h).now = s.now ∧ (s.abandon h).settings = s.settings ∧ (s.abandon h).loader = s.loader ∧
    (s.abandon h).table = s.table ∧ (s.abandon h).store = s.store ∧ (s.abandon h).dir = s.dir ∧
    (s.abandon h).line = s.line ∧ (s.abandon h).rcu = s.rcu ∧ (s.abandon h).workList = s.workList ∧
    (s.abandon h).ou = s.ou ∧ (s.abandon h).lcm = s.lcm ∧ (s.abandon h).port = s.port ∧
    (s.abandon h).events = s.events ∧ (s.abandon h).counters = s.counters ∧ (s.abandon h).pending = s.pending := by
  refine ⟨?_, ?_, ?_, ?_, ?_, ?_, ?_, ?_, ?_, ?_, ?_, ?_, ?_, ?_, ?_⟩ <;> (simp only [State.abandon]; (repeat' split) <;> simp)

@[simp] theorem State.freeIfDrained_frame (s : State) (h : Fin 8) :
    (s.freeIfDrained h).now = s.now ∧ (s.freeIfDrained h).settings = s.settings ∧
    (s.freeIfDrained h).loader = s.loader ∧ (s.freeIfDrained h).table = s.table ∧
    (s.freeIfDrained h).store = s.store ∧ (s.freeIfDrained h).line = s.line ∧ (s.freeIfDrained h).rcu = s.rcu ∧
    (s.freeIfDrained h).ee = s.ee ∧ (s.freeIfDrained h).workList = s.workList ∧ (s.freeIfDrained h).ou = s.ou ∧
    (s.freeIfDrained h).lcm = s.lcm ∧ (s.freeIfDrained h).port = s.port ∧ (s.freeIfDrained h).counters = s.counters ∧
    (s.freeIfDrained h).pending = s.pending := by
  simp only [State.freeIfDrained]
  split <;> simp

@[simp] theorem State.leaveOne_frame (s : State) (h : Fin 8) :
    (s.leaveOne h).now = s.now ∧ (s.leaveOne h).settings = s.settings ∧ (s.leaveOne h).loader = s.loader ∧
    (s.leaveOne h).table = s.table ∧ (s.leaveOne h).store = s.store ∧ (s.leaveOne h).rcu = s.rcu ∧
    (s.leaveOne h).port = s.port ∧ (s.leaveOne h).pending = s.pending := by
  simp only [State.leaveOne]
  split
  · simp
  · refine ⟨?_, ?_, ?_, ?_, ?_, ?_, ?_, ?_⟩
    · simp [foldl_keeps (fun x : State => x.now)]
    · simp [foldl_keeps (fun x : State => x.settings)]
    · simp [foldl_keeps (fun x : State => x.loader)]
    · simp [foldl_keeps (fun x : State => x.table)]
    · simp [foldl_keeps (fun x : State => x.store)]
    · simp [foldl_keeps (fun x : State => x.rcu)]
    · simp [foldl_keeps (fun x : State => x.port)]
    · simp [foldl_keeps (fun x : State => x.pending)]

@[simp] theorem State.depart_frame (s : State) (h : Fin 8) (cascade release : Bool) :
    (s.depart h cascade release).now = s.now ∧ (s.depart h cascade release).settings = s.settings ∧
    (s.depart h cascade release).loader = s.loader ∧ (s.depart h cascade release).table = s.table ∧
    (s.depart h cascade release).store = s.store ∧ (s.depart h cascade release).port = s.port ∧
    (s.depart h cascade release).pending = s.pending := by
  simp only [State.depart]
  refine ⟨?_, ?_, ?_, ?_, ?_, ?_, ?_⟩
  · simp; exact foldl_keeps (fun x : State => x.now) (by intros; simp) _ _
  · simp; exact foldl_keeps (fun x : State => x.settings) (by intros; simp) _ _
  · simp; exact foldl_keeps (fun x : State => x.loader) (by intros; simp) _ _
  · simp; exact foldl_keeps (fun x : State => x.table) (by intros; simp) _ _
  · simp; exact foldl_keeps (fun x : State => x.store) (by intros; simp) _ _
  · simp; exact foldl_keeps (fun x : State => x.port) (by intros; simp) _ _
  · simp; exact foldl_keeps (fun x : State => x.pending) (by intros; simp) _ _

@[simp] theorem State.freeJoining_frame (s : State) (h : Fin 8) :
    (s.freeJoining h).now = s.now ∧ (s.freeJoining h).settings = s.settings ∧ (s.freeJoining h).loader = s.loader ∧
    (s.freeJoining h).table = s.table ∧ (s.freeJoining h).store = s.store ∧ (s.freeJoining h).line = s.line ∧
    (s.freeJoining h).ou = s.ou ∧ (s.freeJoining h).lcm = s.lcm ∧ (s.freeJoining h).port = s.port ∧
    (s.freeJoining h).pending = s.pending := by simp [State.freeJoining]

@[simp] theorem State.trySend_frame (s : State) :
    (s.trySend).now = s.now ∧ (s.trySend).settings = s.settings ∧ (s.trySend).loader = s.loader ∧
    (s.trySend).table = s.table ∧ (s.trySend).store = s.store ∧ (s.trySend).dir = s.dir ∧ (s.trySend).rcu = s.rcu ∧
    (s.trySend).ee = s.ee ∧ (s.trySend).workList = s.workList ∧ (s.trySend).ou = s.ou ∧ (s.trySend).lcm = s.lcm ∧
    (s.trySend).port = s.port ∧ (s.trySend).pending = s.pending := by
  refine ⟨?_, ?_, ?_, ?_, ?_, ?_, ?_, ?_, ?_, ?_, ?_, ?_, ?_⟩ <;> (simp only [State.trySend]; (repeat' split) <;> simp)

@[simp] theorem State.startEe_frame (s : State) :
    (s.startEe).now = s.now ∧ (s.startEe).settings = s.settings ∧ (s.startEe).loader = s.loader ∧
    (s.startEe).table = s.table ∧ (s.startEe).store = s.store ∧ (s.startEe).dir = s.dir ∧ (s.startEe).rcu = s.rcu ∧
    (s.startEe).ee = s.ee ∧ (s.startEe).workList = s.workList ∧ (s.startEe).ou = s.ou ∧ (s.startEe).lcm = s.lcm ∧
    (s.startEe).port = s.port ∧ (s.startEe).pending = s.pending := by
  simp only [State.startEe]
  split <;> simp

@[simp] theorem State.startUd_frame (s : State) :
    (s.startUd).now = s.now ∧ (s.startUd).settings = s.settings ∧ (s.startUd).loader = s.loader ∧
    (s.startUd).table = s.table ∧ (s.startUd).store = s.store ∧ (s.startUd).rcu = s.rcu ∧ (s.startUd).ee = s.ee ∧
    (s.startUd).workList = s.workList ∧ (s.startUd).ou = s.ou ∧ (s.startUd).lcm = s.lcm ∧ (s.startUd).port = s.port ∧
    (s.startUd).pending = s.pending := by
  refine ⟨?_, ?_, ?_, ?_, ?_, ?_, ?_, ?_, ?_, ?_, ?_, ?_⟩ <;> (simp only [State.startUd]; (repeat' split) <;> simp)

@[simp] theorem State.startContext_frame (s : State) (c : Context) :
    (s.startContext c).now = s.now ∧ (s.startContext c).settings = s.settings ∧
    (s.startContext c).loader = s.loader ∧ (s.startContext c).table = s.table ∧ (s.startContext c).store = s.store ∧
    (s.startContext c).dir = s.dir ∧ (s.startContext c).line = s.line ∧ (s.startContext c).workList = s.workList ∧
    (s.startContext c).ou = s.ou ∧ (s.startContext c).lcm = s.lcm ∧ (s.startContext c).port = s.port ∧
    (s.startContext c).counters = s.counters ∧ (s.startContext c).pending = s.pending := by simp [State.startContext]

@[simp] theorem State.joinUnit_frame (s : State) (h : Fin 8) :
    (s.joinUnit h).now = s.now ∧ (s.joinUnit h).settings = s.settings ∧ (s.joinUnit h).loader = s.loader ∧
    (s.joinUnit h).table = s.table ∧ (s.joinUnit h).store = s.store ∧ (s.joinUnit h).line = s.line ∧
    (s.joinUnit h).rcu = s.rcu ∧ (s.joinUnit h).ee = s.ee ∧ (s.joinUnit h).workList = s.workList ∧
    (s.joinUnit h).ou = s.ou ∧ (s.joinUnit h).port = s.port ∧ (s.joinUnit h).counters = s.counters ∧
    (s.joinUnit h).pending = s.pending := by simp [State.joinUnit]

@[simp] theorem State.pendingEmptied_frame (s : State) (h : Fin 8) :
    (s.pendingEmptied h).now = s.now ∧ (s.pendingEmptied h).settings = s.settings ∧
    (s.pendingEmptied h).loader = s.loader ∧ (s.pendingEmptied h).table = s.table ∧
    (s.pendingEmptied h).store = s.store ∧ (s.pendingEmptied h).line = s.line ∧
    (s.pendingEmptied h).rcu = s.rcu ∧ (s.pendingEmptied h).ee = s.ee ∧
    (s.pendingEmptied h).workList = s.workList ∧ (s.pendingEmptied h).ou = s.ou ∧
    (s.pendingEmptied h).port = s.port ∧ (s.pendingEmptied h).counters = s.counters ∧
    (s.pendingEmptied h).pending = s.pending := by
  refine ⟨?_, ?_, ?_, ?_, ?_, ?_, ?_, ?_, ?_, ?_, ?_, ?_, ?_⟩ <;>
    (simp only [State.pendingEmptied]; (repeat' split) <;> simp)

@[simp] theorem State.completeContext_frame (s : State) (h : Fin 8) :
    (s.completeContext h).now = s.now ∧ (s.completeContext h).settings = s.settings ∧
    (s.completeContext h).loader = s.loader ∧ (s.completeContext h).table = s.table ∧
    (s.completeContext h).store = s.store ∧ (s.completeContext h).line = s.line ∧
    (s.completeContext h).workList = s.workList ∧ (s.completeContext h).ou = s.ou ∧
    (s.completeContext h).port = s.port ∧ (s.completeContext h).counters = s.counters ∧
    (s.completeContext h).pending = s.pending := by simp [State.completeContext]

@[simp] theorem State.nextDescriptor_frame (s : State) :
    (s.nextDescriptor).now = s.now ∧ (s.nextDescriptor).settings = s.settings ∧
    (s.nextDescriptor).loader = s.loader ∧ (s.nextDescriptor).table = s.table ∧ (s.nextDescriptor).store = s.store ∧
    (s.nextDescriptor).line = s.line ∧ (s.nextDescriptor).workList = s.workList ∧ (s.nextDescriptor).ou = s.ou ∧
    (s.nextDescriptor).port = s.port ∧ (s.nextDescriptor).counters = s.counters ∧
    (s.nextDescriptor).pending = s.pending := by
  refine ⟨?_, ?_, ?_, ?_, ?_, ?_, ?_, ?_, ?_, ?_, ?_⟩ <;> (simp only [State.nextDescriptor]; (repeat' split) <;> simp)

@[simp] theorem State.dropIndex_frame (s : State) (c : Context) :
    (s.dropIndex c).now = s.now ∧ (s.dropIndex c).settings = s.settings ∧ (s.dropIndex c).loader = s.loader ∧
    (s.dropIndex c).table = s.table ∧ (s.dropIndex c).store = s.store ∧ (s.dropIndex c).line = s.line ∧
    (s.dropIndex c).rcu = s.rcu ∧ (s.dropIndex c).ee = s.ee ∧ (s.dropIndex c).workList = s.workList ∧
    (s.dropIndex c).ou = s.ou ∧ (s.dropIndex c).lcm = s.lcm ∧ (s.dropIndex c).port = s.port ∧
    (s.dropIndex c).events = s.events ∧ (s.dropIndex c).counters = s.counters ∧ (s.dropIndex c).pending = s.pending := by
  simp only [State.dropIndex]
  split <;> simp

@[simp] theorem State.finishDescriptor_frame (s : State) (c : Context) :
    (s.finishDescriptor c).now = s.now ∧ (s.finishDescriptor c).settings = s.settings ∧
    (s.finishDescriptor c).loader = s.loader ∧ (s.finishDescriptor c).table = s.table ∧
    (s.finishDescriptor c).store = s.store ∧ (s.finishDescriptor c).line = s.line ∧
    (s.finishDescriptor c).workList = s.workList ∧ (s.finishDescriptor c).ou = s.ou ∧
    (s.finishDescriptor c).port = s.port ∧ (s.finishDescriptor c).counters = s.counters ∧
    (s.finishDescriptor c).pending = s.pending := by simp [State.finishDescriptor]

@[simp] theorem State.enrolmentFailure_frame (s : State) (c : Context) :
    (s.enrolmentFailure c).now = s.now ∧ (s.enrolmentFailure c).settings = s.settings ∧
    (s.enrolmentFailure c).loader = s.loader ∧ (s.enrolmentFailure c).table = s.table ∧
    (s.enrolmentFailure c).store = s.store ∧ (s.enrolmentFailure c).port = s.port ∧
    (s.enrolmentFailure c).pending = s.pending := by simp [State.enrolmentFailure]

@[simp] theorem State.takeDescriptor_frame (s : State) (c : Context) (d : Descriptor) :
    (s.takeDescriptor c d).now = s.now ∧ (s.takeDescriptor c d).settings = s.settings ∧
    (s.takeDescriptor c d).loader = s.loader ∧ (s.takeDescriptor c d).table = s.table ∧
    (s.takeDescriptor c d).store = s.store ∧ (s.takeDescriptor c d).dir = s.dir ∧
    (s.takeDescriptor c d).line = s.line ∧ (s.takeDescriptor c d).rcu = s.rcu ∧
    (s.takeDescriptor c d).workList = s.workList ∧ (s.takeDescriptor c d).ou = s.ou ∧
    (s.takeDescriptor c d).lcm = s.lcm ∧ (s.takeDescriptor c d).port = s.port ∧
    (s.takeDescriptor c d).pending = s.pending := by
  simp only [State.takeDescriptor]
  split <;> simp

@[simp] theorem State.assignEnded_frame (s : State) (c : Context) (x0 : Ending) :
    (s.assignEnded c x0).now = s.now ∧ (s.assignEnded c x0).settings = s.settings ∧
    (s.assignEnded c x0).loader = s.loader ∧ (s.assignEnded c x0).table = s.table ∧
    (s.assignEnded c x0).store = s.store ∧ (s.assignEnded c x0).line = s.line ∧ (s.assignEnded c x0).ou = s.ou ∧
    (s.assignEnded c x0).port = s.port ∧ (s.assignEnded c x0).pending = s.pending := by
  simp only [State.assignEnded]
  split <;> simp

@[simp] theorem State.descqEnded_frame (s : State) (c : Context) (x0 : Ending) :
    (s.descqEnded c x0).now = s.now ∧ (s.descqEnded c x0).settings = s.settings ∧
    (s.descqEnded c x0).loader = s.loader ∧ (s.descqEnded c x0).table = s.table ∧
    (s.descqEnded c x0).store = s.store ∧ (s.descqEnded c x0).port = s.port ∧
    (s.descqEnded c x0).pending = s.pending := by
  refine ⟨?_, ?_, ?_, ?_, ?_, ?_, ?_⟩ <;> (simp only [State.descqEnded]; (repeat' split) <;> simp)

@[simp] theorem State.extqEnded_frame (s : State) (c : Context) (o : Ending) :
    (s.extqEnded c o).now = s.now ∧ (s.extqEnded c o).settings = s.settings ∧ (s.extqEnded c o).loader = s.loader ∧
    (s.extqEnded c o).table = s.table ∧ (s.extqEnded c o).line = s.line ∧ (s.extqEnded c o).workList = s.workList ∧
    (s.extqEnded c o).ou = s.ou ∧ (s.extqEnded c o).port = s.port ∧ (s.extqEnded c o).counters = s.counters ∧
    (s.extqEnded c o).pending = s.pending := by
  refine ⟨?_, ?_, ?_, ?_, ?_, ?_, ?_, ?_, ?_, ?_⟩ <;> (simp only [State.extqEnded]; (repeat' split) <;> simp)

@[simp] theorem State.verdictEnded_frame (s : State) (c : Context) (x0 : Ending) :
    (s.verdictEnded c x0).now = s.now ∧ (s.verdictEnded c x0).settings = s.settings ∧
    (s.verdictEnded c x0).loader = s.loader ∧ (s.verdictEnded c x0).table = s.table ∧
    (s.verdictEnded c x0).store = s.store ∧ (s.verdictEnded c x0).line = s.line ∧
    (s.verdictEnded c x0).workList = s.workList ∧ (s.verdictEnded c x0).ou = s.ou ∧
    (s.verdictEnded c x0).port = s.port ∧ (s.verdictEnded c x0).counters = s.counters ∧
    (s.verdictEnded c x0).pending = s.pending := by
  simp only [State.verdictEnded]
  split <;> simp

@[simp] theorem State.eeEnded_frame (s : State) (kind : HeadKind) (o : Ending) :
    (s.eeEnded kind o).now = s.now ∧ (s.eeEnded kind o).settings = s.settings ∧
    (s.eeEnded kind o).loader = s.loader ∧ (s.eeEnded kind o).table = s.table ∧ (s.eeEnded kind o).port = s.port ∧
    (s.eeEnded kind o).pending = s.pending := by
  refine ⟨?_, ?_, ?_, ?_, ?_, ?_⟩ <;> (simp only [State.eeEnded]; (repeat' split) <;> simp)

@[simp] theorem State.reseatEnded_frame (s : State) (o : Ending) :
    (s.reseatEnded o).now = s.now ∧ (s.reseatEnded o).settings = s.settings ∧ (s.reseatEnded o).loader = s.loader ∧
    (s.reseatEnded o).table = s.table ∧ (s.reseatEnded o).store = s.store ∧ (s.reseatEnded o).line = s.line ∧
    (s.reseatEnded o).rcu = s.rcu ∧ (s.reseatEnded o).ee = s.ee ∧ (s.reseatEnded o).workList = s.workList ∧
    (s.reseatEnded o).ou = s.ou ∧ (s.reseatEnded o).lcm = s.lcm ∧ (s.reseatEnded o).port = s.port ∧
    (s.reseatEnded o).counters = s.counters ∧ (s.reseatEnded o).pending = s.pending := by
  refine ⟨?_, ?_, ?_, ?_, ?_, ?_, ?_, ?_, ?_, ?_, ?_, ?_, ?_, ?_⟩ <;> (simp only [State.reseatEnded]; (repeat' split) <;> simp)

@[simp] theorem State.udEnded_frame (s : State) (kind : HeadKind) (o : Ending) :
    (s.udEnded kind o).now = s.now ∧ (s.udEnded kind o).settings = s.settings ∧
    (s.udEnded kind o).loader = s.loader ∧ (s.udEnded kind o).table = s.table ∧ (s.udEnded kind o).store = s.store ∧
    (s.udEnded kind o).line = s.line ∧ (s.udEnded kind o).rcu = s.rcu ∧ (s.udEnded kind o).ee = s.ee ∧
    (s.udEnded kind o).workList = s.workList ∧ (s.udEnded kind o).ou = s.ou ∧ (s.udEnded kind o).lcm = s.lcm ∧
    (s.udEnded kind o).port = s.port ∧ (s.udEnded kind o).counters = s.counters ∧
    (s.udEnded kind o).pending = s.pending := by
  simp only [State.udEnded]
  split <;> simp

@[simp] theorem State.endTransaction_frame (s : State) (t : Transaction) (o : Ending) :
    (s.endTransaction t o).now = s.now ∧ (s.endTransaction t o).settings = s.settings ∧
    (s.endTransaction t o).loader = s.loader ∧ (s.endTransaction t o).table = s.table ∧
    (s.endTransaction t o).port = s.port ∧ (s.endTransaction t o).pending = s.pending := by
  simp only [State.endTransaction]
  split <;> simp

@[simp] theorem State.badFrame_frame (s : State) :
    (s.badFrame).now = s.now ∧ (s.badFrame).settings = s.settings ∧ (s.badFrame).loader = s.loader ∧
    (s.badFrame).table = s.table ∧ (s.badFrame).store = s.store ∧ (s.badFrame).dir = s.dir ∧
    (s.badFrame).line = s.line ∧ (s.badFrame).ee = s.ee ∧ (s.badFrame).workList = s.workList ∧
    (s.badFrame).ou = s.ou ∧ (s.badFrame).lcm = s.lcm ∧ (s.badFrame).port = s.port ∧
    (s.badFrame).pending = s.pending := by simp [State.badFrame]

@[simp] theorem State.strayFrame_frame (s : State) :
    (s.strayFrame).now = s.now ∧ (s.strayFrame).settings = s.settings ∧ (s.strayFrame).loader = s.loader ∧
    (s.strayFrame).table = s.table ∧ (s.strayFrame).store = s.store ∧ (s.strayFrame).dir = s.dir ∧
    (s.strayFrame).line = s.line ∧ (s.strayFrame).ee = s.ee ∧ (s.strayFrame).workList = s.workList ∧
    (s.strayFrame).ou = s.ou ∧ (s.strayFrame).lcm = s.lcm ∧ (s.strayFrame).port = s.port ∧
    (s.strayFrame).pending = s.pending := by simp [State.strayFrame]

@[simp] theorem State.offerItem_frame (s : State) (h : Fin 8) (it : Byte × Byte × Byte × Word) :
    (s.offerItem h it).now = s.now ∧ (s.offerItem h it).settings = s.settings ∧
    (s.offerItem h it).loader = s.loader ∧ (s.offerItem h it).table = s.table ∧ (s.offerItem h it).store = s.store ∧
    (s.offerItem h it).dir = s.dir ∧ (s.offerItem h it).line = s.line ∧ (s.offerItem h it).rcu = s.rcu ∧
    (s.offerItem h it).ee = s.ee ∧ (s.offerItem h it).ou = s.ou ∧ (s.offerItem h it).lcm = s.lcm ∧
    (s.offerItem h it).port = s.port ∧ (s.offerItem h it).pending = s.pending := by
  refine ⟨?_, ?_, ?_, ?_, ?_, ?_, ?_, ?_, ?_, ?_, ?_, ?_, ?_⟩ <;> (simp only [State.offerItem]; (repeat' split) <;> simp)

@[simp] theorem State.claim_frame (s : State) (h : Fin 8) (parting : Bool) (items : List (Byte × Byte × Byte × Word)) :
    (s.claim h parting items).now = s.now ∧ (s.claim h parting items).settings = s.settings ∧
    (s.claim h parting items).loader = s.loader ∧ (s.claim h parting items).store = s.store ∧
    (s.claim h parting items).table = s.table ∧ (s.claim h parting items).port = s.port ∧
    (s.claim h parting items).pending = s.pending := by
  simp only [State.claim]
  refine ⟨?_, ?_, ?_, ?_, ?_, ?_, ?_⟩
  · rw [foldl_keeps (fun x : State => x.now) (by intros; simp)]; split <;> simp
  · rw [foldl_keeps (fun x : State => x.settings) (by intros; simp)]; split <;> simp
  · rw [foldl_keeps (fun x : State => x.loader) (by intros; simp)]; split <;> simp
  · rw [foldl_keeps (fun x : State => x.store) (by intros; simp)]; split <;> simp
  · rw [foldl_keeps (fun x : State => x.table) (by intros; simp)]; split <;> simp
  · rw [foldl_keeps (fun x : State => x.port) (by intros; simp)]; split <;> simp
  · rw [foldl_keeps (fun x : State => x.pending) (by intros; simp)]; split <;> simp

@[simp] theorem State.unclaimed_frame (s : State) (p : Nat) (items : List (Byte × Byte × Byte × Word)) :
    (s.unclaimed p items).now = s.now ∧ (s.unclaimed p items).settings = s.settings ∧
    (s.unclaimed p items).loader = s.loader ∧ (s.unclaimed p items).table = s.table ∧
    (s.unclaimed p items).store = s.store ∧ (s.unclaimed p items).line = s.line ∧ (s.unclaimed p items).rcu = s.rcu ∧
    (s.unclaimed p items).ee = s.ee ∧ (s.unclaimed p items).workList = s.workList ∧ (s.unclaimed p items).ou = s.ou ∧
    (s.unclaimed p items).lcm = s.lcm ∧ (s.unclaimed p items).port = s.port ∧
    (s.unclaimed p items).pending = s.pending := by
  refine ⟨?_, ?_, ?_, ?_, ?_, ?_, ?_, ?_, ?_, ?_, ?_, ?_, ?_⟩ <;> (simp only [State.unclaimed]; (repeat' split) <;> simp)

@[simp] theorem State.presentInSlot_frame (s : State) (p : Nat) (payload : List Byte) :
    (s.presentInSlot p payload).now = s.now ∧ (s.presentInSlot p payload).settings = s.settings ∧
    (s.presentInSlot p payload).loader = s.loader ∧ (s.presentInSlot p payload).store = s.store ∧
    (s.presentInSlot p payload).table = s.table ∧ (s.presentInSlot p payload).port = s.port ∧
    (s.presentInSlot p payload).pending = s.pending := by
  simp only [State.presentInSlot]
  split <;> simp

@[simp] theorem State.reseatCheck_frame (s : State) (h : Fin 8) (p q : Nat) :
    (s.reseatCheck h p q).now = s.now ∧ (s.reseatCheck h p q).settings = s.settings ∧
    (s.reseatCheck h p q).loader = s.loader ∧ (s.reseatCheck h p q).table = s.table ∧
    (s.reseatCheck h p q).store = s.store ∧ (s.reseatCheck h p q).line = s.line ∧ (s.reseatCheck h p q).rcu = s.rcu ∧
    (s.reseatCheck h p q).ee = s.ee ∧ (s.reseatCheck h p q).workList = s.workList ∧ (s.reseatCheck h p q).ou = s.ou ∧
    (s.reseatCheck h p q).lcm = s.lcm ∧ (s.reseatCheck h p q).port = s.port ∧
    (s.reseatCheck h p q).events = s.events ∧ (s.reseatCheck h p q).counters = s.counters ∧
    (s.reseatCheck h p q).pending = s.pending := by
  simp only [State.reseatCheck]
  split <;> simp

@[simp] theorem State.presentMisplaced_frame (s : State) (p hop : Nat) :
    (s.presentMisplaced p hop).now = s.now ∧ (s.presentMisplaced p hop).settings = s.settings ∧
    (s.presentMisplaced p hop).loader = s.loader ∧ (s.presentMisplaced p hop).table = s.table ∧
    (s.presentMisplaced p hop).store = s.store ∧ (s.presentMisplaced p hop).line = s.line ∧
    (s.presentMisplaced p hop).rcu = s.rcu ∧ (s.presentMisplaced p hop).ee = s.ee ∧
    (s.presentMisplaced p hop).workList = s.workList ∧ (s.presentMisplaced p hop).ou = s.ou ∧
    (s.presentMisplaced p hop).lcm = s.lcm ∧ (s.presentMisplaced p hop).port = s.port ∧
    (s.presentMisplaced p hop).events = s.events ∧ (s.presentMisplaced p hop).counters = s.counters ∧
    (s.presentMisplaced p hop).pending = s.pending := by
  refine ⟨?_, ?_, ?_, ?_, ?_, ?_, ?_, ?_, ?_, ?_, ?_, ?_, ?_, ?_, ?_⟩ <;> (simp only [State.presentMisplaced]; (repeat' split) <;> simp)

@[simp] theorem State.placePresent_frame (s : State) (arrival : Nat) (f : NodeFrame) :
    (s.placePresent arrival f).now = s.now ∧ (s.placePresent arrival f).settings = s.settings ∧
    (s.placePresent arrival f).loader = s.loader ∧ (s.placePresent arrival f).store = s.store ∧
    (s.placePresent arrival f).table = s.table ∧ (s.placePresent arrival f).port = s.port ∧
    (s.placePresent arrival f).pending = s.pending := by
  refine ⟨?_, ?_, ?_, ?_, ?_, ?_, ?_⟩ <;> (simp only [State.placePresent]; (repeat' split) <;> simp)

@[simp] theorem State.charge_frame (s : State) (position : Nat) :
    (s.charge position).2.now = s.now ∧ (s.charge position).2.settings = s.settings ∧
    (s.charge position).2.loader = s.loader ∧ (s.charge position).2.table = s.table ∧
    (s.charge position).2.store = s.store ∧ (s.charge position).2.dir = s.dir ∧ (s.charge position).2.rcu = s.rcu ∧
    (s.charge position).2.ee = s.ee ∧ (s.charge position).2.workList = s.workList ∧ (s.charge position).2.ou = s.ou ∧
    (s.charge position).2.lcm = s.lcm ∧ (s.charge position).2.port = s.port ∧
    (s.charge position).2.pending = s.pending := by
  refine ⟨?_, ?_, ?_, ?_, ?_, ?_, ?_, ?_, ?_, ?_, ?_, ?_, ?_⟩ <;> (simp only [State.charge]; (repeat' split) <;> simp)

@[simp] theorem State.defer_frame (s : State) :
    (s.defer).now = s.now ∧ (s.defer).settings = s.settings ∧ (s.defer).loader = s.loader ∧
    (s.defer).table = s.table ∧ (s.defer).store = s.store ∧ (s.defer).dir = s.dir ∧ (s.defer).line = s.line ∧
    (s.defer).rcu = s.rcu ∧ (s.defer).ee = s.ee ∧ (s.defer).workList = s.workList ∧ (s.defer).ou = s.ou ∧
    (s.defer).lcm = s.lcm ∧ (s.defer).port = s.port ∧ (s.defer).pending = s.pending := by simp [State.defer]

@[simp] theorem State.allocate_frame (s : State) (h : Fin 8) (uid : Uid) (count q : Nat) :
    (s.allocate h uid count q).now = s.now ∧ (s.allocate h uid count q).settings = s.settings ∧
    (s.allocate h uid count q).loader = s.loader ∧ (s.allocate h uid count q).table = s.table ∧
    (s.allocate h uid count q).store = s.store ∧ (s.allocate h uid count q).line = s.line ∧
    (s.allocate h uid count q).workList = s.workList ∧ (s.allocate h uid count q).ou = s.ou ∧
    (s.allocate h uid count q).lcm = s.lcm ∧ (s.allocate h uid count q).port = s.port ∧
    (s.allocate h uid count q).counters = s.counters ∧ (s.allocate h uid count q).pending = s.pending := by simp [State.allocate]

@[simp] theorem State.directoryAnnounce_frame (s : State) (uid : Uid) (count q : Nat) :
    (s.directoryAnnounce uid count q).now = s.now ∧ (s.directoryAnnounce uid count q).settings = s.settings ∧
    (s.directoryAnnounce uid count q).loader = s.loader ∧ (s.directoryAnnounce uid count q).table = s.table ∧
    (s.directoryAnnounce uid count q).store = s.store ∧ (s.directoryAnnounce uid count q).port = s.port ∧
    (s.directoryAnnounce uid count q).pending = s.pending := by
  refine ⟨?_, ?_, ?_, ?_, ?_, ?_, ?_⟩ <;> (simp only [State.directoryAnnounce]; (repeat' split) <;> simp)

@[simp] theorem State.takeAnnounce_frame (s : State) (f : NodeFrame) :
    (s.takeAnnounce f).now = s.now ∧ (s.takeAnnounce f).settings = s.settings ∧
    (s.takeAnnounce f).loader = s.loader ∧ (s.takeAnnounce f).table = s.table ∧ (s.takeAnnounce f).store = s.store ∧
    (s.takeAnnounce f).port = s.port ∧ (s.takeAnnounce f).pending = s.pending := by
  refine ⟨?_, ?_, ?_, ?_, ?_, ?_, ?_⟩ <;> (simp only [State.takeAnnounce]; (repeat' split) <;> simp)

@[simp] theorem State.placeAnswer_frame (s : State) (arrival : Nat) (f : NodeFrame) :
    (s.placeAnswer arrival f).now = s.now ∧ (s.placeAnswer arrival f).settings = s.settings ∧
    (s.placeAnswer arrival f).loader = s.loader ∧ (s.placeAnswer arrival f).table = s.table ∧
    (s.placeAnswer arrival f).port = s.port ∧ (s.placeAnswer arrival f).pending = s.pending := by
  refine ⟨?_, ?_, ?_, ?_, ?_, ?_⟩ <;> (simp only [State.placeAnswer]; (repeat' split) <;> simp)

@[simp] theorem State.placeFrame_frame (s : State) (arrival : Nat) (f : NodeFrame) :
    (s.placeFrame arrival f).now = s.now ∧ (s.placeFrame arrival f).settings = s.settings ∧
    (s.placeFrame arrival f).loader = s.loader ∧ (s.placeFrame arrival f).table = s.table ∧
    (s.placeFrame arrival f).port = s.port ∧ (s.placeFrame arrival f).pending = s.pending := by
  refine ⟨?_, ?_, ?_, ?_, ?_, ?_⟩ <;> (simp only [State.placeFrame]; (repeat' split) <;> simp)

@[simp] theorem State.goodFrame_frame (s : State) (rx : Reception) (f : NodeFrame) :
    (s.goodFrame rx f).now = s.now ∧ (s.goodFrame rx f).settings = s.settings ∧
    (s.goodFrame rx f).loader = s.loader ∧ (s.goodFrame rx f).table = s.table ∧ (s.goodFrame rx f).port = s.port ∧
    (s.goodFrame rx f).pending = s.pending := by simp [State.goodFrame]

@[simp] theorem State.frameEnds_frame (s : State) (rx : Reception) (bytes : List Byte) :
    (s.frameEnds rx bytes).settings = s.settings ∧ (s.frameEnds rx bytes).loader = s.loader ∧
    (s.frameEnds rx bytes).table = s.table ∧ (s.frameEnds rx bytes).port = s.port ∧
    (s.frameEnds rx bytes).pending = s.pending := by
  simp only [State.frameEnds]
  split <;> simp

@[simp] theorem State.judgeVoid_frame (s : State) :
    (s.judgeVoid).now = s.now ∧ (s.judgeVoid).settings = s.settings ∧ (s.judgeVoid).loader = s.loader ∧
    (s.judgeVoid).table = s.table ∧ (s.judgeVoid).store = s.store ∧ (s.judgeVoid).dir = s.dir ∧
    (s.judgeVoid).line = s.line ∧ (s.judgeVoid).ee = s.ee ∧ (s.judgeVoid).workList = s.workList ∧
    (s.judgeVoid).ou = s.ou ∧ (s.judgeVoid).lcm = s.lcm ∧ (s.judgeVoid).port = s.port ∧
    (s.judgeVoid).pending = s.pending := by
  simp only [State.judgeVoid]
  split <;> simp

@[simp] theorem State.settleCredit_frame (s : State) (void : Bool) :
    (s.settleCredit void).now = s.now ∧ (s.settleCredit void).settings = s.settings ∧
    (s.settleCredit void).loader = s.loader ∧ (s.settleCredit void).table = s.table ∧
    (s.settleCredit void).store = s.store ∧ (s.settleCredit void).port = s.port ∧
    (s.settleCredit void).pending = s.pending := by
  simp only [State.settleCredit]
  refine ⟨?_, ?_, ?_, ?_, ?_, ?_, ?_⟩
  · simp [foldl_keeps (fun x : State => x.now)]
  · simp [foldl_keeps (fun x : State => x.settings)]
  · simp [foldl_keeps (fun x : State => x.loader)]
  · simp [foldl_keeps (fun x : State => x.table)]
  · simp [foldl_keeps (fun x : State => x.store)]
  · simp [foldl_keeps (fun x : State => x.port)]
  · simp [foldl_keeps (fun x : State => x.pending)]

@[simp] theorem State.judgeFormed_frame (s : State) (void : Bool) (answered expected : Nat) :
    (s.judgeFormed void answered expected).now = s.now ∧
    (s.judgeFormed void answered expected).settings = s.settings ∧
    (s.judgeFormed void answered expected).loader = s.loader ∧
    (s.judgeFormed void answered expected).table = s.table ∧ (s.judgeFormed void answered expected).store = s.store ∧
    (s.judgeFormed void answered expected).dir = s.dir ∧ (s.judgeFormed void answered expected).line = s.line ∧
    (s.judgeFormed void answered expected).ee = s.ee ∧ (s.judgeFormed void answered expected).workList = s.workList ∧
    (s.judgeFormed void answered expected).ou = s.ou ∧ (s.judgeFormed void answered expected).lcm = s.lcm ∧
    (s.judgeFormed void answered expected).port = s.port ∧
    (s.judgeFormed void answered expected).counters = s.counters ∧
    (s.judgeFormed void answered expected).pending = s.pending := by
  refine ⟨?_, ?_, ?_, ?_, ?_, ?_, ?_, ?_, ?_, ?_, ?_, ?_, ?_, ?_⟩ <;> (simp only [State.judgeFormed]; (repeat' split) <;> simp)

@[simp] theorem State.judgeChain_frame (s : State) (void : Bool) (answered expected : Nat) :
    (s.judgeChain void answered expected).now = s.now ∧ (s.judgeChain void answered expected).settings = s.settings ∧
    (s.judgeChain void answered expected).loader = s.loader ∧ (s.judgeChain void answered expected).table = s.table ∧
    (s.judgeChain void answered expected).store = s.store ∧ (s.judgeChain void answered expected).dir = s.dir ∧
    (s.judgeChain void answered expected).line = s.line ∧ (s.judgeChain void answered expected).ee = s.ee ∧
    (s.judgeChain void answered expected).workList = s.workList ∧ (s.judgeChain void answered expected).ou = s.ou ∧
    (s.judgeChain void answered expected).lcm = s.lcm ∧ (s.judgeChain void answered expected).port = s.port ∧
    (s.judgeChain void answered expected).counters = s.counters ∧
    (s.judgeChain void answered expected).pending = s.pending := by
  refine ⟨?_, ?_, ?_, ?_, ?_, ?_, ?_, ?_, ?_, ?_, ?_, ?_, ?_, ?_⟩ <;> (simp only [State.judgeChain]; (repeat' split) <;> simp)

@[simp] theorem State.refillMeters_frame (s : State) :
    (s.refillMeters).now = s.now ∧ (s.refillMeters).settings = s.settings ∧ (s.refillMeters).loader = s.loader ∧
    (s.refillMeters).table = s.table ∧ (s.refillMeters).store = s.store ∧ (s.refillMeters).dir = s.dir ∧
    (s.refillMeters).rcu = s.rcu ∧ (s.refillMeters).ee = s.ee ∧ (s.refillMeters).workList = s.workList ∧
    (s.refillMeters).ou = s.ou ∧ (s.refillMeters).lcm = s.lcm ∧ (s.refillMeters).port = s.port ∧
    (s.refillMeters).events = s.events ∧ (s.refillMeters).counters = s.counters ∧
    (s.refillMeters).pending = s.pending := by simp [State.refillMeters]

@[simp] theorem State.settle_frame (s : State) :
    (s.settle).now = s.now ∧ (s.settle).settings = s.settings ∧ (s.settle).loader = s.loader ∧
    (s.settle).table = s.table ∧ (s.settle).store = s.store ∧ (s.settle).port = s.port ∧
    (s.settle).pending = s.pending := by simp [State.settle]

@[simp] theorem State.judgeImage_frame (s : State) (image : List Byte) :
    (s.judgeImage image).now = s.now ∧ (s.judgeImage image).table = s.table ∧ (s.judgeImage image).store = s.store ∧
    (s.judgeImage image).dir = s.dir ∧ (s.judgeImage image).line = s.line ∧ (s.judgeImage image).rcu = s.rcu ∧
    (s.judgeImage image).ee = s.ee ∧ (s.judgeImage image).workList = s.workList ∧ (s.judgeImage image).ou = s.ou ∧
    (s.judgeImage image).lcm = s.lcm ∧ (s.judgeImage image).port = s.port ∧
    (s.judgeImage image).counters = s.counters ∧ (s.judgeImage image).pending = s.pending := by
  simp only [State.judgeImage]
  split <;> simp

@[simp] theorem State.lookupOp_frame (s : State) (key : Word) :
    (s.lookupOp key).now = s.now ∧ (s.lookupOp key).settings = s.settings ∧ (s.lookupOp key).loader = s.loader ∧
    (s.lookupOp key).table = s.table ∧ (s.lookupOp key).store = s.store ∧ (s.lookupOp key).dir = s.dir ∧
    (s.lookupOp key).line = s.line ∧ (s.lookupOp key).rcu = s.rcu ∧ (s.lookupOp key).ee = s.ee ∧
    (s.lookupOp key).workList = s.workList ∧ (s.lookupOp key).ou = s.ou ∧ (s.lookupOp key).lcm = s.lcm ∧
    (s.lookupOp key).events = s.events ∧ (s.lookupOp key).counters = s.counters ∧
    (s.lookupOp key).pending = s.pending := by
  simp only [State.lookupOp]
  split <;> simp

@[simp] theorem State.readRecordOp_frame (s : State) (key : Word) :
    (s.readRecordOp key).now = s.now ∧ (s.readRecordOp key).settings = s.settings ∧
    (s.readRecordOp key).loader = s.loader ∧ (s.readRecordOp key).store = s.store ∧
    (s.readRecordOp key).dir = s.dir ∧ (s.readRecordOp key).line = s.line ∧ (s.readRecordOp key).rcu = s.rcu ∧
    (s.readRecordOp key).ee = s.ee ∧ (s.readRecordOp key).workList = s.workList ∧ (s.readRecordOp key).ou = s.ou ∧
    (s.readRecordOp key).lcm = s.lcm ∧ (s.readRecordOp key).events = s.events ∧
    (s.readRecordOp key).counters = s.counters ∧ (s.readRecordOp key).pending = s.pending := by
  simp only [State.readRecordOp]
  split <;> simp

@[simp] theorem State.findNextOp_frame (s : State) (q : Request) (cursor : Byte) (sel : Option (Fin 8)) (classValue classMask touchedOnly : Byte) :
    (s.findNextOp q cursor sel classValue classMask touchedOnly).now = s.now ∧
    (s.findNextOp q cursor sel classValue classMask touchedOnly).settings = s.settings ∧
    (s.findNextOp q cursor sel classValue classMask touchedOnly).loader = s.loader ∧
    (s.findNextOp q cursor sel classValue classMask touchedOnly).table = s.table ∧
    (s.findNextOp q cursor sel classValue classMask touchedOnly).store = s.store ∧
    (s.findNextOp q cursor sel classValue classMask touchedOnly).dir = s.dir ∧
    (s.findNextOp q cursor sel classValue classMask touchedOnly).line = s.line ∧
    (s.findNextOp q cursor sel classValue classMask touchedOnly).rcu = s.rcu ∧
    (s.findNextOp q cursor sel classValue classMask touchedOnly).ee = s.ee ∧
    (s.findNextOp q cursor sel classValue classMask touchedOnly).workList = s.workList ∧
    (s.findNextOp q cursor sel classValue classMask touchedOnly).ou = s.ou ∧
    (s.findNextOp q cursor sel classValue classMask touchedOnly).lcm = s.lcm ∧
    (s.findNextOp q cursor sel classValue classMask touchedOnly).events = s.events ∧
    (s.findNextOp q cursor sel classValue classMask touchedOnly).counters = s.counters ∧
    (s.findNextOp q cursor sel classValue classMask touchedOnly).pending = s.pending := by
  simp only [State.findNextOp]
  split <;> simp

@[simp] theorem State.admitOp_frame (s : State) (key : Word) :
    (s.admitOp key).now = s.now ∧ (s.admitOp key).settings = s.settings ∧ (s.admitOp key).loader = s.loader ∧
    (s.admitOp key).store = s.store ∧ (s.admitOp key).dir = s.dir ∧ (s.admitOp key).line = s.line ∧
    (s.admitOp key).rcu = s.rcu ∧ (s.admitOp key).ee = s.ee ∧ (s.admitOp key).workList = s.workList ∧
    (s.admitOp key).ou = s.ou ∧ (s.admitOp key).lcm = s.lcm ∧ (s.admitOp key).counters = s.counters ∧
    (s.admitOp key).pending = s.pending := by
  refine ⟨?_, ?_, ?_, ?_, ?_, ?_, ?_, ?_, ?_, ?_, ?_, ?_, ?_⟩ <;> (simp only [State.admitOp]; (repeat' split) <;> simp)

@[simp] theorem State.retireOp_frame (s : State) (key : Word) :
    (s.retireOp key).now = s.now ∧ (s.retireOp key).settings = s.settings ∧ (s.retireOp key).loader = s.loader ∧
    (s.retireOp key).line = s.line ∧ (s.retireOp key).rcu = s.rcu ∧ (s.retireOp key).workList = s.workList ∧
    (s.retireOp key).events = s.events ∧ (s.retireOp key).counters = s.counters ∧
    (s.retireOp key).pending = s.pending := by
  refine ⟨?_, ?_, ?_, ?_, ?_, ?_, ?_, ?_, ?_⟩ <;> (simp only [State.retireOp]; (repeat' split) <;> simp)

@[simp] theorem State.declareRecordOp_frame (s : State) (q : Request) (k : Key) (feed : Feed) (nominal : Nat) (flags : DescFlags) :
    (s.declareRecordOp q k feed nominal flags).now = s.now ∧
    (s.declareRecordOp q k feed nominal flags).settings = s.settings ∧
    (s.declareRecordOp q k feed nominal flags).loader = s.loader ∧
    (s.declareRecordOp q k feed nominal flags).store = s.store ∧
    (s.declareRecordOp q k feed nominal flags).line = s.line ∧
    (s.declareRecordOp q k feed nominal flags).rcu = s.rcu ∧ (s.declareRecordOp q k feed nominal flags).ee = s.ee ∧
    (s.declareRecordOp q k feed nominal flags).workList = s.workList ∧
    (s.declareRecordOp q k feed nominal flags).ou = s.ou ∧
    (s.declareRecordOp q k feed nominal flags).events = s.events ∧
    (s.declareRecordOp q k feed nominal flags).counters = s.counters ∧
    (s.declareRecordOp q k feed nominal flags).pending = s.pending := by
  refine ⟨?_, ?_, ?_, ?_, ?_, ?_, ?_, ?_, ?_, ?_, ?_, ?_⟩ <;> (simp only [State.declareRecordOp]; (repeat' split) <;> simp)

@[simp] theorem State.readExtensionOp_frame (s : State) (q : Request) (key : Word) (offset length : Nat) :
    (s.readExtensionOp q key offset length).now = s.now ∧
    (s.readExtensionOp q key offset length).settings = s.settings ∧
    (s.readExtensionOp q key offset length).loader = s.loader ∧
    (s.readExtensionOp q key offset length).table = s.table ∧
    (s.readExtensionOp q key offset length).store = s.store ∧ (s.readExtensionOp q key offset length).dir = s.dir ∧
    (s.readExtensionOp q key offset length).line = s.line ∧ (s.readExtensionOp q key offset length).rcu = s.rcu ∧
    (s.readExtensionOp q key offset length).ee = s.ee ∧
    (s.readExtensionOp q key offset length).workList = s.workList ∧
    (s.readExtensionOp q key offset length).ou = s.ou ∧ (s.readExtensionOp q key offset length).lcm = s.lcm ∧
    (s.readExtensionOp q key offset length).events = s.events ∧
    (s.readExtensionOp q key offset length).counters = s.counters ∧
    (s.readExtensionOp q key offset length).pending = s.pending := by
  refine ⟨?_, ?_, ?_, ?_, ?_, ?_, ?_, ?_, ?_, ?_, ?_, ?_, ?_, ?_, ?_⟩ <;> (simp only [State.readExtensionOp]; (repeat' split) <;> simp)

@[simp] theorem State.replaceExtension_frame (s : State) (q : Request) (i : Fin 256) (r : Record) (n : Nat) (data : List Byte) :
    (s.replaceExtension q i r n data).now = s.now ∧ (s.replaceExtension q i r n data).settings = s.settings ∧
    (s.replaceExtension q i r n data).loader = s.loader ∧ (s.replaceExtension q i r n data).line = s.line ∧
    (s.replaceExtension q i r n data).rcu = s.rcu ∧ (s.replaceExtension q i r n data).ee = s.ee ∧
    (s.replaceExtension q i r n data).workList = s.workList ∧ (s.replaceExtension q i r n data).ou = s.ou ∧
    (s.replaceExtension q i r n data).lcm = s.lcm ∧ (s.replaceExtension q i r n data).events = s.events ∧
    (s.replaceExtension q i r n data).counters = s.counters ∧ (s.replaceExtension q i r n data).pending = s.pending := by
  refine ⟨?_, ?_, ?_, ?_, ?_, ?_, ?_, ?_, ?_, ?_, ?_, ?_⟩ <;> (simp only [State.replaceExtension]; (repeat' split) <;> simp)

@[simp] theorem State.declareUnitOp_frame (s : State) (position : Byte) :
    (s.declareUnitOp position).now = s.now ∧ (s.declareUnitOp position).settings = s.settings ∧
    (s.declareUnitOp position).loader = s.loader ∧ (s.declareUnitOp position).table = s.table ∧
    (s.declareUnitOp position).store = s.store ∧ (s.declareUnitOp position).line = s.line ∧
    (s.declareUnitOp position).rcu = s.rcu ∧ (s.declareUnitOp position).ee = s.ee ∧
    (s.declareUnitOp position).workList = s.workList ∧ (s.declareUnitOp position).ou = s.ou ∧
    (s.declareUnitOp position).lcm = s.lcm ∧ (s.declareUnitOp position).events = s.events ∧
    (s.declareUnitOp position).counters = s.counters ∧ (s.declareUnitOp position).pending = s.pending := by
  refine ⟨?_, ?_, ?_, ?_, ?_, ?_, ?_, ?_, ?_, ?_, ?_, ?_, ?_, ?_⟩ <;> (simp only [State.declareUnitOp]; (repeat' split) <;> simp)

@[simp] theorem State.restartChainOp_frame (s : State) :
    (s.restartChainOp).now = s.now ∧ (s.restartChainOp).settings = s.settings ∧
    (s.restartChainOp).loader = s.loader ∧ (s.restartChainOp).store = s.store ∧ (s.restartChainOp).table = s.table ∧
    (s.restartChainOp).port = s.port ∧ (s.restartChainOp).pending = s.pending := by
  simp only [State.restartChainOp]
  refine ⟨?_, ?_, ?_, ?_, ?_, ?_, ?_⟩
  · simp; exact foldl_keeps (fun x : State => x.now) (by intros; simp) _ _
  · simp; exact foldl_keeps (fun x : State => x.settings) (by intros; simp) _ _
  · simp; exact foldl_keeps (fun x : State => x.loader) (by intros; simp) _ _
  · simp; exact foldl_keeps (fun x : State => x.store) (by intros; simp) _ _
  · simp; exact foldl_keeps (fun x : State => x.table) (by intros; simp) _ _
  · simp; exact foldl_keeps (fun x : State => x.port) (by intros; simp) _ _
  · simp; exact foldl_keeps (fun x : State => x.pending) (by intros; simp) _ _

@[simp] theorem State.takeDemand_frame (s : State) (i : Fin 256) (r : Record) (value : Word) :
    (s.takeDemand i r value).now = s.now ∧ (s.takeDemand i r value).settings = s.settings ∧
    (s.takeDemand i r value).loader = s.loader ∧ (s.takeDemand i r value).store = s.store ∧
    (s.takeDemand i r value).dir = s.dir ∧ (s.takeDemand i r value).line = s.line ∧
    (s.takeDemand i r value).rcu = s.rcu ∧ (s.takeDemand i r value).ee = s.ee ∧
    (s.takeDemand i r value).workList = s.workList ∧ (s.takeDemand i r value).lcm = s.lcm ∧
    (s.takeDemand i r value).port = s.port ∧ (s.takeDemand i r value).counters = s.counters ∧
    (s.takeDemand i r value).pending = s.pending := by
  simp only [State.takeDemand]
  split <;> simp

@[simp] theorem State.setDemandOp_frame (s : State) (key value : Word) :
    (s.setDemandOp key value).now = s.now ∧ (s.setDemandOp key value).settings = s.settings ∧
    (s.setDemandOp key value).loader = s.loader ∧ (s.setDemandOp key value).store = s.store ∧
    (s.setDemandOp key value).dir = s.dir ∧ (s.setDemandOp key value).line = s.line ∧
    (s.setDemandOp key value).rcu = s.rcu ∧ (s.setDemandOp key value).ee = s.ee ∧
    (s.setDemandOp key value).workList = s.workList ∧ (s.setDemandOp key value).lcm = s.lcm ∧
    (s.setDemandOp key value).counters = s.counters ∧ (s.setDemandOp key value).pending = s.pending := by
  simp only [State.setDemandOp]
  split <;> simp

@[simp] theorem State.refillOp_frame (s : State) :
    (s.refillOp).now = s.now ∧ (s.refillOp).settings = s.settings ∧ (s.refillOp).loader = s.loader ∧
    (s.refillOp).store = s.store ∧ (s.refillOp).dir = s.dir ∧ (s.refillOp).line = s.line ∧ (s.refillOp).rcu = s.rcu ∧
    (s.refillOp).ee = s.ee ∧ (s.refillOp).workList = s.workList ∧ (s.refillOp).lcm = s.lcm ∧
    (s.refillOp).port = s.port ∧ (s.refillOp).counters = s.counters ∧ (s.refillOp).pending = s.pending := by
  simp only [State.refillOp]
  split <;> simp

@[simp] theorem State.completeOp_frame (s : State) (n : InFlight) :
    (s.completeOp n).now = s.now ∧ (s.completeOp n).settings = s.settings ∧ (s.completeOp n).loader = s.loader ∧
    (s.completeOp n).store = s.store ∧ (s.completeOp n).dir = s.dir ∧ (s.completeOp n).line = s.line ∧
    (s.completeOp n).rcu = s.rcu ∧ (s.completeOp n).ee = s.ee ∧ (s.completeOp n).workList = s.workList ∧
    (s.completeOp n).lcm = s.lcm ∧ (s.completeOp n).port = s.port ∧ (s.completeOp n).counters = s.counters ∧
    (s.completeOp n).pending = s.pending := by
  simp only [State.completeOp]
  split <;> simp

@[simp] theorem State.failOp_frame (s : State) (n : InFlight) :
    (s.failOp n).now = s.now ∧ (s.failOp n).settings = s.settings ∧ (s.failOp n).loader = s.loader ∧
    (s.failOp n).store = s.store ∧ (s.failOp n).dir = s.dir ∧ (s.failOp n).line = s.line ∧ (s.failOp n).rcu = s.rcu ∧
    (s.failOp n).ee = s.ee ∧ (s.failOp n).workList = s.workList ∧ (s.failOp n).lcm = s.lcm ∧
    (s.failOp n).port = s.port ∧ (s.failOp n).counters = s.counters ∧ (s.failOp n).pending = s.pending := by
  simp only [State.failOp]
  split <;> simp

@[simp] theorem State.restartBlink_frame (s : State) (k : Fin 8) (d : CircuitDemand) :
    (s.restartBlink k d).now = s.now ∧ (s.restartBlink k d).settings = s.settings ∧
    (s.restartBlink k d).loader = s.loader ∧ (s.restartBlink k d).table = s.table ∧
    (s.restartBlink k d).store = s.store ∧ (s.restartBlink k d).dir = s.dir ∧ (s.restartBlink k d).line = s.line ∧
    (s.restartBlink k d).rcu = s.rcu ∧ (s.restartBlink k d).ee = s.ee ∧ (s.restartBlink k d).workList = s.workList ∧
    (s.restartBlink k d).ou = s.ou ∧ (s.restartBlink k d).port = s.port ∧ (s.restartBlink k d).events = s.events ∧
    (s.restartBlink k d).counters = s.counters ∧ (s.restartBlink k d).pending = s.pending := by
  simp only [State.restartBlink]
  split <;> simp

@[simp] theorem State.setCircuitDemand_frame (s : State) (k : Fin 8) (d : CircuitDemand) :
    (s.setCircuitDemand k d).now = s.now ∧ (s.setCircuitDemand k d).settings = s.settings ∧
    (s.setCircuitDemand k d).loader = s.loader ∧ (s.setCircuitDemand k d).table = s.table ∧
    (s.setCircuitDemand k d).store = s.store ∧ (s.setCircuitDemand k d).dir = s.dir ∧
    (s.setCircuitDemand k d).line = s.line ∧ (s.setCircuitDemand k d).rcu = s.rcu ∧
    (s.setCircuitDemand k d).ee = s.ee ∧ (s.setCircuitDemand k d).workList = s.workList ∧
    (s.setCircuitDemand k d).ou = s.ou ∧ (s.setCircuitDemand k d).port = s.port ∧
    (s.setCircuitDemand k d).events = s.events ∧ (s.setCircuitDemand k d).counters = s.counters ∧
    (s.setCircuitDemand k d).pending = s.pending := by
  simp only [State.setCircuitDemand]
  split <;> simp

@[simp] theorem State.setCircuitMode_frame (s : State) (k : Fin 8) (m : Override) :
    (s.setCircuitMode k m).now = s.now ∧ (s.setCircuitMode k m).settings = s.settings ∧
    (s.setCircuitMode k m).loader = s.loader ∧ (s.setCircuitMode k m).table = s.table ∧
    (s.setCircuitMode k m).store = s.store ∧ (s.setCircuitMode k m).dir = s.dir ∧
    (s.setCircuitMode k m).line = s.line ∧ (s.setCircuitMode k m).rcu = s.rcu ∧ (s.setCircuitMode k m).ee = s.ee ∧
    (s.setCircuitMode k m).workList = s.workList ∧ (s.setCircuitMode k m).ou = s.ou ∧
    (s.setCircuitMode k m).port = s.port ∧ (s.setCircuitMode k m).events = s.events ∧
    (s.setCircuitMode k m).counters = s.counters ∧ (s.setCircuitMode k m).pending = s.pending := by
  simp only [State.setCircuitMode]
  split <;> simp

@[simp] theorem State.settingEffect_frame (s : State) (n : Fin 131) (was v : Nat) :
    (s.settingEffect n was v).now = s.now ∧ (s.settingEffect n was v).settings = s.settings ∧
    (s.settingEffect n was v).loader = s.loader ∧ (s.settingEffect n was v).table = s.table ∧
    (s.settingEffect n was v).store = s.store ∧ (s.settingEffect n was v).rcu = s.rcu ∧
    (s.settingEffect n was v).ee = s.ee ∧ (s.settingEffect n was v).workList = s.workList ∧
    (s.settingEffect n was v).ou = s.ou ∧ (s.settingEffect n was v).port = s.port ∧
    (s.settingEffect n was v).events = s.events ∧ (s.settingEffect n was v).counters = s.counters ∧
    (s.settingEffect n was v).pending = s.pending := by
  refine ⟨?_, ?_, ?_, ?_, ?_, ?_, ?_, ?_, ?_, ?_, ?_, ?_, ?_⟩ <;> (simp only [State.settingEffect]; (repeat' split) <;> simp)

@[simp] theorem State.takeSetting_frame (s : State) (n : Fin 131) (v : Nat) :
    (s.takeSetting n v).now = s.now ∧ (s.takeSetting n v).loader = s.loader ∧ (s.takeSetting n v).table = s.table ∧
    (s.takeSetting n v).store = s.store ∧ (s.takeSetting n v).rcu = s.rcu ∧ (s.takeSetting n v).ee = s.ee ∧
    (s.takeSetting n v).workList = s.workList ∧ (s.takeSetting n v).ou = s.ou ∧ (s.takeSetting n v).port = s.port ∧
    (s.takeSetting n v).events = s.events ∧ (s.takeSetting n v).counters = s.counters ∧
    (s.takeSetting n v).pending = s.pending := by simp [State.takeSetting]

@[simp] theorem State.rescan_frame (s : State) :
    (s.rescan).now = s.now ∧ (s.rescan).settings = s.settings ∧ (s.rescan).loader = s.loader ∧
    (s.rescan).table = s.table ∧ (s.rescan).store = s.store ∧ (s.rescan).dir = s.dir ∧ (s.rescan).line = s.line ∧
    (s.rescan).workList = s.workList ∧ (s.rescan).ou = s.ou ∧ (s.rescan).lcm = s.lcm ∧ (s.rescan).port = s.port ∧
    (s.rescan).counters = s.counters ∧ (s.rescan).pending = s.pending := by
  simp only [State.rescan]
  split <;> simp

@[simp] theorem State.sendBroadcast_frame (s : State) :
    (s.sendBroadcast).now = s.now ∧ (s.sendBroadcast).settings = s.settings ∧ (s.sendBroadcast).loader = s.loader ∧
    (s.sendBroadcast).table = s.table ∧ (s.sendBroadcast).store = s.store ∧ (s.sendBroadcast).dir = s.dir ∧
    (s.sendBroadcast).ee = s.ee ∧ (s.sendBroadcast).workList = s.workList ∧ (s.sendBroadcast).ou = s.ou ∧
    (s.sendBroadcast).lcm = s.lcm ∧ (s.sendBroadcast).port = s.port ∧ (s.sendBroadcast).events = s.events ∧
    (s.sendBroadcast).counters = s.counters ∧ (s.sendBroadcast).pending = s.pending := by
  simp only [State.sendBroadcast]
  split <;> simp

@[simp] theorem State.sendHeld_frame (s : State) :
    (s.sendHeld).now = s.now ∧ (s.sendHeld).settings = s.settings ∧ (s.sendHeld).loader = s.loader ∧
    (s.sendHeld).table = s.table ∧ (s.sendHeld).store = s.store ∧ (s.sendHeld).dir = s.dir ∧
    (s.sendHeld).rcu = s.rcu ∧ (s.sendHeld).ee = s.ee ∧ (s.sendHeld).workList = s.workList ∧ (s.sendHeld).ou = s.ou ∧
    (s.sendHeld).lcm = s.lcm ∧ (s.sendHeld).port = s.port ∧ (s.sendHeld).pending = s.pending := by
  refine ⟨?_, ?_, ?_, ?_, ?_, ?_, ?_, ?_, ?_, ?_, ?_, ?_, ?_⟩ <;> (simp only [State.sendHeld]; (repeat' split) <;> simp)

@[simp] theorem State.openPhase_frame (s : State) :
    (s.openPhase).settings = s.settings ∧ (s.openPhase).loader = s.loader ∧ (s.openPhase).table = s.table ∧
    (s.openPhase).store = s.store ∧ (s.openPhase).dir = s.dir ∧ (s.openPhase).workList = s.workList ∧
    (s.openPhase).ou = s.ou ∧ (s.openPhase).lcm = s.lcm ∧ (s.openPhase).port = s.port ∧
    (s.openPhase).pending = s.pending := by simp [State.openPhase]

@[simp] theorem State.giveTurn_frame (s : State) (r : Requester) :
    (s.giveTurn r).now = s.now ∧ (s.giveTurn r).settings = s.settings ∧ (s.giveTurn r).loader = s.loader ∧
    (s.giveTurn r).table = s.table ∧ (s.giveTurn r).store = s.store ∧ (s.giveTurn r).rcu = s.rcu ∧
    (s.giveTurn r).ee = s.ee ∧ (s.giveTurn r).workList = s.workList ∧ (s.giveTurn r).ou = s.ou ∧
    (s.giveTurn r).lcm = s.lcm ∧ (s.giveTurn r).port = s.port ∧ (s.giveTurn r).pending = s.pending := by
  simp only [State.giveTurn]
  split <;> simp

@[simp] theorem State.timeout_frame (s : State) (t : Transaction) :
    (s.timeout t).now = s.now ∧ (s.timeout t).settings = s.settings ∧ (s.timeout t).loader = s.loader ∧
    (s.timeout t).table = s.table ∧ (s.timeout t).port = s.port ∧ (s.timeout t).pending = s.pending := by
  refine ⟨?_, ?_, ?_, ?_, ?_, ?_⟩ <;> (simp only [State.timeout]; (repeat' split) <;> simp)

@[simp] theorem State.sendOp_frame (s : State) :
    (s.sendOp).now = s.now ∧ (s.sendOp).settings = s.settings ∧ (s.sendOp).loader = s.loader ∧
    (s.sendOp).table = s.table ∧ (s.sendOp).store = s.store ∧ (s.sendOp).dir = s.dir ∧ (s.sendOp).rcu = s.rcu ∧
    (s.sendOp).ee = s.ee ∧ (s.sendOp).workList = s.workList ∧ (s.sendOp).lcm = s.lcm ∧ (s.sendOp).port = s.port ∧
    (s.sendOp).pending = s.pending := by
  refine ⟨?_, ?_, ?_, ?_, ?_, ?_, ?_, ?_, ?_, ?_, ?_, ?_⟩ <;> (simp only [State.sendOp]; (repeat' split) <;> simp)

@[simp] theorem State.stallUnit_frame (s : State) (c : Context) :
    (s.stallUnit c).now = s.now ∧ (s.stallUnit c).settings = s.settings ∧ (s.stallUnit c).loader = s.loader ∧
    (s.stallUnit c).table = s.table ∧ (s.stallUnit c).store = s.store ∧ (s.stallUnit c).line = s.line ∧
    (s.stallUnit c).workList = s.workList ∧ (s.stallUnit c).ou = s.ou ∧ (s.stallUnit c).lcm = s.lcm ∧
    (s.stallUnit c).port = s.port ∧ (s.stallUnit c).counters = s.counters ∧ (s.stallUnit c).pending = s.pending := by simp [State.stallUnit]

@[simp] theorem State.overflow_frame (s : State) (c : Context) :
    (s.overflow c).now = s.now ∧ (s.overflow c).settings = s.settings ∧ (s.overflow c).loader = s.loader ∧
    (s.overflow c).table = s.table ∧ (s.overflow c).store = s.store ∧ (s.overflow c).line = s.line ∧
    (s.overflow c).workList = s.workList ∧ (s.overflow c).ou = s.ou ∧ (s.overflow c).lcm = s.lcm ∧
    (s.overflow c).port = s.port ∧ (s.overflow c).pending = s.pending := by
  simp only [State.overflow]
  split <;> simp

@[simp] theorem State.drawFor_frame (s : State) (c : Context) (n : Nat) :
    (s.drawFor c n).now = s.now ∧ (s.drawFor c n).settings = s.settings ∧ (s.drawFor c n).loader = s.loader ∧
    (s.drawFor c n).table = s.table ∧ (s.drawFor c n).line = s.line ∧ (s.drawFor c n).rcu = s.rcu ∧
    (s.drawFor c n).workList = s.workList ∧ (s.drawFor c n).ou = s.ou ∧ (s.drawFor c n).lcm = s.lcm ∧
    (s.drawFor c n).port = s.port ∧ (s.drawFor c n).events = s.events ∧ (s.drawFor c n).counters = s.counters ∧
    (s.drawFor c n).pending = s.pending := by
  refine ⟨?_, ?_, ?_, ?_, ?_, ?_, ?_, ?_, ?_, ?_, ?_, ?_, ?_⟩ <;> (simp only [State.drawFor]; (repeat' split) <;> simp)

@[simp] theorem State.reserve_frame (s : State) (c : Context) (d : Descriptor) (cl : Classification) :
    (s.reserve c d cl).now = s.now ∧ (s.reserve c d cl).settings = s.settings ∧
    (s.reserve c d cl).loader = s.loader ∧ (s.reserve c d cl).line = s.line ∧
    (s.reserve c d cl).workList = s.workList ∧ (s.reserve c d cl).ou = s.ou ∧ (s.reserve c d cl).lcm = s.lcm ∧
    (s.reserve c d cl).port = s.port ∧ (s.reserve c d cl).pending = s.pending := by
  simp only [State.reserve]
  split <;> simp

@[simp] theorem State.returnHeld_frame (s : State) (c : Context) :
    (s.returnHeld c).now = s.now ∧ (s.returnHeld c).settings = s.settings ∧ (s.returnHeld c).loader = s.loader ∧
    (s.returnHeld c).table = s.table ∧ (s.returnHeld c).line = s.line ∧ (s.returnHeld c).rcu = s.rcu ∧
    (s.returnHeld c).ee = s.ee ∧ (s.returnHeld c).workList = s.workList ∧ (s.returnHeld c).ou = s.ou ∧
    (s.returnHeld c).lcm = s.lcm ∧ (s.returnHeld c).port = s.port ∧ (s.returnHeld c).events = s.events ∧
    (s.returnHeld c).counters = s.counters ∧ (s.returnHeld c).pending = s.pending := by
  simp only [State.returnHeld]
  split <;> simp

@[simp] theorem State.conclude_frame (s : State) (c : Context) (d : Descriptor) (cl : Classification) (i : Fin 256) (r : Record) :
    (s.conclude c d cl i r).now = s.now ∧ (s.conclude c d cl i r).settings = s.settings ∧
    (s.conclude c d cl i r).loader = s.loader ∧ (s.conclude c d cl i r).line = s.line ∧
    (s.conclude c d cl i r).rcu = s.rcu ∧ (s.conclude c d cl i r).workList = s.workList ∧
    (s.conclude c d cl i r).ou = s.ou ∧ (s.conclude c d cl i r).port = s.port ∧
    (s.conclude c d cl i r).pending = s.pending := by
  refine ⟨?_, ?_, ?_, ?_, ?_, ?_, ?_, ?_, ?_⟩ <;> (simp only [State.conclude]; (repeat' split) <;> simp)

@[simp] theorem State.takeValue_frame (value : Word) (s : State) (i : Fin 256) (r : Record) :
    (State.takeValue value s i r).now = s.now ∧ (State.takeValue value s i r).settings = s.settings ∧
    (State.takeValue value s i r).loader = s.loader ∧ (State.takeValue value s i r).store = s.store ∧
    (State.takeValue value s i r).dir = s.dir ∧ (State.takeValue value s i r).line = s.line ∧
    (State.takeValue value s i r).rcu = s.rcu ∧ (State.takeValue value s i r).ee = s.ee ∧
    (State.takeValue value s i r).workList = s.workList ∧ (State.takeValue value s i r).ou = s.ou ∧
    (State.takeValue value s i r).lcm = s.lcm ∧ (State.takeValue value s i r).port = s.port ∧
    (State.takeValue value s i r).pending = s.pending := by
  simp only [State.takeValue]
  split <;> simp

@[simp] theorem State.setFault_frame (fault : Bool) (s : State) (i : Fin 256) (r : Record) :
    (State.setFault fault s i r).now = s.now ∧ (State.setFault fault s i r).settings = s.settings ∧
    (State.setFault fault s i r).loader = s.loader ∧ (State.setFault fault s i r).store = s.store ∧
    (State.setFault fault s i r).dir = s.dir ∧ (State.setFault fault s i r).line = s.line ∧
    (State.setFault fault s i r).rcu = s.rcu ∧ (State.setFault fault s i r).ee = s.ee ∧
    (State.setFault fault s i r).workList = s.workList ∧ (State.setFault fault s i r).ou = s.ou ∧
    (State.setFault fault s i r).lcm = s.lcm ∧ (State.setFault fault s i r).port = s.port ∧
    (State.setFault fault s i r).counters = s.counters ∧ (State.setFault fault s i r).pending = s.pending := by simp [State.setFault]

@[simp] theorem State.giveUpInSlot_frame (s : State) (c : Context) :
    (s.giveUpInSlot c).now = s.now ∧ (s.giveUpInSlot c).settings = s.settings ∧
    (s.giveUpInSlot c).loader = s.loader ∧ (s.giveUpInSlot c).table = s.table ∧
    (s.giveUpInSlot c).store = s.store ∧ (s.giveUpInSlot c).line = s.line ∧ (s.giveUpInSlot c).rcu = s.rcu ∧
    (s.giveUpInSlot c).workList = s.workList ∧ (s.giveUpInSlot c).ou = s.ou ∧ (s.giveUpInSlot c).port = s.port ∧
    (s.giveUpInSlot c).counters = s.counters ∧ (s.giveUpInSlot c).pending = s.pending := by
  refine ⟨?_, ?_, ?_, ?_, ?_, ?_, ?_, ?_, ?_, ?_, ?_, ?_⟩ <;>
    (simp only [State.giveUpInSlot]; (repeat' split) <;> simp)

@[simp] theorem State.giveUp_frame (s : State) (c : Context) :
    (s.giveUp c).now = s.now ∧ (s.giveUp c).settings = s.settings ∧ (s.giveUp c).loader = s.loader ∧
    (s.giveUp c).table = s.table ∧ (s.giveUp c).store = s.store ∧ (s.giveUp c).line = s.line ∧
    (s.giveUp c).workList = s.workList ∧ (s.giveUp c).ou = s.ou ∧ (s.giveUp c).port = s.port ∧
    (s.giveUp c).counters = s.counters ∧ (s.giveUp c).pending = s.pending := by
  refine ⟨?_, ?_, ?_, ?_, ?_, ?_, ?_, ?_, ?_, ?_, ?_⟩ <;> (simp only [State.giveUp]; (repeat' split) <;> simp)

@[simp] theorem State.withdrawItem_frame (s : State) (it : Item) :
    (s.withdrawItem it).now = s.now ∧ (s.withdrawItem it).settings = s.settings ∧
    (s.withdrawItem it).loader = s.loader ∧ (s.withdrawItem it).line = s.line ∧
    (s.withdrawItem it).workList = s.workList ∧ (s.withdrawItem it).port = s.port ∧
    (s.withdrawItem it).pending = s.pending := by
  refine ⟨?_, ?_, ?_, ?_, ?_, ?_, ?_⟩ <;> (simp only [State.withdrawItem]; (repeat' split) <;> simp)

@[simp] theorem State.addItem_frame (s : State) (it : Item) :
    (s.addItem it).now = s.now ∧ (s.addItem it).settings = s.settings ∧ (s.addItem it).loader = s.loader ∧
    (s.addItem it).table = s.table ∧ (s.addItem it).store = s.store ∧ (s.addItem it).rcu = s.rcu ∧
    (s.addItem it).ee = s.ee ∧ (s.addItem it).workList = s.workList ∧ (s.addItem it).ou = s.ou ∧
    (s.addItem it).lcm = s.lcm ∧ (s.addItem it).port = s.port ∧ (s.addItem it).pending = s.pending := by
  refine ⟨?_, ?_, ?_, ?_, ?_, ?_, ?_, ?_, ?_, ?_, ?_, ?_⟩ <;> (simp only [State.addItem]; (repeat' split) <;> simp)

@[simp] theorem State.ageRecord_frame (steps : Nat) (s : State) (p : Fin 256 × Record) :
    (State.ageRecord steps s p).now = s.now ∧ (State.ageRecord steps s p).settings = s.settings ∧
    (State.ageRecord steps s p).loader = s.loader ∧ (State.ageRecord steps s p).store = s.store ∧
    (State.ageRecord steps s p).dir = s.dir ∧ (State.ageRecord steps s p).line = s.line ∧
    (State.ageRecord steps s p).rcu = s.rcu ∧ (State.ageRecord steps s p).ee = s.ee ∧
    (State.ageRecord steps s p).workList = s.workList ∧ (State.ageRecord steps s p).ou = s.ou ∧
    (State.ageRecord steps s p).lcm = s.lcm ∧ (State.ageRecord steps s p).port = s.port ∧
    (State.ageRecord steps s p).counters = s.counters ∧ (State.ageRecord steps s p).pending = s.pending := by
  simp only [State.ageRecord]
  split <;> simp

@[simp] theorem State.agePass_frame (s : State) (steps : Nat) :
    (s.agePass steps).now = s.now ∧ (s.agePass steps).settings = s.settings ∧ (s.agePass steps).loader = s.loader ∧
    (s.agePass steps).store = s.store ∧ (s.agePass steps).dir = s.dir ∧ (s.agePass steps).line = s.line ∧
    (s.agePass steps).rcu = s.rcu ∧ (s.agePass steps).ee = s.ee ∧ (s.agePass steps).workList = s.workList ∧
    (s.agePass steps).ou = s.ou ∧ (s.agePass steps).lcm = s.lcm ∧ (s.agePass steps).port = s.port ∧
    (s.agePass steps).counters = s.counters ∧ (s.agePass steps).pending = s.pending := by
  simp only [State.agePass]
  refine ⟨?_, ?_, ?_, ?_, ?_, ?_, ?_, ?_, ?_, ?_, ?_, ?_, ?_, ?_⟩
  · simp [foldl_keeps (fun x : State => x.now)]
  · simp [foldl_keeps (fun x : State => x.settings)]
  · simp [foldl_keeps (fun x : State => x.loader)]
  · simp [foldl_keeps (fun x : State => x.store)]
  · simp [foldl_keeps (fun x : State => x.dir)]
  · simp [foldl_keeps (fun x : State => x.line)]
  · simp [foldl_keeps (fun x : State => x.rcu)]
  · simp [foldl_keeps (fun x : State => x.ee)]
  · simp [foldl_keeps (fun x : State => x.workList)]
  · simp [foldl_keeps (fun x : State => x.ou)]
  · simp [foldl_keeps (fun x : State => x.lcm)]
  · simp [foldl_keeps (fun x : State => x.port)]
  · simp [foldl_keeps (fun x : State => x.counters)]
  · simp [foldl_keeps (fun x : State => x.pending)]

@[simp] theorem State.sweep_frame (s : State) (h : Fin 8) :
    (s.sweep h).now = s.now ∧ (s.sweep h).settings = s.settings ∧ (s.sweep h).loader = s.loader ∧
    (s.sweep h).line = s.line ∧ (s.sweep h).workList = s.workList ∧ (s.sweep h).port = s.port ∧
    (s.sweep h).counters = s.counters ∧ (s.sweep h).pending = s.pending := by
  simp only [State.sweep]
  split <;> simp

@[simp] theorem State.redecideBlinking_frame (s : State) (k : Fin 8) :
    (s.redecideBlinking k).now = s.now ∧ (s.redecideBlinking k).settings = s.settings ∧
    (s.redecideBlinking k).loader = s.loader ∧ (s.redecideBlinking k).table = s.table ∧
    (s.redecideBlinking k).store = s.store ∧ (s.redecideBlinking k).dir = s.dir ∧
    (s.redecideBlinking k).line = s.line ∧ (s.redecideBlinking k).rcu = s.rcu ∧ (s.redecideBlinking k).ee = s.ee ∧
    (s.redecideBlinking k).workList = s.workList ∧ (s.redecideBlinking k).ou = s.ou ∧
    (s.redecideBlinking k).port = s.port ∧ (s.redecideBlinking k).events = s.events ∧
    (s.redecideBlinking k).counters = s.counters ∧ (s.redecideBlinking k).pending = s.pending := by
  simp only [State.redecideBlinking]
  split <;> simp

end Sys2Proof.Machine
end

