-- ==== Sys2Proof/Laws/Departures.lean ====
section
/-! SUPPORT. What a departure does, in the terms of Safety.lean: the counting of many raises at once, the notice of many
circuits, the entry of one unit and of several into LEAVING (`Left`), and a departure with its owed RELEASEs. -/

namespace Sys2Proof.Machine

/-! ### Counting -/

/-- Many raises of a counter touch the counter bank and COUNTER_LIMIT only, by the settings and the bank alone (R177). -/
theorem State.countTimes_spec (c : Counter) (n : Nat) :
    ∃ f : Vector Nat 131 → CounterBank → CounterBank × Bool, ∀ s : State, s.countTimes c n =
      { s with
        counters := (f s.settings s.counters).1
        events := if (f s.settings s.counters).2 then s.events.set .counterLimit else s.events } := by
  have one : ∃ f : Vector Nat 131 → CounterBank → CounterBank × Bool, ∀ s : State, s.count c =
      { s with
        counters := (f s.settings s.counters).1
        events := if (f s.settings s.counters).2 then s.events.set .counterLimit else s.events } := by
    refine ⟨fun w b =>
      ({ b with live := b.live.set c.index (raisedCounter (w[(20 : Fin 131)] = 1) b.live[c.index]).1 },
        (raisedCounter (w[(20 : Fin 131)] = 1) b.live[c.index]).2), fun s => ?_⟩
    unfold State.count
    dsimp only
    by_cases h : (raisedCounter (decide (s.setting 20 = 1)) s.counters.live[c.index]).2 = true
    · have h' : (raisedCounter (decide (s.settings[(20 : Fin 131)] = 1)) s.counters.live[c.index]).2 = true := h
      rw [if_pos h, if_pos h']; rfl
    · have h' : ¬ (raisedCounter (decide (s.settings[(20 : Fin 131)] = 1)) s.counters.live[c.index]).2 = true := h
      rw [if_neg h, if_neg h']; rfl
  obtain ⟨g, hg⟩ := one
  induction n with
  | zero => exact ⟨fun _ b => (b, false), fun s => rfl⟩
  | succ n ih =>
    obtain ⟨f, hf⟩ := ih
    refine ⟨fun w b => ((g w (f w b).1).1, (f w b).2 || (g w (f w b).1).2), fun s => ?_⟩
    have both : ∀ (a b : Bool) (e : EventUnit),
        (if b then (if a then e.set .counterLimit else e).set .counterLimit
          else if a then e.set .counterLimit else e) = if a || b then e.set .counterLimit else e := by
      intro a b e
      cases a <;> cases b <;> simp [EventUnit.set, BitVec.or_assoc]
    rw [State.countTimes, hg, hf]
    dsimp only
    rw [both]

theorem State.countTimes_add (s : State) (c : Counter) (m n : Nat) :
    s.countTimes c (m + n) = (s.countTimes c m).countTimes c n := by
  induction n with
  | zero => rfl
  | succ n ih => rw [← Nat.add_assoc, State.countTimes, ih]; rfl

/-! ### Notice of many circuits -/

/-- A circuit after notice of it with an expected current and a tolerance (R149). -/
def Circuit.renoticed (x : Circuit) (e tol : Nat) : Circuit :=
  if e = x.expected then x else { x with expected := e, streak := 0, candidate := none, tol := tol }

theorem State.notice_eq (s : State) (k : Fin 8) :
    s.notice k = s.setCircuit k ((s.circuit k).renoticed (s.expectedCurrent k) (s.tolerance k (s.expectedCurrent k))) := by
  unfold State.notice Circuit.renoticed
  dsimp only
  split
  · rw [State.setCircuit_self]
  · rfl

/-- Notice of several circuits: each of them takes notice once, and nothing else changes (R14, R149). -/
theorem State.notices_eq (s : State) (l : List (Fin 8)) (hl : l.Nodup) :
    l.foldl State.notice s =
      { s with
        lcm :=
          { s.lcm with
            circuits := Vector.ofFn fun k =>
              if k ∈ l then s.lcm.circuits[k].renoticed (s.expectedCurrent k) (s.tolerance k (s.expectedCurrent k))
              else s.lcm.circuits[k] } } := by
  have all : ∀ (l : List (Fin 8)) (u : State), l.Nodup → (∀ k, u.expectedCurrent k = s.expectedCurrent k) →
      (∀ k e, u.tolerance k e = s.tolerance k e) →
      l.foldl State.notice u =
        { u with
          lcm :=
            { u.lcm with
              circuits := Vector.ofFn fun k =>
                if k ∈ l then u.lcm.circuits[k].renoticed (s.expectedCurrent k) (s.tolerance k (s.expectedCurrent k))
                else u.lcm.circuits[k] } } := by
    intro l
    induction l with
    | nil => intro u _ _ _; simp
    | cons a l ih =>
      intro u hn he ht
      have hn' := List.nodup_cons.1 hn
      rw [List.foldl_cons, State.notice_eq, ih (u.setCircuit a _) hn'.2 (fun k => he k) fun k e => ht k e, he, ht]
      unfold State.setCircuit State.circuit
      dsimp only
      congr 2
      apply Vector.ext
      intro i hi
      simp only [Vector.getElem_ofFn]
      by_cases hia : a.val = i
      · subst hia
        have : (⟨a.val, hi⟩ : Fin 8) = a := rfl
        simp [hn'.1, this]
      · have hne : (⟨i, hi⟩ : Fin 8) ≠ a := fun e => hia (by rw [← e])
        simp only [List.mem_cons, hne, false_or]
        simp [Vector.getElem_set_ne _ _ hia]
  exact all l s hl (fun _ => rfl) fun _ _ => rfl

/-! ### Expected currents -/

/-- The expected current of a circuit over some records, of units not among some handles (R149). -/
def currentOf (records : List (Fin 256 × Record)) (gone : Fin 8 → Bool) (k : Fin 8) : Nat :=
  min 4095 (((records.filter fun p => p.2.feed = .circuit k && p.2.state ≠ .pending &&
    !gone p.2.key.handle).map fun p => p.2.nominal).sum)

theorem State.expectedCurrent_eq (s : State) (k : Fin 8) : s.expectedCurrent k = currentOf s.records s.leaving k := rfl

theorem State.expectedSound_iff (s : State) :
    s.expectedSound ↔ ∀ k : Fin 8, s.lcm.circuits[k].expected = s.expectedCurrent k := by
  unfold State.expectedSound State.expectedCurrent State.counted
  have : ∀ p : Fin 256 × Record, (!s.leaving p.2.key.handle) =
      decide (s.dir.entries[p.2.key.handle].state ≠ .leaving) := by
    intro p; unfold State.leaving State.entry; simp
  simp only [this]

theorem currentOf_le {rs : List (Fin 256 × Record)} {A B : Fin 8 → Bool}
    (h : ∀ p ∈ rs, A p.2.key.handle = true → B p.2.key.handle = true) (k : Fin 8) :
    currentOf rs B k ≤ currentOf rs A k := by
  unfold currentOf
  refine min_le_min_left _ ?_
  induction rs with
  | nil => simp
  | cons p rs ih =>
    have ih' := ih fun q hq => h q (List.mem_cons_of_mem _ hq)
    have hp := h p List.mem_cons_self
    by_cases h1 : (decide (p.2.feed = .circuit k) && decide (p.2.state ≠ .pending)) = true
    · cases hA : A p.2.key.handle <;> cases hB : B p.2.key.handle <;> (simp_all; try omega)
    · simp only [Bool.not_eq_true] at h1
      simp only [List.filter_cons, h1, Bool.false_and, Bool.false_eq_true, if_false]
      exact ih'

theorem currentOf_congr {rs : List (Fin 256 × Record)} {A B : Fin 8 → Bool} (k : Fin 8)
    (h : ∀ p ∈ rs, p.2.feed = .circuit k → p.2.state ≠ .pending → A p.2.key.handle = B p.2.key.handle) :
    currentOf rs A k = currentOf rs B k := by
  unfold currentOf
  congr 3
  refine List.filter_congr fun p hp => ?_
  by_cases h1 : p.2.feed = .circuit k
  · by_cases h2 : p.2.state = .pending
    · simp [h2]
    · rw [h p hp h1 h2]
  · simp [h1]

theorem State.expectedCurrent_congr {s t : State} (k : Fin 8) (hr : t.records = s.records)
    (h : ∀ p ∈ s.records, p.2.feed = .circuit k → p.2.state ≠ .pending →
      t.leaving p.2.key.handle = s.leaving p.2.key.handle) : t.expectedCurrent k = s.expectedCurrent k := by
  rw [State.expectedCurrent_eq, State.expectedCurrent_eq, hr]
  exact currentOf_congr k h

/-! ### One unit leaves -/

/-- Two states are equal when their fields are. -/
theorem State.eq_of_fields {s t : State} (h1 : s.now = t.now) (h2 : s.settings = t.settings)
    (h3 : s.loader = t.loader) (h4 : s.table = t.table) (h5 : s.store = t.store) (h6 : s.dir = t.dir)
    (h7 : s.line = t.line) (h8 : s.rcu = t.rcu) (h9 : s.ee = t.ee) (h10 : s.workList = t.workList) (h11 : s.ou = t.ou)
    (h12 : s.lcm = t.lcm) (h13 : s.port = t.port) (h14 : s.events = t.events) (h15 : s.counters = t.counters)
    (h16 : s.pending = t.pending) : s = t := by
  cases s; cases t; simp_all

/-- The purge of one handle's items (R124). -/
theorem State.purgeItems_eq (s : State) (h : Fin 8) : s.purgeItems h = s.purged (· = h) := by
  have : itemOf h = WorkEntry.ofHandles (· = h) := by
    funext w; cases w <;> rfl
  unfold State.purgeItems State.purged
  rw [this]

theorem State.withdraw_slot (s : State) (h : Fin 8) :
    (s.withdraw h).line.slot =
      (match s.line.slot with
      | some x =>
        if x.about (· = h) then (if x.attempt = .held then none else some { x with withdrawn := true }) else some x
      | none => none) ∧
    (s.withdraw h).line = { s.line with slot := (s.withdraw h).line.slot } := by
  refine ⟨?_, ?_⟩
  rotate_left
  · unfold State.withdraw
    cases s.line.slot with
    | none => rfl
    | some x =>
      by_cases hg : x.subject = some h
      · simp only [if_pos hg]
        by_cases ha : x.attempt = .held
        · simp only [if_pos ha]
        · simp only [if_neg ha]
      · simp only [if_neg hg]
  unfold State.withdraw Transaction.about
  rcases hs : s.line.slot with _ | x
  · exact hs
  · rcases hx : x.subject with _ | g
    · simp [hs, hx]
    · by_cases hg : g = h
      · by_cases ha : x.attempt = .held <;> simp [hx, hg, ha]
      · simp [hs, hx, hg]

theorem State.withdraw_note (s : State) (h : Fin 8) :
    (s.withdraw h).ou = { s.ou with note := (s.withdraw h).ou.note } ∧
    (s.withdraw h).ou.note =
      (match s.line.slot with
      | some x => if x.about (· = h) ∧ x.attempt = .held ∧ x.requester = .ou then none else s.ou.note
      | none => s.ou.note) := by
  unfold State.withdraw Transaction.about
  rcases hs : s.line.slot with _ | x
  · simp
  · rcases hx : x.subject with _ | g
    · simp [hx]
    · by_cases hg : g = h
      · by_cases ha : x.attempt = .held <;> by_cases hr : x.requester = .ou <;> simp [hx, hg, ha, hr]
      · simp [hx, hg]

theorem State.abandon_ee (s : State) (h : Fin 8) :
    (s.abandon h).ee =
      match s.ee with
      | some c =>
        if c.handle = h then
          some { c with abandoned := true, classification := if c.pendingKey = none then none else c.classification }
        else some c
      | none => none := by
  unfold State.abandon Context.abandon
  rcases hs : s.ee with _ | c
  · simp [hs]
  · by_cases hc : c.handle = h
    · simp only [hc, if_true]
      cases c.pendingKey <;> simp
    · simp [hs, hc]

/-- The drained test of an entry that has just left (R64). -/
theorem State.freeIfDrained_leave (s : State) (h : Fin 8) (hl : s.dir.entries[h].state = .leaving) :
    (s.freeIfDrained h).dir = { s.dir with
      entries :=
        if s.dir.entries[h].recordCount = 0 ∧ s.dir.entries[h].charge = 0 then s.dir.entries.set h Entry.empty
        else s.dir.entries } ∧
    (s.freeIfDrained h).events =
      if s.dir.entries[h].recordCount = 0 ∧ s.dir.entries[h].charge = 0 then
        { s.events.set .unitLeft with leftMask := s.events.leftMask ||| bitMask 8 h.val }
      else s.events := by
  have h1 : (s.entry h).state = .leaving := hl
  unfold State.freeIfDrained
  dsimp only
  by_cases hd : s.dir.entries[h].recordCount = 0 ∧ s.dir.entries[h].charge = 0
  · have hd' : (s.entry h).state = .leaving ∧ (s.entry h).recordCount = 0 ∧ (s.entry h).charge = 0 := ⟨hl, hd⟩
    rw [if_pos hd', if_pos hd, if_pos hd]
    exact ⟨rfl, rfl⟩
  · have hd' : ¬ ((s.entry h).state = .leaving ∧ (s.entry h).recordCount = 0 ∧ (s.entry h).charge = 0) :=
      fun e => hd e.2
    rw [if_neg hd', if_neg hd, if_neg hd]
    exact ⟨rfl, rfl⟩

/-- The circuits that feed an ACTIVE or HELD record of a unit (R14). -/
theorem State.mem_circuitsOf (s : State) (h k : Fin 8) :
    k ∈ s.circuitsOf h ↔ ∃ p ∈ s.records, p.2.key.handle = h ∧ p.2.feed = .circuit k ∧ p.2.state ≠ .pending := by
  unfold State.circuitsOf
  rw [List.mem_filter]
  simp only [mem_all8, true_and, List.any_eq_true, Bool.and_eq_true, decide_eq_true_eq, and_assoc]

/-- The state of one unit's entry into LEAVING, before the drained test (R61, R86, R122, R124). -/
def State.leftBehind (s : State) (h : Fin 8) : State :=
  let s1 : State :=
    { s with
      dir := s.dir.leave h
      ou := { s.ou with queue := s.ou.queue.filter fun k => k.handle ≠ h } }
  ((s1.withdraw h).abandon h).purgeItems h

theorem State.leaveOne_eq (s : State) (h : Fin 8) (h1 : s.dir.entries[h].state ≠ .free)
    (h2 : s.dir.entries[h].state ≠ .leaving) :
    s.leaveOne h = ((s.circuitsOf h).foldl State.notice (s.leftBehind h)).freeIfDrained h := by
  have : ¬ ((s.entry h).state = .free ∨ (s.entry h).state = .leaving) := fun e => e.elim h1 h2
  unfold State.leaveOne State.leftBehind
  dsimp only
  rw [if_neg this]

theorem Directory.leave_leaving (d : Directory) (g x : Fin 8) :
    decide ((d.leave g).entries[x].state = .leaving) =
      (decide (d.entries[x].state = .leaving) || decide (x = g)) := by
  by_cases hq : x = g
  · subst hq; simp [Directory.leave, Entry.leave]
  · have : (d.leave g).entries[x] = d.entries[x] :=
      Vector.getElem_set_ne g.isLt x.isLt fun hh => hq (Fin.ext hh.symm)
    rw [this]; simp [hq]

/-- Everything that one unit's entry into LEAVING does, field by field. -/
theorem State.leaveOne_fields (t : State) (g : Fin 8) (h1 : t.dir.entries[g].state ≠ .free)
    (h2 : t.dir.entries[g].state ≠ .leaving) :
    let e := t.dir.entries[g]
    let freed : Prop := e.recordCount = 0 ∧ e.charge = 0
    let p := t.purged (· = g)
    t.leaveOne g = { t with
      dir :=
        { entries := t.dir.entries.set g (if freed then Entry.empty else e.leave)
          releaseList := t.dir.releaseList
          reseat := match t.dir.reseat with | some r => if r.handle = g then none else some r | none => none }
      line :=
        { t.line with
          slot :=
            match t.line.slot with
            | some x =>
              if x.about (· = g) then (if x.attempt = .held then none else some { x with withdrawn := true })
              else some x
            | none => none }
      ee :=
        match t.ee with
        | some c =>
          if c.handle = g then
            some { c with abandoned := true, classification := if c.pendingKey = none then none else c.classification }
          else some c
        | none => none
      workList := p.workList
      ou :=
        { t.ou with
          queue := t.ou.queue.filter fun k => k.handle ≠ g
          note :=
            match t.line.slot with
            | some x => if x.about (· = g) ∧ x.attempt = .held ∧ x.requester = .ou then none else t.ou.note
            | none => t.ou.note }
      lcm :=
        { t.lcm with
          circuits := Vector.ofFn fun k =>
            if k ∈ t.circuitsOf g then
              let e := currentOf t.records (fun x => t.leaving x || x = g) k
              t.lcm.circuits[k].renoticed e (t.tolerance k e)
            else t.lcm.circuits[k] }
      events :=
        if freed then { p.events.set .unitLeft with leftMask := p.events.leftMask ||| bitMask 8 g.val } else p.events
      counters := p.counters } := by
  intro e freed p
  let s1 : State :=
    { t with
      dir := t.dir.leave g
      ou := { t.ou with queue := t.ou.queue.filter fun k => k.handle ≠ g } }
  let s2 := (s1.withdraw g).abandon g
  obtain ⟨f, hf⟩ := State.countTimes_spec .itemsUnknown (t.workList.filter (·.ofHandles (· = g))).length
  have hp : p = _ := hf { t with workList := t.workList.filter fun w => !w.ofHandles (· = g) }
  have hw2 : s2.workList = t.workList := by simp [s2, s1]
  have hu : t.leftBehind g = s2.purged (· = g) := by
    unfold State.leftBehind
    exact State.purgeItems_eq _ _
  have hu' : t.leftBehind g = { s2 with
      workList := p.workList
      counters := p.counters
      events := if (f t.settings t.counters).2 then s2.events.set .counterLimit else s2.events } := by
    rw [hu, hp]
    unfold State.purged
    rw [hw2, hf]
    refine State.eq_of_fields ?_ ?_ ?_ ?_ ?_ ?_ ?_ ?_ ?_ ?_ ?_ ?_ ?_ ?_ ?_ ?_ <;> simp [s2, s1]
  have he2 : s2.events = t.events := by simp [s2, s1]
  have hpe : p.events = if (f t.settings t.counters).2 then t.events.set .counterLimit else t.events := by rw [hp]
  have hE : ∀ k, (t.leftBehind g).expectedCurrent k = currentOf t.records (fun x => t.leaving x || x = g) k := by
    intro k
    have hr : (t.leftBehind g).records = t.records := by
      rw [hu']; simp [State.records, s2, s1]
    rw [State.expectedCurrent_eq, hr]
    refine currentOf_congr k fun q _ _ _ => ?_
    have hd : (t.leftBehind g).dir = t.dir.leave g := by rw [hu']; simp [s2, s1]
    have hll : (t.leftBehind g).leaving q.2.key.handle =
        decide ((t.dir.leave g).entries[q.2.key.handle].state = .leaving) := by
      unfold State.leaving State.entry; rw [hd]
    rw [hll]
    unfold State.leaving State.entry
    exact Directory.leave_leaving t.dir g _
  have hT : ∀ k n, (t.leftBehind g).tolerance k n = t.tolerance k n := by
    intro k n
    rw [hu']
    simp [State.tolerance, State.tolpct, State.tolmin, State.setting, s2, s1]
  have hn : (t.circuitsOf g).Nodup := (all8_sorted.imp fun h => ne_of_lt h).filter _
  rw [State.leaveOne_eq t g h1 h2, State.notices_eq _ _ hn]
  simp only [hE, hT]
  rw [hu']
  have hdr := State.freeIfDrained_leave
    { s2 with
      workList := p.workList
      counters := p.counters
      events := if (f t.settings t.counters).2 then s2.events.set .counterLimit else s2.events
      lcm :=
        { s2.lcm with
          circuits := Vector.ofFn fun k =>
            if k ∈ t.circuitsOf g then
              s2.lcm.circuits[k].renoticed (currentOf t.records (fun x => t.leaving x || x = g) k)
                (t.tolerance k (currentOf t.records (fun x => t.leaving x || x = g) k))
            else s2.lcm.circuits[k] } } g
    (by simp [s2, s1, Directory.leave, Entry.leave])
  have hws := State.withdraw_slot s1 g
  have hwn := State.withdraw_note s1 g
  have hae := State.abandon_ee (s1.withdraw g) g
  have hlcm : s2.lcm = t.lcm := by simp [s2, s1]
  refine State.eq_of_fields ?_ ?_ ?_ ?_ ?_ ?_ ?_ ?_ ?_ ?_ ?_ ?_ ?_ ?_ ?_ ?_
  case refine_6 =>
    refine hdr.1.trans ?_
    have hd : s2.dir = t.dir.leave g := by simp [s2, s1]
    simp only [hd]
    have e1 : (t.dir.leave g).entries[g] = e.leave := Vector.getElem_set_self _
    have e2 : (e.leave.recordCount = 0 ∧ e.leave.charge = 0) = freed := rfl
    simp only [e1]
    by_cases hfr : freed
    · rw [if_pos (show e.leave.recordCount = 0 ∧ e.leave.charge = 0 from hfr), if_pos hfr]
      exact (Directory.mk.injEq ..).mpr ⟨by simp only [Directory.leave, Vector.set_set], rfl, rfl⟩
    · rw [if_neg (show ¬ (e.leave.recordCount = 0 ∧ e.leave.charge = 0) from hfr), if_neg hfr]
      rfl
  case refine_14 =>
    refine hdr.2.trans ?_
    have hd : s2.dir = t.dir.leave g := by simp [s2, s1]
    have e1 : (t.dir.leave g).entries[g] = e.leave := Vector.getElem_set_self _
    simp only [hd, e1, he2, ← hpe]
    rfl
  case refine_7 =>
    simp only [State.freeIfDrained_frame]
    have : s2.line = (s1.withdraw g).line := by simp [s2]
    rw [this, hws.2, hws.1]
  case refine_11 =>
    simp only [State.freeIfDrained_frame]
    have : s2.ou = (s1.withdraw g).ou := by simp [s2]
    rw [this, hwn.1, hwn.2]
  case refine_9 =>
    simp only [State.freeIfDrained_frame]
    have : (s1.withdraw g).ee = t.ee := by simp [s1]
    rw [this] at hae
    exact hae
  case refine_12 => simp only [State.freeIfDrained_frame, hlcm]
  all_goals simp [s2, s1]

/-! ### Several units leave -/

theorem WorkEntry.ofHandles_or (A B : Fin 8 → Bool) (w : WorkEntry) :
    w.ofHandles (fun x => A x || B x) = (w.ofHandles A || w.ofHandles B) := by
  cases w <;> rfl

/-- Purging some handles' items and then another's is purging them together (R124). -/
theorem State.purged_or (s t : State) (A : Fin 8 → Bool) (g : Fin 8) (hA : A g = false)
    (hw : t.workList = (s.purged A).workList) (hset : t.settings = s.settings)
    (hc : t.counters = (s.purged A).counters) :
    (t.purged (· = g)).workList = (s.purged fun x => A x || x = g).workList ∧
      (t.purged (· = g)).counters = (s.purged fun x => A x || x = g).counters ∧
      ∃ b : Bool, (t.purged (· = g)).events = (if b then t.events.set .counterLimit else t.events) ∧
        (s.purged fun x => A x || x = g).events =
          if b then (s.purged A).events.set .counterLimit else (s.purged A).events := by
  have hd : ∀ w : WorkEntry, w.ofHandles (· = g) = true → w.ofHandles A = false := by
    intro w; cases w with
    | item it => intro e; have : it.handle = g := by simpa [WorkEntry.ofHandles] using e
                 simp [WorkEntry.ofHandles, this, hA]
    | mark n => intro e; cases e
  have hwl : ∀ (u : State) (B : Fin 8 → Bool), (u.purged B).workList = u.workList.filter fun w => !w.ofHandles B := by
    intro u B; simp [State.purged]
  have hlist : t.workList.filter (·.ofHandles (· = g)) = s.workList.filter (·.ofHandles (· = g)) := by
    rw [hw, hwl, List.filter_filter]
    refine List.filter_congr fun w _ => ?_
    cases hg : w.ofHandles (· = g)
    · rfl
    · rw [hd w hg]; rfl
  have hlen : (s.workList.filter (·.ofHandles fun x => A x || x = g)).length =
      (s.workList.filter (·.ofHandles A)).length + (s.workList.filter (·.ofHandles (· = g))).length := by
    generalize s.workList = l
    induction l with
    | nil => rfl
    | cons w l ih =>
      have ho := WorkEntry.ofHandles_or A (· = g) w
      have hdw := hd w
      simp only [List.filter_cons]
      rw [ho]
      cases ha : w.ofHandles A <;> cases hg : w.ofHandles (· = g) <;> simp_all <;> omega
  obtain ⟨f, hf⟩ := State.countTimes_spec .itemsUnknown (s.workList.filter (·.ofHandles (· = g))).length
  have ht : ∀ u : State, u.workList.filter (·.ofHandles (· = g)) = s.workList.filter (·.ofHandles (· = g)) →
      (u.purged (· = g)).counters = (f u.settings u.counters).1 ∧
      (u.purged (· = g)).events =
        if (f u.settings u.counters).2 then u.events.set .counterLimit else u.events := by
    intro u hu
    unfold State.purged
    rw [hu, hf]
    exact ⟨rfl, rfl⟩
  have hs : (s.purged fun x => A x || x = g).counters = (f s.settings (s.purged A).counters).1 ∧
      (s.purged fun x => A x || x = g).events =
        if (f s.settings (s.purged A).counters).2 then (s.purged A).events.set .counterLimit
        else (s.purged A).events := by
    obtain ⟨f', hf'⟩ := State.countTimes_spec .itemsUnknown (s.workList.filter (·.ofHandles A)).length
    unfold State.purged
    rw [hlen, State.countTimes_add, hf, hf', hf']
    exact ⟨rfl, rfl⟩
  refine ⟨?_, ?_, (f s.settings (s.purged A).counters).2, ?_, hs.2⟩
  · rw [hwl, hwl, hw, hwl, List.filter_filter]
    refine List.filter_congr fun w _ => ?_
    rw [WorkEntry.ofHandles_or, Bool.not_or, Bool.and_comm]
  · rw [(ht t hlist).1, hs.1, hset, hc]
  · rw [(ht t hlist).2, hset, hc]

theorem State.purged_none (s : State) : s.purged (fun _ => false) = s := by
  have h1 : s.workList.filter (fun w => !w.ofHandles fun _ => false) = s.workList :=
    List.filter_eq_self.2 fun w _ => by cases w <;> rfl
  have h2 : s.workList.filter (fun w => w.ofHandles fun _ => false) = [] :=
    List.filter_eq_nil_iff.2 fun w _ => by cases w <;> simp [WorkEntry.ofHandles]
  unfold State.purged
  rw [h1, h2]
  rfl

/-- Nothing leaves. -/
theorem Left.nothing (s : State) : Left s s fun _ => false where
  rest := by
    simp only [State.purged_none]
    have : s.ou.queue.filter (fun _ => !false) = s.ou.queue := List.filter_eq_self.2 fun _ _ => rfl
    rw [this]
  entries g := by rw [if_pos rfl]
  releases := rfl
  reseat := by cases s.dir.reseat <;> rfl
  slot := by
    cases s.line.slot with
    | none => rfl
    | some x => cases hx : x.subject <;> simp [Transaction.about, hx]
  note := by
    cases s.line.slot with
    | none => rfl
    | some x => cases hx : x.subject <;> simp [Transaction.about, hx]
  context := by cases s.ee <;> rfl
  events := by
    simp only [State.purged_none, Bool.false_and, Bool.or_false]
    simp
  circuits := by
    refine ⟨rfl, rfl, fun he _ k => ?_⟩
    rw [if_pos ((State.expectedSound_iff s).1 he k).symm]

theorem Transaction.about_or (x : Transaction) (A B : Fin 8 → Bool) :
    x.about (fun g => A g || B g) = (x.about A || x.about B) := by
  unfold Transaction.about; cases x.subject <;> rfl

theorem handles_or {A : Fin 8 → Bool} {g : Fin 8} (x : Fin 8) :
    ((fun x => A x || decide (x = g)) x = true) ↔ A x = true ∨ x = g := by simp

theorem or_flags (x f l m : BitVec 13) (hf : f = m ∨ f = 0) : x ||| f ||| l ||| m = x ||| l ||| m := by
  apply BitVec.eq_of_getLsbD_eq
  intro i _
  simp only [BitVec.getLsbD_or]
  rcases hf with rfl | rfl
  · cases x.getLsbD i <;> cases f.getLsbD i <;> cases l.getLsbD i <;> rfl
  · simp

theorem or_right_comm (x f l : BitVec 13) : x ||| f ||| l = x ||| l ||| f := by
  rw [BitVec.or_assoc, BitVec.or_assoc, BitVec.or_comm f l]

/-- The unit of a record has a record count above 0 (R52). -/
theorem State.countsSound.pos {s : State} (hc : s.countsSound) {p : Fin 256 × Record} (hp : p ∈ s.records)
    {x : Fin 8} (hx : p.2.key.handle = x) : s.dir.entries[x].recordCount ≠ 0 := by
  rw [(hc x).1]
  have hm : p ∈ s.records.filter fun q => q.2.key.handle = x := List.mem_filter.2 ⟨hp, by simpa using hx⟩
  intro h0
  rw [List.length_eq_zero_iff.1 h0] at hm
  cases hm

theorem State.leaving_eq (s : State) (x : Fin 8) : s.leaving x = decide (s.dir.entries[x].state = .leaving) := rfl

/-- With units gone already, one more leaves: together they have left (R61). -/
theorem Left.step {s t : State} {A : Fin 8 → Bool} {g : Fin 8} (h : Left s t A) (hA : A g = false)
    (h1 : s.dir.entries[g].state ≠ .free) (h2 : s.dir.entries[g].state ≠ .leaving) :
    Left s (t.leaveOne g) fun x => A x || x = g := by
  have hg : t.dir.entries[g] = s.dir.entries[g] := by rw [h.entries g, if_pos hA]
  have hrest := h.rest
  have hnow : t.now = s.now := by rw [hrest]
  have hset : t.settings = s.settings := by rw [hrest]
  have htab : t.table = s.table := by rw [hrest]
  have hwl : t.workList = (s.purged A).workList := by rw [hrest]
  have hcn : t.counters = (s.purged A).counters := by rw [hrest]
  have hou : t.ou = { s.ou with queue := s.ou.queue.filter fun k => !A k.handle, note := t.ou.note } := by rw [hrest]
  have hln : t.line = { s.line with slot := t.line.slot } := by rw [hrest]
  have hrec : t.records = s.records := by unfold State.records; rw [htab]
  obtain ⟨hw', hc', b, hb1, hb2⟩ := State.purged_or s t A g hA hwl hset hcn
  have hf := State.leaveOne_fields t g (by rw [hg]; exact h1) (by rw [hg]; exact h2)
  dsimp only at hf
  rw [hf]
  refine
    { rest := ?_, entries := ?_, releases := h.releases, reseat := ?_, slot := ?_, note := ?_, context := ?_,
      events := ?_, circuits := ?_ }
  · -- rest
    refine State.eq_of_fields hnow hset (by rw [hrest]) htab (by rw [hrest]) rfl ?_ (by rw [hrest]) rfl hw' ?_ rfl
      (by rw [hrest]) rfl hc' (by rw [hrest])
    · dsimp only
      rw [hln]
    · dsimp only
      rw [hou]
      dsimp only
      rw [List.filter_filter]
      congr 1
      refine List.filter_congr fun k _ => ?_
      by_cases hk : k.handle = g <;> simp [hk]
  · -- entries
    intro x
    dsimp only
    by_cases hx : x = g
    · subst hx
      refine (Vector.getElem_set_self _).trans ?_
      rw [hg, if_neg (show ¬ (A x || decide (x = x)) = false by simp)]
      rfl
    · refine (Vector.getElem_set_ne g.isLt x.isLt fun e => hx (Fin.ext e.symm)).trans ?_
      refine (h.entries x).trans ?_
      have : (A x || decide (x = g)) = A x := by simp [hx]
      rw [this]
  · -- reseat
    dsimp only
    rw [h.reseat]
    rcases s.dir.reseat with _ | r
    · rfl
    · dsimp only
      cases hAr : A r.handle
      · by_cases hr : r.handle = g <;> simp [hr]
      · simp
  · -- slot
    dsimp only
    rw [h.slot]
    rcases s.line.slot with _ | x
    · rfl
    · dsimp only
      rw [Transaction.about_or]
      cases hxA : x.about A
      · simp
      · by_cases ha : x.attempt = .held
        · simp [ha]
        · have hag : ∀ y : Transaction, y.subject = x.subject → y.about (· = g) = false := by
            intro y hy
            unfold Transaction.about at hxA ⊢
            rw [hy]
            cases hsub : x.subject with
            | none => rfl
            | some q =>
              rw [hsub] at hxA
              have : q ≠ g := fun e => by
                subst e
                simp only [Option.any_some] at hxA
                rw [hA] at hxA
                cases hxA
              simpa using this
          simp [ha, hag]
  · -- note
    dsimp only
    rw [h.slot, h.note]
    rcases s.line.slot with _ | x
    · rfl
    · dsimp only
      rw [Transaction.about_or]
      cases hxA : x.about A
      · simp
      · by_cases ha : x.attempt = .held
        · by_cases hr : x.requester = .ou <;> simp [ha, hr]
        · simp [ha]
  · -- context
    dsimp only
    rw [h.context]
    rcases s.ee with _ | c
    · rfl
    · dsimp only
      cases hcA : A c.handle
      · by_cases hcg : c.handle = g <;> simp [hcg]
      · have : c.handle ≠ g := fun e => by rw [e, hA] at hcA; cases hcA
        simp [this]
  · -- events
    obtain ⟨he1, he2, he3⟩ := h.events
    dsimp only at he1 he2 he3 ⊢
    rw [hg, hb1, hb2]
    have hother : t.events.enables = (s.purged A).events.enables ∧ t.events.joinMask = (s.purged A).events.joinMask ∧
        t.events.circuitMask = (s.purged A).events.circuitMask := by
      rw [he1]; exact ⟨rfl, rfl, rfl⟩
    obtain ⟨ho1, ho2, ho3⟩ := hother
    have hset2 : ∀ (e : EventUnit) (b : Bool) (f : EventFlag),
        (if b then e.set f else e) = { e with flags := e.flags ||| if b then bitMask 13 f.bit else 0 } := by
      intro e b f; cases b
      · simp
      · rfl
    rw [hset2, hset2]
    have hbit : ∀ (m : Byte) (x : Fin 8), (m ||| bitMask 8 g.val).getLsbD x.val = (m.getLsbD x.val || decide (x = g)) := by
      intro m x
      rw [BitVec.getLsbD_or, bitMask_getLsbD 8 g.val x.val g.isLt]
      simp [Fin.ext_iff]
    by_cases hfr : s.dir.entries[g].recordCount = 0 ∧ s.dir.entries[g].charge = 0
    · rw [if_pos hfr]
      have hex : ∃ x, ((A x || decide (x = g)) && decide (s.dir.entries[x].recordCount = 0) &&
          decide (s.dir.entries[x].charge = 0)) = true := ⟨g, by simp only [hfr.1, hfr.2]; simp⟩
      rw [if_pos hex]
      refine ⟨by simp [EventUnit.set, ho1, ho2, ho3], ?_, fun x => ?_⟩
      · simp only [EventUnit.set, he2]
        exact or_flags _ _ _ _ (by split <;> simp [bitMask, EventFlag.bit])
      · refine (hbit _ x).trans ?_
        rw [he3 x]
        by_cases hx : x = g
        · subst hx; simp only [hfr.1, hfr.2]; simp
        · simp [hx]
    · rw [if_neg hfr]
      have hx' : ∀ x, ((A x || decide (x = g)) && decide (s.dir.entries[x].recordCount = 0) &&
          decide (s.dir.entries[x].charge = 0)) = (A x && decide (s.dir.entries[x].recordCount = 0) &&
          decide (s.dir.entries[x].charge = 0)) := by
        intro x
        by_cases hx : x = g
        · subst hx
          have : (decide (s.dir.entries[x].recordCount = 0) && decide (s.dir.entries[x].charge = 0)) = false := by
            simpa using hfr
          rw [Bool.and_assoc, Bool.and_assoc, this, Bool.and_false, Bool.and_false]
        · simp [hx]
      simp only [hx']
      refine ⟨by simp [ho1, ho2, ho3], ?_, he3⟩
      simp only [he2]
      exact or_right_comm _ _ _
  · -- circuits
    obtain ⟨hb, hn, hcs⟩ := h.circuits
    refine ⟨hb, hn, fun he hc k => ?_⟩
    have hck := hcs he hc k
    have hek := (State.expectedSound_iff s).1 he k
    have hEt : t.expectedCurrent k = currentOf s.records t.leaving k := by rw [State.expectedCurrent_eq, hrec]
    -- what remains counted after this unit has left, FREE or LEAVING
    have hE' : ∀ v : State, v.records = s.records → (∀ x, x ≠ g → v.leaving x = t.leaving x) →
        (s.dir.entries[g].recordCount ≠ 0 → v.leaving g = true) →
        v.expectedCurrent k = currentOf s.records (fun x => t.leaving x || x = g) k := by
      intro v hv1 hv2 hv3
      rw [State.expectedCurrent_eq, hv1]
      refine currentOf_congr k fun p hp _ _ => ?_
      by_cases hpg : p.2.key.handle = g
      · rw [hpg, hv3 (hc.pos hp hpg)]; simp
      · rw [hv2 _ hpg]; simp [hpg]
    have hle1 : currentOf s.records (fun x => t.leaving x || x = g) k ≤ currentOf s.records t.leaving k :=
      currentOf_le (fun p _ hp => by simp [hp]) k
    have hle2 : currentOf s.records t.leaving k ≤ s.expectedCurrent k := by
      rw [State.expectedCurrent_eq]
      refine currentOf_le (fun p hpr hp => ?_) k
      obtain ⟨x, hx⟩ : ∃ x, p.2.key.handle = x := ⟨_, rfl⟩
      rw [hx, State.leaving_eq, decide_eq_true_eq] at hp ⊢
      rw [h.entries x]
      split
      · exact hp
      · rw [if_neg fun e => hc.pos hpr hx e.1]
    have hstep : ∀ v : State, v.expectedCurrent k = currentOf s.records (fun x => t.leaving x || decide (x = g)) k →
        (v.lcm.circuits[k] =
          if k ∈ t.circuitsOf g then
            t.lcm.circuits[k].renoticed (currentOf t.records (fun x => t.leaving x || decide (x = g)) k)
              (t.tolerance k (currentOf t.records (fun x => t.leaving x || decide (x = g)) k))
          else t.lcm.circuits[k]) →
        v.lcm.circuits[k] =
          if v.expectedCurrent k = s.lcm.circuits[k].expected then s.lcm.circuits[k]
          else
            { s.lcm.circuits[k] with
              expected := v.expectedCurrent k
              streak := 0
              candidate := none
              tol := max (v.expectedCurrent k * s.tolpct k / 100) (s.tolmin k) } := by
      intro v h3 h4
      have htol : ∀ e, t.tolerance k e = max (e * s.tolpct k / 100) (s.tolmin k) := by
        intro e
        unfold State.tolerance State.tolpct State.tolmin State.setting
        rw [hset]
      rw [h4, h3, hrec]
      rw [← hEt] at hle1 hle2
      rw [hek] at hck ⊢
      by_cases hk : k ∈ t.circuitsOf g
      · rw [if_pos hk]
        unfold Circuit.renoticed
        rw [htol]
        by_cases ht : t.expectedCurrent k = s.expectedCurrent k
        · rw [if_pos ht] at hck
          rw [hck, hek]
        · rw [if_neg ht] at hck
          have hne : currentOf s.records (fun x => t.leaving x || decide (x = g)) k ≠ s.expectedCurrent k := by omega
          rw [if_neg hne, hck]
          dsimp only
          by_cases he' : currentOf s.records (fun x => t.leaving x || decide (x = g)) k = t.expectedCurrent k
          · rw [if_pos he', he']
          · rw [if_neg he']
      · rw [if_neg hk, hck]
        have : currentOf s.records (fun x => t.leaving x || decide (x = g)) k = t.expectedCurrent k := by
          rw [hEt]
          refine currentOf_congr k fun p hp h3 h4 => ?_
          by_cases hpg : p.2.key.handle = g
          · exact absurd ((State.mem_circuitsOf t g k).2 ⟨p, by rw [hrec]; exact hp, hpg, h3, h4⟩) hk
          · simp [hpg]
        rw [this]
    refine hstep _ (hE' _ hrec (fun x hx => ?_) fun hr => ?_) ?_
    · exact congrArg (fun e : Entry => decide (e.state = .leaving))
          (Vector.getElem_set_ne g.isLt x.isLt fun e => hx (Fin.ext e.symm))
    · rw [State.leaving_eq, decide_eq_true_eq]
      refine (congrArg Entry.state (Vector.getElem_set_self _)).trans ?_
      rw [hg, if_neg fun e => hr e.1]
      rfl
    · exact Vector.getElem_ofFn _

/-- Several units that are neither FREE nor LEAVING leave, one after another, in one event (R61). -/
theorem Left.all (s : State) (l : List (Fin 8)) (hn : l.Nodup)
    (hl : ∀ g ∈ l, s.dir.entries[g].state ≠ .free ∧ s.dir.entries[g].state ≠ .leaving) :
    Left s (l.foldl State.leaveOne s) fun x => decide (x ∈ l) := by
  have gen : ∀ (l : List (Fin 8)) (t : State) (A : Fin 8 → Bool), Left s t A → l.Nodup → (∀ g ∈ l, A g = false) →
      (∀ g ∈ l, s.dir.entries[g].state ≠ .free ∧ s.dir.entries[g].state ≠ .leaving) →
      Left s (l.foldl State.leaveOne t) fun x => A x || decide (x ∈ l) := by
    intro l
    induction l with
    | nil => intro t A h _ _ _; simpa using h
    | cons g l ih =>
      intro t A h hn hA hl
      have hn' := List.nodup_cons.1 hn
      have hg := hl g List.mem_cons_self
      have := ih (t.leaveOne g) _ (h.step (hA g List.mem_cons_self) hg.1 hg.2) hn'.2
        (fun x hx => by
          have : x ≠ g := fun e => hn'.1 (e ▸ hx)
          simp [hA x (List.mem_cons_of_mem _ hx), this])
        fun x hx => hl x (List.mem_cons_of_mem _ hx)
      have e : (fun x => A x || decide (x ∈ g :: l)) = fun x => A x || decide (x = g) || decide (x ∈ l) := by
        funext x; simp [Bool.or_assoc]
      rw [List.foldl_cons, e]
      exact this
  have := gen l s (fun _ => false) (Left.nothing s) hn (fun _ _ => rfl) hl
  simpa using this

/-! ### Departures -/

/-- Those that leave with a departing entry (R62). -/
theorem State.mem_departing (s : State) (h x : Fin 8) (h1 : s.dir.entries[h].state ≠ .free)
    (h2 : s.dir.entries[h].state ≠ .leaving) : (decide (x ∈ s.departing h)) = s.cascade h x := by
  have hE : ∀ x : Fin 8, s.dir.entries[x] = s.entry x := fun _ => rfl
  unfold State.departing State.cascade
  simp only [hE] at h1 h2 ⊢
  have hon : (s.entry h).state.onChain = true ↔ (s.entry h).state ≠ .declared := by
    cases hs : (s.entry h).state <;> simp_all [UnitState.onChain]
  by_cases hc : (s.entry h).state.onChain = true
  · rw [if_pos hc]
    have hd := hon.1 hc
    by_cases hx : x = h
    · simp [hx]
    · unfold State.behind
      cases hp : (s.entry h).position with
      | none => simp [hx]
      | some p => cases hq : (s.entry x).position <;> simp [hx, hq, hd, mem_all8, List.mem_filter]
  · rw [if_neg hc]
    have hd : (s.entry h).state = .declared := by
      by_contra hne; exact hc (hon.2 hne)
    simp [hd]

theorem State.departing_nodup (s : State) (h : Fin 8) : (s.departing h).Nodup := by
  have hb : (s.behind h).Nodup := by
    unfold State.behind
    split
    · exact List.nodup_nil
    · exact List.Nodup.filter _ (all8_sorted.imp fun h => ne_of_lt h)
  unfold State.departing
  split
  · refine List.nodup_cons.2 ⟨fun hm => ?_, hb.filter _⟩
    simpa using (List.mem_filter.1 hm).2
  · exact List.nodup_singleton _

theorem State.departing_stay (s : State) (h : Fin 8) (h1 : s.dir.entries[h].state ≠ .free)
    (h2 : s.dir.entries[h].state ≠ .leaving) (g : Fin 8) (hg : g ∈ s.departing h) :
    s.dir.entries[g].state ≠ .free ∧ s.dir.entries[g].state ≠ .leaving := by
  have := s.mem_departing h g h1 h2
  rw [decide_eq_true hg] at this
  unfold State.cascade at this
  by_cases hgh : g = h
  · subst hgh; exact ⟨h1, h2⟩
  · rw [decide_eq_false hgh, Bool.false_or] at this
    have h3 := (Bool.and_eq_true _ _).mp this.symm
    have h4 := (Bool.and_eq_true _ _).mp h3.1
    have h5 := (Bool.and_eq_true _ _).mp h4.1
    exact ⟨of_decide_eq_true h5.2, of_decide_eq_true h4.2⟩

/-- The departure of a unit and those behind it (R61, R62). -/
theorem State.departing_left (s : State) (h : Fin 8) (h1 : s.dir.entries[h].state ≠ .free)
    (h2 : s.dir.entries[h].state ≠ .leaving) :
    Left s ((s.departing h).foldl State.leaveOne s) (s.cascade h) := by
  have := Left.all s (s.departing h) (s.departing_nodup h) (s.departing_stay h h1 h2)
  rwa [funext fun x => s.mem_departing h x h1 h2] at this

/-- A departure for which no RELEASE is owed (R54, R100). -/
theorem State.depart_cascaded (s : State) (h : Fin 8) (h1 : s.dir.entries[h].state ≠ .free)
    (h2 : s.dir.entries[h].state ≠ .leaving) : s.cascadedTo (s.depart h true false) h := by
  refine ⟨_, s.departing_left h h1 h2, ?_⟩
  unfold State.depart
  simp only [if_true, Bool.false_eq_true, if_false]
  rw [State.settleAbandoned_eq]
  congr 1
  unfold State.owe oweRelease
  simp

/-- A departure with owed RELEASEs (R63, R113). -/
theorem State.depart_released (s : State) (h : Fin 8) (h1 : s.dir.entries[h].state ≠ .free)
    (h2 : s.dir.entries[h].state ≠ .leaving) : s.releasedTo (s.depart h true true) h := by
  have hl := s.departing_left h h1 h2
  refine ⟨_, (s.owedPositions (s.departing h)).filter fun p => !s.dir.releaseList.contains p, hl, ⟨?_, fun p => ?_⟩, ?_⟩
  · unfold State.owedPositions
    exact ((by decide : [6, 5, 4, 3, 2, 1].Pairwise (· > ·)).filter _).filter _
  · unfold State.owedPositions
    simp only [List.mem_filter, List.any_eq_true, Bool.and_eq_true, decide_eq_true_eq, Bool.not_eq_true',
      List.contains_eq_mem, decide_eq_false_iff_not]
    constructor
    · rintro ⟨⟨hp, g, hg, h3, h4⟩, h5⟩
      have hc : s.cascade h g = true := by rw [← s.mem_departing h g h1 h2]; exact decide_eq_true hg
      simp only [List.mem_cons, List.not_mem_nil, or_false] at hp
      exact ⟨by omega, by omega, h5, g, hc, h3, h4⟩
    · rintro ⟨h3, h4, h5, g, hg, h6, h7⟩
      have hm : g ∈ s.departing h := by
        rw [← s.mem_departing h g h1 h2] at hg; exact of_decide_eq_true hg
      refine ⟨⟨?_, g, hm, h6, h7⟩, h5⟩
      simp only [List.mem_cons, List.not_mem_nil, or_false]
      omega
  · unfold State.depart
    simp only [if_true]
    rw [State.settleAbandoned_eq]
    congr 1
    unfold State.owe oweRelease
    rw [hl.releases]

/-- A JOINING entry is freed when its ASSIGN has failed (R57, R109). -/
theorem State.freeJoining_eq (s : State) (h : Fin 8) : s.freeJoining h = s.joiningFreed h := by
  unfold State.freeJoining State.joiningFreed
  rw [State.endContext_eq, State.purgeItems_eq]
  rfl

end Sys2Proof.Machine
end

