-- ==== Sys2Proof/Laws/Memory.lean ====
section
/-! SUPPORT. The bytes of the Extension Store: a read after a write, what a drawn block reads as, and that every
operation keeps the canonical form. -/

namespace Sys2Proof.Machine

/-- An address below every listed one reads as the unlisted byte. -/
theorem Memory.read_of_lt {m : Memory} {x : Nat} (h : ∀ c ∈ m, x < c.1) : Memory.read m x = 0 := by
  induction m with
  | nil => rfl
  | cons c m ih =>
    obtain ⟨a, b⟩ := c
    have ha : x < a := h (a, b) (by simp)
    simp only [Memory.read, if_neg (Nat.ne_of_gt ha)]
    exact ih fun c hc => h c (by simp [hc])

/-- The canonical form of the rest of a list of cells. -/
theorem Memory.wf_tail {c : Host.Cell} {m : Memory} (h : Memory.wf (c :: m)) : Memory.wf m :=
  ⟨(List.pairwise_cons.mp h.1).2, fun d hd => h.2 d (by simp [hd])⟩

/-- What a written list may hold: the cell written, and the cells it had. -/
theorem Memory.mem_write {m : Memory} {x : Nat} {v : Byte} {c : Host.Cell} (h : c ∈ Memory.write m x v) :
    (c = (x, v) ∧ v ≠ 0) ∨ c ∈ m := by
  induction m with
  | nil =>
    simp only [Memory.write] at h
    split at h
    · simp at h
    · exact .inl ⟨by simpa using h, by assumption⟩
  | cons d m ih =>
    obtain ⟨a, b⟩ := d
    simp only [Memory.write] at h
    split at h
    · split at h
      · exact .inr (by simp [h])
      · rcases List.mem_cons.mp h with h | h
        · exact .inl ⟨h, by assumption⟩
        · exact .inr (by simp [h])
    · split at h
      · split at h
        · exact .inr h
        · rcases List.mem_cons.mp h with h | h
          · exact .inl ⟨h, by assumption⟩
          · exact .inr h
      · rcases List.mem_cons.mp h with h | h
        · exact .inr (by simp [h])
        · rcases ih h with h | h
          · exact .inl h
          · exact .inr (by simp [h])

/-- A write within the store keeps the canonical form. -/
theorem Memory.wf_write {m : Memory} (h : Memory.wf m) {x : Nat} (hx : x < 16384) (v : Byte) :
    Memory.wf (Memory.write m x v) := by
  refine ⟨?_, fun c hc => ?_⟩
  · induction m with
    | nil => simp only [Memory.write]; split <;> simp
    | cons d m ih =>
      obtain ⟨a, b⟩ := d
      have hp := List.pairwise_cons.mp h.1
      simp only [Memory.write]
      split
      · split
        · exact hp.2
        · rename_i hax _
          exact List.pairwise_cons.mpr ⟨fun c hc => by simpa [hax] using hp.1 c hc, hp.2⟩
      · split
        · split
          · exact h.1
          · rename_i hlt _
            refine List.pairwise_cons.mpr ⟨fun c hc => ?_, h.1⟩
            rcases List.mem_cons.mp hc with rfl | hc
            · exact hlt
            · exact Nat.lt_trans hlt (hp.1 c hc)
        · rename_i hne hnl
          refine List.pairwise_cons.mpr ⟨fun c hc => ?_, ih (Memory.wf_tail h)⟩
          rcases Memory.mem_write hc with ⟨rfl, _⟩ | hc
          · show a < x
            omega
          · exact hp.1 c hc
  · rcases Memory.mem_write hc with ⟨rfl, hv⟩ | hc
    · exact ⟨hx, hv⟩
    · exact h.2 c hc

/-- A byte reads back as it was written, and every other byte as before. -/
theorem Memory.read_write {m : Memory} (h : Memory.wf m) (x y : Nat) (v : Byte) :
    Memory.read (Memory.write m x v) y = if y = x then v else Memory.read m y := by
  have hone : ∀ l : Memory, Memory.read ((x, v) :: l) y = if y = x then v else Memory.read l y := fun l => by
    by_cases hy : y = x
    · simp [Memory.read, hy]
    · simp [Memory.read, hy, Ne.symm hy]
  induction m with
  | nil =>
    by_cases hv : v = 0
    · subst hv
      simp [Memory.write, Memory.read]
    · simp only [Memory.write, if_neg hv, hone]
  | cons d m ih =>
    obtain ⟨a, b⟩ := d
    have hp := List.pairwise_cons.mp h.1
    simp only [Memory.write]
    by_cases hax : a = x
    · subst hax
      by_cases hv : v = 0
      · subst hv
        by_cases hy : y = a
        · subst hy
          simp [Memory.read_of_lt hp.1]
        · simp [hy, Memory.read, Ne.symm hy]
      · rw [if_pos rfl, if_neg hv, hone]
        by_cases hy : y = a
        · simp [hy]
        · simp [hy, Memory.read, Ne.symm hy]
    · rw [if_neg hax]
      by_cases hlt : x < a
      · rw [if_pos hlt]
        by_cases hv : v = 0
        · subst hv
          by_cases hy : y = x
          · subst hy
            have hr : Memory.read m y = 0 := Memory.read_of_lt fun c hc => Nat.lt_trans hlt (hp.1 c hc)
            simp [Memory.read, hax, hr]
          · simp [hy]
        · rw [if_neg hv, hone]
      · simp only [hlt, if_false, Memory.read, ih (Memory.wf_tail h)]
        by_cases hya : a = y
        · subst hya
          simp [hax]
        · simp [hya]

/-- Zeroing a block keeps the canonical form. -/
theorem Memory.wf_clearBlock {m : Memory} (h : Memory.wf m) (b : Fin 512) : Memory.wf (m.clearBlock b) :=
  ⟨h.1.filter _, fun c hc => h.2 c (List.mem_of_mem_filter hc)⟩

/-- After a block has been zeroed its bytes read as 0x00, and every other byte as before. -/
theorem Memory.read_clearBlock {m : Memory} (h : Memory.wf m) (b : Fin 512) (y : Nat) :
    Memory.read (m.clearBlock b) y = if y / 32 = b.val then 0 else Memory.read m y := by
  induction m with
  | nil => simp [Memory.clearBlock, Memory.read]
  | cons d m ih =>
    obtain ⟨a, v⟩ := d
    have hp := List.pairwise_cons.mp h.1
    have ih := ih (Memory.wf_tail h)
    by_cases hab : a / 32 = b.val
    · have hc : Memory.clearBlock ((a, v) :: m) b = Memory.clearBlock m b := by simp [Memory.clearBlock, hab]
      rw [hc, ih]
      by_cases hy : y / 32 = b.val
      · simp [hy]
      · have : a ≠ y := fun e => hy (e ▸ hab)
        simp [hy, Memory.read, this]
    · have hc : Memory.clearBlock ((a, v) :: m) b = (a, v) :: Memory.clearBlock m b := by
        simp [Memory.clearBlock, hab]
      rw [hc]
      by_cases hay : a = y
      · subst hay
        simp [Memory.read, hab]
      · simp [Memory.read, hay, ih]

/-- Every byte of an extension lies within the store. -/
theorem extAddress_lt (chain : List (Fin 512)) (i : Nat) : extAddress chain i < 16384 := by
  have := (chain.getD (i / 32) 0).isLt
  simp only [extAddress]
  omega

/-- Writing extension bytes keeps the canonical form. -/
theorem Store.wf_writeBytes {st : Store} (h : Memory.wf st.mem) (chain : List (Fin 512)) (offset : Nat)
    (bs : List Byte) : Memory.wf (st.writeBytes chain offset bs).mem := by
  induction bs generalizing st offset with
  | nil => exact h
  | cons b bs ih => exact ih (Memory.wf_write h (extAddress_lt chain offset) b) (offset + 1)

/-- Writing extension bytes moves no block. -/
@[simp] theorem Store.writeBytes_free (st : Store) (chain : List (Fin 512)) (offset : Nat) (bs : List Byte) :
    (st.writeBytes chain offset bs).free = st.free := by
  induction bs generalizing st offset with
  | nil => rfl
  | cons b bs ih => simp [Store.writeBytes, ih]

/-- A draw keeps the canonical form. -/
theorem Store.wf_draw {st : Store} (h : Memory.wf st.mem) (n : Nat) : Memory.wf (st.draw n).mem := by
  have hf : ∀ (l : List (Fin 512)) (m : Memory), Memory.wf m → Memory.wf (l.foldl Memory.clearBlock m) := by
    intro l
    induction l with
    | nil => exact fun _ hm => hm
    | cons b l ih => exact fun m hm => ih _ (Memory.wf_clearBlock hm b)
  exact hf _ _ h

/-- A return leaves the contents as they are. -/
@[simp] theorem Store.giveBack_mem (st : Store) (chain : List (Fin 512)) : (st.giveBack chain).mem = st.mem := rfl

/-- The memory of the reset state is in canonical form. -/
theorem reset_memory_wf : Memory.wf State.reset.store.mem := ⟨.nil, fun _ h => nomatch h⟩

end Sys2Proof.Machine
end

