-- ==== Sys2Proof/Laws/Endings.lean ====
section
/-! SUPPORT. What the end of a transaction does, in the terms of Safety.lean: classification, the answer to a DESCQ and
to an EXTQ, and what each requester does with each outcome. -/

namespace Sys2Proof.Machine

/-! ### Classification -/

theorem foldl_max_spec (l : List Nat) (a : Nat) :
    (l.foldl max a = a ∨ l.foldl max a ∈ l) ∧ a ≤ l.foldl max a ∧ ∀ x ∈ l, x ≤ l.foldl max a := by
  induction l generalizing a with
  | nil => simp
  | cons b l ih =>
    obtain ⟨h1, h2, h3⟩ := ih (max a b)
    refine ⟨?_, by simp only [List.foldl_cons]; omega, fun x hx => ?_⟩
    · simp only [List.foldl_cons, List.mem_cons]
      rcases h1 with h1 | h1
      · rcases le_total a b with hab | hab
        · right; left; rw [h1]; omega
        · left; rw [h1]; omega
      · exact Or.inr (Or.inr h1)
    · simp only [List.foldl_cons]
      rcases List.mem_cons.1 hx with rfl | hx
      · omega
      · exact h3 x hx

theorem foldl_min_spec (l : List Nat) (a : Nat) :
    (l.foldl min a = a ∨ l.foldl min a ∈ l) ∧ l.foldl min a ≤ a ∧ ∀ x ∈ l, l.foldl min a ≤ x := by
  induction l generalizing a with
  | nil => simp
  | cons b l ih =>
    obtain ⟨h1, h2, h3⟩ := ih (min a b)
    refine ⟨?_, by simp only [List.foldl_cons]; omega, fun x hx => ?_⟩
    · simp only [List.foldl_cons, List.mem_cons]
      rcases h1 with h1 | h1
      · rcases le_total a b with hab | hab
        · left; rw [h1]; omega
        · right; left; rw [h1]; omega
      · exact Or.inr (Or.inr h1)
    · simp only [List.foldl_cons]
      rcases List.mem_cons.1 hx with rfl | hx
      · omega
      · exact h3 x hx

/-- What a classification is (R43 to R46). -/
theorem State.classify_classified (s : State) (cls : BitVec 6) (flags : DescFlags) :
    s.classified cls flags (s.classify cls flags) := by
  have hm : ∀ f : Fin 8, s.filterMatches f cls flags = true ↔
      (s.filterField f 0 = 1 ∧
        cls &&& BitVec.ofNat 6 (s.filterField f 2) = BitVec.ofNat 6 (s.filterField f 1) &&& BitVec.ofNat 6 (s.filterField f 2) ∧
        flags &&& BitVec.ofNat 4 (s.filterField f 4) =
          BitVec.ofNat 4 (s.filterField f 3) &&& BitVec.ofNat 4 (s.filterField f 4)) := by
    intro f
    unfold State.filterMatches
    simp only [Bool.and_eq_true, decide_eq_true_eq, and_assoc]
  have hmem : ∀ f : Fin 8, f ∈ (all8.filter fun f => s.filterMatches f cls flags) ↔ s.filterMatches f cls flags = true := by
    intro f; simp [mem_all8]
  unfold State.classified
  intro field floor hit
  have hhit : ∀ f, hit f ↔ f ∈ (all8.filter fun f => s.filterMatches f cls flags) := fun f => ((hmem f).trans (hm f)).symm
  unfold State.classify
  cases hl : all8.filter fun f => s.filterMatches f cls flags with
  | nil =>
    rw [hl] at hhit
    refine ⟨fun _ => rfl, fun ⟨f, hf⟩ => ?_⟩
    exact absurd ((hhit f).1 hf) (List.not_mem_nil)
  | cons a l =>
    rw [hl] at hhit
    refine ⟨fun hn => absurd ((hhit a).2 List.mem_cons_self) (hn a), fun _ => ⟨?_, ?_, ?_⟩⟩
    · obtain ⟨h1, h2, h3⟩ := foldl_max_spec (l.map fun g => s.filterField g 5) (s.filterField a 5)
      have hall : ∀ g, hit g → s.filterField g 5 ≤ (l.map fun g => s.filterField g 5).foldl max (s.filterField a 5) := by
        intro g hg
        rcases List.mem_cons.1 ((hhit g).1 hg) with rfl | hg
        · exact h2
        · exact h3 _ (List.mem_map.2 ⟨g, hg, rfl⟩)
      rcases h1 with h1 | h1
      · exact ⟨a, (hhit a).2 List.mem_cons_self, congrArg policyOf h1, fun g hg => le_of_le_of_eq (hall g hg) h1⟩
      · obtain ⟨f, hf, hf'⟩ := List.mem_map.1 h1
        exact ⟨f, (hhit f).2 (List.mem_cons_of_mem _ hf), congrArg policyOf hf'.symm,
          fun g hg => le_of_le_of_eq (hall g hg) hf'.symm⟩
    · obtain ⟨h1, h2, h3⟩ := foldl_min_spec (l.map fun g => s.filterField g 6) (s.filterField a 6)
      have hall : ∀ g, hit g → (l.map fun g => s.filterField g 6).foldl min (s.filterField a 6) ≤ s.filterField g 6 := by
        intro g hg
        rcases List.mem_cons.1 ((hhit g).1 hg) with rfl | hg
        · exact h2
        · exact h3 _ (List.mem_map.2 ⟨g, hg, rfl⟩)
      rcases h1 with h1 | h1
      · exact ⟨a, (hhit a).2 List.mem_cons_self, congrArg (max (s.setting 15)) h1, fun g hg => le_of_eq_of_le h1.symm (hall g hg)⟩
      · obtain ⟨f, hf, hf'⟩ := List.mem_map.1 h1
        exact ⟨f, (hhit f).2 (List.mem_cons_of_mem _ hf), congrArg (max (s.setting 15)) hf'.symm,
          fun g hg => le_of_eq_of_le hf' (hall g hg)⟩
    · simp only [List.any_eq_true, decide_eq_true_eq]
      exact ⟨fun ⟨f, hf, hf'⟩ => ⟨f, (hhit f).2 hf, hf'⟩, fun ⟨f, hf, hf'⟩ => ⟨f, (hhit f).1 hf, hf'⟩⟩

/-! ### The answers of a DESCQ and an EXTQ -/

theorem Feed.ofCode_iff (b : Byte) (f : Feed) : Feed.ofCode b = some f ↔ f.code = b := by
  constructor
  · unfold Feed.ofCode
    split
    · intro h
      obtain rfl := Option.some.inj h
      simp [Feed.code, byte, BitVec.ofNat_toNat]
    · split
      · rename_i h; intro e; obtain rfl := Option.some.inj e; exact h.symm
      · split
        · rename_i h; intro e; obtain rfl := Option.some.inj e; exact h.symm
        · exact fun e => nomatch e
  · rintro rfl
    cases f with
    | circuit k => revert k; decide
    | node => rfl
    | none => rfl

/-- The answer to a DESCQ (R112 to R114). -/
theorem State.descq_answered (s : State) (c : Context) (payload : List Byte)
    (h1 : s.dir.entries[c.handle].state ≠ .free) (h2 : s.dir.entries[c.handle].state ≠ .leaving) :
    s.descriptorRead (s.descqEnded c (.answered payload)) c payload := by
  rintro j i cls inst fl fd m1 m0 x1 x0 hj rfl
  intro inRange
  have hread : ∀ f, inRange f → readDescriptor j [i, cls, inst, fl, fd, m1, m0, x1, x0] =
      some ⟨cls.truncate 6, inst.truncate 7, fl.truncate 4, f, min 1023 (ofBytes m1 m0).toNat,
        min 256 (ofBytes x1 x0).toNat⟩ := by
    rintro f ⟨e1, e2, e3, e4, e5⟩
    unfold readDescriptor
    dsimp only
    rw [if_pos ⟨e1, e2, e3, e4⟩, (Feed.ofCode_iff fd f).2 e5]
    rfl
  have hnone : (∀ f, ¬ inRange f) → readDescriptor j [i, cls, inst, fl, fd, m1, m0, x1, x0] = none := by
    intro hn
    unfold readDescriptor
    dsimp only
    split
    · rename_i e
      cases hf : Feed.ofCode fd with
      | none => rfl
      | some f => exact absurd ⟨e.1, e.2.1, e.2.2.1, e.2.2.2, (Feed.ofCode_iff fd f).1 hf⟩ (hn f)
    · rfl
  have hidx : c.index.getD 0 = j := by rw [hj]; rfl
  refine ⟨fun f hf => ?_, fun hn => ?_⟩
  · refine ⟨s.classify (cls.truncate 6) (fl.truncate 4), s.classify_classified _ _, ?_⟩
    unfold State.descqEnded
    dsimp only
    rw [hidx, hread f hf]
    unfold State.takeDescriptor
    dsimp only
    by_cases hp : (s.classify (cls.truncate 6) (fl.truncate 4)).policy = .refuse
    · rw [if_pos hp, if_pos hp]; rfl
    · rw [if_neg hp, if_neg hp]; rfl
  · unfold State.descqEnded
    dsimp only
    rw [hidx, hnone hn]
    exact s.depart_released c.handle h1 h2

/-- Bytes written one after another into the chain from a place on read back as they were written, and every other byte
as before (R32, R35). -/
theorem Store.read_writeBytes {st : Store} (h : Memory.wf st.mem) (chain : List (Fin 512)) (seg o : Nat)
    (bs : List Byte) (hl : o + bs.length ≤ 32) (a : Nat) :
    Memory.read (st.writeBytes chain (32 * seg + o) bs).mem a =
      if a / 32 = (chain.getD seg 0).val ∧ o ≤ a % 32 ∧ a % 32 < o + bs.length then bs.getD (a % 32 - o) 0
      else Memory.read st.mem a := by
  induction bs generalizing st o with
  | nil =>
    rw [if_neg (by simp only [List.length_nil]; omega)]
    rfl
  | cons b bs ih =>
    simp only [List.length_cons] at hl
    have hx : extAddress chain (32 * seg + o) = (chain.getD seg 0).val * 32 + o := by
      unfold extAddress
      rw [show (32 * seg + o) / 32 = seg by omega, show (32 * seg + o) % 32 = o by omega]
    unfold Store.writeBytes
    have := ih (st := { st with mem := Memory.write st.mem (extAddress chain (32 * seg + o)) b })
      (Memory.wf_write h (extAddress_lt _ _) b) (o + 1) (by omega)
    rw [show 32 * seg + (o + 1) = 32 * seg + o + 1 by omega] at this
    rw [this]
    dsimp only
    rw [Memory.read_write h, hx]
    simp only [List.length_cons]
    by_cases hb : a / 32 = (chain.getD seg 0).val
    · by_cases h0 : a % 32 = o
      · rw [if_neg (by omega), if_pos (by omega), if_pos (by omega), h0, Nat.sub_self]; rfl
      · by_cases h1 : o + 1 ≤ a % 32 ∧ a % 32 < o + 1 + bs.length
        · rw [if_pos ⟨hb, h1⟩, if_pos (by omega), show a % 32 - o = (a % 32 - (o + 1)) + 1 by omega]; rfl
        · rw [if_neg (by omega), if_neg (by omega), if_neg (by omega)]
    · rw [if_neg (by omega), if_neg (by omega), if_neg (by omega)]

/-- The answer to an EXTQ for a record that is still there (R35, R116). -/
theorem State.extq_answered (s : State) (c : Context) (payload : List Byte) (hk : c.pendingKey ≠ none) :
    s.segmentTaken (s.extqEnded c (.answered payload)) c payload := by
  rintro i seg data d j rfl hl hd hj hw
  have hidx : c.index.getD 0 = j := by rw [hj]; rfl
  unfold State.extqEnded
  rw [if_neg (fun e : Ending.answered (i :: seg :: data) = .withdrawn => nomatch e), if_neg hk]
  dsimp only
  rw [hidx]
  by_cases hm : i.toNat = j.toNat ∧ seg.toNat = c.nextSegment
  · rw [if_pos hm, if_pos hm]
    unfold State.takeSegment State.withContext
    dsimp only
    rw [hd]
    dsimp only
    refine ⟨rfl, Store.writeBytes_free _ _ _ _, fun a _ => ?_⟩
    have h := Store.read_writeBytes hw c.held c.nextSegment 0 (segmentBytes d.extLength c.nextSegment data)
      (by unfold segmentBytes; rw [List.length_take]; omega) a
    rw [Nat.add_zero] at h
    rw [h]
    have hlen : (segmentBytes d.extLength c.nextSegment data).length = min 32 (d.extLength - 32 * c.nextSegment) := by
      unfold segmentBytes; rw [List.length_take]; omega
    rw [hlen, Nat.sub_zero]
    by_cases hb : a / 32 = (c.held.getD c.nextSegment 0).val ∧ 32 * c.nextSegment + a % 32 < d.extLength
    · have hlt : a % 32 < min 32 (d.extLength - 32 * c.nextSegment) := by omega
      rw [if_pos (by omega), if_pos hb]
      unfold segmentBytes
      rw [List.getD_eq_getElem?_getD, List.getElem?_take_of_lt hlt, List.getD_eq_getElem?_getD]
    · rw [if_neg (by omega), if_neg hb]
  · rw [if_neg hm, if_neg hm]
    rfl

/-! ### What each requester does with each outcome -/

theorem UnitState.onChain_ne {u : UnitState} (h : u.onChain = true) : u ≠ .free ∧ u ≠ .leaving := by
  cases u <;> simp_all [UnitState.onChain]

/-- The end of a transaction of the Enrolment Engine's context. -/
theorem State.eeEnded_told (s : State) (kind : HeadKind) (o : Ending) (c : Context) (hc : s.ee = some c)
    (ho : s.dir.entries[c.handle].state.onChain = true ∨ o = .withdrawn) : s.contextTold (s.eeEnded kind o) kind o c := by
  have hw : ∀ k, s.eeEnded k .withdrawn = s.settledContext := by
    intro k
    unfold State.eeEnded
    rw [hc]
    cases k <;>
      simp [State.assignEnded, State.descqEnded, State.extqEnded, State.verdictEnded, State.settleAbandoned_eq]
  have hx : c.pendingKey = none → ∀ o, o ≠ .withdrawn → s.extqEnded c o = s.nextTaken c.handle := by
    intro hk o ho
    unfold State.extqEnded
    rw [if_neg ho, if_pos hk, State.nextDescriptor_eq s c hc]
  have hstop : c.pendingKey ≠ none → ∀ o, o = .declined ∨ o = .failed →
      s.extqEnded c o = { s with ee := some { c with withheld := true, phase := .concluding } } := by
    rintro hk o (rfl | rfl)
    all_goals
      unfold State.extqEnded
      rw [if_neg (by intro e; cases e), if_neg hk]
      rfl
  have hfin : ∀ i, c.index = some i → s.finishDescriptor c = (s.indexGone c.handle i).nextTaken c.handle :=
    fun i hi => State.finishDescriptor_eq s c i hc hi
  have hee : ∀ kind o, s.eeEnded kind o =
      match kind with
      | .assign => s.assignEnded c o
      | .descq => s.descqEnded c o
      | .extq => s.extqEnded c o
      | _ => s.verdictEnded c o := by
    intro kind o
    cases kind <;> simp only [State.eeEnded, hc]
  have hass : ∀ p, s.assignEnded c (.answered p) = _ := fun p => State.nextDescriptor_eq
    ({ s with
      dir :=
        { s.dir with
          entries := s.dir.entries.set c.handle
            { s.dir.entries[c.handle] with
              state := .enrolling
              pendingSet := firstIndices s.dir.entries[c.handle].descriptorCount } } } : State) c hc
  unfold State.contextTold
  cases o with
  | withdrawn => cases kind <;> exact hw _
  | answered payload =>
    have hon := UnitState.onChain_ne (ho.resolve_right fun e => nomatch e)
    rw [hee]
    cases kind with
    | assign => exact hass payload
    | descq => exact s.descq_answered c payload hon.1 hon.2
    | extq =>
      dsimp only
      by_cases hk : c.pendingKey = none
      · rw [if_pos hk]; exact hx hk _ fun e => nomatch e
      · rw [if_neg hk]; exact s.extq_answered c payload hk
    | _ => exact hfin
  | declined =>
    rw [hee]
    cases kind with
    | assign => exact s.freeJoining_eq c.handle
    | descq => exact hfin
    | extq =>
      dsimp only
      by_cases hk : c.pendingKey = none
      · rw [if_pos hk]; exact hx hk _ fun e => nomatch e
      · rw [if_neg hk]; exact hstop hk _ (Or.inl rfl)
    | _ => exact hfin
  | failed =>
    have hon := UnitState.onChain_ne (ho.resolve_right fun e => nomatch e)
    rw [hee]
    cases kind with
    | assign => exact s.freeJoining_eq c.handle
    | descq => exact s.depart_released c.handle hon.1 hon.2
    | extq =>
      dsimp only
      by_cases hk : c.pendingKey = none
      · rw [if_pos hk]; exact hx hk _ fun e => nomatch e
      · rw [if_neg hk]; exact hstop hk _ (Or.inr rfl)
    | _ => exact hfin

/-- The end of a transaction: the slot is empty and its requester has its outcome, WITHDRAWN for one whose subject has
left (R83 to R86). -/
theorem State.endTransaction_told (s : State) (x : Transaction) (o : Ending) :
    ({ s with line := { s.line with slot := none } } : State).toldTo (s.endTransaction x o) x
      (if x.withdrawn then .withdrawn else o) := by
  unfold State.toldTo State.endTransaction
  dsimp only
  generalize (if x.withdrawn = true then Ending.withdrawn else o) = o'
  cases hr : x.requester with
  | ee => exact fun c hc ho => State.eeEnded_told _ _ _ c hc ho
  | ou =>
    unfold State.ouEnded
    dsimp only
    cases hn : s.ou.note with
    | none => rfl
    | some n => cases o' <;> cases hg : n.gone <;> simp [InFlight.ended, hg]
  | ud =>
    dsimp only
    unfold State.udEnded
    by_cases hk : x.request.kind = .release
    · rw [if_pos hk, if_pos hk]
    · rw [if_neg hk, if_neg hk]
      unfold State.reseatEnded
      by_cases hw : o' = .withdrawn
      · subst hw
        rw [if_pos rfl]
        cases s.dir.reseat <;> rfl
      · rw [if_neg hw]
        intro r hr' hon
        dsimp only at hr' hon ⊢
        rw [hr']
        cases o' with
        | withdrawn => exact absurd rfl hw
        | answered p =>
          dsimp only
          rw [if_pos (by exact hon)]
          rfl
        | declined => rfl
        | failed => rfl

end Sys2Proof.Machine
end

