-- ==== Sys2Proof/Laws/Receiving.lean ====
section
/-! SUPPORT. What becomes of a good frame, in the terms of Safety.lean: its bytes read back as its fields, and the state
in which it is placed. -/

namespace Sys2Proof.Machine

theorem ofBytes_hi_lo (w : Word) : ofBytes (hiByte w) (loByte w) = w := by
  apply BitVec.eq_of_getLsbD_eq
  intro i hi
  simp only [ofBytes, hiByte, loByte, BitVec.getLsbD_append, BitVec.getLsbD_extractLsb']
  by_cases h : i < 8
  · simp [h]
  · simp [h, show i - 8 < 8 by omega, show 8 + (i - 8) = i by omega]

/-- The frame that `frameBytes` spells is sound and reads back as its fields (R68 to R71, R184). -/
theorem frameBytes_read {kind hop position : Nat} {fromNode : Bool} {payload : List Byte} (h0 : 0 < kind)
    (h1 : kind < 15) (h2 : kind ≠ 8) (hh : hop < 8) (hp : position < 8) (hl : payload.length ≤ 36) :
    frameSound (frameBytes kind hop fromNode position payload) = true ∧
      readFrame (frameBytes kind hop fromNode position payload) = ⟨kind, hop, fromNode, position, payload⟩ ∧
      frameSize (frameBytes kind hop fromNode position payload) = payload.length + 5 ∧
      (frameBytes kind hop fromNode position payload).length = payload.length + 5 := by
  have hb : fromNode.toNat ≤ 1 := by cases fromNode <;> decide
  have e0 : (BitVec.ofNat 8 (16 * kind + 2 * hop + fromNode.toNat)).toNat = 16 * kind + 2 * hop + fromNode.toNat := by
    rw [BitVec.toNat_ofNat]; omega
  have e1 : (BitVec.ofNat 8 position).toNat = position := by rw [BitVec.toNat_ofNat]; omega
  have e2 : (BitVec.ofNat 8 payload.length).toNat = payload.length := by rw [BitVec.toNat_ofNat]; omega
  have ec : ∀ c : List Byte, c.length = payload.length + 3 → ∀ w : Word,
      (c ++ [hiByte w, loByte w]).take (payload.length + 3) = c ∧
      (c ++ [hiByte w, loByte w]).getD (payload.length + 3) 0 = hiByte w ∧
      (c ++ [hiByte w, loByte w]).getD (payload.length + 4) 0 = loByte w := by
    intro c hc w
    refine ⟨by rw [← hc, List.take_left'  rfl], ?_, ?_⟩
    · rw [List.getD_eq_getElem?_getD, List.getElem?_append_right (by omega), show payload.length + 3 - c.length = 0 by omega]
      rfl
    · rw [List.getD_eq_getElem?_getD, List.getElem?_append_right (by omega), show payload.length + 4 - c.length = 1 by omega]
      rfl
  have hlen : (frameBytes kind hop fromNode position payload).length = payload.length + 5 := by
    unfold frameBytes; simp
  have g0 : (frameBytes kind hop fromNode position payload).getD 0 0 = BitVec.ofNat 8 (16 * kind + 2 * hop + fromNode.toNat) := rfl
  have g1 : (frameBytes kind hop fromNode position payload).getD 1 0 = BitVec.ofNat 8 position := rfl
  have g2 : (frameBytes kind hop fromNode position payload).getD 2 0 = BitVec.ofNat 8 payload.length := rfl
  have hd : ((frameBytes kind hop fromNode position payload).drop 3).take payload.length = payload := by
    show (payload ++ _).take payload.length = payload
    rw [List.take_left' rfl]
  refine ⟨?_, ?_, ?_, hlen⟩
  · unfold frameSound
    simp only [g0, g1, g2, e0, e1, e2, hlen]
    obtain ⟨c1, c2, c3⟩ := ec (BitVec.ofNat 8 (16 * kind + 2 * hop + fromNode.toNat) :: BitVec.ofNat 8 position ::
      BitVec.ofNat 8 payload.length :: payload) (by simp) (crc16 (BitVec.ofNat 8 (16 * kind + 2 * hop + fromNode.toNat) ::
      BitVec.ofNat 8 position :: BitVec.ofNat 8 payload.length :: payload))
    unfold frameBytes
    dsimp only
    rw [c1, c2, c3, ofBytes_hi_lo]
    have : (16 * kind + 2 * hop + fromNode.toNat) / 16 = kind := by omega
    rw [this]
    simp only [Bool.and_eq_true, decide_eq_true_eq, bne_iff_ne, ne_eq, beq_iff_eq]
    refine ⟨⟨⟨⟨⟨⟨⟨?_, ?_⟩, ?_⟩, ?_⟩, ?_⟩, ?_⟩, ?_⟩, trivial⟩ <;> omega
  · unfold readFrame
    rw [g0, g1, g2, e0, e1, e2, hd]
    congr 1
    · omega
    · omega
    · cases fromNode <;> simp [Bool.toNat] <;> omega
    · omega
  · unfold frameSize
    rw [g2, e2]
    dsimp only
    rw [if_pos hl]

/-- A good frame: it is counted, the polarity follows the sense it came in, and it is placed by its fields (R70, R71,
R73, R75). -/
theorem receive_good {s : State} {rx : Reception} {sent : List Byte} {kind hop position : Nat} {fromNode : Bool}
    {payload : List Byte} (h0 : 0 < kind) (h1 : kind < 15) (h2 : kind ≠ 8) (hh : hop < 8) (hp : position < 8)
    (hl : payload.length ≤ 36) (hc : s.carries rx (frameBytes kind hop fromNode position payload) sent) :
    execReceiveFrame sent s = .next
      ((s.afterGood rx payload.length).placeFrame rx.arrival ⟨kind, hop, fromNode, position, payload⟩) := by
  obtain ⟨hr, hs, hi⟩ := hc
  obtain ⟨b1, b2, b3, b4⟩ := frameBytes_read (fromNode := fromNode) h0 h1 h2 hh hp hl
  have hu : rx.upright sent = frameBytes kind hop fromNode position payload := by
    unfold Reception.upright invertBytes
    rw [hs]
    by_cases h : rx.inverted = true
    · rw [if_pos h, if_pos h, List.map_map]
      conv_rhs => rw [← List.map_id (frameBytes kind hop fromNode position payload)]
      exact List.map_congr_left fun b _ => BitVec.not_not
    · rw [if_neg h, if_neg h]
  have hlen : sent.length = payload.length + 5 := by
    rw [hs, ← b4]; split <;> simp
  have hend : rx.frameEnd sent = rx.arrival + 40 * (payload.length + 5) := by
    unfold Reception.frameEnd; rw [hu, b3, hlen, Nat.min_self]
  have hgood : (s.isGood rx sent) = true := by
    unfold State.isGood
    rw [hu, b1]
    by_cases h : rx.inverted = true
    · rw [h, show s.setting 13 = 1 from hi h]; rfl
    · rw [Bool.eq_false_iff.2 h]; rfl
  unfold execReceiveFrame
  rw [hr]
  dsimp only
  unfold State.frameEnds
  dsimp only
  rw [hgood, if_pos rfl, hu, b2, hend]
  unfold State.goodFrame
  dsimp only
  congr 2
  unfold State.afterGood TrainLine.notePolarity
  simp only [State.count_eq]
  by_cases he : rx.inverted = s.line.txInverted
  · simp [State.stopReceiving, State.advance, he]
    exact ⟨rfl, rfl⟩
  · by_cases hn : s.line.run = 0
    · simp [State.stopReceiving, State.advance, he, hn]
    · simp [State.stopReceiving, State.advance, he, hn, show 1 ≤ s.line.run by omega]
      exact ⟨rfl, rfl⟩

/-- A misplaced or out-of-slot frame (R79). -/
theorem State.strayFrame_eq (s : State) : s.strayFrame = s.afterStray := rfl

/-! ### The state in which a good frame is placed -/

@[simp] theorem State.afterGood_settings (s : State) (rx : Reception) (n : Nat) : (s.afterGood rx n).settings = s.settings := by
  simp [State.afterGood, State.count_eq]
@[simp] theorem State.afterGood_loader (s : State) (rx : Reception) (n : Nat) : (s.afterGood rx n).loader = s.loader := by
  simp [State.afterGood, State.count_eq]
@[simp] theorem State.afterGood_table (s : State) (rx : Reception) (n : Nat) : (s.afterGood rx n).table = s.table := by
  simp [State.afterGood, State.count_eq]
@[simp] theorem State.afterGood_store (s : State) (rx : Reception) (n : Nat) : (s.afterGood rx n).store = s.store := by
  simp [State.afterGood, State.count_eq]
@[simp] theorem State.afterGood_dir (s : State) (rx : Reception) (n : Nat) : (s.afterGood rx n).dir = s.dir := by
  simp [State.afterGood, State.count_eq]
@[simp] theorem State.afterGood_rcu (s : State) (rx : Reception) (n : Nat) : (s.afterGood rx n).rcu = s.rcu := by
  simp [State.afterGood, State.count_eq]
@[simp] theorem State.afterGood_ee (s : State) (rx : Reception) (n : Nat) : (s.afterGood rx n).ee = s.ee := by
  simp [State.afterGood, State.count_eq]
@[simp] theorem State.afterGood_workList (s : State) (rx : Reception) (n : Nat) : (s.afterGood rx n).workList = s.workList := by
  simp [State.afterGood, State.count_eq]
@[simp] theorem State.afterGood_ou (s : State) (rx : Reception) (n : Nat) : (s.afterGood rx n).ou = s.ou := by
  simp [State.afterGood, State.count_eq]
@[simp] theorem State.afterGood_lcm (s : State) (rx : Reception) (n : Nat) : (s.afterGood rx n).lcm = s.lcm := by
  simp [State.afterGood, State.count_eq]
@[simp] theorem State.afterGood_port (s : State) (rx : Reception) (n : Nat) : (s.afterGood rx n).port = s.port := by
  simp [State.afterGood, State.count_eq]
@[simp] theorem State.afterGood_pending (s : State) (rx : Reception) (n : Nat) : (s.afterGood rx n).pending = s.pending := by
  simp [State.afterGood, State.count_eq]

/-! ### Items -/

/-- Raises of two counters may be taken in either order. -/
theorem State.count_comm (s : State) {a b : Counter} (hab : a.index ≠ b.index) :
    (s.count a).count b = (s.count b).count a := by
  have h1 : a.index.val ≠ b.index.val := fun e => hab (Fin.ext e)
  have hor : ∀ (p q : Prop) [Decidable p] [Decidable q] (e : EventUnit),
      (if p then (if q then e.set .counterLimit else e).set .counterLimit
        else if q then e.set .counterLimit else e) =
      (if q then (if p then e.set .counterLimit else e).set .counterLimit
        else if p then e.set .counterLimit else e) := by
    intro p q _ _ e
    by_cases hp : p <;> by_cases hq : q <;> simp [hp, hq]
  simp only [State.count_eq, Fin.getElem_fin, Vector.getElem_set_ne _ _ h1, Vector.getElem_set_ne _ _ h1.symm, hor]
  congr 2
  exact Vector.set_comm _ _ h1

theorem State.count_countTimes (s : State) {a b : Counter} (hab : a.index ≠ b.index) (n : Nat) :
    (s.count a).countTimes b n = (s.countTimes b n).count a := by
  induction n with
  | zero => rfl
  | succ n ih => rw [State.countTimes, State.countTimes, ih, State.count_comm _ hab]

theorem State.countTimes_succ (s : State) (c : Counter) (n : Nat) :
    (s.count c).countTimes c n = s.countTimes c (n + 1) := by
  induction n with
  | zero => rfl
  | succ n ih => rw [State.countTimes, ih]; rfl

theorem ItemKind.ofCode_named (b : Byte) : ItemKind.ofCode b = itemKindNamed b := by
  revert b; decide

theorem itemCount_append (l m : List WorkEntry) : itemCount (l ++ m) = itemCount l + itemCount m := by
  unfold itemCount; rw [List.filter_append, List.length_append]

theorem State.count_workList (s : State) (c : Counter) (l : List WorkEntry) :
    ({ s with workList := l } : State).count c = { s.count c with workList := l } := by
  simp only [State.count_eq]

/-- The offer of a claimed PRESENT's items (R123). -/
theorem State.offer_offered (s : State) (h : Fin 8) (items : List (Byte × Byte × Byte × Word))
    (hc : s.dir.entries[h].state.onChain = true) :
    items.foldl (fun a it => a.offerItem h it) s = s.offered h items := by
  induction items generalizing s with
  | nil =>
    unfold State.offered
    simp [State.countTimes]
  | cons x xs ih =>
    have hne : Counter.itemsLost.index ≠ Counter.itemsUnknown.index := by decide
    have hd : ∀ c, (s.count c).dir = s.dir := by intro c; rw [State.count_eq]
    have hw : ∀ c, (s.count c).workList = s.workList := by intro c; rw [State.count_eq]
    have hk : (xs.filterMap fun x =>
        (itemKindNamed x.1).map fun k => WorkEntry.item ⟨h, k, x.2.1, x.2.2.1, x.2.2.2⟩).length ≤ xs.length :=
      List.length_filterMap_le _ _
    have ho : s.offerItem h x =
        match itemKindNamed x.1 with
        | none => s.count .itemsUnknown
        | some k =>
          if 24 ≤ itemCount s.workList then s.count .itemsLost
          else { s with workList := s.workList ++ [.item ⟨h, k, x.2.1, x.2.2.1, x.2.2.2⟩] } := by
      unfold State.offerItem
      rw [ItemKind.ofCode_named]
      cases itemKindNamed x.1 with
      | none => rfl
      | some k =>
        dsimp only
        rw [if_neg (by show ¬ s.dir.entries[h].state.onChain = false; rw [hc]; decide)]
    rw [List.foldl_cons, ho]
    cases hx : itemKindNamed x.1 with
    | none =>
      dsimp only
      rw [ih _ (by rw [hd]; exact hc)]
      unfold State.offered
      simp only [List.filterMap_cons, hx, Option.map_none, hw, List.length_cons]
      rw [← State.count_workList, State.countTimes_succ]
      congr 2
      omega
    | some k =>
      dsimp only
      by_cases hr : 24 ≤ itemCount s.workList
      · rw [if_pos hr, ih _ (by rw [hd]; exact hc)]
        unfold State.offered
        simp only [List.filterMap_cons, hx, Option.map_some, hw, List.length_cons]
        have h0 : 24 - itemCount s.workList = 0 := by omega
        simp only [h0, List.take_zero, List.append_nil, Nat.sub_zero, Nat.add_sub_add_right]
        rw [← State.count_workList, State.count_countTimes _ hne, State.countTimes_succ]
      · rw [if_neg hr, ih _ (by exact hc)]
        unfold State.offered
        have h1 : itemCount (s.workList ++ [WorkEntry.item ⟨h, k, x.2.1, x.2.2.1, x.2.2.2⟩]) =
            itemCount s.workList + 1 := by rw [itemCount_append]; rfl
        obtain ⟨m, hm⟩ : ∃ m, 24 - itemCount s.workList = m + 1 := ⟨23 - itemCount s.workList, by omega⟩
        simp only [List.filterMap_cons, hx, Option.map_some, h1, List.length_cons, hm,
          show 24 - (itemCount s.workList + 1) = m by omega, List.take_succ_cons, List.append_assoc,
          List.singleton_append, Nat.add_sub_add_right]

/-- The items of a PRESENT under an entry that is not on the chain (R123). -/
theorem State.offer_unknown (s : State) (h : Fin 8) (items : List (Byte × Byte × Byte × Word))
    (hc : s.dir.entries[h].state.onChain = false) :
    items.foldl (fun a it => a.offerItem h it) s = s.countTimes .itemsUnknown items.length := by
  induction items generalizing s with
  | nil => rfl
  | cons x xs ih =>
    have hd : (s.count .itemsUnknown).dir = s.dir := by rw [State.count_eq]
    have ho : s.offerItem h x = s.count .itemsUnknown := by
      unfold State.offerItem
      split
      · rfl
      · rw [if_pos (by exact hc)]
    rw [List.foldl_cons, ho, ih _ (by rw [hd]; exact hc), State.countTimes_succ]
    rfl

/-- The items of a PRESENT payload, five bytes each (R184). -/
theorem presentItems_flatMap (items : List (Byte × Byte × Byte × Word)) :
    presentItems (items.flatMap fun x => [x.1, x.2.1, x.2.2.1, hiByte x.2.2.2, loByte x.2.2.2]) = items := by
  induction items with
  | nil => rfl
  | cons x xs ih =>
    simp only [List.flatMap_cons, List.cons_append, List.nil_append, presentItems, ofBytes_hi_lo, ih]

/-! ### Announces -/

theorem find?_unique {l : List (Fin 8)} {p : Fin 8 → Bool} {g : Fin 8} (hg : g ∈ l) (hp : p g = true)
    (hu : ∀ k, p k = true → k = g) : l.find? p = some g := by
  cases hf : l.find? p with
  | none => exact absurd hp (List.find?_eq_none.1 hf g hg)
  | some k => rw [hu k (List.find?_some hf)]

/-- The directory's judgement of an announce (R54 to R56, R107). -/
theorem State.directoryAnnounce_announced (s : State) (uid : Uid) (n q : Nat) :
    s.announced (s.directoryAnnounce uid n q) uid n q := by
  have hent : ∀ g : Fin 8, s.entry g = s.dir.entries[g] := fun _ => rfl
  have hb : ∀ g : Fin 8, ((s.entry g).state ≠ .free && (s.entry g).uid = some uid) = true ↔
      (s.dir.entries[g].state ≠ .free ∧ s.dir.entries[g].uid = some uid) := by
    intro g; rw [hent]; simp
  have hp : ∀ g : Fin 8, ((s.entry g).state ≠ .free && (s.entry g).position = some q) = true ↔
      (s.dir.entries[g].state ≠ .free ∧ s.dir.entries[g].position = some q) := by
    intro g; rw [hent]; simp
  unfold State.announced
  intro deferred raised bears holds
  refine ⟨fun g hg hu => ?_, fun hn => ?_⟩
  · have he : s.entryOfUid uid = some g :=
      find?_unique (mem_all8 g) ((hb g).2 hg) fun k hk => hu k ((hb k).1 hk)
    unfold State.directoryAnnounce
    rw [he]
    dsimp only
    by_cases hj : s.dir.entries[g].state = .joining ∨ s.dir.entries[g].state = .leaving
    · rw [if_pos hj, if_pos (by exact hj)]; rfl
    · rw [if_neg hj, if_neg (by exact hj)]
      exact ⟨_, s.depart_cascaded g hg.1 fun e => hj (Or.inr e), rfl⟩
  · have he : s.entryOfUid uid = none :=
      List.find?_eq_none.2 fun g _ hg => hn g ((hb g).1 hg)
    intro listed
    unfold State.directoryAnnounce
    rw [he]
    dsimp only
    refine ⟨fun hq => by rw [if_pos hq]; rfl, fun hq g hg hu => ?_, fun hq hnh => ?_⟩
    · have hh : s.holder q = some g :=
        find?_unique (mem_all8 g) ((hp g).2 hg) fun k hk => hu k ((hp k).1 hk)
      rw [if_neg (by omega), hh]
      dsimp only
      by_cases hd : s.dir.entries[g].state = .declared
      · rw [if_pos hd, if_pos (by exact hd)]; rfl
      · rw [if_neg hd, if_neg (by exact hd)]; rfl
    · have hh : s.holder q = none :=
        List.find?_eq_none.2 fun g _ hg => hnh g ((hp g).1 hg)
      rw [if_neg (by omega), hh]
      dsimp only
      have hl : (s.dir.releaseList.contains q ∨ s.reseatTo q) ↔ listed := by
        simp only [listed, List.contains_eq_mem, decide_eq_true_eq]
        refine or_congr Iff.rfl ?_
        unfold State.reseatTo
        cases s.dir.reseat <;> simp
      refine ⟨fun h => ?_, fun h1 h2 => ?_⟩
      · by_cases hls : s.dir.releaseList.contains q ∨ s.reseatTo q
        · rw [if_pos hls]; rfl
        · rw [if_neg hls, if_pos]
          · rfl
          · rcases h with h | h
            · exact absurd (hl.2 h) hls
            · exact Option.isSome_iff_ne_none.2 h
      · rw [if_neg fun h => h1 (hl.1 h), if_neg (by rw [h2]; decide)]
        refine ⟨fun hf => ?_, fun h hh hlow => ?_⟩
        · have : s.lowestFree = none :=
            List.find?_eq_none.2 fun g _ hg => hf g (by simpa [hent] using hg)
          rw [this]; rfl
        · have hlf : s.lowestFree = some h := by
            unfold State.lowestFree
            rw [find_all8]
            exact ⟨by simpa [hent] using hh, fun g hg => by simpa [hent] using hlow g hg⟩
          rw [hlf]
          unfold State.allocate State.startContext State.contextStarted State.setChain State.withContext
          dsimp only
          cases hc : s.rcu.chain <;> simp [chainOnStart, State.setEntry, hc, newContext, State.raise, State.robustness, State.setting] <;>
            first | rfl | (rw [← hc])

end Sys2Proof.Machine
end

