-- ==== Sys2Proof/WellFormed.lean ====
section
/-! DEFINITION. The well-formed commands: those whose operands are of a size that can come to the device. -/

namespace Sys2Proof

/-- The settings image is the 256 bytes of the EEPROM that are read (R182). -/
def imageLengthOk (image : List Byte) : Bool := image.length = 256

/-- A WRITE_EXTENSION payload carries at most 32 data bytes (R40, R185), and the row of the table is the one that bit 0
of the first-part byte names. -/
def writePartOk (isFirst : Bool) (first : Byte) (data : List Byte) : Bool :=
  data.length ≤ 32 && first.getLsbD 0 = isFirst

/-- The head takes at most 41 bytes after a delimiter: three of header, 36 of payload and two of CRC (R70). -/
def receivedLengthOk (n : Nat) : Bool := n ≤ 41

/-- A command whose operands can come to the device. -/
def Instr.wellFormed : Instr → Bool
  | .settingsLoadEnd image => imageLengthOk image
  | .writeExtensionFirstPart _ first _ _ data => writePartOk true first data
  | .writeExtensionPart _ first _ _ data => writePartOk false first data
  | .receiveFrame bytes => receivedLengthOk bytes.length
  | .lineIdleTruncation bytes => receivedLengthOk bytes
  | .reset | .statusPoll .. | .submit .. | .fetch .. | .lookup .. | .readRecord .. | .findNext .. | .admitRecord ..
  | .retire .. | .declareRecord .. | .readExtension .. | .declareUnit .. | .readUnit .. | .releaseUnit ..
  | .resumeUnit .. | .restartChain | .readChain | .setDemand .. | .setCircuit .. | .setOverride .. | .readCircuit ..
  | .readPostedFault | .identify | .readEvents | .clearEvents .. | .writeEnables .. | .snapshotCounters ..
  | .readCounters | .readSetting .. | .writeSetting .. | .transactionPhaseStart | .transactionStart
  | .requestFrameEnd | .answerTimeout | .cycleEnd | .reservationOperation | .conclusionOperation | .valueItem
  | .faultItem | .clearItem | .withdrawnItem | .addedItem | .ageingPass | .refillOperation | .sendOperation
  | .completionOperation | .failureOperation | .drainSweeperRemoval | .attributionOperation | .sample ..
  | .blinkHalfEnd | .flashPhaseEnd .. | .frameArrival .. | .firstByteClocked .. => true

end Sys2Proof
end

