-- ==== Sys2Proof/Tests/Slice0.lean ====
section
/-! SUPPORT. The model's own tests: the smoke test of WellFormed, the worked examples of the spec, and for every statement
with hypotheses a witness that meets them. Expected values come from the spec; each test names its source. -/

namespace Sys2Proof.Tests

open Sys2Proof Sys2Proof.Machine

/- The kernel evaluates most of these tests. One after another they take one thread, where all at once they would take
one each. -/
set_option Elab.async false

/-! ### WellFormed refuses an ill-formed command (R182, R40, R70) -/

theorem test_image_of_255_bytes_refused : (Instr.settingsLoadEnd (List.replicate 255 0)).wellFormed = false := by
  decide +kernel
theorem test_data_of_33_bytes_refused :
    (Instr.writeExtensionFirstPart 0 1 0 0 (List.replicate 33 0)).wellFormed = false := by decide
theorem test_first_part_without_bit_0_refused :
    (Instr.writeExtensionFirstPart 0 0 0 0 []).wellFormed = false := by decide
theorem test_later_part_with_bit_0_refused : (Instr.writeExtensionPart 0 1 0 0 []).wellFormed = false := by decide
theorem test_frame_of_42_bytes_refused : (Instr.receiveFrame (List.replicate 42 0)).wellFormed = false := by decide
theorem test_truncation_at_42_bytes_refused : (Instr.lineIdleTruncation 42).wellFormed = false := by decide
theorem test_whole_image_accepted : (Instr.settingsLoadEnd (List.replicate 256 0)).wellFormed = true := by
  decide +kernel

/-! ### The two cyclic redundancy checks and the settings image -/

/-- R69: the nine bytes 0x31 to 0x39 give 0x29B1, the single byte 0x00 gives 0xE1F0. -/
theorem test_crc16_check_values :
    crc16 [0x31, 0x32, 0x33, 0x34, 0x35, 0x36, 0x37, 0x38, 0x39] = 0x29B1 ∧ crc16 [0x00] = 0xE1F0 := by
  decide +kernel
/-- 1.3 and 1.5: under P = 0x07 the keys of the crowded bucket. -/
theorem test_crc8_crowded_bucket :
    [0x4100, 0x4141, 0x4183, 0x41C2, 0x4084].map (crc8Key 0x07) = [0x4E, 0x8E, 0xCE, 0x0E, 0xCE] := by decide +kernel
/-- 1.3: key 0x4100 is in bucket 14; 12.4: keys 0x0100, 0x1900 and 0x2100 take slots 84, 168 and 236. -/
theorem test_buckets_of_the_worked_keys :
    ((Key.ofPacked 0x4100).bucket 0x07).val = 14 ∧ ((Key.ofPacked 0x0100).bucket 0x07).val * 4 = 84 ∧
      ((Key.ofPacked 0x1900).bucket 0x07).val * 4 = 168 ∧ ((Key.ofPacked 0x2100).bucket 0x07).val * 4 = 236 := by
  decide +kernel
/-- R186: a setting's bytes begin at byte n + 2, and one further for each 2-byte setting before it. -/
theorem test_image_offsets : imageOffset 0 = 2 ∧ imageOffset 7 = 10 ∧ imageOffset 18 = 23 ∧ imageOffset 130 = 135 := by
  decide

/-! ### The states of the tests -/

/-- Reset, with the load ended. -/
def loaded : State := { State.reset with port := { State.reset.port with loading := false } }

/-- A state with a non-posted request in hand. -/
def asks (s : State) (q : Request) : State := { s with port := { s.port with nonPosted := some q } }

/-- A state with a posted request in hand. -/
def posts (s : State) (q : Request) : State := { s with port := { s.port with posted := some q } }

/-- A state with a record in a slot, its unit's entry given. -/
def holding (s : State) (i : Fin 256) (r : Record) (e : Entry) : State :=
  { s with
    table :=
      { s.table with
        slots := s.table.slots.set i (some r)
        enrolledCount := if r.origin = .enrolled then s.table.enrolledCount + 1 else s.table.enrolledCount }
    dir := { s.dir with entries := s.dir.entries.set r.key.handle e } }

/-- A LIVE unit at position 3 with one record. -/
def live : Entry :=
  { Entry.empty with
    state := .live, uid := some 1, position := some 3, credit := 4, descriptorCount := 1, cap := 96, recordCount := 1 }

/-- A DECLARED unit with one record. -/
def declared : Entry := { Entry.empty with state := .declared, cap := 96, recordCount := 1 }

/-- A LEAVING unit with one record. -/
def leaving : Entry := { Entry.empty with state := .leaving, recordCount := 1 }

/-- 1.3: the stop lamp of handle 2, key 0x4100, of 210 cu on circuit 2. -/
def lamp : Record := newRecord (Key.ofPacked 0x4100) .enrolled .active .enrol (some 0) 1 (.circuit 2) 210

/-- The same place's record as a switched function fed NODE. -/
def lock : Record := newRecord (Key.ofPacked 0x4100) .enrolled .active .enrol (some 0) 2 .node 0

/-- The same place's record as a sensor with a report interval of 4. -/
def sensor : Record :=
  { newRecord (Key.ofPacked 0x4100) .enrolled .active .enrol (some 0) 4 .none 0 with interval := some 4 }

/-- The lamp's table, its unit LIVE. -/
def lampState : State := holding loaded 56 lamp live

/-- The lock's table, its unit LIVE. -/
def lockState : State := holding loaded 56 lock live

/-- The sensor's table, its unit LIVE. -/
def sensorState : State := holding loaded 56 sensor live

/-- The lamp PENDING for its unit, ENROLLING with only index 0 pending; the context is given apart. -/
def pendingState : State :=
  holding loaded 56 { lamp with state := .pending } { live with state := .enrolling, pendingSet := 1 }

/-- The work list with one entry. -/
def working (s : State) (w : WorkEntry) : State := { s with workList := [w] }

/-- An item for the sensor of handle 2. -/
def item (k : ItemKind) (v : Word) : Item := ⟨2, k, 2, 0, v⟩

/-- A context of handle 2 for index 0. -/
def context (phase : Phase) : Context := newContext 2 phase (some 0)

/-- A descriptor of the lamp with an extension of n bytes. -/
def descriptor (n : Nat) : Descriptor := ⟨2, 0, 1, .circuit 2, 210, n⟩

/-- A classification with policy ENROL. -/
def enrolled : Classification := ⟨.enrol, 16, true⟩

/-- The context of handle 2 in READING with a classification in hand. -/
def reserving (n : Nat) : Context := { context .reading with descriptor := some (descriptor n), classification := some enrolled }

/-- The context of handle 2 in CONCLUDING with its PENDING record. -/
def concluding : Context :=
  { context .concluding with
    descriptor := some (descriptor 0), classification := some enrolled, pendingKey := some (Key.ofPacked 0x4100) }

/-- The context of handle 2 in FETCHING, awaiting its extension. -/
def fetching : Context := { concluding with phase := .fetching, held := [0, 1], descriptor := some (descriptor 40) }

/-- A transaction of the Unit Directory: a RELEASE to position 3. -/
def releasing (a : Attempt) (n : Nat) : Transaction := ⟨.ud, ⟨.release, 3, []⟩, 3, none, n, a, false⟩

/-- A transaction of the Enrolment Engine about handle 2 at position 3, its answer awaited until 21540. -/
def asking (kind : HeadKind) (n : Nat) (withdrawn : Bool) : Transaction :=
  ⟨.ee, ⟨kind, 3, []⟩, 3, some 2, n, .awaiting 21540, withdrawn⟩

/-- The EXTQ of the context. -/
def extq : Transaction := asking .extq 1 false

/-- The transaction slot filled. -/
def slotted (s : State) (t : Transaction) : State := { s with line := { s.line with slot := some t } }

/-- The transaction phase open. -/
def inPhase (s : State) : State := { s with rcu := { s.rcu with phaseOpen := true } }

/-- A state of which only the circuits differ. -/
def lit (s : State) (k : Fin 8) (c : Circuit) : State :=
  { s with lcm := { s.lcm with circuits := s.lcm.circuits.set k c } }

/-- A frame of a node: kind, hop tally, position, payload (R68, R69, R184). -/
def nodeFrame (kind hop position : Nat) (payload : List Byte) : List Byte :=
  let covered := byte (kind * 16 + hop * 2 + 1) :: byte position :: byte payload.length :: payload
  covered ++ wordBytes (crc16 covered)

/-- A frame being received upright. -/
def receiving (s : State) (arrival : Nat) : State :=
  { s with line := { s.line with reception := some ⟨arrival, false⟩ } }

/-- The lock WAITING, with its handle's waiting count. -/
def waiting : State :=
  { holding loaded 56 { lock with demandState := some .waiting } live with
    ou := { loaded.ou with waiting := loaded.ou.waiting.set 2 1 } }

/-- The state a command leads to. -/
def after (c : Instr) (s : State) : State :=
  match exec c s with
  | .next t => t
  | _ => s

/-- The only record of a table stands in slot 56. -/
theorem only_record {t : Table} {r : Record} (h : Table.records t = [(56, r)]) {i : Fin 256} {q : Record}
    (hq : t[i] = some q) : i = 56 ∧ q = r := by
  have := (Table.mem_records t i q).2 hq
  rw [h] at this
  simpa using this

theorem lamp_records : lampState.records = [(56, lamp)] := by decide +kernel
theorem lock_records : lockState.records = [(56, lock)] := by decide +kernel
theorem sensor_records : sensorState.records = [(56, sensor)] := by decide +kernel

/-! ### Worked examples of the spec -/

/-- R182, R183: an image without the marker raises CONFIG_DEFAULTED and ends the load. -/
theorem test_load_defaulted :
    (after (.settingsLoadEnd (List.replicate 256 0xFF)) State.reset).events.flags = 0x800 ∧
      (after (.settingsLoadEnd (List.replicate 256 0xFF)) State.reset).port.loading = false := by decide +kernel
/-- 10.8, step 1: with nothing present the status byte is R P, bits 1 and 2. -/
theorem test_status_ready : (after (.statusPoll 0 1) loaded).port.shiftedOut = [0x06] := by decide +kernel
/-- R158: a request that ends while the first byte is clocked does not show in the status byte composed at the fall. -/
theorem test_status_at_the_fall :
    let t := after (.firstByteClocked 0 none) (asks loaded .identify)
    (after (.firstByteClocked 0 (some 0)) (after .identify t)).port.shiftedOut = [0x04] ∧
      (after (.firstByteClocked 0 (some 0)) (after .identify (asks loaded .identify))).port.shiftedOut = [0x0C] := by
  decide +kernel
/-- 10.8, step 2: a second non-posted submit is discarded. -/
theorem test_submit_discarded :
    (after (.submit 0 [0x01, 2, 0x01, 0x00]) (asks loaded (.readRecord 0x1900))).port.discarded = true := by
  decide +kernel
/-- 10.8, step 3: a posted submit is accepted behind the non-posted request. -/
theorem test_submit_posted_behind :
    (after (.submit 0 [0x20, 4, 0x19, 0x00, 0, 1]) (asks loaded (.readRecord 0x1900))).port.order = some .nonPosted := by
  decide +kernel
/-- 10.8, step 6: SET_CIRCUIT of circuit 9 is refused with RANGE. -/
theorem test_set_circuit_9_faults :
    (after (.setCircuit 9 1) (posts loaded (.setCircuit 9 1))).port.fault = some ⟨0x21, some 9, .range⟩ := by
  decide +kernel
/-- R164, R185: a fetch with no response shifts out NONE, kind 0x00, length 0. -/
theorem test_fetch_none : (after (.fetch 0 4) loaded).port.shiftedOut = [0x06, 0x0E, 0, 0, 0] := by decide +kernel
/-- 1.7, grants 1 and 2: the Host Port comes first with the mark clear, and the EE after it. -/
theorem test_grants :
    ({ asks loaded (.lookup 0) with ee := some (reserving 0) } : State).grant = some .hp ∧
      (({ asks loaded (.lookup 0) with ee := some (reserving 0) } : State).hostGranted).grant = some .ee := by
  decide +kernel
/-- R24, R185: LOOKUP of the lamp answers slot 56, ACTIVE, ENROLLED, ENROL, circuit 2, SAFETY, no condition. -/
theorem test_lookup :
    (after (.lookup 0x4100) (asks lampState (.lookup 0x4100))).port.response =
      some ⟨.ok, 0x01, [56, 1, 0, 0, 2, 1, 0]⟩ := by decide +kernel
/-- R26: FIND_NEXT from slot 57 finds nothing. -/
theorem test_find_next_end :
    (after (.findNext 57 0xFF 0 0 0) (asks lampState (.findNext 57 0xFF 0 0 0))).port.response =
      some ⟨.end_, 0x03, []⟩ := by decide +kernel
/-- R29, R185: feed code 0x08 names no circuit, and the declaration is answered RANGE. -/
theorem test_declare_feed_8 :
    let q := Request.declareRecord 7 0 0 8 0 0
    (after (.declareRecord 7 0 0 8 0 0)
      (asks { loaded with dir := { loaded.dir with entries := loaded.dir.entries.set 7 declared } } q)).port.response =
      some ⟨.range, 0x06, []⟩ := by decide +kernel
/-- 12.4: the dolly's lamp, key 0x2100 of handle 1, takes slot 236 and circuit 2 counts its 21 cu. -/
theorem test_declare_record :
    let q := Request.declareRecord 1 2 0 2 21 1
    let s : State :=
      { loaded with dir := { loaded.dir with entries := loaded.dir.entries.set 1 { declared with recordCount := 0 } } }
    let t := after (.declareRecord 1 2 0 2 21 1) (asks s q)
    t.port.response = some ⟨.ok, 0x06, [236]⟩ ∧ t.lcm.circuits[2].expected = 21 := by decide +kernel
/-- 2.6: a first part of length 40 draws two blocks, the top ones in order. -/
theorem test_write_extension :
    let q := Request.writeExtension 0x4100 1 40 0 [7]
    let s := holding loaded 56 { lamp with origin := .declared } declared
    let t := after (.writeExtensionFirstPart 0x4100 1 40 0 [7]) (asks s q)
    t.store.free.take 2 = [2, 3] ∧ t.dir.entries[2].charge = 2 ∧ t.store.mem = [(0, 7)] := by decide +kernel
/-- 4.6: the release of the dolly of the middle owes positions 3 and 2, and handle 0 stays. -/
theorem test_release_dolly :
    let e (p n : Nat) : Entry := { live with uid := some (BitVec.ofNat 48 p), position := some p, recordCount := n }
    let s : State :=
      { loaded with dir := { loaded.dir with entries := ((loaded.dir.entries.set 0 (e 1 6)).set 1 (e 2 2)).set 2 (e 3 5) } }
    let t := after (.releaseUnit 1) (asks s (.releaseUnit 1))
    t.dir.releaseList = [3, 2] ∧ t.dir.entries[2].state = .leaving ∧ t.dir.entries[0] = e 1 6 := by decide +kernel
/-- 8.4: SET_DEMAND 1 on the idle lock queues it and makes it OUTSTANDING. -/
theorem test_set_demand :
    let t := after (.setDemand 0x4100 1) (posts lockState (.setDemand 0x4100 1))
    t.ou.queue = [Key.ofPacked 0x4100] ∧
      (t.table.slots[56].map fun r => (r.demand, r.demandState)) = some (some 1, some .outstanding) := by decide +kernel
/-- R145, R141: SET_CIRCUIT 2 ON turns the output on. -/
theorem test_set_circuit_on :
    (after (.setCircuit 2 1) (posts loaded (.setCircuit 2 1))).lcm.circuits[2].output = true := by decide +kernel
/-- R168: the part code and the revision. -/
theorem test_identify :
    (after .identify (asks loaded .identify)).port.response = some ⟨.ok, 0x31, [0x0C, 0x46, 1, 0]⟩ := by decide +kernel
/-- R177, SATURATE: the raise to 65,535 sets COUNTER_LIMIT and the next one stays there. -/
theorem test_counter_saturates : raisedCounter false 0xFFFE = (0xFFFF, true) ∧ raisedCounter false 0xFFFF = (0xFFFF, true) := by
  decide
/-- R177, WRAP: the raise from 65,535 gives 0 and sets COUNTER_LIMIT. -/
theorem test_counter_wraps : raisedCounter true 0xFFFF = (0, true) ∧ raisedCounter true 0xFFFE = (0xFFFF, false) := by
  decide
/-- R181, R10: an even hash polynomial gets its lowest bit; R179: a formed period of 125 becomes 120. -/
theorem test_clamps : clampSetting 0 8 = 9 ∧ clampSetting 5 125 = 120 ∧ clampSetting 17 1001 = 1000 ∧
    clampSetting 19 0x1FF = 0xFF := by decide
/-- 5.8: the second inverted good frame makes the head transmit inverted. -/
theorem test_crossed_coupling :
    let rx (s : State) : State := { s with line := { s.line with reception := some ⟨860, true⟩ } }
    let frame := invertBytes (nodeFrame 0xA 0 0 [0, 0, 0, 0, 0, 1, 2])
    let t := after (.receiveFrame frame) (rx loaded)
    t.line.run = 1 ∧ (after (.receiveFrame frame) (rx t)).line.txInverted = true := by decide +kernel
/-- R70: a frame truncated after 3 bytes ends when the third has been received. -/
theorem test_truncation_end : (after (.lineIdleTruncation 3) (receiving loaded 860)).now = 980 := by decide +kernel
/-- 12.4, cycle 1: an ANNOUNCE with hop tally 0 is allocated handle 0 at position 1 and takes a token. -/
theorem test_announce :
    let t := after (.receiveFrame (nodeFrame 0xA 0 0 [0, 0, 0, 0, 0, 1, 2])) (receiving loaded 9860)
    t.dir.entries[0].state = .joining ∧ t.dir.entries[0].position = some 1 ∧ t.rcu.chain = .forming ∧
      t.line.meters[0].tokens = 3 := by decide +kernel
/-- 5.6: the DESCQ of a unit at position 1 takes 0.32 ms and its deadline is 3 ms later. -/
theorem test_descq_times :
    let e : Entry := { live with position := some 1, recordCount := 0 }
    let s : State :=
      inPhase { loaded with
        now := 12360, ee := some (context .reading), dir := { loaded.dir with entries := loaded.dir.entries.set 2 e } }
    let t := after .transactionStart s
    t.line.txEnd = 12680 ∧ ((after .requestFrameEnd t).line.slot.map (·.attempt)) = some (.awaiting 15680) := by
  decide +kernel
/-- 5.6: the third timeout of a RELEASE fails it and drops the position. -/
theorem test_release_fails :
    let s : State :=
      slotted { loaded with dir := { loaded.dir with releaseList := [3] } } (releasing (.awaiting 28100) 3)
    let t := after .answerTimeout s
    t.dir.releaseList = [] ∧ t.counters.live[3] = 1 ∧ t.line.slot = none := by decide +kernel
/-- R96, R102: two stray frames make the cycle void and the chain DISTURBED. -/
theorem test_void_cycle :
    let t := after .cycleEnd { loaded with rcu := { loaded.rcu with chain := .formed, stray := 2 } }
    t.rcu.chain = .disturbed ∧ t.rcu.voidStreak = 1 ∧ t.counters.live[5] = 1 := by decide +kernel
/-- 2.6: the reservation of a record of 70 bytes holds blocks 0, 1 and 2. -/
theorem test_reserve_draws :
    let e : Entry := { live with recordCount := 0 }
    let s : State :=
      { loaded with ee := some (reserving 70), dir := { loaded.dir with entries := loaded.dir.entries.set 2 e } }
    let t := after .reservationOperation s
    (t.ee.map (·.held)) = some [0, 1, 2] ∧ t.dir.entries[2].charge = 3 ∧ t.store.free.take 1 = [3] := by
  decide +kernel
/-- 12.4: the conclusion makes the record ACTIVE and touched. -/
theorem test_conclude :
    let s : State := { holding loaded 56 { lamp with state := .pending } live with ee := some concluding }
    let t := after .conclusionOperation s
    (t.table.slots[56].map fun r => (r.state, r.touched)) = some (.active, true) ∧ t.lcm.circuits[2].expected = 210 := by
  decide +kernel
/-- 8.2: the first VALUE touches the sensor. -/
theorem test_value_item :
    let t := after .valueItem (working sensorState (.item (item .value 0x0102)))
    (t.table.slots[56].map fun r => (r.value, r.age, r.touched)) = some (some 0x0102, 0, true) := by decide +kernel
/-- R58, R121: a WITHDRAWN item of the PENDING record, its EXTQ in the slot, empties the pending set: the unit is LIVE and
has joined at once. -/
theorem test_give_up_joins_at_once :
    let s := { working (slotted pendingState extq) (.item (item .withdrawn 0)) with ee := some fetching }
    let t := after .withdrawnItem s
    (t.dir.entries[2].state, t.dir.entries[2].joined, t.events.joinMask) = (.live, true, 4) ∧
      t.line.slot = some extq ∧ t.ee ≠ none := by decide +kernel
/-- 8.2: at age 8 the sensor is not stale, at 9 it is. -/
theorem test_ageing :
    let s (n : Nat) : State := working (holding loaded 56 { sensor with value := some 1, age := n } live) (.mark 1)
    ((after .ageingPass (s 7)).table.slots[56].map fun r => (r.age, r.stale)) = some (8, false) ∧
      ((after .ageingPass (s 8)).table.slots[56].map fun r => (r.age, r.stale)) = some (9, true) := by decide +kernel
/-- R120: an ADDED item for index 5 joins the pending set and takes a token. -/
theorem test_added_item :
    let t := after .addedItem (working lampState (.item (item .added 5)))
    t.dir.entries[2].pendingSet = 32 ∧ t.dir.entries[2].descriptorCount = 6 ∧ t.line.meters[0].tokens = 3 := by
  decide +kernel
/-- 9.7: the judged sample of 285 against E = 490 is a DEFICIT whose third occurrence sets a MARK job with D = 205. -/
theorem test_deficit :
    let c : Circuit :=
      { Circuit.atReset with
        demand := .on, output := true, expected := 490, tol := 73, candidate := some .deficit, streak := 2,
        verdict := .balanced }
    let t := after (.sample (Vector.replicate 8 285)) (lit { loaded with now := 64000 } 2 c)
    t.lcm.circuits[2].verdict = .deficit ∧ t.lcm.circuits[2].job = some (.mark 205 73 0) ∧
      t.events.circuitMask = 4 := by decide +kernel
/-- 9.7: the MARK job with D = 205 and tolerance 73 marks the lamp of 210 cu and its cursor becomes 57. -/
theorem test_mark :
    let t := after .attributionOperation (lit lampState 2 { Circuit.atReset with job := some (.mark 205 73 0) })
    (t.table.slots[56].map (·.suspect)) = some true ∧ t.lcm.circuits[2].job = some (.mark 205 73 57) := by
  decide +kernel
/-- 9.8: at 300 ms the flash goes OFF and the output with it. -/
theorem test_flash :
    let c : Circuit :=
      { Circuit.atReset with demand := .on, output := true, flash := some ⟨3, true, 300000⟩, streak := 5 }
    let t := after (.flashPhaseEnd 6) (lit loaded 6 c)
    t.lcm.circuits[6].output = false ∧ t.lcm.circuits[6].streak = 0 ∧
      t.lcm.circuits[6].flash = some ⟨3, false, 600000⟩ := by decide +kernel
/-- R64: the last record of a LEAVING handle frees the entry and raises UNIT_LEFT with its bit. -/
theorem test_sweep :
    let t := after .drainSweeperRemoval (holding loaded 56 lamp leaving)
    t.table.slots[56] = none ∧ t.dir.entries[2].state = .free ∧ t.events.flags = 2 ∧ t.events.leftMask = 4 := by
  decide +kernel

/-! ### Witnesses: each meets the hypotheses of the statement it names, at the ends of their ranges -/

theorem witness_StepTakesFront : State.reset.pending = [] := rfl

theorem witness_LoadEndFillsSettings :
    State.reset.port.loading = true ∧ ((0x4B :: 1 :: List.replicate 254 0 : List Byte).length = 256) ∧
      ((0x4B :: 1 :: List.replicate 254 0 : List Byte).getD 0 0 = 0x4B) ∧
      ((0x4B :: 2 :: List.replicate 254 0 : List Byte).length = 256) := by decide +kernel

/-- With no transfer open the status byte is the one composed at the fall, or now; an open one keeps its own. -/
theorem witness_transfers :
    loaded.port.transfer = none ∧ loaded.port.fallen = none ∧ (after (.firstByteClocked 0 none) loaded).port.transfer = none ∧
      loaded.transferStands .poll 0x06 false ∧ (after (.firstByteClocked 0 none) loaded).transferStands .fetch 0x06 false ∧
      (after (.firstByteClocked 0 (some 0x5A)) loaded).transferStands .fetch 0x06 false ∧
      (after (.firstByteClocked 0 (some 0xFF)) loaded).transferStands .poll 0x06 false ∧
      (after (.firstByteClocked 0 (some 0xA5)) loaded).transferStands .submit 0x06 false := by
  refine ⟨rfl, rfl, rfl, ?_, ?_, ?_, ?_, ?_⟩ <;> (show _ ∧ _; decide +kernel)

/-- The four ways to be discarded: too short, loading, the posted slot full, a response waiting; and those of FORMAT: an
unknown kind, a length other than the length field, and one that the kind does not allow. -/
theorem witness_SubmitTurnedAway :
    loaded.transferStands .submit 0x06 false ∧ ([0x20] : List Byte).length < 2 ∧ State.reset.port.loading = true ∧
      ((posts loaded .identify).port.posted.isSome = true) ∧
      (({ loaded with port := { loaded.port with response := some ⟨.ok, 1, []⟩ } } : State).port.response.isSome = true) ∧
      loaded.port.loading = false ∧ loaded.port.posted = none ∧ loaded.port.fault = none ∧
      loaded.port.nonPosted = none ∧ loaded.port.response = none ∧ requestLengths 0x09 = [] ∧
      ([] : List Byte).length ≠ (2 : Byte).toNat ∧ ([0] : List Byte).length ∉ requestLengths 0x20 ∧
      39 ∉ requestLengths 0x08 ∧
      ({ loaded with port := { loaded.port with fault := some ⟨0x20, none, .format⟩ } } : State).port.posted = none := by
  refine ⟨?_, by decide +kernel⟩
  show _ ∧ _
  decide +kernel

theorem witness_SubmitTakesEveryRequest :
    loaded.transferStands .submit 0x06 false ∧ loaded.port.loading = false ∧ loaded.port.posted = none ∧
      loaded.port.nonPosted = none ∧ loaded.port.response = none ∧ (List.replicate 32 0 : List Byte).length ≤ 32 := by
  refine ⟨?_, by decide +kernel⟩
  show _ ∧ _
  decide +kernel

theorem witness_RequestsCarriedOutInOrder :
    postedKind (requestKind (.setCircuit 0 0)) = true ∧ loaded.port.posted = none ∧
      (asks loaded .identify).port.nonPosted = some .identify ∧ (asks loaded .identify).port.posted = none ∧
      postedKind (requestKind .identify) = false ∧ (posts loaded (.setCircuit 0 0)).port.nonPosted = none ∧
      (posts loaded (.setCircuit 0 0)).port.posted = some (.setCircuit 0 0) ∧ loaded.port.nonPosted = none := by
  decide +kernel

theorem witness_ArbiterGrantsInTurn :
    let s := lit (working sensorState (.mark 1)) 0 { Circuit.atReset with job := some (.clear 0) }
    s.grant = some .rh ∧ s.rhWaits = true ∧ s.lcmWaits = true ∧ s.table.rhServedLast = .lcm ∧
      (s.granted .rh).table.rhServedLast = .rh ∧ (asks loaded (.lookup 0)).hostGranted.grant = some .hp := by
  decide +kernel

/-- Each requester of the table as it waits, and a refill that found nothing as it stops waiting. -/
theorem witness_whoWaits :
    (asks loaded (.writeExtension 0 0 0 0 [])).hpWaits = true ∧ (posts loaded (.setDemand 0 0)).hpWaits = true ∧
      (asks loaded .identify).hpWaits = false ∧
      ({ loaded with ee := some { context .reading with classification := some enrolled } } : State).placeWaits .ee = true ∧
      ({ loaded with ee := some { fetching with phase := .concluding } } : State).placeWaits .ee = true ∧
      loaded.placeWaits .ee = false ∧ loaded.placeWaits .sweeper = false ∧
      (holding loaded 56 lamp leaving).placeWaits .sweeper = true ∧
      ({ loaded with line := { loaded.line with ouTurn := true } } : State).placeWaits .ou = true ∧
      waiting.wantsRefill = true ∧ loaded.wantsRefill = false ∧
      ({ waiting with ou := { waiting.ou with refillStop := some waiting.refillView } } : State).wantsRefill = false := by
  decide +kernel

theorem witness_LookupFollowsTheHash : lampState.bucketsSound := by
  refine ⟨fun i r h => ?_, fun i j r q hi hj _ => ?_⟩
  · obtain ⟨rfl, rfl⟩ := only_record lamp_records h
    decide +kernel
  · obtain ⟨rfl, -⟩ := only_record lamp_records hi
    exact (only_record lamp_records hj).1.symm

theorem witness_LookupAnswersRecord :
    (asks lampState (.lookup 0x4100)).port.inHand = some (.lookup 0x4100) ∧
      (asks lampState (.lookup 0x4100)).grant = some .hp ∧
      (asks lampState (.lookup 0x4100)).find (Key.ofPacked 0x4100) = some (56, lamp) ∧
      (asks lampState (.lookup 0xFFFF)).find (Key.ofPacked 0xFFFF) = none := by decide +kernel

theorem witness_ReadRecordClearsTouched :
    (asks lampState (.readRecord 0x4100)).port.inHand = some (.readRecord 0x4100) ∧
      (asks lampState (.readRecord 0x4100)).grant = some .hp ∧
      (asks lampState (.readRecord 0x4100)).find (Key.ofPacked 0x4100) = some (56, lamp) ∧
      (asks lampState (.readRecord 0)).find (Key.ofPacked 0) = none := by decide +kernel

theorem witness_FindNextScansFromCursor :
    let s := asks lampState (.findNext 56 0xFF 2 0x3F 0)
    s.port.inHand = some (.findNext 56 0xFF 2 0x3F 0) ∧ s.grant = some .hp ∧ s.table.slots[56] = some lamp ∧
      lamp.key.cls &&& (0x3F : Byte).truncate 6 = (2 : Byte).truncate 6 &&& (0x3F : Byte).truncate 6 ∧
      (∀ (j : Fin 256) (q : Record), j < 56 → s.table.slots[j] ≠ some q) ∧
      (∀ (j : Fin 256) (q : Record), 57 ≤ j.val → s.table.slots[j] ≠ some q) := by
  refine ⟨by decide +kernel, by decide +kernel, by decide +kernel, by decide +kernel, fun j q hj hq => ?_, fun j q hj hq => ?_⟩
  · rw [(only_record lamp_records hq).1] at hj; exact absurd hj (by decide)
  · rw [(only_record lamp_records hq).1] at hj; exact absurd hj (by decide)

theorem witness_AdmitActivatesHeldRecord :
    let s := asks (holding loaded 56 { lamp with state := .held } live) (.admitRecord 0x4100)
    s.port.inHand = some (.admitRecord 0x4100) ∧ s.grant = some .hp ∧
      s.find (Key.ofPacked 0x4100) = some (56, { lamp with state := .held }) ∧ s.dir.entries[2].state ≠ .leaving := by
  decide +kernel

theorem witness_RetireRemovesRecord :
    let s := asks lampState (.retire 0x4100)
    s.port.inHand = some (.retire 0x4100) ∧ s.grant = some .hp ∧ s.find (Key.ofPacked 0x4100) = some (56, lamp) ∧
      s.dir.entries[2].state ≠ .leaving ∧ lamp.state ≠ .pending := by decide +kernel

theorem witness_DeclareRecordInserts :
    let q := Request.declareRecord 7 63 127 0x20 0 9
    let s : State := { loaded with dir := { loaded.dir with entries := loaded.dir.entries.set 7 declared } }
    (asks s q).port.inHand = some q ∧ (asks s q).grant = some .hp ∧ (7 : Fin 8).val = (7 : Byte).toNat ∧
      Feed.none.code = 0x20 ∧ (63 : Byte).toNat < 64 ∧ (127 : Byte).toNat < 128 ∧ (9 : Byte).toNat < 16 ∧
      (9 : Byte).getLsbD 1 = false ∧ (9 : Byte).getLsbD 2 = false ∧ s.dir.entries[7].state = .declared ∧
      s.find ⟨7, 63, 127⟩ = none ∧ s.freeWay ⟨7, 63, 127⟩ ≠ none ∧ 8 ≤ (8 : Byte).toNat ∧
      16 ≤ (16 : Byte).toNat := by decide +kernel

/-- A DECLARED lamp with an extension of 40 bytes in blocks 0 and 1. -/
def written : State :=
  { holding loaded 56 { lamp with origin := .declared, extension := some ⟨40, [0, 1]⟩ } { declared with charge := 2 } with
    store := { mem := [(0, 7)], free := loaded.store.free.drop 2 } }

theorem witness_ReadExtensionReadsChain :
    let q := Request.readExtension 0x4100 39 1
    (asks written q).port.inHand = some q ∧ (asks written q).grant = some .hp ∧
      ((asks written q).find (Key.ofPacked 0x4100)).map (·.1) = some 56 ∧ ¬ (40 ≤ (39 : Byte).toNat) ∧
      40 ≤ (40 : Byte).toNat ∧ 32 < (33 : Byte).toNat := by decide +kernel

theorem witness_FirstPartReplacesExtension :
    let q := Request.writeExtension 0x4100 1 256 0 (List.replicate 32 1)
    (asks written q).port.inHand = some q ∧ (asks written q).grant = some .hp ∧ (asks written q).storeCanonical ∧
      ((asks written q).find (Key.ofPacked 0x4100)).map (·.1) = some 56 ∧ written.dir.entries[2].state = .declared ∧
      1 < (3 : Byte).toNat ∧ (3 : Byte).getLsbD 0 = true ∧
      (asks loaded (.writeExtension 0 3 0 0 [])).port.inHand = some (.writeExtension 0 3 0 0 []) := by
  refine ⟨by decide +kernel, by decide +kernel, ?_, by decide +kernel⟩
  show Memory.wf [(0, 7)]
  decide

theorem witness_LaterPartWritesInPlace :
    let q := Request.writeExtension 0x4100 0 0 1 (List.replicate 8 1)
    (asks written q).port.inHand = some q ∧ (asks written q).grant = some .hp ∧ (asks written q).storeCanonical ∧
      ((asks written q).find (Key.ofPacked 0x4100)).map (·.1) = some 56 ∧
      ¬ (40 < (1 : Byte).toNat * 32 + 8) ∧ 40 < (1 : Byte).toNat * 32 + 9 ∧ 1 < (2 : Byte).toNat ∧
      (2 : Byte).getLsbD 0 = false := by
  refine ⟨by decide +kernel, by decide +kernel, ?_, by decide +kernel⟩
  show Memory.wf [(0, 7)]
  decide

theorem witness_DeclareUnitTakesLowestFree :
    (asks loaded (.declareUnit 6)).port.inHand = some (.declareUnit 6) ∧
      (asks loaded (.declareUnit 7)).port.inHand = some (.declareUnit 7) ∧
      (asks loaded (.declareUnit 0xFF)).port.inHand = some (.declareUnit 0xFF) ∧
      (∀ h : Fin 8, loaded.dir.entries[h].state = .free) ∧ loaded.dir.releaseList = [] ∧ loaded.dir.reseat = none ∧
      lampState.dir.entries[2].position = some 3 ∧ lampState.dir.entries[2].state ≠ .free ∧
      (∀ h : Fin 8, (Vector.replicate 8 declared)[h].state ≠ .free) := by decide +kernel

theorem witness_unitRequests :
    (asks lampState (.readUnit 8)).port.inHand = some (.readUnit 8) ∧ 8 ≤ (8 : Byte).toNat ∧
      (asks lampState (.readUnit 7)).port.inHand = some (.readUnit 7) ∧ (7 : Fin 8).val = (7 : Byte).toNat ∧
      (asks lampState (.releaseUnit 2)).port.inHand = some (.releaseUnit 2) ∧ lampState.dir.entries[2].state = .live ∧
      (asks lampState (.releaseUnit 8)).port.inHand = some (.releaseUnit 8) ∧
      (asks lampState (.resumeUnit 2)).port.inHand = some (.resumeUnit 2) ∧
      (asks lampState (.resumeUnit 8)).port.inHand = some (.resumeUnit 8) ∧
      (holding loaded 56 lamp { live with state := .stalled }).dir.entries[2].state = .stalled := by decide +kernel

theorem witness_chainRequests :
    (asks lampState .restartChain).port.inHand = some .restartChain ∧
      (asks lampState .readChain).port.inHand = some .readChain := by decide +kernel

theorem witness_SetDemandTakesFirstRow :
    let s := posts lockState (.setDemand 0x4100 1)
    s.port.inHand = some (.setDemand 0x4100 1) ∧ s.grant = some .hp ∧ s.find (Key.ofPacked 0x4100) = some (56, lock) ∧
      s.dir.entries[2].state = .live ∧ lock.flags.getLsbD 1 = true ∧ lock.feed = .node ∧ lock.state = .active := by
  decide +kernel

theorem witness_circuitRequests :
    (posts loaded (.setCircuit 8 0)).port.inHand = some (.setCircuit 8 0) ∧ 8 ≤ (8 : Byte).toNat ∧
      (posts loaded (.setCircuit 7 2)).port.inHand = some (.setCircuit 7 2) ∧ (7 : Fin 8).val = (7 : Byte).toNat ∧
      CircuitDemand.blink.code = 2 ∧ 3 ≤ (3 : Byte).toNat ∧
      (posts loaded (.setOverride 7 2)).port.inHand = some (.setOverride 7 2) ∧ Override.forceOff.code = 2 ∧
      (posts loaded (.setOverride 0 3)).port.inHand = some (.setOverride 0 3) ∧
      (asks loaded (.readCircuit 7)).port.inHand = some (.readCircuit 7) ∧
      (asks loaded (.readCircuit 8)).port.inHand = some (.readCircuit 8) := by decide +kernel

theorem witness_portEventCounterRequests :
    (asks loaded .readPostedFault).port.inHand = some .readPostedFault ∧
      (asks loaded .identify).port.inHand = some .identify ∧ (asks loaded .readEvents).port.inHand = some .readEvents ∧
      (asks loaded (.clearEvents 0xFFFF)).port.inHand = some (.clearEvents 0xFFFF) ∧
      (asks loaded (.writeEnables 0x1FFF)).port.inHand = some (.writeEnables 0x1FFF) ∧
      (asks loaded (.snapshotCounters 1)).port.inHand = some (.snapshotCounters 1) ∧
      (asks loaded (.snapshotCounters 2)).port.inHand = some (.snapshotCounters 2) ∧
      (asks loaded .readCounters).port.inHand = some .readCounters := by decide +kernel

/-- Rows at the ends of the table, of each kind of clamp, and of R42's filters (R179, R42). -/
theorem witness_settingTable :
    settingTable[0]? = some (1, 255, 7) ∧ settingTable[5]? = some (50, 200, 100) ∧
      settingTable[17]? = some (400, 1000, 670) ∧ settingTable[19]? = some (0, 255, 64) ∧
      settingTable[41]? = some (1, 64, 16) ∧ settingTable[98]? = some (0, 1, 1) ∧ settingTable[99]? = some (10, 150, 40) ∧
      settingTable[130]? = some (1, 7, 3) := by decide

theorem witness_SettingRequestsReadAndClamp :
    (asks loaded (.readSetting 130)).port.inHand = some (.readSetting 130) ∧ (130 : Fin 131).val = (130 : Byte).toNat ∧
      (asks loaded (.readSetting 131)).port.inHand = some (.readSetting 131) ∧ 130 < (131 : Byte).toNat ∧
      (asks loaded (.writeSetting 0 8)).port.inHand = some (.writeSetting 0 8) ∧
      (asks loaded (.writeSetting 131 0)).port.inHand = some (.writeSetting 131 0) ∧
      (asks lampState (.writeSetting 0 8)).table.slots[56] ≠ none := by decide +kernel

theorem witness_FrameArrivalOpensReception :
    loaded.port.loading = false ∧ loaded.line.reception = none ∧
      max loaded.now 99999 < loaded.rcu.cycleStart + loaded.rcu.period * 1000 ∧
      loaded.line.txEnd + 80 ≤ max loaded.now 99999 ∧ loaded.line.slot = none ∧
      ¬ ((0x55 : Byte) = 0x55 ∧ (0x2C : Byte) = 0xD3) ∧ ¬ ((0x55 : Byte) = 0xAA ∧ (0x2C : Byte) = 0x2C) := by
  decide +kernel

/-- Bad in each way: two bytes alone, a payload length of 37, a byte short, kind 0x8, position 8, another CRC. -/
theorem witness_BadFramesAreCounted :
    (receiving loaded 860).line.reception = some ⟨860, false⟩ ∧ ([0x93, 1] : List Byte).length < 3 ∧
      36 < (([0x93, 1, 37] : List Byte).getD 2 0).toNat ∧ ([0x93, 1, 1, 0, 0] : List Byte).length < 1 + 5 ∧
      (nodeFrame 0x8 0 1 []).getD 0 0 = 0x81 ∧ 8 ≤ ((nodeFrame 0x9 0 8 [0]).getD 1 0).toNat ∧
      crc16 [0x93, 1, 1, 0] ≠ ofBytes 0 0 := by decide +kernel

/-- A frame of a kind, hop tally and position that a state receives. -/
theorem carries_frame (s : State) (arrival : Nat) (inverted : Bool) (h : s.line.reception = some ⟨arrival, inverted⟩)
    (ha : s.settings[(13 : Fin 131)] = 1) (bytes : List Byte) :
    s.carries ⟨arrival, inverted⟩ bytes (if inverted then bytes.map (~~~·) else bytes) := ⟨h, rfl, fun _ => ha⟩

/-- Stray frames: the slot window of position 1 begins at 360 and ends at 1860, the open one at 9360 and 12360; and with
the slot empty no answer matches. -/
theorem witness_strayFrames :
    (receiving loaded 360).settings[(13 : Fin 131)] = 1 ∧ loaded.inWindow 360 1 ∧ loaded.inWindow 1859 1 ∧
      ¬ loaded.inWindow 359 1 ∧ ¬ loaded.inWindow 1860 1 ∧ ¬ loaded.inWindow 360 0 ∧ ¬ loaded.inWindow 9360 7 ∧
      loaded.inOpen 9360 ∧ loaded.inOpen 12359 ∧ ¬ loaded.inOpen 9359 ∧ ¬ loaded.inOpen 12360 ∧
      loaded.line.slot = none := by
  unfold State.inWindow State.inOpen
  decide +kernel

/-- A PRESENT of position 3, claimed; parting with fast leave on; unclaimed, its position free, owed or DECLARED; and
misplaced with hop tally 4. -/
theorem witness_PresentClaimsItsEntry :
    (receiving lampState 4859).line.reception = some ⟨4859, false⟩ ∧ lampState.settings[(13 : Fin 131)] = 1 ∧
      lampState.inWindow 4859 3 ∧ 3 ∉ lampState.rcu.placed ∧ lampState.dir.entries[2].position = some 3 ∧
      lampState.dir.entries[2].state.onChain = true ∧
      (∀ g : Fin 8, lampState.dir.entries[g].state.onChain = true ∧ lampState.dir.entries[g].position = some 3 → g = 2) ∧
      (1 : Byte).getLsbD 0 = true ∧ (lampState.settings.set 4 1)[(4 : Fin 131)] = 1 ∧ 2 + 1 = 3 ∧
      (∀ g : Fin 8, ¬ (loaded.dir.entries[g].state.onChain = true ∧ loaded.dir.entries[g].position = some 3)) ∧
      (∀ g k : Fin 8, loaded.dir.entries[g].state ≠ .free → loaded.dir.entries[g].position = some 3 →
        loaded.dir.entries[k].state ≠ .free → loaded.dir.entries[k].position = some 3 → g = k) ∧
      4 + 1 ≠ 3 ∧ 4 < 8 := by
  unfold State.inWindow
  decide +kernel

/-- An ANNOUNCE at the end of the open window, with hop tally 5 and a token, with none, and with hop tally 6. -/
theorem witness_announceTaken :
    (receiving loaded 12359).line.reception = some ⟨12359, false⟩ ∧ loaded.inOpen 12359 ∧
      (0 : Fin 4).val = loaded.settings[29 + (5 : Fin 6).val] ∧ loaded.line.meters[(0 : Fin 4)].tokens ≠ 0 ∧
      (loaded.line.meters.set 0 ⟨0, 0⟩)[(0 : Fin 4)].tokens = 0 ∧ 6 < 8 := by
  unfold State.inOpen
  decide +kernel

/-- The directory's judgement of an announce: a UID borne by a LIVE entry and by a LEAVING one, a position held by another,
listed, beyond 6, and a free one, the context free or not. -/
theorem witness_announced :
    lampState.dir.entries[2].uid = some 1 ∧ lampState.dir.entries[2].state ≠ .free ∧
      (∀ g : Fin 8, lampState.dir.entries[g].state ≠ .free ∧ lampState.dir.entries[g].uid = some 1 → g = 2) ∧
      (∀ g : Fin 8, ¬ (lampState.dir.entries[g].state ≠ .free ∧ lampState.dir.entries[g].uid = some 2)) ∧
      (∀ g : Fin 8, lampState.dir.entries[g].state ≠ .free ∧ lampState.dir.entries[g].position = some 3 → g = 2) ∧
      (∀ g : Fin 8, ¬ (lampState.dir.entries[g].state ≠ .free ∧ lampState.dir.entries[g].position = some 6)) ∧
      lampState.dir.releaseList = [] ∧ lampState.dir.reseat = none ∧ lampState.ee = none ∧
      lampState.dir.entries[0].state = .free ∧ (∀ h : Fin 8, (Vector.replicate 8 declared)[h].state ≠ .free) := by
  decide +kernel

theorem witness_PhaseStartSendsWhatWaits :
    loaded.port.loading = false ∧ loaded.rcu.phaseOpen = false ∧ (∀ g : Fin 8, loaded.dir.entries[g].state ≠ .live) ∧
      ({ loaded with ee := some fetching } : State).ee ≠ none ∧
      (let s := holding loaded 56 lamp { live with pendingSet := 0x8000000000000000 }
       s.port.loading = false ∧ s.rcu.phaseOpen = false ∧ s.ee = none ∧ s.dir.entries[2].state = .live ∧
         s.dir.entries[2].pendingSet ≠ 0 ∧ s.dir.entries[2].position = some 3 ∧
         (∀ g : Fin 8, s.dir.entries[g].state = .live → g = 2) ∧
         s.dir.entries[2].pendingSet.getLsbD 63 = true ∧
         ∀ j : Fin 64, j < 63 → s.dir.entries[2].pendingSet.getLsbD j.val = false) := by decide +kernel

theorem witness_TransactionStartServesInTurn :
    let s := inPhase lampState
    s.port.loading = false ∧ s.line.slot = none ∧ s.line.ouTurn = false ∧ s.rcu.phaseOpen = true ∧
      s.now < s.rcu.cycleStart + s.rcu.period * 1000 ∧ s.rcu.chain ≠ .disturbed ∧ s.nextTurn = none ∧
      ({ s with ou := { s.ou with queue := [lamp.key] } } : State).nextTurn = some .ou ∧
      ({ s with dir := { s.dir with releaseList := [6] } } : State).nextTurn = some .ud ∧
      ({ s with dir := { s.dir with reseat := some ⟨2, 3, 4, false⟩ } } : State).nextTurn = some .ud ∧
      ({ s with ee := some (context .assigning) } : State).nextTurn = some .ee ∧
      ({ s with ee := some (context .reading) } : State).nextTurn = some .ee ∧
      ({ s with ee := some fetching } : State).nextTurn = some .ee ∧
      ({ s with ee := some { context .concluding with verdict := some (.refused .noRoom) } } : State).nextTurn = some .ee ∧
      ({ s with ee := some { context .concluding with verdict := some (.accepted 255) } } : State).nextTurn = some .ee ∧
      ({ s with ee := some { context .concluding with verdict := some (.held 1) } } : State).nextTurn = some .ee ∧
      (context .assigning).phase = .assigning ∧ (context .reading).index = some 0 ∧ fetching.index = some 0 ∧
      s.dir.entries[2].position = some 3 := by decide +kernel

/-- Each reason for which nothing starts, with a requester that waits. -/
theorem witness_nothingStarts :
    let s : State := { inPhase lampState with dir := { lampState.dir with releaseList := [6] } }
    s.nextTurn = some .ud ∧ (slotted s extq).line.slot ≠ none ∧ State.reset.port.loading = true ∧
      ({ s with line := { s.line with ouTurn := true } } : State).nextTurn = some .ud ∧ lampState.rcu.phaseOpen = false ∧
      ({ s with now := 100000 } : State).rcu.cycleStart + ({ s with now := 100000 } : State).rcu.period * 1000 ≤ 100000 ∧
      ({ s with rcu := { s.rcu with chain := .disturbed } } : State).nextTurn = some .ud := by decide +kernel

theorem witness_TimeoutRetriesThenFails :
    (slotted loaded (releasing (.sending 18540 3000) 1)).line.slot = some (releasing (.sending 18540 3000) 1) ∧
      (slotted loaded (releasing (.awaiting 21540) 2)).line.slot = some (releasing (.awaiting 21540) 2) ∧
      (releasing (.awaiting 21540) 2).withdrawn = false ∧ loaded.line.reception = none ∧
      (∀ rx, (receiving loaded 21541).line.reception = some rx → 21540 < rx.arrival) ∧
      (releasing (.awaiting 21540) 2).attempts ≤ loaded.settings[(12 : Fin 131)] ∧
      ¬ ((releasing (.awaiting 28100) 3).attempts ≤ loaded.settings[(12 : Fin 131)]) ∧
      (asking .descq 3 true).withdrawn = true := by
  refine ⟨rfl, rfl, rfl, rfl, fun rx h => ?_, by decide +kernel⟩
  obtain rfl : (⟨21541, false⟩ : Reception) = rx := Option.some.inj h
  decide

/-- A frame that arrived at the deadline itself, and one received at the cycle's end. -/
theorem witness_stillReceiving :
    (receiving (slotted loaded extq) 21540).line.slot = some extq ∧ extq.attempt = .awaiting 21540 ∧
      (receiving (slotted loaded extq) 21540).line.reception = some ⟨21540, false⟩ ∧ 21540 ≤ 21540 ∧
      (receiving loaded 99999).line.reception ≠ none := by decide +kernel

/-- Answers that match: a DESC, an EXTSEG and a DONE, which may arrive at the deadline itself, and a DECLINE. -/
theorem witness_answers :
    (asking .descq 1 false).answeredBy 21540 0xB 2 3 (List.replicate 9 0) ∧
      (asking .extq 1 false).answeredBy 21540 0xC 2 3 (List.replicate 34 0) ∧
      (asking .verdict 1 true).answeredBy 21540 0xD 2 3 [5] ∧ (asking .assign 1 false).answeredBy 0 0xD 2 3 [2] ∧
      (releasing (.awaiting 21540) 1).answeredBy 21540 0xD 2 3 [7] ∧
      (asking .descq 1 false).answeredBy 21540 0xE 2 3 [3, 0] ∧
      ¬ (asking .descq 1 false).answeredBy 21541 0xB 2 3 (List.replicate 9 0) := by
  unfold Transaction.answeredBy
  refine ⟨⟨⟨_, rfl, by decide⟩, by decide⟩, ⟨⟨_, rfl, by decide⟩, by decide⟩, ⟨⟨_, rfl, by decide⟩, by decide⟩,
    ⟨⟨_, rfl, by decide⟩, by decide⟩, ⟨⟨_, rfl, by decide⟩, by decide⟩, ⟨⟨_, rfl, by decide⟩, by decide⟩, ?_⟩
  rintro ⟨⟨d, h, h'⟩, -⟩
  obtain rfl : 21540 = d := Attempt.awaiting.inj h
  omega

/-- What the end of a transaction meets: a reseat in hand for a talking entry, and the context of each phase for an entry
on the chain. -/
theorem witness_toldTo :
    ({ lampState.dir with reseat := some ⟨2, 3, 4, true⟩ } : Directory).reseat = some ⟨2, 3, 4, true⟩ ∧
      lampState.dir.entries[2].state.onChain = true ∧ (asking .assign 1 false).requester = .ee ∧
      ({ pendingState with ee := some fetching } : State).ee = some fetching ∧
      pendingState.dir.entries[fetching.handle].state.onChain = true ∧ fetching.index = some 0 ∧
      fetching.descriptor = some (descriptor 40) ∧ (context .reading).index = some 0 ∧ Feed.node.code = 0x10 := by
  decide +kernel

/-- With an entry accounted, and with a context held and a transaction on the line. -/
theorem witness_CycleEndSettlesAndRolls :
    lampState.port.loading = false ∧ lampState.line.reception = none ∧ lampState.dir.entries[2].state.onChain = true ∧
      (let s := slotted { pendingState with ee := some fetching } extq
       s.port.loading = false ∧ s.line.reception = none ∧ s.ee ≠ none ∧ s.line.slot ≠ none) := by decide +kernel

/-- The reservation of the lamp: with room, as a duplicate, and without room under either overflow action. -/
theorem witness_ReservationInsertsPending :
    let e : Entry := { live with recordCount := 0 }
    let s : State :=
      { loaded with ee := some (reserving 256), dir := { loaded.dir with entries := loaded.dir.entries.set 2 e } }
    s.ee = some (reserving 256) ∧ (reserving 256).abandoned = false ∧ (reserving 256).phase = .reading ∧
      (reserving 256).descriptor = some (descriptor 256) ∧ (reserving 256).classification = some enrolled ∧
      (reserving 256).pendingKey = none ∧ s.grant = some .ee ∧ s.find lamp.key = none ∧
      s.table.enrolledCount < s.settings[(1 : Fin 131)] * 32 ∧ s.freeWay lamp.key = some 56 ∧
      ({ lampState with ee := some (reserving 0) } : State).find lamp.key ≠ none ∧
      ({ lampState with ee := some (reserving 0) } : State).grant = some .ee ∧
      s.settings[(2 : Fin 131)] ≠ 1 ∧ (s.settings.set 2 1)[(2 : Fin 131)] = 1 ∧
      (s.settings.set 1 0)[(1 : Fin 131)] * 32 ≤ s.table.enrolledCount := by decide +kernel

theorem witness_ConclusionSettlesRecord :
    let s : State := { holding loaded 56 { lamp with state := .pending } live with ee := some concluding }
    s.ee = some concluding ∧ concluding.abandoned = false ∧ concluding.phase = .concluding ∧
      concluding.descriptor = some (descriptor 0) ∧ concluding.classification = some enrolled ∧
      concluding.pendingKey = some lamp.key ∧ s.find lamp.key = some (56, { lamp with state := .pending }) ∧
      s.grant = some .ee := by decide +kernel

theorem witness_ItemsUpdateTheirRecord :
    let s := working sensorState (.item (item .value 7))
    s.workList = [.item (item .value 7)] ∧ s.grant = some .rh ∧ (item .value 7).key = some sensor.key ∧
      s.find sensor.key = some (56, sensor) ∧ sensor.state ≠ .pending ∧ (item .fault 0).kind = .fault ∧
      (item .clear 0).kind = .clear ∧ (working loaded (.item (item .value 7))).find sensor.key = none ∧
      (working loaded (.item (item .value 7))).grant = some .rh := by decide +kernel

theorem witness_WithdrawnAndAddedItems :
    let s := working lampState (.item (item .withdrawn 0))
    s.workList = [.item (item .withdrawn 0)] ∧ s.grant = some .rh ∧ (item .withdrawn 0).key = some lamp.key ∧
      s.find lamp.key = some (56, lamp) ∧ lamp.origin = .enrolled ∧ lamp.state ≠ .pending ∧
      (working loaded (.item (item .withdrawn 0))).find lamp.key = none ∧
      (working loaded (.item (item .withdrawn 0))).grant = some .rh ∧
      (working lampState (.item (item .added 63))).workList = [.item (item .added 63)] ∧
      lampState.dir.entries[2].state = .live ∧ lampState.dir.entries[2].position = some ((2 : Fin 6).val + 1) ∧
      (0 : Fin 4).val = lampState.settings[29 + (2 : Fin 6).val] ∧ lampState.line.meters[(0 : Fin 4)].tokens ≠ 0 ∧
      ¬ (63 < (63 : Word).toNat) ∧ 63 < (64 : Word).toNat ∧
      (working (holding loaded 56 lamp { live with state := .leaving }) (.item (item .added 0))).dir.entries[2].state ≠
        .live := by decide +kernel

/-- The PENDING record of a context: its EXTQ in the slot or not, the context abandoned or not. -/
theorem witness_withdrawnPending :
    let s := { working pendingState (.item (item .withdrawn 0)) with ee := some fetching }
    s.workList = [.item (item .withdrawn 0)] ∧ s.grant = some .rh ∧ (item .withdrawn 0).key = some lamp.key ∧
      s.find lamp.key = some (56, { lamp with state := .pending }) ∧ fetching.pendingKey = some lamp.key ∧
      fetching.index = some 0 ∧ fetching.abandoned = false ∧ s.eeInSlot = false ∧ (slotted s extq).eeInSlot = true ∧
      ({ fetching with abandoned := true } : Context).pendingKey = some lamp.key := by decide +kernel

theorem witness_AgeingPassAgesEveryValue :
    (working sensorState (.mark 255)).workList = [.mark 255] ∧ (working sensorState (.mark 255)).grant = some .rh := by
  decide +kernel

theorem witness_SweeperRemovesLowestSlot :
    let s := holding loaded 56 lamp leaving
    s.grant = some .sweeper ∧ s.ee = none ∧ s.dir.entries[2].state = .leaving ∧ s.dir.entries[2].recordCount ≠ 0 ∧
      (∀ g : Fin 8, g < 2 → s.dir.entries[g].state = .leaving → s.dir.entries[g].recordCount = 0) ∧
      s.table.slots[56] = some lamp ∧ lamp.key.handle = 2 ∧
      ∀ (j : Fin 256) (q : Record), j < 56 → s.table.slots[j] = some q → q.key.handle ≠ 2 := by
  refine ⟨by decide +kernel, by decide +kernel, by decide +kernel, by decide +kernel, by decide +kernel, by decide +kernel,
    by decide +kernel, fun j q hj hq => ?_⟩
  have h : Table.records (holding loaded 56 lamp leaving).table.slots = [(56, lamp)] := by decide +kernel
  rw [(only_record h hq).1] at hj
  exact absurd hj (by decide)

/-- The PENDING record of an abandoned context goes the same way. -/
theorem witness_sweptPending :
    let s := { holding loaded 56 { lamp with state := .pending } leaving with ee := some { fetching with abandoned := true } }
    s.grant = some .sweeper ∧ s.dir.entries[2].state = .leaving ∧ s.table.slots[56] = some { lamp with state := .pending } ∧
      fetching.pendingKey = some lamp.key := by decide +kernel

theorem witness_RefillTakesNextWaiting :
    waiting.grant = some .ou ∧ waiting.wantsRefill = true ∧
      waiting.table.slots[56] = some { lock with demandState := some .waiting } ∧
      waiting.dir.entries[2].state ≠ .leaving ∧
      (∀ (j : Fin 256) (q : Record), waiting.table.slots[j] = some q → j = 56) ∧
      (∀ (j : Fin 256) (q : Record), ({ lockState with ou := waiting.ou } : State).table.slots[j] = some q →
        q.demandState ≠ some .waiting) ∧
      ({ lockState with ou := waiting.ou } : State).grant = some .ou ∧
      ({ lockState with ou := waiting.ou } : State).wantsRefill = true := by
  refine ⟨by decide +kernel, by decide +kernel, by decide +kernel, by decide +kernel, fun j q hq => ?_, fun j q hq => ?_,
    by decide +kernel, by decide +kernel⟩
  · have h : Table.records waiting.table.slots = [(56, { lock with demandState := some .waiting })] := by decide +kernel
    exact (only_record h hq).1
  · rw [(only_record lock_records hq).2]; decide

/-- The lock in flight with an outcome. -/
def flown (o : SetpointOutcome) : State :=
  { lockState with ou := { loaded.ou with note := some ⟨lock.key, 56, 1, false, some o⟩ } }

theorem witness_OutcomeIsAppliedToRecord :
    (flown .done).ou.note = some ⟨lock.key, 56, 1, false, some .done⟩ ∧ (flown .done).grant = some .ou ∧
      (flown .done).table.slots[56] = some lock ∧ (flown .failed).grant = some .ou ∧
      (flown .failed).table.slots[56] = some lock := by decide +kernel

theorem witness_SendHandsOverTheHead :
    let s : State :=
      { lockState with
        line := { lockState.line with ouTurn := true }, ou := { lockState.ou with queue := [lock.key] } }
    s.grant = some .ou ∧ s.line.ouTurn = true ∧ s.ou.note = none ∧ s.ou.queue = [lock.key] ∧
      s.find lock.key = some (56, lock) ∧ s.dir.entries[2].position = some 3 ∧
      ({ lockState with line := { lockState.line with ouTurn := true } } : State).grant = some .ou := by decide +kernel

theorem witness_AttributionMarksNextRecord :
    let s := lit lampState 2 { Circuit.atReset with job := some (.mark 205 73 56) }
    s.grant = some .lcm ∧ s.lcm.circuits[2].job = some (.mark 205 73 56) ∧
      (∀ g : Fin 8, g < 2 → s.lcm.circuits[g].job = none) ∧ s.table.slots[56] = some lamp ∧ lamp.feed = .circuit 2 ∧
      lamp.state ≠ .pending ∧ s.dir.entries[2].state ≠ .leaving ∧ (lamp.nominal : Int) - 205 ≤ 73 ∧
      (205 : Int) - lamp.nominal ≤ 73 ∧
      (∀ (m : Fin 256) (q : Record), m < 56 → s.table.slots[m] ≠ some q) ∧
      (lit loaded 2 { Circuit.atReset with job := some (.clear 0) }).grant = some .lcm ∧
      ∀ (m : Fin 256) (q : Record),
        (lit loaded 2 { Circuit.atReset with job := some (.clear 0) }).table.slots[m] ≠ some q := by
  refine ⟨by decide +kernel, by decide +kernel, by decide +kernel, by decide +kernel, by decide +kernel, by decide +kernel,
    by decide +kernel, by decide +kernel, by decide +kernel, fun m q hm hq => ?_, by decide +kernel, fun m q hq => ?_⟩
  · rw [(only_record lamp_records hq).1] at hm; exact absurd hm (by decide)
  · have h := (Table.mem_records _ m q).2 hq
    have : Table.records (lit loaded 2 { Circuit.atReset with job := some (.clear 0) }).table.slots = [] := by
      decide +kernel
    rw [this] at h
    cases h

theorem witness_lampSteps :
    loaded.port.loading = false ∧
      ({ loaded with lcm := { loaded.lcm with blink := some ⟨true, 335000, 670⟩ } } : State).lcm.blink =
        some ⟨true, 335000, 670⟩ ∧
      (lit loaded 7 { Circuit.atReset with flash := some ⟨1, false, 1800000⟩ }).lcm.circuits[7].flash =
        some ⟨1, false, 1800000⟩ := by decide +kernel

/-! The lamp's state meets the laws that every step keeps, and its step is a next state. -/

theorem witness_StepKeepsSettingsAndMeters :
    lampState.settingsInRange ∧ lampState.metersInRange ∧ step lampState = .next lampState := by
  refine ⟨?_, ?_, rfl⟩
  · unfold State.settingsInRange; decide +kernel
  · unfold State.metersInRange; decide +kernel

theorem witness_StepKeepsStoreMasksAndBounds :
    lampState.storeCanonical ∧ lampState.detailsFlagged ∧ lampState.listsBounded := by
  refine ⟨?_, ?_, ?_⟩
  · show Memory.wf []
    decide
  · unfold State.detailsFlagged; decide +kernel
  · unfold State.listsBounded; decide +kernel

/-- Of the eight entries only that of handle 2 holds a value. -/
theorem only_two {α : Type} {a x y : α} {g h : Fin 8} (hg : (if g = 2 then some a else none) = some x)
    (hh : (if h = 2 then some a else none) = some y) : g = h ∧ x = a := by
  split at hg
  · split at hh
    · rename_i h1 h2
      exact ⟨h1.trans h2.symm, (Option.some.inj hg).symm⟩
    · cases hh
  · cases hg

theorem witness_StepKeepsDirectoryDistinct : lampState.dir.distinct ∧ lampState.releasesSound := by
  have hu : ∀ h : Fin 8, lampState.dir.entries[h].uid = if h = 2 then some 1 else none := by decide +kernel
  have hp : ∀ h : Fin 8, lampState.dir.entries[h].position = if h = 2 then some 3 else none := by decide +kernel
  refine ⟨⟨by decide +kernel, by decide +kernel, fun g h hgh u h1 h2 => ?_, fun g h hgh p h1 h2 => ?_, fun h p h1 => ?_,
    fun r h => ?_⟩, by decide +kernel, by decide +kernel, fun x h => ?_⟩
  · rw [hu] at h1 h2
    exact hgh (only_two h1 h2).1
  · rw [hp] at h1 h2
    exact hgh (only_two h1 h2).1
  · rw [hp] at h1
    have := (only_two h1 h1).2
    omega
  · rw [show lampState.dir.reseat = none by decide +kernel] at h; cases h
  · rw [show lampState.line.slot = none by decide +kernel] at h; cases h

theorem witness_StepKeepsTableSound :
    lampState.bucketsSound ∧ lampState.loadIdle ∧ lampState.enrolledCounted ∧ lampState.quietUntouched := by
  refine ⟨witness_LookupFollowsTheHash, fun h => absurd h (by decide +kernel), ?_, fun i r h hq => ?_⟩
  · unfold State.enrolledCounted
    rw [lamp_records]
    decide +kernel
  · rw [(only_record lamp_records h).2] at hq
    exact absurd hq (by decide)

/-- An EXTQ on the line for a PENDING record that holds the blocks 0 and 1. -/
def fetchingState : State :=
  { slotted pendingState extq with
    ee := some fetching, store := { mem := [], free := loaded.store.free.drop 2 } }

theorem fetching_records : fetchingState.records = [(56, { lamp with state := .pending })] := by decide +kernel

/-- A fetch in its course meets the laws of the records, the counts, the context, the blocks and the expected currents. -/
theorem witness_contextLaws :
    fetchingState.bucketsSound ∧ fetchingState.loadIdle ∧ fetchingState.enrolledCounted ∧ fetchingState.withinLimit ∧
      fetchingState.countsSound ∧ fetchingState.pendingSound ∧ fetchingState.onePending ∧ fetchingState.contextSound ∧
      fetchingState.blocksSound ∧ fetchingState.expectedSound := by
  have only {i : Fin 256} {r : Record} (h : fetchingState.table.slots[i] = some r) :
      i = 56 ∧ r = { lamp with state := .pending } := only_record fetching_records h
  refine ⟨⟨fun i r h => ?_, fun i j r q hi hj _ => (only hi).1.trans (only hj).1.symm⟩, fun h => absurd h (by decide +kernel),
    ?_, ?_, ?_, fun i r h _ => ?_, fun i j r q hi hj _ _ => (only hi).1.trans (only hj).1.symm, ⟨fun c h => ?_, fun x h _ => ?_⟩,
    ?_, ?_⟩
  · obtain ⟨rfl, rfl⟩ := only h
    decide +kernel
  · unfold State.enrolledCounted
    rw [fetching_records]
    decide +kernel
  · unfold State.withinLimit
    decide +kernel
  · unfold State.countsSound
    rw [fetching_records]
    decide +kernel
  · rw [(only h).2]
    exact ⟨rfl, rfl, fetching, rfl, rfl⟩
  · obtain rfl : fetching = c := Option.some.inj h
    refine ⟨by decide +kernel, by decide +kernel, fun k hk => ?_⟩
    obtain rfl : lamp.key = k := Option.some.inj hk
    exact ⟨rfl, .inl rfl, 56, { lamp with state := .pending }, by decide +kernel, rfl, rfl⟩
  · obtain rfl : extq = x := Option.some.inj h
    exact ⟨fetching, rfl, rfl, rfl, fun _ => rfl⟩
  · intro b
    have hf : fetchingState.store.free = (List.finRange 512).drop 2 := by decide +kernel
    have ht : fetching.held = (List.finRange 512).take 2 := by decide +kernel
    have h1 : (List.finRange 512).count b = 1 := List.count_eq_one_of_mem (List.nodup_finRange 512) (List.mem_finRange b)
    rw [fetching_records, hf, show fetchingState.ee = some fetching from rfl]
    dsimp only
    rw [ht, ← List.take_append_drop 2 (List.finRange 512), List.count_append] at *
    simpa [Record.chain, lamp, newRecord, Nat.add_comm] using h1
  · unfold State.expectedSound
    rw [fetching_records]
    decide +kernel

end Sys2Proof.Tests
end

section
/-! Settles the statements about the host's reads of the Function Table: LOOKUP (R24), READ_RECORD (R25) and FIND_NEXT
(R26). Each request has its outcome at the grant, one equation per case of its operation, and the bytes it answers in
the terms of Safety.lean; the statements put these together. -/

namespace Sys2Proof.Machine

/-! ### What the grant leaves as it was, and the bytes of a response -/

@[simp] theorem State.find_hostGranted (s : State) (k : Key) : s.hostGranted.find k = s.find k := s.find_granted .hp k

@[simp] theorem State.reportedAs_hostGranted (s : State) (r : Record) :
    s.hostGranted.reportedAs r = s.reportedAs r := rfl

/-- The fields of LOOKUP in the terms of R185. -/
theorem State.lookupBytes_eq (s : State) (r : Record) :
    s.lookupBytes r =
      [s.reportedAs r, r.origin.code, r.policy.code, r.feed.code, r.flags.zeroExtend 8, r.conditionsAs] := by
  simp only [State.lookupBytes, State.reportedState_eq, conditionByte_eq]

/-- An optional word is its presence and then its bytes, 0 when it is absent (R185). -/
theorem optionBytes_word (o : Option Word) :
    optionBytes 2 (o.map wordBytes) =
      [BitVec.ofNat 8 o.isSome.toNat, hiByte (o.getD 0), loByte (o.getD 0)] := by
  cases o <;> rfl

/-- The 27 bytes of a READ_RECORD response in the order of R185. -/
theorem State.recordBytes_eq (s : State) (i : Fin 256) (r : Record) :
    s.recordBytes i r =
      [BitVec.ofNat 8 i.val, hiByte r.key.packed, loByte r.key.packed, s.reportedAs r, r.origin.code, r.policy.code,
        r.descIndex.elim 0xFF fun d => d.zeroExtend 8, r.flags.zeroExtend 8, r.feed.code,
        BitVec.ofNat 8 (r.nominal / 256), BitVec.ofNat 8 r.nominal, r.interval.elim 0 fun n => BitVec.ofNat 8 n,
        BitVec.ofNat 8 r.value.isSome.toNat, hiByte (r.value.getD 0), loByte (r.value.getD 0),
        if r.value.isSome then BitVec.ofNat 8 r.age else 0,
        BitVec.ofNat 8 r.demand.isSome.toNat, hiByte (r.demand.getD 0), loByte (r.demand.getD 0),
        BitVec.ofNat 8 r.applied.isSome.toNat, hiByte (r.applied.getD 0), loByte (r.applied.getD 0),
        r.demandState.elim 0xFF fun d => d.code, r.conditionsAs,
        BitVec.ofNat 8 (r.extLength / 256), BitVec.ofNat 8 r.extLength, BitVec.ofNat 8 r.chain.length] := by
  have hinterval : byte (r.interval.getD 0) = r.interval.elim 0 fun n => BitVec.ofNat 8 n := by
    cases r.interval <;> rfl
  simp only [State.recordBytes, State.reportedState_eq, conditionByte_eq, wordBytes, hiByte_word, loByte_word,
    optionBytes_word, hinterval]
  cases r.descIndex <;> cases r.demandState <;> rfl

/-! ### LOOKUP -/

theorem exec_lookup_granted {key : Word} {s : State} (hq : s.port.inHand = some (.lookup key))
    (hg : s.grant = some .hp) : exec (.lookup key) s = .next (s.hostGranted.lookupOp key) :=
  taken_due (due := s.granting (.lookup key)) ⟨hq, hg⟩ _ _

theorem State.lookupOp_found {s : State} {key : Word} {i : Fin 256} {r : Record}
    (h : s.find (Key.ofPacked key) = some (i, r)) :
    s.lookupOp key = s.hostAnswered 0x01 .ok (BitVec.ofNat 8 i.val :: s.lookupBytes r) := by
  simp only [State.lookupOp, h]; rfl

theorem State.lookupOp_absent {s : State} {key : Word} (h : s.find (Key.ofPacked key) = none) :
    s.lookupOp key = s.hostAnswered 0x01 .notFound [] := by
  simp only [State.lookupOp, h]; rfl

/-- Settles O13: at the grant, the record that the lookup finds gives the bytes of the answer. -/
theorem lookupAnswersRecord : Obligations.LookupAnswersRecord := by
  intro key s hq hg
  rw [exec_lookup_granted hq hg]
  constructor
  · intro i r h
    rw [State.lookupOp_found (by simpa using h), State.lookupBytes_eq, State.reportedAs_hostGranted]
  · intro h
    rw [State.lookupOp_absent (by simpa using h)]

/-! ### READ_RECORD -/

theorem exec_readRecord_granted {key : Word} {s : State} (hq : s.port.inHand = some (.readRecord key))
    (hg : s.grant = some .hp) : exec (.readRecord key) s = .next (s.hostGranted.readRecordOp key) :=
  taken_due (due := s.granting (.readRecord key)) ⟨hq, hg⟩ _ _

/-- The bytes are those of the record as it stood; only then is its touched flag clear (R9, R25). -/
theorem State.readRecordOp_found {s : State} {key : Word} {i : Fin 256} {r : Record}
    (h : s.find (Key.ofPacked key) = some (i, r)) :
    s.readRecordOp key =
      (s.setSlot i (some { r with touched := false })).hostAnswered 0x02 .ok (s.recordBytes i r) := by
  simp only [State.readRecordOp, h]; rfl

theorem State.readRecordOp_absent {s : State} {key : Word} (h : s.find (Key.ofPacked key) = none) :
    s.readRecordOp key = s.hostAnswered 0x02 .notFound [] := by
  simp only [State.readRecordOp, h]; rfl

/-- Settles O14: the payload is `recordBytes`, read off byte by byte; clearing the touched flag and noting the grant
concern different fields of the table. -/
theorem readRecordClearsTouched : Obligations.ReadRecordClearsTouched := by
  intro key s hq hg
  rw [exec_readRecord_granted hq hg]
  constructor
  · intro i r h
    refine ⟨s.hostGranted.recordBytes i r, ?_, ?_⟩
    · rw [State.readRecordOp_found (by simpa using h)]
      rfl
    · simp [State.recordBytes_eq]
  · intro h
    rw [State.readRecordOp_absent (by simpa using h)]

/-! ### FIND_NEXT -/

/-- The three tests of FIND_NEXT on the bytes of the request: the handle or ALL, the class under its mask, and
touched-only (R26). -/
def findNextPasses (sel value mask only : Byte) (r : Record) : Prop :=
  (sel = 0xFF ∨ r.key.handle.val = sel.toNat) ∧
    r.key.cls &&& mask.truncate 6 = value.truncate 6 &&& mask.truncate 6 ∧ (only = 0 ∨ r.touched = true)

/-- A selector byte above 7 other than ALL names nothing. -/
theorem selectorOf_none {b : Byte} (h : 8 ≤ b.toNat) (hall : b ≠ 0xFF) : selectorOf b = none := by
  simp only [selectorOf, if_neg hall, handleOf_none h, Option.map_none]

/-- Any other selector byte names ALL or a handle, and the tests of the scan are those of the request's bytes. -/
theorem selectorOf_some {b : Byte} (h : b ≠ 0xFF → b.toNat < 8) (value mask only : Byte) :
    ∃ sel, selectorOf b = some sel ∧
      ∀ r, findMatches sel value mask only r = true ↔ findNextPasses b value mask only r := by
  by_cases hall : b = 0xFF
  · exact ⟨none, if_pos hall, fun r => by simp [findMatches, findNextPasses, hall]⟩
  · have hb : b.toNat < 8 := h hall
    have hsel : selectorOf b = some (some ⟨b.toNat, hb⟩) := by
      simp only [selectorOf, if_neg hall, handleOf_some (k := ⟨b.toNat, hb⟩) rfl, Option.map_some]
    refine ⟨_, hsel, fun r => ?_⟩
    rw [findNextPasses, or_iff_right hall]
    simp [findMatches, Fin.ext_iff, and_assoc]

/-- The scan answers the record in the lowest slot from the cursor that passes the tests (R26). -/
theorem State.findNextOp_found {s : State} {q : Request} {cursor : Byte} {sel : Option (Fin 8)}
    {value mask only : Byte} {i : Fin 256} {r : Record} (hc : cursor.toNat ≤ i.val) (hi : s.table.slots[i] = some r)
    (hr : findMatches sel value mask only r = true)
    (hfirst : ∀ (j : Fin 256) (p : Record), cursor.toNat ≤ j.val → j < i → s.table.slots[j] = some p →
      findMatches sel value mask only p = false) :
    s.findNextOp q cursor sel value mask only =
      s.hostAnswered (requestKind q) .ok (BitVec.ofNat 8 i.val :: wordBytes r.key.packed ++ s.lookupBytes r) := by
  have hscan : s.records.find? (fun p => cursor.toNat ≤ p.1.val && findMatches sel value mask only p.2) =
      some (i, r) := by
    refine (Table.find_record _ _ _ _).2 ⟨hi, by simp [hc, hr], fun j p hj hp => ?_⟩
    simpa using fun hcj => hfirst j p hcj hj hp
  simp only [State.findNextOp, hscan]; rfl

/-- The scan answers END when no record from the cursor passes the tests (R26). -/
theorem State.findNextOp_end {s : State} {q : Request} {cursor : Byte} {sel : Option (Fin 8)}
    {value mask only : Byte}
    (hnone : ∀ (j : Fin 256) (p : Record), cursor.toNat ≤ j.val → s.table.slots[j] = some p →
      findMatches sel value mask only p = false) :
    s.findNextOp q cursor sel value mask only = s.hostAnswered (requestKind q) .end_ [] := by
  have hscan : s.records.find? (fun p => cursor.toNat ≤ p.1.val && findMatches sel value mask only p.2) = none := by
    refine (Table.find_record_none _ _).2 fun j p hp => ?_
    simpa using fun hcj => hnone j p hcj hp
  simp only [State.findNextOp, hscan]; rfl

section
variable {cursor sel value mask only : Byte} {s : State}

theorem exec_findNext_range (hq : s.port.inHand = some (.findNext cursor sel value mask only))
    (hg : s.grant = some .hp) (hbad : (8 ≤ sel.toNat ∧ sel ≠ 0xFF) ∨ 1 < only.toNat) :
    exec (.findNext cursor sel value mask only) s = .next (s.hostGranted.hostAnswered 0x03 .range []) := by
  refine (taken_due (due := s.granting (.findNext cursor sel value mask only)) ⟨hq, hg⟩ _ _).trans
    (congrArg Host.Outcome.next ?_)
  split
  · rfl
  next honly =>
    obtain ⟨hsel, hall⟩ := hbad.resolve_right honly
    rw [selectorOf_none hsel hall]
    rfl

theorem exec_findNext_scan (hq : s.port.inHand = some (.findNext cursor sel value mask only))
    (hg : s.grant = some .hp) (honly : ¬ 1 < only.toNat) {o : Option (Fin 8)} (hsel : selectorOf sel = some o) :
    exec (.findNext cursor sel value mask only) s =
      .next (s.hostGranted.findNextOp (.findNext cursor sel value mask only) cursor o value mask only) := by
  refine (taken_due (due := s.granting (.findNext cursor sel value mask only)) ⟨hq, hg⟩ _ _).trans
    (congrArg Host.Outcome.next ?_)
  rw [if_neg honly, hsel]
  rfl

end

/-- Settles O15: a bad byte is refused before the scan; otherwise the selector names a test of the scan, and the scan
goes through the slots in rising order. -/
theorem findNextScansFromCursor : Obligations.FindNextScansFromCursor := by
  intro cursor sel value mask only s hq hg passes
  split
  next hbad => exact exec_findNext_range hq hg hbad
  next hgood =>
    obtain ⟨hsel, honly⟩ := not_or.1 hgood
    have hnamed : sel ≠ 0xFF → sel.toNat < 8 := fun hne => Nat.lt_of_not_le fun hge => hsel ⟨hge, hne⟩
    obtain ⟨o, ho, htests⟩ := selectorOf_some hnamed value mask only
    have hfails {p : Record} (hp : ¬ passes p) : findMatches o value mask only p = false :=
      Bool.eq_false_iff.2 fun hm => hp ((htests p).1 hm)
    rw [exec_findNext_scan hq hg honly ho]
    constructor
    · intro i r hc hi hr hfirst
      rw [State.findNextOp_found (s := s.hostGranted) hc hi ((htests r).2 hr)
          fun j p hcj hj hp => hfails (hfirst j p hcj hj hp),
        State.lookupBytes_eq]
      rfl
    · intro hnone
      rw [State.findNextOp_end (s := s.hostGranted) fun j p hcj hp => hfails (hnone j p hcj hp)]
      rfl

end Sys2Proof.Machine
end

section
/-! Settles the statement about the host's read of an extension, READ_EXTENSION (R39): what the read bytes are, one
equation per outcome of the operation, and the statement that puts these together. -/

namespace Sys2Proof.Machine

/-! ### The bytes read from a chain -/

@[simp] theorem Store.length_readBytes (st : Store) (chain : List (Fin 512)) (offset count : Nat) :
    (st.readBytes chain offset count).length = count := by
  simp only [Store.readBytes, List.length_map, List.length_range]

/-- Byte j of a read is the extension's byte `offset + j`, at its address in the chain (R32). -/
theorem Store.readBytes_getElem? (st : Store) (chain : List (Fin 512)) (offset : Nat) {count j : Nat}
    (h : j < count) :
    (st.readBytes chain offset count)[j]? = some (Memory.read st.mem (extAddress chain (offset + j))) := by
  simp only [Store.readBytes, List.getElem?_map, List.getElem?_range h, Option.map_some]

/-! ### READ_EXTENSION -/

theorem exec_readExtension_granted {key : Word} {offset length : Byte} {s : State}
    (hq : s.port.inHand = some (.readExtension key offset length)) (hg : s.grant = some .hp) :
    exec (.readExtension key offset length) s =
      .next (s.hostGranted.readExtensionOp (.readExtension key offset length) key offset.toNat length.toNat) :=
  taken_due (due := s.granting (.readExtension key offset length)) ⟨hq, hg⟩ _ _

section
variable {s : State} {q : Request} {key : Word} {offset length : Nat} {i : Fin 256} {r : Record}

theorem State.readExtensionOp_absent (h : s.find (Key.ofPacked key) = none) :
    s.readExtensionOp q key offset length = s.hostAnswered (requestKind q) .notFound [] := by
  simp only [State.readExtensionOp, h]; rfl

/-- The two RANGE refusals of R39: a length outside 1 to 32, and an offset that no byte of the extension has. -/
theorem State.readExtensionOp_range (h : s.find (Key.ofPacked key) = some (i, r))
    (hbad : length = 0 ∨ 32 < length ∨ r.extLength ≤ offset) :
    s.readExtensionOp q key offset length = s.hostAnswered (requestKind q) .range [] := by
  simp only [State.readExtensionOp, h]
  split
  · rfl
  next hlen =>
    have hoff : r.extLength ≤ offset := (or_assoc.2 hbad).resolve_left hlen
    rw [if_pos hoff]
    rfl

/-- A read that starts inside the extension is shortened to the bytes available, and not refused (R39). -/
theorem State.readExtensionOp_read (h : s.find (Key.ofPacked key) = some (i, r))
    (hgood : ¬ (length = 0 ∨ 32 < length ∨ r.extLength ≤ offset)) :
    s.readExtensionOp q key offset length =
      s.hostAnswered (requestKind q) .ok
        (s.reportedAs r :: BitVec.ofNat 8 (min length (r.extLength - offset)) ::
          s.store.readBytes r.chain offset (min length (r.extLength - offset))) := by
  obtain ⟨hlen, hoff⟩ := not_or.1 (mt or_assoc.1 hgood)
  simp only [State.readExtensionOp, h, if_neg hlen, if_neg hoff, State.reportedState_eq]
  rfl

end

/-- Settles O19: the read's outcome is that of the record found, and its bytes stand at their addresses in the chain. -/
theorem readExtensionReadsChain : Obligations.ReadExtensionReadsChain := by
  intro key offset length s hq hg
  dsimp only
  rw [exec_readExtension_granted hq hg]
  have hzero : length = 0 ↔ length.toNat = 0 := BitVec.toNat_inj.symm
  split
  next habsent =>
    rw [State.readExtensionOp_absent (by simpa using habsent)]
    rfl
  next i r hfound =>
    have hfound' : s.hostGranted.find (Key.ofPacked key) = some (i, r) := by simpa using hfound
    simp only [hzero]
    split
    next hbad =>
      rw [State.readExtensionOp_range hfound' hbad]
      rfl
    next hgood =>
      refine ⟨s.store.readBytes r.chain offset.toNat (min length.toNat (r.extLength - offset.toNat)), ?_,
        Store.length_readBytes .., fun j hj => ?_⟩
      · rw [State.readExtensionOp_read hfound' hgood, State.reportedAs_hostGranted]
        rfl
      · rw [Store.length_readBytes] at hj
        exact Store.readBytes_getElem? _ _ _ hj

end Sys2Proof.Machine
end

section
/-! Settles the statement about the ageing pass, AGEING_PASS (R131): what a pass makes of one record and whether it
raises RECORD_CHANGED, the step of the pass in these terms, and the whole pass as one change of the slots and flags. -/

namespace Sys2Proof.Machine

/-! ### Every record of a table changed in slot order -/

/-- The slots after each of some records has been put back changed, in the order of the list. The records are those of
the table `v`, so a slot named twice would be given the same record twice. -/
theorem Table.foldl_set_getElem (f : Record → Record) (v : Table) (i : Fin 256) :
    ∀ (l : List (Fin 256 × Record)) (w : Table), (∀ p ∈ l, v[p.1] = some p.2) →
      (l.foldl (fun w p => w.set p.1 (some (f p.2))) w)[i] = if i ∈ l.map Prod.fst then v[i].map f else w[i]
  | [], w, _ => by simp
  | (j, r) :: l, w, h => by
    obtain ⟨hj, hl⟩ := List.forall_mem_cons.1 h
    rw [List.foldl_cons, Table.foldl_set_getElem f v i l _ hl]
    by_cases hij : i = j
    · subst hij
      simp [hj]
    · simp only [List.map_cons, List.mem_cons, hij, false_or]
      simp [Fin.val_ne_of_ne (Ne.symm hij)]

/-- Every record put back changed leaves every slot with its record changed, and the empty slots empty. -/
theorem Table.foldl_records_getElem (f : Record → Record) (v : Table) (i : Fin 256) :
    ((Table.records v).foldl (fun w p => w.set p.1 (some (f p.2))) v)[i] = v[i].map f := by
  rw [Table.foldl_set_getElem f v i _ _ fun p hp => (Table.mem_records v p.1 p.2).1 hp]
  split
  · rfl
  next hi =>
    cases hv : v[i] with
    | none => rfl
    | some r => exact absurd (List.mem_map_of_mem ((Table.mem_records v i r).2 hv)) hi

/-- Some record of a table passes a test exactly when a slot holds one that does. -/
theorem Table.any_records (v : Table) (P : Record → Bool) :
    ((Table.records v).any fun p => P p.2) = true ↔ ∃ i : Fin 256, ∃ r, v[i] = some r ∧ P r = true := by
  simp only [List.any_eq_true, Prod.exists, Table.mem_records]

/-! ### One record -/

/-- A pass of n steps sets stale on a record (R131). -/
def State.ageingStales (s : State) (n : Nat) (r : Record) : Bool :=
  s.ages r && (r.overdue (min 255 (r.age + n)) && !r.stale)

/-- A record after a pass of n steps (R131, R8). -/
def State.recordAged (s : State) (n : Nat) (r : Record) : Record :=
  if s.ages r then
    { r with age := min 255 (r.age + n), stale := r.stale || s.ageingStales n r }.changedTo (s.ageingStales n r)
  else r

/-- A pass of n steps touches a record and raises RECORD_CHANGED for it (R131, R8). -/
def State.ageingTouches (s : State) (n : Nat) (r : Record) : Bool :=
  s.ageingStales n r && r.policy ≠ .quiet

/-- The event flags with RECORD_CHANGED raised under a condition. -/
def EventUnit.recordChangedIf (e : EventUnit) (b : Bool) : EventUnit :=
  if b then { e with flags := e.flags ||| 0x20 } else e

theorem State.eventsAfterChange_eq (s : State) (r : Record) (changed : Bool) :
    s.eventsAfterChange r changed = s.events.recordChangedIf (changed && r.policy ≠ .quiet) := rfl

/-- To raise RECORD_CHANGED twice is to raise it once. -/
theorem EventUnit.recordChangedIf_twice (e : EventUnit) (b c : Bool) :
    (e.recordChangedIf b).recordChangedIf c = e.recordChangedIf (b || c) := by
  cases b <;> cases c <;> simp [EventUnit.recordChangedIf, BitVec.or_assoc]

/-- The step of a pass at a slot and its record, whether the record is one that ages or not. -/
theorem State.ageRecord_eq {s : State} {n : Nat} {i : Fin 256} {r : Record} (h : s.table.slots[i] = some r) :
    State.ageRecord n s (i, r) =
      { s with
        table := { s.table with slots := s.table.slots.set i (some (s.recordAged n r)) }
        events := s.events.recordChangedIf (s.ageingTouches n r) } := by
  cases ha : s.ages r with
  | true =>
    have hput : State.ageRecord n s (i, r) =
        s.putRecord i { r with age := min 255 (r.age + n), stale := r.stale || s.ageingStales n r }
          (s.ageingStales n r) := by
      simp only [State.ageRecord, ha, if_true, State.ageingStales, Bool.true_and]
    rw [hput, State.putRecord_eq s i r _ _ (by rfl), State.eventsAfterChange_eq, State.recordAged, if_pos ha]
    rfl
  | false =>
    have hset : s.table.slots.set i (some r) = s.table.slots := by
      rw [← h]; exact Vector.set_getElem_self _
    simp [State.ageRecord, State.recordAged, State.ageingTouches, State.ageingStales, EventUnit.recordChangedIf, ha,
      hset]

/-! ### The pass -/

/-- The steps of a pass over records in different slots as one change: the slots take the records as they have aged, and
RECORD_CHANGED is raised once if any of them is touched. -/
theorem State.foldl_ageRecord_eq (n : Nat) :
    ∀ (l : List (Fin 256 × Record)) (s : State), l.Pairwise (fun p q => p.1.val < q.1.val) →
      (∀ p ∈ l, s.table.slots[p.1] = some p.2) →
      l.foldl (State.ageRecord n) s =
        { s with
          table :=
            { s.table with
              slots := l.foldl (fun w p => w.set p.1 (some (s.recordAged n p.2))) s.table.slots }
          events := s.events.recordChangedIf (l.any fun p => s.ageingTouches n p.2) }
  | [], s, _, _ => rfl
  | (i, r) :: l, s, hsorted, hslots => by
    obtain ⟨hbefore, hsorted⟩ := List.pairwise_cons.1 hsorted
    obtain ⟨hi, hslots⟩ := List.forall_mem_cons.1 hslots
    have hrest : ∀ p ∈ l, (s.table.slots.set i (some (s.recordAged n r)))[p.1] = some p.2 := fun p hp => by
      have hne : i.val ≠ p.1.val := ne_of_lt (hbefore p hp)
      simpa [Vector.getElem_set, hne] using hslots p hp
    rw [List.foldl_cons, State.ageRecord_eq hi, State.foldl_ageRecord_eq n l _ hsorted hrest, List.any_cons,
      ← EventUnit.recordChangedIf_twice]
    rfl

/-- The whole pass: every record as it has aged, every empty slot empty as it was. -/
theorem State.agePass_eq (s : State) (n : Nat) :
    s.agePass n =
      { s with
        table := { s.table with slots := s.table.slots.map (Option.map (s.recordAged n)) }
        events := s.events.recordChangedIf (s.records.any fun p => s.ageingTouches n p.2) } := by
  have hslots : (Table.records s.table.slots).foldl (fun w p => w.set p.1 (some (s.recordAged n p.2))) s.table.slots =
      s.table.slots.map (Option.map (s.recordAged n)) := by
    ext1 i hi
    rw [Vector.getElem_map]
    exact Table.foldl_records_getElem (s.recordAged n) s.table.slots ⟨i, hi⟩
  have hheld : ∀ p ∈ Table.records s.table.slots, s.table.slots[p.1] = some p.2 := fun p hp =>
    (Table.mem_records _ p.1 p.2).1 hp
  rw [State.agePass, State.records, State.foldl_ageRecord_eq n _ s (Table.records_sorted _) hheld, hslots]

/-- AGEING_PASS at its grant: the mark leaves the work list and the pass runs (R20, R131). -/
theorem exec_ageingPass_granted {n : Nat} {rest : List WorkEntry} {s : State} (hw : s.workList = .mark n :: rest)
    (hg : s.grant = some .rh) :
    exec .ageingPass s =
      .next
        { s with
          workList := rest
          table := { (s.grantedTo .rh .rh).table with slots := s.table.slots.map (Option.map (s.recordAged n)) }
          events := s.events.recordChangedIf (s.records.any fun p => s.ageingTouches n p.2) } := by
  have hpop : (s.granted .rh).popWork = { s.grantedTo .rh .rh with workList := rest } := by
    simp only [State.popWork, State.granted_rh, State.grantedTo, hw, List.tail_cons]
  change execAgeingPass s = _
  simp only [execAgeingPass, hw, taken_due hg, hpop, State.agePass_eq]
  rfl

/-- Settles O48: the tests of the statement are those of the pass, which acts on each slot by itself; RECORD_CHANGED is
raised where some slot's record is touched. -/
theorem ageingPassAgesEveryValue : Obligations.AgeingPassAgesEveryValue := by
  intro n rest s hw hg ages due
  have hages (r : Record) : ages r = s.ages r := by
    have hleft : s.leaving r.key.handle = decide (s.dir.entries[r.key.handle].state = .leaving) :=
      Bool.eq_iff_iff.2 ((s.leaving_iff _).trans decide_eq_true_iff.symm)
    cases hv : r.value <;> simp [ages, State.ages, hleft, hv]
  have hdue (r : Record) : due r = s.ageingStales n r := by
    cases hi : r.interval <;>
      simp [due, State.ageingStales, Record.overdue, hages, hi, Bool.and_assoc, Bool.and_comm (!r.stale)]
  refine ⟨_, exec_ageingPass_granted hw hg, rfl, fun i => ?_, ?_⟩
  · simp only [hages, hdue]
    exact Vector.getElem_map _ _
  · refine if_congr ((Table.any_records _ _).trans (exists_congr fun i => ?_)) rfl rfl
    cases hs : s.table.slots[i] <;> simp [hdue, State.ageingTouches]

end Sys2Proof.Machine
end

section
/-! Settles the statement about the host's override of a circuit, SET_OVERRIDE (R146): the override a byte names, the
output of a circuit decided afresh after its context is replaced, and the outcome of the request on either side of its
checks. -/

namespace Sys2Proof.Machine

/-! ### The override a byte names -/

theorem Override.ofCode_code (m : Override) : Override.ofCode m.code = some m := by
  cases m <;> rfl

theorem Override.ofCode_none {b : Byte} (h : 3 ≤ b.toNat) : Override.ofCode b = none := by
  have hne {c : Byte} (hc : c.toNat < 3) : b ≠ c := by rintro rfl; omega
  simp only [Override.ofCode, if_neg (hne (c := 0) (by decide)), if_neg (hne (c := 1) (by decide)),
    if_neg (hne (c := 2) (by decide))]

/-! ### A circuit replaced and its output decided afresh -/

@[simp] theorem State.circuit_setCircuit_self (s : State) (k : Fin 8) (c : Circuit) :
    (s.setCircuit k c).circuit k = c :=
  Vector.getElem_set_self _

theorem State.setCircuit_setCircuit_self (s : State) (k : Fin 8) (c d : Circuit) :
    (s.setCircuit k c).setCircuit k d = s.setCircuit k d := by
  simp only [State.setCircuit, Vector.set_set]

/-- Only the replaced context changes: its output is the one that its own override, flash and demand decide with the
blink clock as it runs (R141). -/
theorem State.redecide_setCircuit (s : State) (k : Fin 8) (c : Circuit) :
    (s.setCircuit k c).redecide k =
      s.setCircuit k (c.withOutput (outputOf c.mode c.flash c.demand s.blinkOn) s.now) := by
  simp only [State.redecide, State.circuit_setCircuit_self, State.setCircuit_setCircuit_self, Circuit.redecide_eq]
  rfl

/-! ### SET_OVERRIDE -/

section
variable {s : State} {circuit mode : Byte}

/-- The checks of R146: either one that fails places the fault, and the posted slot empties. -/
theorem exec_setOverride_range (hq : s.port.inHand = some (.setOverride circuit mode))
    (hbad : 8 ≤ circuit.toNat ∨ 3 ≤ mode.toNat) :
    exec (.setOverride circuit mode) s =
      .next (s.postedFault 0x22 (some (circuit.zeroExtend 16)) .range).postedDone := by
  change execSetOverride circuit mode s = _
  rw [execSetOverride, taken_due hq, State.finishPosted_eq, ← State.postFault_eq]
  rcases hbad with hcircuit | hmode
  · rw [handleOf_none hcircuit]
  · rw [Override.ofCode_none hmode]
    cases handleOf circuit <;> rfl

theorem exec_setOverride_taken {k : Fin 8} {m : Override} (hq : s.port.inHand = some (.setOverride circuit mode))
    (hk : k.val = circuit.toNat) (hm : m.code = mode) :
    exec (.setOverride circuit mode) s = .next (s.setCircuitMode k m).postedDone := by
  subst hm
  change execSetOverride circuit m.code s = _
  rw [execSetOverride, taken_due hq, State.finishPosted_eq, handleOf_some hk, Override.ofCode_code]

end

theorem State.setCircuitMode_held {s : State} {k : Fin 8} {m : Override} (h : s.lcm.circuits[k].mode = m) :
    s.setCircuitMode k m = s :=
  if_pos h

/-- A new override cancels the flash where it forces, and decides the output by what is then left (R144, R146). -/
theorem State.setCircuitMode_new {s : State} {k : Fin 8} {m : Override} (h : s.lcm.circuits[k].mode ≠ m) :
    s.setCircuitMode k m =
      let x := s.lcm.circuits[k]
      let flash := if m = .normal then x.flash else none
      s.setCircuit k ({ x with mode := m, flash := flash }.withOutput (outputOf m flash x.demand s.blinkOn) s.now) :=
  (if_neg h).trans (s.redecide_setCircuit k _)

/-- Settles O30: a failed check is the fault; otherwise the override is the one held or a new one. -/
theorem setOverrideDecidesOutput : Obligations.SetOverrideDecidesOutput := by
  intro circuit mode s hq
  refine ⟨exec_setOverride_range hq, fun k m hk hm => ?_⟩
  dsimp only
  rw [exec_setOverride_taken hq hk hm]
  split
  next hheld => rw [State.setCircuitMode_held hheld]
  next hnew =>
    rw [State.setCircuitMode_new hnew]
    rfl

end Sys2Proof.Machine
end

section
/-! Settles the statement about the host's event requests, READ_EVENTS (R176), CLEAR_EVENTS (R175) and WRITE_ENABLES
(R174): the two bytes that carry thirteen flags, what a clearing leaves in each part of the Event Unit, and the outcome
of each request. -/

namespace Sys2Proof.Machine

/-! ### The thirteen flags as two bytes, and a mask of the host as thirteen flags -/

/-- A field of at most 16 bits stands in two bytes by its number; the bits above it read 0 (R185). -/
theorem wordBytes_zeroExtend {n : Nat} (x : BitVec n) :
    wordBytes (x.zeroExtend 16) = [BitVec.ofNat 8 (x.toNat / 256), BitVec.ofNat 8 x.toNat] := by
  have hword : x.zeroExtend 16 = word x.toNat := (BitVec.ofNat_toNat 16 x).symm
  rw [hword, wordBytes_word]

theorem EventUnit.bytes_eq (e : EventUnit) :
    e.bytes =
      [BitVec.ofNat 8 (e.flags.toNat / 256), BitVec.ofNat 8 e.flags.toNat,
        BitVec.ofNat 8 (e.enables.toNat / 256), BitVec.ofNat 8 e.enables.toNat, e.joinMask, e.leftMask,
        e.circuitMask] := by
  simp only [EventUnit.bytes, wordBytes_zeroExtend, List.cons_append, List.nil_append]

/-- The bits of the host's mask that name an event flag are kept; bits 13 to 15 are ignored (R185). -/
theorem getLsbD_truncate_flag (mask : Word) {i : Nat} (hi : i < 13) :
    (mask.truncate 13).getLsbD i = mask.getLsbD i := by
  simp [hi]

/-! ### What CLEAR_EVENTS leaves (R175) -/

/-- A flag stands after the clearing where it stood and the mask does not name it. -/
theorem EventUnit.clear_flags_getLsbD (e : EventUnit) (mask : BitVec 13) (f : Fin 13) :
    (e.clear mask).flags.getLsbD f.val = (e.flags.getLsbD f.val && !mask.getLsbD f.val) := by
  simp [EventUnit.clear]

@[simp] theorem EventUnit.clear_enables (e : EventUnit) (mask : BitVec 13) : (e.clear mask).enables = e.enables := rfl

theorem EventUnit.clear_joinMask (e : EventUnit) (mask : BitVec 13) :
    (e.clear mask).joinMask = if mask.getLsbD 0 then 0 else e.joinMask := rfl

theorem EventUnit.clear_leftMask (e : EventUnit) (mask : BitVec 13) :
    (e.clear mask).leftMask = if mask.getLsbD 1 then 0 else e.leftMask := rfl

theorem EventUnit.clear_circuitMask (e : EventUnit) (mask : BitVec 13) :
    (e.clear mask).circuitMask = if mask.getLsbD 6 then 0 else e.circuitMask := rfl

/-! ### The three requests -/

section
variable {s : State} {mask : Word}

theorem exec_readEvents_taken (hq : s.port.inHand = some .readEvents) :
    exec .readEvents s = .next (s.hostAnswered 0x32 .ok s.events.bytes) :=
  taken_due (due := s.carriesOut .readEvents) hq _ _

theorem exec_clearEvents_taken (hq : s.port.inHand = some (.clearEvents mask)) :
    exec (.clearEvents mask) s =
      .next (({ s with events := s.events.clear (mask.truncate 13) } : State).hostAnswered 0x33 .ok []) :=
  taken_due (due := s.carriesOut (.clearEvents mask)) hq _ _

theorem exec_writeEnables_taken (hq : s.port.inHand = some (.writeEnables mask)) :
    exec (.writeEnables mask) s =
      .next (({ s with events := { s.events with enables := mask.truncate 13 } } : State).hostAnswered 0x34 .ok []) :=
  taken_due (due := s.carriesOut (.writeEnables mask)) hq _ _

end

/-- Settles O33: READ_EVENTS answers the seven bytes of the Event Unit; the other two requests act by the thirteen low
bits of their mask, each part of the unit by its own rule. -/
theorem eventRequestsActOnFlags : Obligations.EventRequestsActOnFlags := by
  refine ⟨fun s hq => ?read, fun mask s hq => ?clear, fun mask s hq => ?enable⟩
  case read => rw [exec_readEvents_taken hq, EventUnit.bytes_eq]
  case clear =>
    refine ⟨_, exec_clearEvents_taken hq, EventUnit.clear_enables _ _, fun f => ?flag, ?join, ?left, ?circuit⟩
    case flag => rw [EventUnit.clear_flags_getLsbD, getLsbD_truncate_flag mask f.isLt]
    case join => rw [EventUnit.clear_joinMask, getLsbD_truncate_flag mask (by decide)]
    case left => rw [EventUnit.clear_leftMask, getLsbD_truncate_flag mask (by decide)]
    case circuit => rw [EventUnit.clear_circuitMask, getLsbD_truncate_flag mask (by decide)]
  case enable => exact ⟨_, fun f => getLsbD_truncate_flag mask f.isLt, exec_writeEnables_taken hq⟩

end Sys2Proof.Machine
end

section
/-! What a command can do, said once (`exec_effect`): it changes nothing, or it changes only what no law of the state
speaks of (`Quiet`), or it makes one of the changes that `Effect` lists. -/

namespace Sys2Proof.Machine

/-! ### The outcome of a command -/

/-- A command answers a next state of which a property holds. -/
def Ends (P : State → Prop) (o : Host.Outcome State Fault Refusal) : Prop := ∃ t, o = .next t ∧ P t

theorem ends_next {P : State → Prop} {t : State} (h : P t) : Ends P (.next t) := ⟨t, rfl, h⟩

theorem ends_taken {P : State → Prop} {due : Prop} [Decidable due] {after s : State} (hs : P s)
    (ha : due → P after) : Ends P (taken due after s) := by
  refine ends_next ?_
  split
  next hdue => exact ha hdue
  next => exact hs

/-! ### Changes that no law speaks of -/

/-- The fields of a record that the laws of the table speak of: which record it is, whether it is PENDING, what it draws
on its circuit, and its blocks. -/
def Record.fixed (r : Record) : Key × Origin × Bool × Feed × Nat × Option Extension :=
  (r.key, r.origin, decide (r.state = .pending), r.feed, r.nominal, r.extension)

/-- A change from s to t that leaves the settings, the store, the directory, the context, the transaction, the meters
and the fixed fields of every record as they were, and keeps the laws of the flags, the lists, the touched marks and
the idle load. -/
structure Quiet (s t : State) : Prop where
  settings : t.settings = s.settings
  store : t.store = s.store
  dir : t.dir = s.dir
  ee : t.ee = s.ee
  slot : t.line.slot = s.line.slot
  meters : t.line.meters = s.line.meters
  enrolled : t.table.enrolledCount = s.table.enrolledCount
  slots : ∀ i : Fin 256, (t.table.slots[i]).map Record.fixed = (s.table.slots[i]).map Record.fixed
  expected : ∀ k : Fin 8, t.lcm.circuits[k].expected = s.lcm.circuits[k].expected
  pending : t.pending = s.pending
  flags : s.detailsFlagged → t.detailsFlagged
  lists : s.listsBounded → t.listsBounded
  touched : s.quietUntouched → t.quietUntouched
  idle : s.loadIdle → t.loadIdle

theorem Quiet.refl (s : State) : Quiet s s :=
  ⟨rfl, rfl, rfl, rfl, rfl, rfl, rfl, fun _ => rfl, fun _ => rfl, rfl, id, id, id, id⟩

theorem Quiet.trans {s t u : State} (h : Quiet s t) (g : Quiet t u) : Quiet s u where
  settings := g.settings.trans h.settings
  store := g.store.trans h.store
  dir := g.dir.trans h.dir
  ee := g.ee.trans h.ee
  slot := g.slot.trans h.slot
  meters := g.meters.trans h.meters
  enrolled := g.enrolled.trans h.enrolled
  slots i := (g.slots i).trans (h.slots i)
  expected k := (g.expected k).trans (h.expected k)
  pending := g.pending.trans h.pending
  flags := g.flags ∘ h.flags
  lists := g.lists ∘ h.lists
  touched := g.touched ∘ h.touched
  idle := g.idle ∘ h.idle

theorem Quiet.before {s t u : State} (g : Quiet t u) (h : Quiet s t) : Quiet s u := h.trans g

end Sys2Proof.Machine
end

section
/-! The operations that are quiet, one lemma each. -/

namespace Sys2Proof.Machine

/-! ### The quiet operations -/

/-- A change is quiet whose fields a frame lemma shows to be the same; what it does change is named. -/
theorem Quiet.of {s t : State} (settings : t.settings = s.settings := by simp) (store : t.store = s.store := by simp)
    (dir : t.dir = s.dir := by simp) (ee : t.ee = s.ee := by simp) (slot : t.line.slot = s.line.slot := by simp)
    (meters : t.line.meters = s.line.meters := by simp)
    (enrolled : t.table.enrolledCount = s.table.enrolledCount := by simp)
    (slots : ∀ i : Fin 256, (t.table.slots[i]).map Record.fixed = (s.table.slots[i]).map Record.fixed := by simp)
    (expected : ∀ k : Fin 8, t.lcm.circuits[k].expected = s.lcm.circuits[k].expected := by simp)
    (pending : t.pending = s.pending := by simp)
    (flags : s.detailsFlagged → t.detailsFlagged := by simp [State.detailsFlagged])
    (lists : s.listsBounded → t.listsBounded := by simp [State.listsBounded])
    (touched : s.quietUntouched → t.quietUntouched := by simp [State.quietUntouched])
    (idle : s.loadIdle → t.loadIdle := by simp [State.loadIdle]) : Quiet s t :=
  ⟨settings, store, dir, ee, slot, meters, enrolled, slots, expected, pending, flags, lists, touched, idle⟩

@[simp] theorem State.granted_slots (s : State) (g : Grantee) : (s.granted g).table.slots = s.table.slots := by
  cases g <;> rfl

@[simp] theorem State.granted_enrolledCount (s : State) (g : Grantee) :
    (s.granted g).table.enrolledCount = s.table.enrolledCount := by
  cases g <;> rfl

theorem quiet_advance (s : State) (n : Nat) : Quiet s (s.advance n) := .of

theorem quiet_granted (s : State) (g : Grantee) : Quiet s (s.granted g) := .of

/-- A raised flag stays raised, so a detail mask keeps its flag (R173). -/
theorem EventUnit.isSet_set (e : EventUnit) (f g : EventFlag) (h : e.isSet g = true) : (e.set f).isSet g = true := by
  simp_all [EventUnit.isSet, EventUnit.set]

theorem quiet_raise (s : State) (f : EventFlag) : Quiet s (s.raise f) :=
  .of (flags := fun ⟨hj, hl, hc⟩ => ⟨fun h => EventUnit.isSet_set _ _ _ (hj h), fun h => EventUnit.isSet_set _ _ _ (hl h),
    fun h => EventUnit.isSet_set _ _ _ (hc h)⟩)

theorem quiet_count (s : State) (c : Counter) : Quiet s (s.count c) := by
  have hbank (b : CounterBank) : Quiet s { s with counters := b } := .of
  dsimp only [State.count]
  split
  · exact .trans (hbank _) (quiet_raise _ _)
  · exact hbank _

theorem quiet_countTimes (s : State) (c : Counter) : ∀ n, Quiet s (s.countTimes c n)
  | 0 => .refl s
  | n + 1 => (quiet_countTimes s c n).trans (quiet_count _ c)

/-! ### The host port -/

/-- A change of the port is quiet that does not bring the load back, nor a request during the load. -/
theorem quiet_port (s : State) (p : HostPort) (hl : p.loading = s.port.loading)
    (hr : s.port.loading = true → s.port.nonPosted = none → s.port.posted = none → p.nonPosted = none ∧ p.posted = none) :
    Quiet s { s with port := p } :=
  .of (idle := fun h hload => by
    obtain ⟨hslots, hcount, hn, hp, hee, hrx, hw⟩ := h (hl ▸ hload)
    obtain ⟨hn', hp'⟩ := hr (hl ▸ hload) hn hp
    exact ⟨hslots, hcount, hn', hp', hee, hrx, hw⟩)

theorem quiet_respond (s : State) (q : Request) (r : Result) (p : List Byte) : Quiet s (s.respond q r p) :=
  quiet_port s _ rfl fun _ _ hp => ⟨rfl, hp⟩

theorem quiet_answer (s : State) (q : Request) (r : Result) : Quiet s (s.answer q r) := quiet_respond s q r []

theorem quiet_finishPosted (s : State) : Quiet s s.finishPosted := quiet_port s _ rfl fun _ hn _ => ⟨hn, rfl⟩

theorem quiet_postFault (s : State) (k : Byte) (w : Option Word) (r : Result) : Quiet s (s.postFault k w r) := by
  unfold State.postFault
  split
  · refine .trans ?_ (quiet_raise _ _)
    exact quiet_port s _ rfl fun _ => And.intro
  · refine .trans ?_ (quiet_raise _ _)
    exact quiet_port s _ rfl fun _ => And.intro

theorem quiet_firstByte (s : State) (b : Byte) : Quiet s (s.firstByte b) := quiet_port s _ rfl fun _ => And.intro

theorem quiet_selectPort (s : State) : Quiet s s.selectPort := quiet_port s _ rfl fun _ => And.intro

theorem quiet_endUnclocked (s : State) : Quiet s s.endUnclocked := quiet_port s _ rfl fun _ => And.intro

theorem quiet_closeTransfer (s : State) (t : Transfer) (out : List Byte) : Quiet s (s.closeTransfer t out) :=
  quiet_port s _ rfl fun _ => And.intro

theorem quiet_endFetch (s : State) (t : Transfer) (n : Nat) : Quiet s (s.endFetch t n) := by
  unfold State.endFetch
  split
  · exact (quiet_closeTransfer s t _).trans (quiet_port _ _ rfl fun _ => And.intro)
  · exact quiet_closeTransfer s t _

/-- The state from which a transfer ends differs from the one before by a first byte at most. -/
theorem quiet_atTransferEnd {s s' : State} {b : Byte} {t : Transfer} (h : s.atTransferEnd b = some (t, s')) :
    Quiet s s' := by
  unfold State.atTransferEnd at h
  split at h
  · split at h
    · cases h
      exact .refl s
    · cases h
  · cases h
    exact quiet_firstByte s b

theorem quiet_discard (s : State) : Quiet s s.discard := quiet_port s _ rfl fun _ => And.intro

theorem quiet_formatError (s : State) (k : Byte) : Quiet s (s.formatError k) := by
  unfold State.formatError
  split
  · exact quiet_postFault s k none .format
  · exact quiet_port s _ rfl fun _ => And.intro

theorem quiet_accept {s : State} (hl : s.port.loading = false) (r : Request) : Quiet s (s.accept r) := by
  unfold State.accept
  split
  · exact quiet_port s _ rfl fun h => by simp [hl] at h
  · exact quiet_port s _ rfl fun h => by simp [hl] at h

/-- A judged submit is discarded, answered FORMAT, or accepted after the load. -/
theorem quiet_judgeSubmit (s : State) (frame : List Byte) : Quiet s (s.judgeSubmit frame) := by
  unfold State.judgeSubmit
  split
  · split
    · exact quiet_discard s
    next hl =>
      repeat' split
      · exact quiet_discard s
      · exact quiet_discard s
      · exact quiet_formatError s _
      · exact quiet_formatError s _
      · exact quiet_accept (by simpa using hl) _
      · exact quiet_formatError s _
  · exact quiet_discard s

/-! ### Records -/

/-- A record written over with its fixed fields kept, and not touched where its policy is QUIET. -/
theorem quiet_setSlot {s : State} {i : Fin 256} {r r' : Record} (hr : s.table.slots[i] = some r)
    (hf : r'.fixed = r.fixed)
    (ht : r'.policy = .quiet → r.policy = .quiet ∧ (r.touched = false → r'.touched = false)) :
    Quiet s (s.setSlot i (some r')) := by
  have hslot (j : Fin 256) : (s.setSlot i (some r')).table.slots[j] = if i = j then some r' else s.table.slots[j] := by
    simp [State.setSlot, Vector.getElem_set, Fin.ext_iff]
  refine .of (slots := fun j => ?slots) (touched := fun h j q hq hp => ?touched) (idle := fun h hload => ?idle)
    (enrolled := rfl)
  case slots =>
    rw [hslot]
    split
    next hij => subst hij; rw [hr, Option.map_some, Option.map_some, hf]
    next => rfl
  case touched =>
    rw [hslot] at hq
    split at hq
    next => cases hq; exact (ht hp).2 (h i r hr (ht hp).1)
    next => exact h j q hq hp
  case idle =>
    rw [(h (by simpa using hload)).1 i] at hr
    cases hr

theorem quiet_putRecord {s : State} {i : Fin 256} {r r' : Record} (hr : s.table.slots[i] = some r)
    (hf : r'.fixed = r.fixed) (hp : r'.policy = r.policy) (ht : r'.touched = r.touched) (changed : Bool) :
    Quiet s (s.putRecord i r' changed) := by
  unfold State.putRecord
  split
  next hc =>
    refine .trans ?_ (quiet_raise _ _)
    refine quiet_setSlot hr hf fun hq => ?_
    simp_all
  next => exact quiet_setSlot hr hf fun hq => ⟨hp ▸ hq, fun h => ht.trans h⟩

/-- A change of the Output Unit that lengthens its queue at most up to its 32 entries. -/
theorem quiet_ou (s : State) (o : OutputUnit) (hq : s.ou.queue.length ≤ 32 → o.queue.length ≤ 32) :
    Quiet s { s with ou := o } :=
  .of (lists := fun h => ⟨hq h.1, h.2⟩)

theorem quiet_setDemandState {s : State} {i : Fin 256} {r r' : Record} (hr : s.table.slots[i] = some r)
    (hf : r'.fixed = r.fixed) (hp : r'.policy = r.policy) (ht : r'.touched = r.touched) (d : DemandState) :
    Quiet s (s.setDemandState i r' d) := by
  have hou (o : OutputUnit) (ho : o.queue = s.ou.queue) (changed : Bool) :
      Quiet s (({ s with ou := o } : State).putRecord i { r' with demandState := some d } changed) := by
    refine .before (quiet_putRecord (r := r) ?_ ?_ ?_ ?_ _) (quiet_ou s o fun h => ?_)
    · exact hr
    · exact hf
    · exact hp
    · exact ht
    · rwa [ho]
  refine hou _ ?_ _
  split
  · rfl
  · split <;> rfl

theorem quiet_clearNote (s : State) : Quiet s s.clearNote := quiet_ou s _ id

theorem quiet_enqueue (s : State) (k : Key) (h : s.ou.queue.length < 32) : Quiet s (s.enqueue k) :=
  quiet_ou s _ fun _ => by simpa using h

/-! ### The circuits -/

/-- A change of the Lamp Circuit Monitor that leaves the expected currents. -/
theorem quiet_lcm (s : State) (l : LampMonitor)
    (h : ∀ k : Fin 8, l.circuits[k].expected = s.lcm.circuits[k].expected) : Quiet s { s with lcm := l } :=
  .of (expected := h)

theorem quiet_setCircuit {s : State} {k : Fin 8} {c : Circuit} (h : c.expected = (s.circuit k).expected) :
    Quiet s (s.setCircuit k c) := by
  refine quiet_lcm s _ fun j => ?_
  simp only [Fin.getElem_fin, Vector.getElem_set]
  split
  next hkj => exact Fin.ext hkj ▸ h
  next => rfl

theorem Circuit.redecide_expected (c : Circuit) (on : Bool) (n : Nat) : (c.redecide on n).expected = c.expected := by
  dsimp only [Circuit.redecide]
  split
  · rfl
  · split <;> rfl

theorem quiet_redecide (s : State) (k : Fin 8) : Quiet s (s.redecide k) :=
  quiet_setCircuit (Circuit.redecide_expected _ _ _)

/-- Operations one after another that are all quiet. -/
theorem quiet_foldl {α : Type} {f : State → α → State} (hf : ∀ s a, Quiet s (f s a)) :
    ∀ (l : List α) (s : State), Quiet s (l.foldl f s)
  | [], s => .refl s
  | a :: l, s => (hf s a).trans (quiet_foldl hf l (f s a))

theorem quiet_flashOn (s : State) (k : Fin 8) : Quiet s (s.flashOn k) := by
  dsimp only [State.flashOn]
  split
  · refine .trans ?_ (quiet_redecide _ _)
    exact quiet_setCircuit rfl
  · exact .refl s

theorem quiet_startFlash (s : State) : Quiet s s.startFlash := quiet_foldl quiet_flashOn all8 s

/-- A raised verdict sets its detail bit and its flag together (R173). -/
theorem quiet_raiseVerdict (s : State) (k : Fin 8) : Quiet s (s.raiseVerdict k) :=
  .of (flags := fun ⟨hj, hl, _⟩ => ⟨fun h => EventUnit.isSet_set _ _ _ (hj h),
    fun h => EventUnit.isSet_set _ _ _ (hl h), fun _ => by
      simp [State.raiseVerdict, EventUnit.isSet, EventUnit.set, EventFlag.bit, bitMask]⟩)

theorem Circuit.countRaw_expected (c : Circuit) (r : CircuitVerdict) : (c.countRaw r).expected = c.expected := by
  unfold Circuit.countRaw
  split
  · rfl
  · split <;> rfl

theorem quiet_judge (s : State) (k : Fin 8) (m : Nat) : Quiet s (s.judge k m) := by
  dsimp only [State.judge]
  split
  · exact quiet_setCircuit (Circuit.countRaw_expected _ _)
  · refine .trans ?_ (quiet_raiseVerdict _ _)
    exact quiet_setCircuit (Circuit.countRaw_expected _ _)

theorem quiet_sampleCircuit (readings : Vector Nat 8) (s : State) (k : Fin 8) :
    Quiet s (s.sampleCircuit readings k) := by
  have hread : Quiet s (s.setCircuit k { s.circuit k with lastM := min 1023 readings[k] }) := quiet_setCircuit rfl
  dsimp only [State.sampleCircuit]
  split
  · exact hread.trans (quiet_judge _ _ _)
  · exact hread

theorem quiet_redecideBlinking (s : State) (k : Fin 8) : Quiet s (s.redecideBlinking k) := by
  unfold State.redecideBlinking
  split
  · exact quiet_redecide s k
  · exact .refl s

theorem quiet_setCircuitDemand (s : State) (k : Fin 8) (d : CircuitDemand) : Quiet s (s.setCircuitDemand k d) := by
  unfold State.setCircuitDemand
  split
  · exact .refl s
  · refine .trans ?_ (quiet_redecide _ _)
    unfold State.restartBlink
    split
    · refine .before (quiet_setCircuit ?_) (quiet_lcm s _ ?_)
      · rfl
      · exact fun _ => rfl
    · exact quiet_setCircuit rfl

theorem quiet_setCircuitMode (s : State) (k : Fin 8) (m : Override) : Quiet s (s.setCircuitMode k m) := by
  dsimp only [State.setCircuitMode]
  split
  · exact .refl s
  · refine .trans ?_ (quiet_redecide _ _)
    exact quiet_setCircuit rfl

/-! ### Searches of the table -/

theorem State.slot_of_find {s : State} {k : Key} {i : Fin 256} {r : Record} (h : s.find k = some (i, r)) :
    s.table.slots[i] = some r :=
  (State.find_spec h).1

theorem State.slot_of_find_records {s : State} {P : Fin 256 × Record → Bool} {i : Fin 256} {r : Record}
    (h : s.records.find? P = some (i, r)) : s.table.slots[i] = some r :=
  (Table.mem_records _ _ _).1 (List.mem_of_find?_eq_some h)

/-- Whether a job takes a record of a circuit: a counted one at or past its cursor that qualifies (R149, R153). -/
def State.takes (s : State) (k : Fin 8) (j : Job) (p : Fin 256 × Record) : Bool :=
  j.cursor ≤ p.1.val && s.counted k p.2 && j.qualifies p.2

/-- An operation of a job, by the first record that the job takes (R153, R154). -/
def State.attributed (s : State) (k : Fin 8) (j : Job) : State :=
  match s.records.find? (s.takes k j) with
  | none => s.setCircuit k { s.circuit k with job := none }
  | some (i, r) =>
    (s.putRecord i { r with suspect := j.suspect } (r.suspect ≠ j.suspect)).setCircuit k
      { s.circuit k with job := some (j.withCursor (i.val + 1)) }

theorem State.attributed_last {s : State} {k : Fin 8} {j : Job} (h : s.records.find? (s.takes k j) = none) :
    s.attributed k j = s.setCircuit k { s.circuit k with job := none } := by
  simp only [State.attributed, h]

theorem State.attributed_first {s : State} {k : Fin 8} {j : Job} {i : Fin 256} {r : Record}
    (h : s.records.find? (s.takes k j) = some (i, r)) :
    s.attributed k j =
      (s.putRecord i { r with suspect := j.suspect } (r.suspect ≠ j.suspect)).setCircuit k
        { s.circuit k with job := some (j.withCursor (i.val + 1)) } := by
  simp only [State.attributed, h]

theorem execAttributionOperation_job {s : State} {k : Fin 8} {j : Job} (hk : s.jobCircuit = some k)
    (hj : (s.circuit k).job = some j) :
    execAttributionOperation s = taken (s.grant = some .lcm) ((s.granted .lcm).attributed k j) s := by
  simp only [execAttributionOperation, hk, hj]
  rfl

theorem quiet_attributed (s : State) (k : Fin 8) (j : Job) : Quiet s (s.attributed k j) := by
  cases hfound : s.records.find? (s.takes k j) with
  | none =>
    rw [State.attributed_last hfound]
    exact quiet_setCircuit rfl
  | some p =>
    rw [State.attributed_first hfound]
    refine .before (quiet_setCircuit ?_) (quiet_putRecord (State.slot_of_find_records hfound) ?_ ?_ ?_ _)
    · simp [State.circuit]
    all_goals rfl

/-! ### The work list, the cycle's counts and the line -/

theorem quiet_popWork (s : State) : Quiet s s.popWork := by
  refine .of (lists := fun h => ⟨h.1, ?count⟩) (idle := fun h hload => ?idle)
  case count =>
    refine le_trans ?_ h.2
    exact ((List.tail_sublist _).filter _).length_le
  case idle =>
    obtain ⟨hslots, hcount, hn, hp, hee, hrx, hw⟩ := h hload
    exact ⟨hslots, hcount, hn, hp, hee, hrx, by rw [State.popWork, hw]; rfl⟩

theorem quiet_rcu (s : State) (r : RollCall) : Quiet s { s with rcu := r } := .of

theorem quiet_badFrame (s : State) : Quiet s s.badFrame := (quiet_rcu s _).trans (quiet_count _ _)

theorem quiet_strayFrame (s : State) : Quiet s s.strayFrame := (quiet_rcu s _).trans (quiet_count _ _)

theorem quiet_setChain (s : State) (c : ChainState) : Quiet s (s.setChain c) := by
  unfold State.setChain
  split
  · exact .refl s
  · exact .trans (quiet_rcu s _) (quiet_raise _ _)

/-- A change of the line that leaves the slot and the meters, and opens no reception during the load. -/
theorem quiet_line (s : State) (l : TrainLine) (hs : l.slot = s.line.slot) (hm : l.meters = s.line.meters)
    (hr : s.port.loading = true → s.line.reception = none → l.reception = none) : Quiet s { s with line := l } :=
  .of (slot := hs) (meters := hm) (idle := fun h hload => by
    obtain ⟨hslots, hcount, hn, hp, hee, hrx, hw⟩ := h hload
    exact ⟨hslots, hcount, hn, hp, hee, hr hload hrx, hw⟩)

theorem quiet_clearOut (s : State) : Quiet s s.clearOut := quiet_line s _ rfl rfl fun _ => id

theorem quiet_transmit (s : State) (f : HeadFrame) (n : Nat) : Quiet s (s.transmit f n) :=
  quiet_line s _ rfl rfl fun _ _ => rfl

theorem quiet_stopReceiving (s : State) : Quiet s s.stopReceiving := quiet_line s _ rfl rfl fun _ _ => rfl

theorem quiet_startCycle (s : State) : Quiet s s.startCycle := (quiet_rcu s _).trans (quiet_transmit _ _ _)

end Sys2Proof.Machine
end

section
/-! The effect of every command (`Effect`): the quiet ones, and the operations that the laws speak of. -/

namespace Sys2Proof.Machine

/-! ### The operations of the quiet commands -/

theorem quiet_lookupOp (s : State) (key : Word) : Quiet s (s.lookupOp key) := by
  unfold State.lookupOp
  split
  · exact quiet_respond _ _ _ _
  · exact quiet_answer _ _ _

theorem quiet_readRecordOp (s : State) (key : Word) : Quiet s (s.readRecordOp key) := by
  unfold State.readRecordOp
  split
  next hfound =>
    refine .before (quiet_respond _ _ _ _) (quiet_setSlot (State.slot_of_find hfound) ?_ ?_)
    · rfl
    · exact fun hq => ⟨hq, fun _ => rfl⟩
  next => exact quiet_answer _ _ _

theorem quiet_findNextOp (s : State) (q : Request) (cursor : Byte) (sel : Option (Fin 8)) (v m t : Byte) :
    Quiet s (s.findNextOp q cursor sel v m t) := by
  unfold State.findNextOp
  split
  · exact quiet_respond _ _ _ _
  · exact quiet_answer _ _ _

/-- An admitted record was HELD and is ACTIVE: it is PENDING neither before nor after. -/
theorem quiet_admitOp (s : State) (key : Word) : Quiet s (s.admitOp key) := by
  unfold State.admitOp
  split
  · exact quiet_answer _ _ _
  next hfound =>
    split
    · exact quiet_answer _ _ _
    · split
      · exact quiet_answer _ _ _
      next hheld =>
        refine .before (quiet_respond _ _ _ _) (quiet_putRecord (State.slot_of_find hfound) ?_ (by rfl) (by rfl) _)
        simp only [ne_eq, not_not] at hheld
        simp [Record.fixed, hheld]

theorem quiet_readExtensionOp (s : State) (q : Request) (key : Word) (o n : Nat) :
    Quiet s (s.readExtensionOp q key o n) := by
  unfold State.readExtensionOp
  split
  · exact quiet_answer _ _ _
  · split
    · exact quiet_answer _ _ _
    · split
      · exact quiet_answer _ _ _
      · exact quiet_respond _ _ _ _

/-- The checks of SET_DEMAND pass only a record of the table. -/
theorem State.slot_of_demandChecks {s : State} {key : Word} {i : Fin 256} {r : Record}
    (h : s.demandChecks key = .ok (i, r)) : s.table.slots[i] = some r := by
  unfold State.demandChecks at h
  split at h
  · cases h
  next hfound =>
    repeat' split at h
    all_goals cases h
    exact State.slot_of_find hfound

/-- The first row of R133 that appends an entry asks for room in the queue. -/
theorem State.demandRow_room {s : State} {r : Record} {v : Word} (h : (s.demandRow r v).2 = true) :
    s.ou.queue.length < 32 := by
  by_contra hfull
  have hno : (s.demandRow r v).2 = false := by
    unfold State.demandRow
    rw [if_neg hfull]
    repeat' split
    all_goals rfl
  exact Bool.false_ne_true (hno.symm.trans h)

theorem State.setDemandState_queue (s : State) (i : Fin 256) (r : Record) (d : DemandState) :
    (s.setDemandState i r d).ou.queue = s.ou.queue := by
  dsimp only [State.setDemandState]
  simp only [State.putRecord_frame]
  split
  · rfl
  · split <;> rfl

theorem quiet_setDemandOp (s : State) (key value : Word) : Quiet s (s.setDemandOp key value) := by
  unfold State.setDemandOp
  split
  · exact .before (quiet_finishPosted _) (quiet_postFault _ _ _ _)
  next i r hok =>
    refine .before (quiet_finishPosted _) ?_
    have hput := quiet_setDemandState (r' := { r with demand := some value }) (State.slot_of_demandChecks hok) rfl rfl rfl
    dsimp only [State.takeDemand]
    split
    next hrow =>
      refine .before (quiet_enqueue _ _ ?_) (hput _)
      rw [State.setDemandState_queue]
      exact State.demandRow_room hrow
    next => exact hput _

theorem quiet_refillOp {s : State} (hq : s.ou.queue.length < 32) : Quiet s s.refillOp := by
  dsimp only [State.refillOp]
  split
  next i r hfound =>
    have hmem : (i, r) ∈ s.records := by
      have h := List.mem_of_find?_eq_some hfound
      simp only [State.refillOrder, List.mem_append, List.mem_filter] at h
      exact h.elim And.left And.left
    refine .before (quiet_ou _ _ id) (.before (quiet_enqueue _ _ ?_)
      (quiet_setDemandState ((Table.mem_records _ _ _).1 hmem) rfl rfl rfl _))
    rwa [State.setDemandState_queue]
  next => exact quiet_ou _ _ id

/-- The record that an in-flight note names stands in the note's slot. -/
theorem State.slot_of_flightRecord {s : State} {n : InFlight} {r : Record} (h : s.flightRecord n = some r) :
    s.table.slots[n.slot] = some r := by
  unfold State.flightRecord at h
  split at h
  next hslot =>
    split at h <;> cases h
    exact hslot
  next => cases h

theorem quiet_completeOp (s : State) (n : InFlight) : Quiet s (s.completeOp n) := by
  unfold State.completeOp
  split
  next r hr =>
    exact .before (quiet_clearNote _)
      (quiet_setDemandState (r' := { r with applied := some n.value }) (State.slot_of_flightRecord hr) rfl rfl rfl _)
  next => exact quiet_clearNote s

theorem quiet_failOp (s : State) (n : InFlight) : Quiet s (s.failOp n) := by
  unfold State.failOp
  split
  next hr => exact .before (quiet_clearNote _) (quiet_setDemandState (State.slot_of_flightRecord hr) rfl rfl rfl _)
  next => exact quiet_clearNote s

theorem State.slot_of_itemRecord {s : State} {it : Item} {i : Fin 256} {r : Record}
    (h : s.itemRecord it = some (i, r)) : s.table.slots[i] = some r := by
  obtain ⟨k, -, hk⟩ := Option.bind_eq_some_iff.1 h
  exact State.slot_of_find hk

theorem quiet_onItemRecord {f : State → Fin 256 → Record → State}
    (hf : ∀ (s : State) (i : Fin 256) (r : Record), s.table.slots[i] = some r → Quiet s (f s i r)) (s : State)
    (it : Item) : Quiet s (s.onItemRecord it f) := by
  unfold State.onItemRecord
  split
  · exact quiet_count _ _
  next hr =>
    split
    · exact quiet_count _ _
    · exact hf _ _ _ (State.slot_of_itemRecord hr)

theorem quiet_takeValue (v : Word) (s : State) (i : Fin 256) (r : Record) (hr : s.table.slots[i] = some r) :
    Quiet s (State.takeValue v s i r) := by
  unfold State.takeValue
  split
  · exact quiet_putRecord hr (by rfl) (by rfl) (by rfl) _
  · exact quiet_count _ _

theorem quiet_setFault (b : Bool) (s : State) (i : Fin 256) (r : Record) (hr : s.table.slots[i] = some r) :
    Quiet s (State.setFault b s i r) :=
  quiet_putRecord hr (by rfl) (by rfl) (by rfl) _

theorem quiet_ageRecord {s : State} {n : Nat} {i : Fin 256} {r : Record} (hr : s.table.slots[i] = some r) :
    Quiet s (State.ageRecord n s (i, r)) := by
  dsimp only [State.ageRecord]
  split
  · exact quiet_putRecord hr (by rfl) (by rfl) (by rfl) _
  · exact .refl s

/-- A pass over records in rising slots: each step leaves the slots of those to come as they were. -/
theorem quiet_foldl_ageRecord (n : Nat) :
    ∀ (l : List (Fin 256 × Record)) (s : State), l.Pairwise (fun p q => p.1.val < q.1.val) →
      (∀ p ∈ l, s.table.slots[p.1] = some p.2) → Quiet s (l.foldl (State.ageRecord n) s)
  | [], s, _, _ => .refl s
  | (i, r) :: l, s, hl, hs => by
    obtain ⟨hlt, hl⟩ := List.pairwise_cons.1 hl
    obtain ⟨hi, hs⟩ := List.forall_mem_cons.1 hs
    refine (quiet_ageRecord hi).trans (quiet_foldl_ageRecord n l _ hl fun p hp => ?_)
    have hne : i.val ≠ p.1.val := (hlt p hp).ne
    rw [State.ageRecord_eq hi]
    simpa [Vector.getElem_set, hne] using hs p hp

theorem quiet_agePass (s : State) (n : Nat) : Quiet s (s.agePass n) :=
  quiet_foldl_ageRecord n _ s (Table.records_sorted _) fun p hp => (Table.mem_records _ p.1 p.2).1 hp

/-! ### What a command can do -/

/-- What a command that is carried out makes of a state: a quiet change, or one of the operations that the laws speak
of, with what is known where it arises. -/
inductive Effect (s : State) : State → Prop where
  | quiet {t : State} : Quiet s t → Effect s t
  | reset : Effect s { State.reset with pending := s.pending }
  | loadEnd (image : List Byte) : s.port.loading = true → Effect s (s.judgeImage image).finishLoad
  | retire (q : Request) (i : Fin 256) (r : Record) : s.table.slots[i] = some r → s.leaving r.key.handle = false →
      r.state ≠ .pending → Effect s (((s.granted .hp).removeRecord i r).respond q .ok [])
  | declareRecord (q : Request) (k : Key) (feed : Feed) (nominal : Nat) (flags : DescFlags) (i : Fin 256) (p : List Byte) :
      (s.entry k.handle).state = .declared → (s.granted .hp).place k .declared = .at_ i → s.port.inHand ≠ none →
      Effect s ((((s.granted .hp).insertAt i
        (newRecord k .declared .active .enrol none flags feed nominal)).noticeFeed feed).respond q .ok p)
  | firstPart (q : Request) (i : Fin 256) (r : Record) (n : Nat) (data : List Byte) : s.table.slots[i] = some r →
      s.leaving r.key.handle = false → r.origin = .declared →
      Effect s ((s.granted .hp).replaceExtension q i r n data)
  | laterPart (q : Request) (chain : List (Fin 512)) (o : Nat) (data : List Byte) :
      Effect s (({ s.granted .hp with store := s.store.writeBytes chain o data } : State).respond q .ok [])
  | declareUnit (q : Request) (position : Option Nat) (h : Fin 8) (p : List Byte) :
      (∀ n, position = some n → 1 ≤ n ∧ n ≤ 6 ∧ s.positionTaken n = false) → s.lowestFree = some h →
      Effect s ((s.setEntry h (s.declaredEntry position)).respond q .ok p)
  | releaseUnit (q : Request) (h : Fin 8) : (s.entry h).state ≠ .free → (s.entry h).state ≠ .leaving →
      s.port.inHand ≠ none → Effect s ((s.depart h true true).respond q .ok [])
  | resumeUnit (q : Request) (h : Fin 8) : (s.entry h).state = .stalled →
      Effect s ((s.setEntry h { s.entry h with state := .live }).respond q .ok [])
  | restartChain (q : Request) : s.port.inHand ≠ none → Effect s (s.restartChainOp.respond q .ok [])
  | writeSetting (q : Request) (n : Fin 131) (v : Nat) (p : List Byte) :
      s.settingInUse n (clampSetting n.val v) = false → s.port.inHand ≠ none →
      Effect s ((s.takeSetting n (clampSetting n.val v)).respond q .ok p)
  | frameEnds (rx : Reception) (bytes : List Byte) : s.line.reception = some rx → Effect s (s.frameEnds rx bytes)
  | openPhase : s.port.loading = false → Effect s s.openPhase
  | giveTurn (r : Requester) : s.nextTurn = some r → s.mayStart → Effect s (s.giveTurn r)
  | requestEnd (x : Transaction) (ends timeout : Nat) : s.line.slot = some x →
      Effect s ((s.advance ends).occupy { x with attempt := .awaiting (ends + timeout) })
  | timeout (x : Transaction) (deadline : Nat) : s.line.slot = some x → x.attempt = .awaiting deadline →
      Effect s ((s.advance deadline).clearOut.timeout x)
  | cycleEnd : s.port.loading = false → s.line.reception = none → Effect s (s.advance s.cycleEnd).clearOut.settle
  | reserve (c : Context) (d : Descriptor) (cl : Classification) : s.ee = some c → c.classification = some cl →
      c.wantsReservation = true → Effect s ((s.granted .ee).reserve c d cl)
  | conclude (c : Context) (d : Descriptor) (cl : Classification) (k : Key) (i : Fin 256) (r : Record) :
      s.ee = some c → c.pendingKey = some k → s.find k = some (i, r) → c.wantsConclusion = true →
      Effect s ((s.granted .ee).conclude c d cl i r)
  | withdrawItem (it : Item) : s.workList ≠ [] → Effect s (((s.granted .rh).popWork).withdrawItem it)
  | addItem (it : Item) : s.workList ≠ [] → Effect s (s.popWork.addItem it)
  | sweep (h : Fin 8) : s.drainHandle = some h → Effect s ((s.granted .sweeper).sweep h)
  | send : s.line.ouTurn = true → s.wantsOutcome = false → Effect s (s.granted .ou).sendOp

theorem Effect.none (s : State) : Effect s s := .quiet (.refl s)

/-- A command whose effect is quiet where it is due. -/
theorem ends_quiet {s after : State} {due : Prop} [Decidable due] (h : due → Quiet s after) :
    Ends (Effect s) (taken due after s) :=
  ends_taken (.none s) fun hd => .quiet (h hd)

theorem effect_readUnit (handle : Byte) (s : State) : Ends (Effect s) (execReadUnit handle s) := by
  refine ends_quiet fun _ => ?_
  split
  · exact quiet_respond _ _ _ _
  · exact quiet_answer _ _ _

theorem effect_readCircuit (circuit : Byte) (s : State) : Ends (Effect s) (execReadCircuit circuit s) := by
  refine ends_quiet fun _ => ?_
  split
  · exact quiet_respond _ _ _ _
  · exact quiet_answer _ _ _

theorem effect_readSetting (number : Byte) (s : State) : Ends (Effect s) (execReadSetting number s) := by
  refine ends_quiet fun _ => ?_
  split
  · exact quiet_respond _ _ _ _
  · exact quiet_answer _ _ _

theorem effect_declareRecord (handle cls inst feed : Byte) (nominal : Word) (flags : Byte) (s : State) :
    Ends (Effect s) (execDeclareRecord handle cls inst feed nominal flags s) := by
  have hanswer (q : Request) (r : Result) : Quiet s ((s.granted .hp).answer q r) :=
    .before (quiet_answer _ _ _) (quiet_granted _ _)
  refine ends_taken (.none s) fun ⟨hq, _⟩ => ?_
  split
  next =>
    split
    · exact .quiet (hanswer _ _)
    · unfold State.declareRecordOp
      split
      · exact .quiet (hanswer _ _)
      next hdeclared =>
        split
        · exact .quiet (hanswer _ _)
        · exact .quiet (hanswer _ _)
        next hplace =>
          refine .declareRecord _ _ _ _ _ _ _ ?_ hplace (by rw [hq]; exact Option.some_ne_none _)
          simpa [State.entry] using hdeclared
  next => exact .quiet (hanswer _ _)

/-- The checks of WRITE_EXTENSION pass only a DECLARED record of the table whose unit is not LEAVING. -/
theorem State.writeChecks_ok {s : State} {key : Word} {first : Byte} {i : Fin 256} {r : Record}
    (h : s.writeChecks key first = .ok (i, r)) :
    s.table.slots[i] = some r ∧ s.leaving r.key.handle = false ∧ r.origin = .declared := by
  unfold State.writeChecks at h
  split at h
  · cases h
  · split at h
    · cases h
    next hfound =>
      split at h
      · cases h
      next hleaving =>
        split at h <;> cases h
        next horigin =>
          refine ⟨State.slot_of_find hfound, by simpa using hleaving, ?_⟩
          cases ho : r.origin
          · exact absurd ho horigin
          · rfl

theorem effect_writeExtensionFirstPart (key : Word) (first : Byte) (total : Word) (part : Byte) (data : List Byte)
    (s : State) : Ends (Effect s) (execWriteExtensionFirstPart key first total part data s) := by
  have hanswer (q : Request) (r : Result) : Quiet s ((s.granted .hp).answer q r) :=
    .before (quiet_answer _ _ _) (quiet_granted _ _)
  refine ends_taken (.none s) fun _ => ?_
  split
  · exact .quiet (hanswer _ _)
  next hchecks =>
    split
    · exact .quiet (hanswer _ _)
    · obtain ⟨hslot, hleaving, horigin⟩ := State.writeChecks_ok hchecks
      exact .firstPart _ _ _ _ _ (by simpa using hslot) hleaving horigin

theorem effect_writeExtensionPart (key : Word) (first : Byte) (total : Word) (part : Byte) (data : List Byte)
    (s : State) : Ends (Effect s) (execWriteExtensionPart key first total part data s) := by
  have hanswer (q : Request) (r : Result) : Quiet s ((s.granted .hp).answer q r) :=
    .before (quiet_answer _ _ _) (quiet_granted _ _)
  refine ends_taken (.none s) fun _ => ?_
  split
  · exact .quiet (hanswer _ _)
  · split
    · exact .quiet (hanswer _ _)
    · exact .laterPart _ _ _ _

theorem effect_retire (key : Word) (s : State) : Ends (Effect s) (execRetire key s) := by
  have hanswer (q : Request) (r : Result) : Quiet s ((s.granted .hp).answer q r) :=
    .before (quiet_answer _ _ _) (quiet_granted _ _)
  refine ends_taken (.none s) fun _ => ?_
  unfold State.retireOp
  split
  · exact .quiet (hanswer _ _)
  next hfound =>
    split
    · exact .quiet (hanswer _ _)
    next hleaving =>
      split
      · exact .quiet (hanswer _ _)
      next hpending =>
        rw [State.find_granted] at hfound
        exact .retire _ _ _ (State.slot_of_find hfound) (Bool.eq_false_iff.2 hleaving) hpending

/-- The position byte of DECLARE_UNIT names a position from 1 to 6, or none (R59). -/
theorem positionOfByte_range {b : Byte} {p : Option Nat} (h : positionOfByte b = some p) :
    ∀ n, p = some n → 1 ≤ n ∧ n ≤ 6 := by
  unfold positionOfByte at h
  rintro n rfl
  split at h
  · cases h
  · split at h <;> cases h
    assumption

theorem effect_declareUnit (position : Byte) (s : State) : Ends (Effect s) (execDeclareUnit position s) := by
  refine ends_taken (.none s) fun _ => ?_
  dsimp only [State.declareUnitOp]
  split
  · exact .quiet (quiet_answer _ _ _)
  next hrange =>
    split
    · exact .quiet (quiet_answer _ _ _)
    next hfree =>
      split
      · exact .quiet (quiet_answer _ _ _)
      next hlowest =>
        refine .declareUnit _ _ _ _ (fun n hn => ?_) hlowest
        obtain ⟨h1, h6⟩ := positionOfByte_range hrange n hn
        subst hn
        exact ⟨h1, h6, by simpa using hfree⟩

theorem effect_releaseUnit (handle : Byte) (s : State) : Ends (Effect s) (execReleaseUnit handle s) := by
  refine ends_taken (.none s) fun hq => ?_
  split
  · exact .quiet (quiet_answer _ _ _)
  · split
    · exact .quiet (quiet_answer _ _ _)
    next hstate =>
      obtain ⟨hfree, hleaving⟩ := not_or.1 hstate
      exact .releaseUnit _ _ hfree hleaving (by rw [hq]; exact Option.some_ne_none _)

theorem effect_resumeUnit (handle : Byte) (s : State) : Ends (Effect s) (execResumeUnit handle s) := by
  refine ends_taken (.none s) fun _ => ?_
  split
  · exact .quiet (quiet_answer _ _ _)
  · split
    next hstalled => exact .resumeUnit _ _ hstalled
    next => exact .quiet (quiet_answer _ _ _)

theorem effect_writeSetting (number : Byte) (value : Word) (s : State) :
    Ends (Effect s) (execWriteSetting number value s) := by
  refine ends_taken (.none s) fun hq => ?_
  split
  · exact .quiet (quiet_answer _ _ _)
  · dsimp only
    split
    · exact .quiet (quiet_answer _ _ _)
    next huse => exact .writeSetting _ _ _ _ (by simpa using huse) (by rw [hq]; exact Option.some_ne_none _)

theorem effect_findNext (cursor sel v m t : Byte) (s : State) :
    Ends (Effect s) (execFindNext cursor sel v m t s) := by
  refine ends_quiet fun _ => .before ?_ (quiet_granted s .hp)
  split
  · exact quiet_answer _ _ _
  · split
    · exact quiet_findNextOp _ _ _ _ _ _ _
    · exact quiet_answer _ _ _

/-! ### The host port and the lamps -/

theorem effect_statusPoll (moment bytes : Nat) (s : State) : Ends (Effect s) (execStatusPoll moment bytes s) := by
  dsimp only [execStatusPoll]
  split
  · exact ends_next (.quiet (.before (quiet_endUnclocked _) (quiet_advance s _)))
  · split
    next hend =>
      exact ends_next (.quiet (.before (quiet_closeTransfer _ _ _) (.before (quiet_atTransferEnd hend) (quiet_advance s _))))
    next => exact ends_next (.none s)

theorem effect_submit (moment : Nat) (frame : List Byte) (s : State) : Ends (Effect s) (execSubmit moment frame s) := by
  unfold execSubmit
  split
  next hend =>
    exact ends_next (.quiet (.before (quiet_judgeSubmit _ _) (.before (quiet_closeTransfer _ _ _)
      (.before (quiet_atTransferEnd hend) (quiet_advance s _)))))
  next => exact ends_next (.none s)

theorem effect_fetch (moment bytes : Nat) (s : State) : Ends (Effect s) (execFetch moment bytes s) := by
  unfold execFetch
  split
  next hend =>
    exact ends_next (.quiet (.before (quiet_endFetch _ _ _) (.before (quiet_atTransferEnd hend) (quiet_advance s _))))
  next => exact ends_next (.none s)

theorem effect_firstByteClocked (moment : Nat) (b : Option Byte) (s : State) :
    Ends (Effect s) (execFirstByteClocked moment b s) := by
  cases b with
  | none => exact ends_quiet fun _ => .before (quiet_selectPort _) (quiet_advance s _)
  | some b => exact ends_quiet fun _ => .before (quiet_firstByte _ _) (quiet_advance s _)

theorem effect_setCircuit (circuit demand : Byte) (s : State) :
    Ends (Effect s) (execSetCircuit circuit demand s) := by
  refine ends_quiet fun _ => .before (quiet_finishPosted _) ?_
  split
  · exact quiet_setCircuitDemand _ _ _
  · exact quiet_postFault _ _ _ _

theorem effect_setOverride (circuit mode : Byte) (s : State) :
    Ends (Effect s) (execSetOverride circuit mode s) := by
  refine ends_quiet fun _ => .before (quiet_finishPosted _) ?_
  split
  · exact quiet_setCircuitMode _ _ _
  · exact quiet_postFault _ _ _ _

/-- A cleared flag takes its detail mask with it (R175). -/
theorem EventUnit.isSet_clear {e : EventUnit} {m : BitVec 13} {f : EventFlag} {mask : Byte}
    (h : mask ≠ 0 → e.isSet f = true) (hm : (if m.getLsbD f.bit then 0 else mask) ≠ 0) : (e.clear m).isSet f = true := by
  split at hm
  next => exact absurd rfl hm
  next hbit =>
    have hlt : f.bit < 13 := by cases f <;> decide
    have hm' : m[f.bit] = false := by simpa [← BitVec.getLsbD_eq_getElem] using hbit
    simpa [EventUnit.isSet, EventUnit.clear, hlt, hm'] using h hm

theorem quiet_clearEvents (s : State) (m : BitVec 13) : Quiet s { s with events := s.events.clear m } :=
  .of (flags := fun ⟨hj, hl, hc⟩ =>
    ⟨EventUnit.isSet_clear hj, EventUnit.isSet_clear hl, EventUnit.isSet_clear hc⟩)

theorem quiet_enables (s : State) (m : BitVec 13) : Quiet s { s with events := { s.events with enables := m } } := .of (flags := id)

theorem quiet_counters (s : State) (b : CounterBank) : Quiet s { s with counters := b } := .of

theorem effect_snapshotCounters (clear : Byte) (s : State) : Ends (Effect s) (execSnapshotCounters clear s) := by
  refine ends_quiet fun _ => ?_
  split
  · exact quiet_answer _ _ _
  · exact .before (quiet_respond _ _ _ _) (quiet_counters s _)

theorem effect_sample (readings : Vector Nat 8) (s : State) : Ends (Effect s) (execSample readings s) :=
  ends_quiet fun _ => .before (quiet_foldl (quiet_sampleCircuit readings) all8 _)
    ((quiet_advance s _).trans (quiet_lcm _ _ fun _ => rfl))

theorem effect_blinkHalfEnd (s : State) : Ends (Effect s) (execBlinkHalfEnd s) := by
  unfold execBlinkHalfEnd
  split
  · exact ends_next (.quiet (.before (quiet_foldl quiet_redecideBlinking all8 _)
      ((quiet_advance s _).trans (quiet_lcm _ _ fun _ => rfl))))
  · exact ends_next (.none s)

theorem effect_flashPhaseEnd (k : Fin 8) (s : State) : Ends (Effect s) (execFlashPhaseEnd k s) := by
  unfold execFlashPhaseEnd
  split
  · exact ends_next (.quiet (.before (quiet_redecide _ _) (.before (quiet_setCircuit rfl) (quiet_advance s _))))
  · exact ends_next (.none s)

theorem effect_attributionOperation (s : State) : Ends (Effect s) (execAttributionOperation s) := by
  unfold execAttributionOperation
  split
  · split
    · exact ends_quiet fun _ => .before (quiet_attributed _ _ _) (quiet_granted s _)
    · exact ends_next (.none s)
  · exact ends_next (.none s)

/-! ### Demands, items and the enrolment context -/

theorem effect_refillOperation (s : State) : Ends (Effect s) (execRefillOperation s) := by
  refine ends_quiet fun ⟨_, hwants⟩ => .before (quiet_refillOp ?_) (quiet_granted s _)
  simp only [State.wantsRefill, Bool.and_eq_true, decide_eq_true_eq] at hwants
  obtain ⟨⟨⟨-, hroom⟩, -⟩, -⟩ := hwants
  simpa using hroom

theorem effect_completionOperation (s : State) : Ends (Effect s) (execCompletionOperation s) := by
  unfold execCompletionOperation
  split
  · exact ends_quiet fun _ => .before (quiet_completeOp _ _) (quiet_granted s _)
  · exact ends_next (.none s)

theorem effect_failureOperation (s : State) : Ends (Effect s) (execFailureOperation s) := by
  unfold execFailureOperation
  split
  · exact ends_quiet fun _ => .before (quiet_failOp _ _) (quiet_granted s _)
  · exact ends_next (.none s)

theorem quiet_poppedItem {f : State → Fin 256 → Record → State}
    (hf : ∀ (s : State) (i : Fin 256) (r : Record), s.table.slots[i] = some r → Quiet s (f s i r)) (s : State)
    (it : Item) : Quiet s (((s.granted .rh).popWork).onItemRecord it f) :=
  .before (quiet_onItemRecord hf _ it) ((quiet_granted s _).trans (quiet_popWork _))

theorem effect_valueItem (s : State) : Ends (Effect s) (execValueItem s) := by
  unfold execValueItem
  split
  next it _ => exact ends_quiet fun _ => quiet_poppedItem (quiet_takeValue it.value) s it
  next => exact ends_next (.none s)

theorem effect_faultItem (s : State) : Ends (Effect s) (execFaultItem s) := by
  unfold execFaultItem
  split
  · exact ends_quiet fun _ => quiet_poppedItem (quiet_setFault true) s _
  · exact ends_next (.none s)

theorem effect_clearItem (s : State) : Ends (Effect s) (execClearItem s) := by
  unfold execClearItem
  split
  · exact ends_quiet fun _ => quiet_poppedItem (quiet_setFault false) s _
  · exact ends_next (.none s)

/-- A command for an item at the head of the work list finds the list not empty. -/
theorem State.workList_of_headItem {s : State} {k : ItemKind} {it : Item} (h : s.headItem k = some it) :
    s.workList ≠ [] := by
  intro hw
  simp [State.headItem, hw] at h

theorem effect_withdrawnItem (s : State) : Ends (Effect s) (execWithdrawnItem s) := by
  unfold execWithdrawnItem
  split
  next hhead => exact ends_taken (.none s) fun _ => .withdrawItem _ (State.workList_of_headItem hhead)
  next => exact ends_next (.none s)

theorem effect_addedItem (s : State) : Ends (Effect s) (execAddedItem s) := by
  unfold execAddedItem
  split
  next hhead => exact ends_next (.addItem _ (State.workList_of_headItem hhead))
  next => exact ends_next (.none s)

theorem effect_ageingPass (s : State) : Ends (Effect s) (execAgeingPass s) := by
  unfold execAgeingPass
  split
  · exact ends_quiet fun _ => .before (quiet_agePass _ _) ((quiet_granted s _).trans (quiet_popWork _))
  · exact ends_next (.none s)

theorem effect_drainSweeperRemoval (s : State) : Ends (Effect s) (execDrainSweeperRemoval s) := by
  unfold execDrainSweeperRemoval
  split
  next hdrain => exact ends_taken (.none s) fun _ => .sweep _ hdrain
  next => exact ends_next (.none s)

theorem effect_reservationOperation (s : State) : Ends (Effect s) (execReservationOperation s) := by
  unfold execReservationOperation
  split
  next hee =>
    split
    next hcl => exact ends_taken (.none s) fun ⟨_, hwants⟩ => .reserve _ _ _ hee hcl hwants
    next => exact ends_next (.none s)
  next => exact ends_next (.none s)

theorem effect_conclusionOperation (s : State) : Ends (Effect s) (execConclusionOperation s) := by
  unfold execConclusionOperation
  split
  next hee =>
    split
    next hfound =>
      obtain ⟨k, hk, hfind⟩ := Option.bind_eq_some_iff.1 hfound
      exact ends_taken (.none s) fun ⟨_, hwants⟩ => .conclude _ _ _ k _ _ hee hk hfind hwants
    next => exact ends_next (.none s)
  next => exact ends_next (.none s)

/-! ### The train line -/

theorem effect_frameArrival (moment : Nat) (p d : Byte) (s : State) : Ends (Effect s) (execFrameArrival moment p d s) := by
  unfold execFrameArrival
  split
  · exact ends_next (.none s)
  · refine ends_quiet fun hsees => (quiet_advance s moment).trans (quiet_line _ _ rfl rfl fun hload => ?_)
    simp only [State.advance_frame] at hload
    simp [State.sees, hload] at hsees

theorem effect_receiveFrame (bytes : List Byte) (s : State) : Ends (Effect s) (execReceiveFrame bytes s) := by
  unfold execReceiveFrame
  split
  next hrx => exact ends_next (.frameEnds _ _ hrx)
  next => exact ends_next (.none s)

theorem effect_lineIdleTruncation (bytes : Nat) (s : State) : Ends (Effect s) (execLineIdleTruncation bytes s) := by
  unfold execLineIdleTruncation
  split
  · exact ends_next (.quiet (.before (quiet_badFrame _) ((quiet_stopReceiving s).trans (quiet_advance _ _))))
  · exact ends_next (.none s)

theorem effect_transactionStart (s : State) : Ends (Effect s) (execTransactionStart s) := by
  unfold execTransactionStart
  split
  next hturn => exact ends_taken (.none s) fun hmay => .giveTurn _ hturn hmay
  next => exact ends_next (.none s)

theorem effect_requestFrameEnd (s : State) : Ends (Effect s) (execRequestFrameEnd s) := by
  unfold execRequestFrameEnd
  split
  next hslot =>
    split
    · exact ends_next (.requestEnd _ _ _ hslot)
    · exact ends_next (.none s)
  next => exact ends_next (.none s)

theorem effect_answerTimeout (s : State) : Ends (Effect s) (execAnswerTimeout s) := by
  unfold execAnswerTimeout
  split
  next hslot =>
    split
    next hawaiting => exact ends_taken (.none s) fun _ => .timeout _ _ hslot hawaiting
    next => exact ends_next (.none s)
  next => exact ends_next (.none s)

/-- Every command, in every state, answers a next state that is one of its effects. -/
theorem exec_effect (c : Instr) (s : State) : Ends (Effect s) (exec c s) := by
  cases c with
  | reset => exact ends_next .reset
  | settingsLoadEnd image => exact ends_taken (.none s) fun ⟨hl, _⟩ => .loadEnd image hl
  | statusPoll moment bytes => exact effect_statusPoll _ _ s
  | submit moment frame => exact effect_submit _ _ s
  | fetch moment bytes => exact effect_fetch _ _ s
  | lookup key => exact ends_quiet fun _ => .before (quiet_lookupOp _ _) (quiet_granted s _)
  | readRecord key => exact ends_quiet fun _ => .before (quiet_readRecordOp _ _) (quiet_granted s _)
  | findNext cursor sel v m t => exact effect_findNext _ _ _ _ _ s
  | admitRecord key => exact ends_quiet fun _ => .before (quiet_admitOp _ _) (quiet_granted s _)
  | retire key => exact effect_retire _ s
  | declareRecord handle cls inst feed nominal flags => exact effect_declareRecord _ _ _ _ _ _ s
  | readExtension key o n => exact ends_quiet fun _ => .before (quiet_readExtensionOp _ _ _ _ _) (quiet_granted s _)
  | writeExtensionFirstPart key first total part data => exact effect_writeExtensionFirstPart _ _ _ _ _ s
  | writeExtensionPart key first total part data => exact effect_writeExtensionPart _ _ _ _ _ s
  | declareUnit position => exact effect_declareUnit _ s
  | readUnit handle => exact effect_readUnit _ s
  | releaseUnit handle => exact effect_releaseUnit _ s
  | resumeUnit handle => exact effect_resumeUnit _ s
  | restartChain => exact ends_taken (.none s) fun hq => .restartChain _ (by rw [hq]; exact Option.some_ne_none _)
  | readChain => exact ends_quiet fun _ => quiet_respond _ _ _ _
  | setDemand key value => exact ends_quiet fun _ => .before (quiet_setDemandOp _ _ _) (quiet_granted s _)
  | setCircuit circuit demand => exact effect_setCircuit _ _ s
  | setOverride circuit mode => exact effect_setOverride _ _ s
  | readCircuit circuit => exact effect_readCircuit _ s
  | readPostedFault =>
    exact ends_quiet fun _ => .before (quiet_respond _ _ _ _) (quiet_port s _ rfl fun _ => And.intro)
  | identify => exact ends_quiet fun _ => quiet_respond _ _ _ _
  | readEvents => exact ends_quiet fun _ => quiet_respond _ _ _ _
  | clearEvents mask => exact ends_quiet fun _ => .before (quiet_respond _ _ _ _) (quiet_clearEvents s _)
  | writeEnables mask => exact ends_quiet fun _ => .before (quiet_respond _ _ _ _) (quiet_enables s _)
  | snapshotCounters clear => exact effect_snapshotCounters _ s
  | readCounters => exact ends_quiet fun _ => quiet_respond _ _ _ _
  | readSetting number => exact effect_readSetting _ s
  | writeSetting number value => exact effect_writeSetting _ _ s
  | receiveFrame bytes => exact effect_receiveFrame _ s
  | lineIdleTruncation bytes => exact effect_lineIdleTruncation _ s
  | transactionPhaseStart => exact ends_taken (.none s) fun ⟨hl, _⟩ => .openPhase hl
  | transactionStart => exact effect_transactionStart s
  | requestFrameEnd => exact effect_requestFrameEnd s
  | answerTimeout => exact effect_answerTimeout s
  | cycleEnd => exact ends_taken (.none s) fun ⟨hl, hrx⟩ => .cycleEnd hl hrx
  | reservationOperation => exact effect_reservationOperation s
  | conclusionOperation => exact effect_conclusionOperation s
  | valueItem => exact effect_valueItem s
  | faultItem => exact effect_faultItem s
  | clearItem => exact effect_clearItem s
  | withdrawnItem => exact effect_withdrawnItem s
  | addedItem => exact effect_addedItem s
  | ageingPass => exact effect_ageingPass s
  | refillOperation => exact effect_refillOperation s
  | sendOperation => exact ends_taken (.none s) fun ⟨_, hturn, hout⟩ => .send hturn hout
  | completionOperation => exact effect_completionOperation s
  | failureOperation => exact effect_failureOperation s
  | drainSweeperRemoval => exact effect_drainSweeperRemoval s
  | attributionOperation => exact effect_attributionOperation s
  | sample readings => exact effect_sample _ s
  | blinkHalfEnd => exact effect_blinkHalfEnd s
  | flashPhaseEnd circuit => exact effect_flashPhaseEnd _ s
  | frameArrival moment preamble delimiter => exact effect_frameArrival _ _ _ s
  | firstByteClocked moment byte => exact effect_firstByteClocked _ _ s

/-- A law that does not look at the waiting commands is kept by the step if every effect keeps it. -/
theorem step_keeps {P : State → Prop} {s t : State} (hs : P s) (hstep : step s = .next t)
    (heffect : ∀ l u, Effect { s with pending := l } u → P u) : P t := by
  unfold step at hstep
  split at hstep
  · cases hstep
    exact hs
  next c rest _ =>
    obtain ⟨u, hu, he⟩ := exec_effect c { s with pending := rest }
    rw [hu] at hstep
    cases hstep
    exact heffect rest t he

end Sys2Proof.Machine
end

section
/-! What every operation keeps, whatever state it is made in (`Keeps`): the settings and the meters in their ranges, the
store's canonical form, the flags of the detail masks, the bounds of the lists, and the directory's UIDs, positions and
release list. -/

namespace Sys2Proof.Machine

/-- A change that leaves the settings and the waiting commands, and keeps the laws that hold of the parts of the state
one by one. -/
structure Keeps (s t : State) : Prop where
  settings : t.settings = s.settings
  pending : t.pending = s.pending
  meters : s.metersInRange → t.metersInRange
  store : s.storeCanonical → t.storeCanonical
  flags : s.detailsFlagged → t.detailsFlagged
  lists : s.listsBounded → t.listsBounded
  directory : s.dir.distinct → s.releasesSound → t.dir.distinct ∧ t.releasesSound

theorem Keeps.refl (s : State) : Keeps s s := ⟨rfl, rfl, id, id, id, id, And.intro⟩

theorem Keeps.trans {s t u : State} (h : Keeps s t) (g : Keeps t u) : Keeps s u where
  settings := g.settings.trans h.settings
  pending := g.pending.trans h.pending
  meters := g.meters ∘ h.meters
  store := g.store ∘ h.store
  flags := g.flags ∘ h.flags
  lists := g.lists ∘ h.lists
  directory hd hr := (h.directory hd hr).elim g.directory

theorem Keeps.before {s t u : State} (g : Keeps t u) (h : Keeps s t) : Keeps s u := h.trans g

/-- The laws of the meters follow the settings and the meters. -/
theorem metersInRange_of {s t : State} (hs : t.settings = s.settings) (hm : t.line.meters = s.line.meters)
    (h : s.metersInRange) : t.metersInRange := by
  simpa [State.metersInRange, State.meterDepth, State.meterRefill, State.setting, hs, hm] using h

theorem Keeps.of {s t : State} (settings : t.settings = s.settings := by simp)
    (pending : t.pending = s.pending := by simp) (meters : t.line.meters = s.line.meters := by simp)
    (store : s.storeCanonical → t.storeCanonical := by simp [State.storeCanonical])
    (flags : s.detailsFlagged → t.detailsFlagged := by simp [State.detailsFlagged])
    (lists : s.listsBounded → t.listsBounded := by simp [State.listsBounded])
    (directory : s.dir.distinct → s.releasesSound → t.dir.distinct ∧ t.releasesSound := by
      simp +contextual [State.releasesSound]) : Keeps s t :=
  ⟨settings, pending, metersInRange_of settings meters, store, flags, lists, directory⟩

theorem Quiet.keeps {s t : State} (h : Quiet s t) : Keeps s t where
  settings := h.settings
  pending := h.pending
  meters := metersInRange_of h.settings h.meters
  store hs := by rwa [State.storeCanonical, h.store]
  flags := h.flags
  lists := h.lists
  directory hd hr := by
    refine ⟨h.dir ▸ hd, ?_⟩
    rwa [State.releasesSound, h.dir, h.slot]

theorem keeps_foldl {α : Type} {f : State → α → State} (hf : ∀ s a, Keeps s (f s a)) :
    ∀ (l : List α) (s : State), Keeps s (l.foldl f s)
  | [], s => .refl s
  | a :: l, s => (hf s a).trans (keeps_foldl hf l (f s a))

/-! ### The directory -/

/-- A directory stays distinct when one entry is replaced whose UID and position are its own or held by no other. -/
theorem Directory.distinct.set {d : Directory} (hd : d.distinct) {h : Fin 8} {e : Entry}
    (hfree : e.state = .free → e.uid = none) (hgone : e.state = .free ∨ e.state = .leaving → e.position = none)
    (huid : ∀ u, e.uid = some u → d.entries[h].uid = some u ∨ ∀ g : Fin 8, d.entries[g].uid ≠ some u)
    (hpos : ∀ p, e.position = some p → d.entries[h].position = some p ∨
      1 ≤ p ∧ p ≤ 6 ∧ (∀ g : Fin 8, d.entries[g].position ≠ some p) ∧ ∀ r, d.reseat = some r → r.toPosition ≠ p) :
    ({ d with entries := d.entries.set h e } : Directory).distinct := by
  obtain ⟨hf, hg, hu, hp, hrange, hreseat⟩ := hd
  have hget (g : Fin 8) : (d.entries.set h e)[g] = if h = g then e else d.entries[g] := by
    simp [Vector.getElem_set, Fin.ext_iff]
  refine ⟨fun g => ?_, fun g => ?_, fun a b hab u => ?_, fun a b hab p => ?_, fun g p => ?_, fun r hr => ?_⟩
  case refine_6 =>
    obtain ⟨h1, h6, hno⟩ := hreseat r hr
    refine ⟨h1, h6, fun g => ?_⟩
    simp only [hget]
    split
    · intro he
      rcases hpos _ he with hp' | ⟨-, -, -, hne⟩
      · exact hno h hp'
      · exact hne r hr rfl
    · exact hno g
  all_goals simp only [hget]
  · split
    · exact hfree
    · exact hf g
  · split
    · exact hgone
    · exact hg g
  · split <;> split
    · simp_all
    next hb hn =>
      intro ha hb'
      rcases huid u ha with ho | ho
      · exact hu h b hn u ho hb'
      · exact ho b hb'
    next hn hb =>
      intro ha hb'
      rcases huid u hb' with ho | ho
      · exact hu h a hn u ho ha
      · exact ho a ha
    · exact hu a b hab u
  · split <;> split
    · simp_all
    next hb hn =>
      intro ha hb'
      rcases hpos p ha with ho | ⟨-, -, ho, -⟩
      · exact hp h b hn p ho hb'
      · exact ho b hb'
    next hn hb =>
      intro ha hb'
      rcases hpos p hb' with ho | ⟨-, -, ho, -⟩
      · exact hp h a hn p ho ha
      · exact ho a ha
    · exact hp a b hab p
  · split
    · intro he
      rcases hpos p he with ho | ⟨h1, h6, -⟩
      · exact hrange h p ho
      · exact ⟨h1, h6⟩
    · exact hrange g p

/-- The reseat in hand may be dropped, or replaced by one to a position that is free. -/
theorem Directory.distinct.withReseat {d : Directory} (hd : d.distinct) {x : Option Reseat}
    (hx : ∀ r, x = some r → 1 ≤ r.toPosition ∧ r.toPosition ≤ 6 ∧ ∀ h : Fin 8, d.entries[h].position ≠ some r.toPosition) :
    ({ d with reseat := x } : Directory).distinct := by
  obtain ⟨hf, hg, hu, hp, hrange, -⟩ := hd
  exact ⟨hf, hg, hu, hp, hrange, hx⟩

/-- A change of the directory that leaves the release list and the slot. -/
theorem Keeps.ofDir {s t : State} (distinct : s.dir.distinct → t.dir.distinct)
    (releases : t.dir.releaseList = s.dir.releaseList := by simp) (slot : t.line.slot = s.line.slot := by simp)
    (settings : t.settings = s.settings := by simp) (pending : t.pending = s.pending := by simp)
    (meters : t.line.meters = s.line.meters := by simp) (store : t.store = s.store := by simp)
    (flags : s.detailsFlagged → t.detailsFlagged := by simp [State.detailsFlagged])
    (lists : s.listsBounded → t.listsBounded := by simp [State.listsBounded]) : Keeps s t :=
  .of settings pending meters (by simp [State.storeCanonical, store]) flags lists
    fun hd hr => ⟨distinct hd, by rwa [State.releasesSound, releases, slot]⟩

/-- An entry replaced that keeps its UID and its position, and becomes neither FREE nor LEAVING where it was not. -/
theorem keeps_setEntry (s : State) (h : Fin 8) (e : Entry) (hu : e.uid = (s.entry h).uid)
    (hp : e.position = (s.entry h).position)
    (hs : e.state = (s.entry h).state ∨ (e.state ≠ .free ∧ e.state ≠ .leaving)) : Keeps s (s.setEntry h e) := by
  refine .ofDir (releases := rfl) fun hd => hd.set (fun hf => ?_) (fun hg => ?_) (fun u he => .inl (hu ▸ he))
    (fun p he => .inl (hp ▸ he))
  · rcases hs with hs | ⟨hs, -⟩
    · exact hu ▸ hd.1 h (hs ▸ hf)
    · exact absurd hf hs
  · rcases hs with hs | ⟨hs, hs'⟩
    · exact hp ▸ hd.2.1 h (hs ▸ hg)
    · rcases hg with hg | hg
      · exact absurd hg hs
      · exact absurd hg hs'

theorem keeps_emptyEntry (s : State) (h : Fin 8) : Keeps s (s.setEntry h Entry.empty) :=
  .ofDir (releases := rfl) fun hd => hd.set (fun _ => rfl) (fun _ => rfl) (fun _ h => nomatch h) (fun _ h => nomatch h)

theorem keeps_raiseLeft (s : State) (h : Fin 8) : Keeps s (s.raiseLeft h) :=
  .of (flags := fun ⟨hj, _, hc⟩ => ⟨fun hm => EventUnit.isSet_set _ _ _ (hj hm),
    fun _ => by simp [State.raiseLeft, EventUnit.isSet, EventUnit.set, EventFlag.bit, bitMask],
    fun hm => EventUnit.isSet_set _ _ _ (hc hm)⟩)

theorem keeps_raiseJoined (s : State) (h : Fin 8) : Keeps s (s.raiseJoined h) :=
  .of (flags := fun ⟨_, hl, hc⟩ => ⟨
    fun _ => by simp [State.raiseJoined, EventUnit.isSet, EventUnit.set, EventFlag.bit, bitMask],
    fun hm => EventUnit.isSet_set _ _ _ (hl hm), fun hm => EventUnit.isSet_set _ _ _ (hc hm)⟩)

theorem keeps_freeEntry (s : State) (h : Fin 8) : Keeps s (s.freeEntry h) :=
  (keeps_emptyEntry s h).trans (keeps_raiseLeft _ h)

theorem keeps_freeIfDrained (s : State) (h : Fin 8) : Keeps s (s.freeIfDrained h) := by
  dsimp only [State.freeIfDrained]
  split
  · exact keeps_freeEntry s h
  · exact .refl s

/-! ### The enrolment context and its end -/

theorem keeps_ee (s : State) (x : Option Context) : Keeps s { s with ee := x } := .of

theorem keeps_withContext (s : State) (c : Context) : Keeps s (s.withContext c) := keeps_ee s _

theorem keeps_setChain (s : State) (c : ChainState) : Keeps s (s.setChain c) := (quiet_setChain s c).keeps

theorem keeps_contextEnded (s : State) : Keeps s s.contextEnded := by
  unfold State.contextEnded
  split
  · exact keeps_setChain _ _
  · exact .refl s

theorem keeps_endContext (s : State) : Keeps s s.endContext := (keeps_ee s none).trans (keeps_contextEnded _)

theorem keeps_settleAbandoned (s : State) : Keeps s s.settleAbandoned := by
  unfold State.settleAbandoned
  split
  · split
    · exact keeps_endContext s
    · exact .refl s
  · exact .refl s

theorem keeps_startContext (s : State) (c : Context) : Keeps s (s.startContext c) :=
  (keeps_withContext s c).trans (keeps_setChain _ _)

theorem keeps_raise (s : State) (f : EventFlag) : Keeps s (s.raise f) := (quiet_raise s f).keeps

theorem keeps_count (s : State) (c : Counter) : Keeps s (s.count c) := (quiet_count s c).keeps

theorem keeps_countTimes (s : State) (c : Counter) (n : Nat) : Keeps s (s.countTimes c n) := (quiet_countTimes s c n).keeps

/-! ### Departure -/

/-- A work list of which no more is kept than before holds no more items. -/
theorem keeps_filterWork (s : State) (p : WorkEntry → Bool) : Keeps s { s with workList := s.workList.filter p } :=
  .of (lists := fun h => ⟨h.1, le_trans ((List.filter_sublist).filter _).length_le h.2⟩)

theorem keeps_purgeItems (s : State) (h : Fin 8) : Keeps s (s.purgeItems h) :=
  (keeps_filterWork s _).trans (keeps_countTimes _ _ _)

/-- A change of the line that leaves the meters, and puts no RELEASE in the slot but for a position from 1 to 6. -/
theorem keeps_line (s : State) (l : TrainLine) (hm : l.meters = s.line.meters)
    (hl : ∀ t, l.slot = some t → t.request.kind = .release →
      (∃ t', s.line.slot = some t' ∧ t'.request = t.request) ∨ 1 ≤ t.request.position ∧ t.request.position ≤ 6) :
    Keeps s { s with line := l } :=
  .of (meters := hm) (directory := fun hd ⟨hn, hr, hs⟩ => ⟨hd, hn, hr, fun t ht hk => by
    rcases hl t ht hk with ⟨t', ht', he⟩ | hp
    · exact he ▸ hs t' ht' (he ▸ hk)
    · exact hp⟩)

theorem keeps_ouNote (s : State) (o : OutputUnit) (hq : o.queue = s.ou.queue) : Keeps s { s with ou := o } :=
  .of (lists := fun h => ⟨hq ▸ h.1, h.2⟩)

theorem keeps_emptySlot (s : State) : Keeps s { s with line := { s.line with slot := none } } :=
  keeps_line s _ rfl fun _ h => nomatch h

theorem keeps_withdraw (s : State) (h : Fin 8) : Keeps s (s.withdraw h) := by
  unfold State.withdraw
  split
  next x hx =>
    split
    · split
      · refine (keeps_emptySlot s).trans (keeps_ouNote _ _ ?_)
        split <;> rfl
      · exact keeps_line s _ rfl fun t ht _ => .inl ⟨x, hx, by cases ht; rfl⟩
    · exact .refl s
  next => exact .refl s

theorem keeps_abandon (s : State) (h : Fin 8) : Keeps s (s.abandon h) := by
  unfold State.abandon
  split
  · split
    · exact keeps_ee s _
    · exact .refl s
  · exact .refl s

theorem keeps_notice (s : State) (k : Fin 8) : Keeps s (s.notice k) := .of

theorem Directory.distinct.leave {d : Directory} (hd : d.distinct) (h : Fin 8) : (d.leave h).distinct := by
  refine (hd.set (h := h) (e := d.entries[h].leave) (fun hf => nomatch hf) (fun _ => rfl) (fun _ hu => .inl hu)
    (fun _ hp => nomatch hp)).withReseat fun r hr => ?_
  obtain ⟨r', hr', he⟩ : ∃ r', d.reseat = some r' ∧ r' = r := by
    split at hr
    next q hq =>
      split at hr
      · cases hr
      · exact ⟨q, hq, Option.some.inj hr⟩
    next => cases hr
  subst he
  obtain ⟨h1, h6, hno⟩ := hd.2.2.2.2.2 r' hr'
  refine ⟨h1, h6, fun g => ?_⟩
  simp only [Fin.getElem_fin, Vector.getElem_set]
  split
  · exact fun hp => nomatch hp
  · exact hno g

/-- The first step of an entry that leaves: the directory, and the Demand Queue without its records. -/
theorem keeps_leaveDir (s : State) (h : Fin 8) :
    Keeps s { s with dir := s.dir.leave h, ou := { s.ou with queue := s.ou.queue.filter fun k => k.handle ≠ h } } :=
  .ofDir (fun hd => hd.leave h) (releases := rfl)
    (lists := fun hl => ⟨le_trans (List.length_filter_le _ _) hl.1, hl.2⟩)

theorem keeps_leaveOne (s : State) (h : Fin 8) : Keeps s (s.leaveOne h) := by
  dsimp only [State.leaveOne]
  split
  · exact .refl s
  · exact .before (keeps_freeIfDrained _ h) (.before (keeps_foldl keeps_notice _ _) (.before (keeps_purgeItems _ h)
      (.before (keeps_abandon _ h) (.before (keeps_withdraw _ h) (keeps_leaveDir s h)))))

/-- Positions from 1 to 6, each listed once, may become owed a RELEASE. -/
theorem keeps_owe (s : State) (ps : List Nat) (hn : ps.Nodup) (hp : ∀ p ∈ ps, 1 ≤ p ∧ p ≤ 6) : Keeps s (s.owe ps) := by
  refine .of (directory := fun hd ⟨hl, hr, hs⟩ => ⟨hd, ?_, ?_, hs⟩)
  · refine hl.append (hn.filter _) ?_
    intro p hp1 hp2
    simp only [List.mem_filter, Bool.not_eq_true', List.contains_eq_mem, decide_eq_false_iff_not] at hp2
    exact hp2.2 hp1
  · intro p hmem
    rcases List.mem_append.1 hmem with hmem | hmem
    · exact hr p hmem
    · exact hp p (List.mem_filter.1 hmem).1

theorem owedPositions_nodup (s : State) (hs : List (Fin 8)) : (s.owedPositions hs).Nodup :=
  List.Nodup.filter _ (by decide)

theorem owedPositions_range (s : State) (hs : List (Fin 8)) (p : Nat) (hp : p ∈ s.owedPositions hs) : 1 ≤ p ∧ p ≤ 6 := by
  have hmem := (List.mem_filter.1 hp).1
  simp only [List.mem_cons, List.not_mem_nil, or_false] at hmem
  omega

theorem keeps_depart (s : State) (h : Fin 8) (cascade release : Bool) : Keeps s (s.depart h cascade release) := by
  dsimp only [State.depart]
  refine .before (keeps_settleAbandoned _) (.before (keeps_owe _ _ ?_ ?_) (keeps_foldl keeps_leaveOne _ s))
  · split
    · exact owedPositions_nodup _ _
    · exact List.nodup_nil
  · split
    · exact owedPositions_range _ _
    · exact fun _ h => nomatch h

theorem keeps_freeJoining (s : State) (h : Fin 8) : Keeps s (s.freeJoining h) :=
  .before (keeps_endContext _) ((keeps_emptyEntry s h).trans (keeps_purgeItems _ h))

end Sys2Proof.Machine
end

section
/-! What the Transaction Engine, the steps of a context and a received frame keep. -/

namespace Sys2Proof.Machine

/-! ### The Transaction Engine -/

/-- A transaction placed in the slot that is no RELEASE, or one for a position from 1 to 6. -/
theorem keeps_occupy (s : State) (x : Transaction)
    (hx : x.request.kind = .release → 1 ≤ x.request.position ∧ x.request.position ≤ 6) : Keeps s (s.occupy x) :=
  keeps_line s _ rfl fun t ht hk => by
    cases ht
    exact .inr (hx hk)

/-- The transaction in the slot, with another standing. -/
theorem keeps_reoccupy {s : State} {x y : Transaction} (hx : s.line.slot = some x) (hy : y.request = x.request) :
    Keeps s (s.occupy y) :=
  keeps_line s _ rfl fun t ht _ => by
    cases ht
    exact .inl ⟨x, hx, hy.symm⟩

theorem keeps_trySend (s : State) : Keeps s s.trySend := by
  unfold State.trySend
  split
  · exact .refl s
  next x hx =>
    have hslot (l : TrainLine) (y : Transaction) (hm : l.meters = s.line.meters) (hl : l.slot = some y)
        (hy : y.request = x.request) : Keeps s { s with line := l } :=
      keeps_line s l hm fun t ht _ => by
        rw [hl] at ht
        cases ht
        exact .inl ⟨x, hx, hy.symm⟩
    dsimp only
    split
    · split
      · refine .before (keeps_count _ _) (hslot _ _ ?_ rfl ?_) <;> rfl
      · refine hslot _ _ ?_ rfl ?_ <;> rfl
    · refine hslot _ _ ?_ rfl ?_ <;> rfl

theorem State.contextFrame_kind (s : State) (c : Context) : (s.contextFrame c).kind ≠ .release := by
  dsimp only [State.contextFrame]
  cases c.phase <;> exact HeadKind.noConfusion

theorem keeps_startEe (s : State) : Keeps s s.startEe := by
  unfold State.startEe
  split
  · exact .before (keeps_trySend _) (keeps_occupy s _ fun h => absurd h (s.contextFrame_kind _))
  · exact .refl s

theorem keeps_startOu (s : State) : Keeps s s.startOu := keeps_line s _ rfl fun t ht _ => .inl ⟨t, ht, rfl⟩

theorem keeps_reseat (s : State) (x : Option Reseat)
    (hx : s.dir.distinct → ∀ r, x = some r → 1 ≤ r.toPosition ∧ r.toPosition ≤ 6 ∧
      ∀ h : Fin 8, s.dir.entries[h].position ≠ some r.toPosition) :
    Keeps s { s with dir := { s.dir with reseat := x } } :=
  .ofDir (fun hd => hd.withReseat (hx hd)) (releases := rfl)

/-- A RELEASE to the head of the release list is for a position of it. -/
theorem keeps_startRelease (s : State) {p : Nat} {ps : List Nat} (h : s.dir.releaseList = p :: ps) :
    Keeps s (s.occupy (newTransaction .ud ⟨.release, p, []⟩ p none)) :=
  .of (meters := rfl) (directory := fun hd ⟨hn, hr, _⟩ => ⟨hd, hn, hr, fun t ht _ => by
    cases ht
    exact hr p (h ▸ List.mem_cons_self)⟩)

theorem keeps_startUd (s : State) : Keeps s s.startUd := by
  unfold State.startUd
  split
  next hlist => exact .before (keeps_trySend _) (keeps_startRelease s hlist)
  next =>
    split
    next r hr =>
      refine .before (keeps_trySend _) (.before (keeps_occupy _ _ fun h => nomatch h) (keeps_reseat s _ fun hd q hq => ?_))
      cases hq
      exact hd.2.2.2.2.2 r hr
    next => exact .refl s

theorem keeps_giveTurn (s : State) (r : Requester) : Keeps s (s.giveTurn r) := by
  have hturn : Keeps s ({ s with line := { s.line with turn := r } } : State).clearOut :=
    keeps_line s _ rfl fun t ht _ => .inl ⟨t, ht, rfl⟩
  cases r
  · exact hturn.trans (keeps_startEe _)
  · exact hturn.trans (keeps_startOu _)
  · exact hturn.trans (keeps_startUd _)

/-! ### The steps of a context -/

theorem keeps_startFlash (s : State) : Keeps s s.startFlash := (quiet_startFlash s).keeps

theorem keeps_joinUnit (s : State) (h : Fin 8) : Keeps s (s.joinUnit h) :=
  .before (keeps_startFlash _) ((keeps_setEntry s h { s.entry h with joined := true } rfl rfl (.inl rfl)).trans (keeps_raiseJoined _ h))

theorem keeps_pendingEmptied (s : State) (h : Fin 8) : Keeps s (s.pendingEmptied h) := by
  dsimp only [State.pendingEmptied]
  have hlive : Keeps s (s.setEntry h { s.entry h with state := .live }) :=
    keeps_setEntry s h _ rfl rfl (.inr ⟨UnitState.noConfusion, UnitState.noConfusion⟩)
  split
  · split
    · exact hlive
    · exact hlive.trans (keeps_joinUnit _ h)
  · exact .refl s

theorem keeps_nextDescriptor (s : State) : Keeps s s.nextDescriptor := by
  unfold State.nextDescriptor
  split
  · exact .refl s
  · split
    · exact keeps_withContext s _
    · exact (keeps_pendingEmptied s _).trans (keeps_endContext _)

theorem keeps_dropIndex (s : State) (c : Context) : Keeps s (s.dropIndex c) := by
  unfold State.dropIndex
  split
  · exact .refl s
  · exact keeps_setEntry s _ _ rfl rfl (.inl rfl)

theorem keeps_finishDescriptor (s : State) (c : Context) : Keeps s (s.finishDescriptor c) :=
  (keeps_dropIndex s c).trans (keeps_nextDescriptor _)

theorem keeps_takeDescriptor (s : State) (c : Context) (d : Descriptor) : Keeps s (s.takeDescriptor c d) := by
  dsimp only [State.takeDescriptor]
  split
  · exact (keeps_withContext s _).trans (keeps_count _ _)
  · exact keeps_withContext s _

/-- Bytes written into the store keep its canonical form. -/
theorem keeps_store (s : State) (st : Store) (h : Memory.wf s.store.mem → Memory.wf st.mem) :
    Keeps s { s with store := st } := .of (store := h)

theorem keeps_takeSegment (s : State) (c : Context) (data : List Byte) : Keeps s (s.takeSegment c data) :=
  .before (keeps_withContext _ _) (keeps_store s _ fun h => Store.wf_writeBytes h _ _ _)

theorem keeps_assignEnded (s : State) (c : Context) (o : Ending) : Keeps s (s.assignEnded c o) := by
  cases o with
  | answered p =>
    exact .before (keeps_nextDescriptor _)
      (keeps_setEntry s _ _ rfl rfl (.inr ⟨UnitState.noConfusion, UnitState.noConfusion⟩))
  | declined => exact keeps_freeJoining s _
  | failed => exact keeps_freeJoining s _
  | withdrawn => exact keeps_settleAbandoned s

theorem keeps_descqEnded (s : State) (c : Context) (o : Ending) : Keeps s (s.descqEnded c o) := by
  cases o with
  | answered p =>
    dsimp only [State.descqEnded]
    split
    · exact keeps_takeDescriptor s c _
    · exact keeps_depart s _ _ _
  | declined => exact keeps_finishDescriptor s c
  | failed => exact keeps_depart s _ _ _
  | withdrawn => exact keeps_settleAbandoned s

theorem keeps_extqEnded (s : State) (c : Context) (o : Ending) : Keeps s (s.extqEnded c o) := by
  unfold State.extqEnded
  split
  · exact keeps_settleAbandoned s
  · split
    · exact keeps_nextDescriptor s
    · split
      · split
        · exact keeps_takeSegment s c _
        · exact keeps_withContext s _
      · exact keeps_withContext s _

theorem keeps_verdictEnded (s : State) (c : Context) (o : Ending) : Keeps s (s.verdictEnded c o) := by
  cases o
  case withdrawn => exact keeps_settleAbandoned s
  all_goals exact keeps_finishDescriptor s c

theorem keeps_eeEnded (s : State) (kind : HeadKind) (o : Ending) : Keeps s (s.eeEnded kind o) := by
  unfold State.eeEnded
  split
  · exact .refl s
  · split
    · exact keeps_assignEnded s _ o
    · exact keeps_descqEnded s _ o
    · exact keeps_extqEnded s _ o
    · exact keeps_verdictEnded s _ o

theorem keeps_ouEnded (s : State) (o : Ending) : Keeps s (s.ouEnded o) := keeps_ouNote s _ rfl

/-- The reseat in hand ends with its entry in its new position, or where it was. -/
theorem keeps_reseatEnded (s : State) (o : Ending) : Keeps s (s.reseatEnded o) := by
  unfold State.reseatEnded
  split
  · exact .refl s
  next r hr =>
    have hclear (e : Entry) (hs : e.state = (s.entry r.handle).state) (hu : e.uid = (s.entry r.handle).uid)
        (hp : s.dir.distinct → e.position = (s.entry r.handle).position ∨
          e.state.onChain = true ∧ e.position = some r.toPosition) :
        Keeps s { s with dir := { s.dir with entries := s.dir.entries.set r.handle e, reseat := none } } := by
      refine .ofDir (fun hd => ?_) (releases := rfl)
      have hnone : ({ s.dir with reseat := none } : Directory).distinct := hd.withReseat fun _ h => nomatch h
      refine hnone.set (fun hf => hu ▸ hd.1 _ (hs ▸ hf)) (fun hg => ?_) (fun u h => .inl (hu ▸ h)) (fun p h => ?_)
      · rcases hp hd with hp | ⟨hc, -⟩
        · exact hp ▸ hd.2.1 _ (hs ▸ hg)
        · obtain ⟨h1, h2⟩ := UnitState.onChain_ne hc
          rcases hg with hg | hg
          · exact absurd hg h1
          · exact absurd hg h2
      · rcases hp hd with hp | ⟨-, hp⟩
        · exact .inl (hp ▸ h)
        · obtain ⟨h1, h6, hno⟩ := hd.2.2.2.2.2 r hr
          cases hp.symm.trans h
          exact .inr ⟨h1, h6, hno, fun _ h => nomatch h⟩
    dsimp only
    split
    · exact .refl s
    · split
      next hc => exact .before (keeps_raise _ _) (hclear _ rfl rfl fun _ => .inr ⟨hc, rfl⟩)
      next => exact hclear _ rfl rfl fun _ => .inl rfl
    · exact hclear _ rfl rfl fun _ => .inl rfl

theorem keeps_releaseTail (s : State) : Keeps s { s with dir := { s.dir with releaseList := s.dir.releaseList.tail } } :=
  .of (directory := fun hd ⟨hn, hr, hs⟩ =>
    ⟨hd, hn.sublist (List.tail_sublist _), fun p hp => hr p (List.mem_of_mem_tail hp), hs⟩)

theorem keeps_udEnded (s : State) (kind : HeadKind) (o : Ending) : Keeps s (s.udEnded kind o) := by
  unfold State.udEnded
  split
  · exact keeps_releaseTail s
  · exact keeps_reseatEnded s o

theorem keeps_endTransaction (s : State) (x : Transaction) (o : Ending) : Keeps s (s.endTransaction x o) := by
  dsimp only [State.endTransaction]
  split
  · exact (keeps_emptySlot s).trans (keeps_eeEnded _ _ _)
  · exact (keeps_emptySlot s).trans (keeps_ouEnded _ _)
  · exact (keeps_emptySlot s).trans (keeps_udEnded _ _ _)

theorem keeps_timeout {s : State} {x : Transaction} (hx : s.line.slot = some x) : Keeps s (s.timeout x) := by
  unfold State.timeout
  split
  · exact keeps_endTransaction s x _
  · split
    · exact (keeps_reoccupy hx rfl).trans (keeps_trySend _)
    · exact (keeps_count s _).trans (keeps_endTransaction _ x _)

/-! ### Received frames -/

theorem keeps_offerItem (s : State) (h : Fin 8) (it : Byte × Byte × Byte × Word) : Keeps s (s.offerItem h it) := by
  unfold State.offerItem
  split
  · exact keeps_count s _
  · split
    · exact keeps_count s _
    · split
      · exact keeps_count s _
      next hroom =>
        refine .of (lists := fun hl => ⟨hl.1, ?_⟩)
        rw [itemCount_append]
        simp only [itemCount, List.filter_cons_of_pos, List.filter_nil, List.length_singleton] at hroom ⊢
        omega

theorem keeps_claim (s : State) (h : Fin 8) (parting : Bool) (items : List (Byte × Byte × Byte × Word)) :
    Keeps s (s.claim h parting items) := by
  have hmark : Keeps s (s.setEntry h { s.entry h with answered := true, misplaced := 0, parting := parting }) :=
    keeps_setEntry s h _ rfl rfl (.inl rfl)
  dsimp only [State.claim]
  refine .before (keeps_foldl (fun a it => keeps_offerItem a h it) items _) ?_
  split
  · exact hmark.trans (keeps_depart _ h _ _)
  · exact hmark

theorem keeps_unclaimed (s : State) {p : Nat} (hp : 1 ≤ p ∧ p ≤ 6) (items : List (Byte × Byte × Byte × Word)) :
    Keeps s (s.unclaimed p items) := by
  have hcount := keeps_countTimes s .itemsUnknown items.length
  have howe := hcount.trans (keeps_owe _ [p] (List.nodup_singleton p) (by simpa using hp))
  dsimp only [State.unclaimed]
  split
  · exact hcount
  · split
    · exact howe.trans (keeps_raise _ _)
    · exact howe

theorem keeps_presentInSlot (s : State) {p : Nat} (hp : 1 ≤ p ∧ p ≤ 6) (payload : List Byte) :
    Keeps s (s.presentInSlot p payload) := by
  dsimp only [State.presentInSlot]
  split
  · exact keeps_claim s _ _ _
  · exact keeps_unclaimed s hp _

/-- No entry holds a position that `holder` finds no holder of: a FREE entry holds none. -/
theorem State.holder_none {s : State} (hd : s.dir.distinct) {q : Nat} (h : s.holder q = none) (g : Fin 8) :
    s.dir.entries[g].position ≠ some q := by
  intro hp
  have hg := (find_all8_none _).1 h g
  by_cases hf : s.dir.entries[g].state = .free
  · rw [hd.2.1 g (.inl hf)] at hp
    cases hp
  · simp_all [State.entry]

theorem keeps_reseatCheck (s : State) (h : Fin 8) (p q : Nat) : Keeps s (s.reseatCheck h p q) := by
  unfold State.reseatCheck
  split
  next hc =>
    obtain ⟨-, h1, h6, hno, -⟩ := hc
    refine keeps_reseat s _ fun hd r hr => ?_
    cases hr
    exact ⟨h1, h6, State.holder_none hd hno⟩
  next => exact .refl s

theorem keeps_presentMisplaced (s : State) (p hop : Nat) : Keeps s (s.presentMisplaced p hop) := by
  unfold State.presentMisplaced
  split
  next h _ =>
    have hstreak : Keeps s (s.setEntry h { s.entry h with misplaced := min 2 ((s.entry h).misplaced + 1) }) :=
      keeps_setEntry s h _ rfl rfl (.inl rfl)
    dsimp only
    split
    · exact .refl s
    · split
      · exact hstreak.trans (keeps_reseatCheck _ h _ _)
      · exact hstreak
  next => exact .refl s

theorem keeps_strayFrame (s : State) : Keeps s s.strayFrame := (quiet_strayFrame s).keeps

theorem keeps_notePlaced (s : State) (p : Nat) : Keeps s (s.notePlaced p) := (quiet_rcu s _).keeps

theorem keeps_placePresent (s : State) (arrival : Nat) (f : NodeFrame) : Keeps s (s.placePresent arrival f) := by
  unfold State.placePresent
  split
  next hw =>
    have hp : 1 ≤ f.position ∧ f.position ≤ 6 := by
      have hw := hw.1
      simp only [State.inSlotWindow, Bool.and_eq_true, decide_eq_true_eq] at hw
      exact hw.1.1
    split
    · exact (keeps_notePlaced s _).trans (keeps_presentInSlot _ hp _)
    · exact ((keeps_notePlaced s _).trans (keeps_strayFrame _)).trans (keeps_presentMisplaced _ _ _)
  next => exact keeps_strayFrame s

/-- A meter changed within its depth and its refill setting. -/
theorem keeps_meter (s : State) (m : Fin 4) (x : Meter)
    (hx : s.line.meters[m].tokens ≤ s.meterDepth m → s.line.meters[m].refill < s.meterRefill m →
      x.tokens ≤ s.meterDepth m ∧ x.refill < s.meterRefill m) :
    Keeps s { s with line := { s.line with meters := s.line.meters.set m x } } where
  settings := rfl
  pending := rfl
  meters hs n := by
    simp only [Fin.getElem_fin, Vector.getElem_set]
    split
    next hmn => exact Fin.ext hmn ▸ hx (hs m).1 (hs m).2
    next => exact hs n
  store := id
  flags := id
  lists := id
  directory := And.intro

theorem keeps_charge (s : State) (p : Nat) : Keeps s (s.charge p).2 := by
  unfold State.charge
  split
  · exact .refl s
  · dsimp only
    split
    · exact keeps_meter s _ _ fun h1 h2 => ⟨le_trans (Nat.sub_le _ _) h1, h2⟩
    · exact keeps_count s _

/-- The allocation of a FREE handle, to a UID that no entry has and a position that none holds. -/
theorem keeps_allocate (s : State) (h : Fin 8) (uid : Uid) (n q : Nat) (hq : 1 ≤ q ∧ q ≤ 6)
    (hu : s.entryOfUid uid = none) (hh : s.holder q = none) (hr : s.reseatTo q = false) :
    Keeps s (s.allocate h uid n q) := by
  refine .before (keeps_startContext _ _) (.ofDir (fun hd => hd.set (fun hf => nomatch hf) ?_ ?_ ?_) (releases := rfl))
  · exact fun hg => hg.elim (fun h => nomatch h) (fun h => nomatch h)
  · intro u he
    cases he
    refine .inr fun g hg => ?_
    have hf := (find_all8_none _).1 hu g
    by_cases hfree : s.dir.entries[g].state = .free
    · rw [hd.1 g hfree] at hg
      cases hg
    · simp_all [State.entry]
  · intro p he
    cases he
    refine .inr ⟨hq.1, hq.2, State.holder_none hd hh, fun r hr' hp => ?_⟩
    simp [State.reseatTo, hr', hp] at hr

theorem keeps_directoryAnnounce (s : State) (uid : Uid) (n q : Nat) (hq : 1 ≤ q) :
    Keeps s (s.directoryAnnounce uid n q) := by
  have hdefer (s : State) : Keeps s s.defer := keeps_count s _
  unfold State.directoryAnnounce
  split
  · split
    · exact hdefer s
    · exact (keeps_depart s _ _ _).trans (hdefer _)
  next hu =>
    split
    · exact hdefer s
    next h6 =>
      split
      · split
        · exact (keeps_raise s _).trans (hdefer _)
        · exact hdefer s
      next hh =>
        split
        · exact hdefer s
        next hl =>
          split
          · exact hdefer s
          · split
            · exact (keeps_raise s _).trans (hdefer _)
            · exact keeps_allocate s _ _ _ _ ⟨hq, not_lt.1 h6⟩ hu hh (Bool.eq_false_iff.2 (not_or.1 hl).2)

theorem keeps_announceTaken (s : State) : Keeps s s.announceTaken := by
  dsimp only [State.announceTaken]
  split
  · exact (quiet_rcu s _).keeps.trans (keeps_setChain _ _)
  · exact (quiet_rcu s _).keeps

theorem keeps_takeAnnounce (s : State) (f : NodeFrame) : Keeps s (s.takeAnnounce f) := by
  unfold State.takeAnnounce
  split
  · have hcharge := (keeps_announceTaken s).trans (keeps_charge _ (f.hop + 1))
    dsimp only
    split
    · exact hcharge.trans (keeps_directoryAnnounce _ _ _ _ (Nat.le_add_left 1 _))
    · exact hcharge
  · exact keeps_strayFrame s

theorem keeps_placeAnswer (s : State) (arrival : Nat) (f : NodeFrame) : Keeps s (s.placeAnswer arrival f) := by
  unfold State.placeAnswer
  split
  · split
    · exact keeps_endTransaction s _ _
    · exact keeps_strayFrame s
  · exact keeps_strayFrame s

theorem keeps_placeFrame (s : State) (arrival : Nat) (f : NodeFrame) : Keeps s (s.placeFrame arrival f) := by
  unfold State.placeFrame
  split
  · exact keeps_strayFrame s
  · split
    · exact keeps_placePresent s _ _
    · split
      · split
        · exact keeps_takeAnnounce s _
        · exact keeps_strayFrame s
      · exact keeps_placeAnswer s _ _

theorem TrainLine.notePolarity_slot (l : TrainLine) (i : Bool) : (l.notePolarity i).slot = l.slot := by
  unfold TrainLine.notePolarity
  split
  · rfl
  · split <;> rfl

theorem TrainLine.notePolarity_meters (l : TrainLine) (i : Bool) : (l.notePolarity i).meters = l.meters := by
  unfold TrainLine.notePolarity
  split
  · rfl
  · split <;> rfl

theorem keeps_frameEnds (s : State) (rx : Reception) (bytes : List Byte) : Keeps s (s.frameEnds rx bytes) := by
  have hend := ((quiet_stopReceiving s).trans (quiet_advance _ (rx.frameEnd bytes))).keeps
  dsimp only [State.frameEnds]
  split
  · refine hend.trans (.before (keeps_placeFrame _ _ _) ((keeps_count _ .framesGood).trans (keeps_line _ _ ?_ ?_)))
    · exact TrainLine.notePolarity_meters _ _
    · intro t ht _
      rw [TrainLine.notePolarity_slot] at ht
      exact .inl ⟨t, ht, rfl⟩
  · exact hend.trans (quiet_badFrame _).keeps

end Sys2Proof.Machine
end

section
/-! What the table's operations, the items and the cycle keep, and so every effect but the three that set the settings. -/

namespace Sys2Proof.Machine

/-! ### The table and the extensions -/

theorem keeps_noticeFeed (s : State) (f : Feed) : Keeps s (s.noticeFeed f) := .of

theorem keeps_granted (s : State) (g : Grantee) : Keeps s (s.granted g) := (quiet_granted s g).keeps

theorem keeps_respond (s : State) (q : Request) (r : Result) (p : List Byte) : Keeps s (s.respond q r p) :=
  (quiet_respond s q r p).keeps

theorem keeps_setSlot (s : State) (i : Fin 256) (o : Option Record) : Keeps s (s.setSlot i o) := .of

theorem keeps_putRecord (s : State) (i : Fin 256) (r : Record) (changed : Bool) : Keeps s (s.putRecord i r changed) := by
  unfold State.putRecord
  split
  · exact (keeps_setSlot s i _).trans (keeps_raise _ _)
  · exact keeps_setSlot s i _

theorem keeps_insertAt (s : State) (i : Fin 256) (r : Record) : Keeps s (s.insertAt i r) := by
  have hput : Keeps s ((s.setSlot i (some r)).setEntry r.key.handle
      { s.entry r.key.handle with recordCount := (s.entry r.key.handle).recordCount + 1 }) :=
    (keeps_setSlot s i _).trans (keeps_setEntry _ _ _ rfl rfl (.inl rfl))
  dsimp only [State.insertAt]
  split
  · refine hput.trans ?_
    exact .of
  · exact hput

/-- What a removal leaves of the unit's entry: one record fewer, and the charge without the blocks returned. -/
theorem State.removeRecord_dir (s : State) (i : Fin 256) (r : Record) :
    (s.removeRecord i r).dir = (s.setEntry r.key.handle
      { s.entry r.key.handle with
        recordCount := (s.entry r.key.handle).recordCount - 1
        charge := (s.entry r.key.handle).charge - (s.removalBlocks r).length }).dir := by
  dsimp only [State.removeRecord]
  split
  · simp only [State.noticeFeed_frame]
    rfl
  · rfl

/-- What a removal leaves of the context: one that names the record removed names none (R7). -/
theorem State.removeRecord_ee (s : State) (i : Fin 256) (r : Record) :
    (s.removeRecord i r).ee =
      s.ee.map fun c => if r.state = .pending ∧ c.pendingKey = some r.key then c.dropPending else c := by
  have hmap (o : Option Context) :
      (match o with
        | some c => if r.state = .pending ∧ c.pendingKey = some r.key then some c.dropPending else some c
        | none => none) =
      o.map fun c => if r.state = .pending ∧ c.pendingKey = some r.key then c.dropPending else c := by
    cases o with
    | none => rfl
    | some c => exact (apply_ite some _ _ _).symm
  refine Eq.trans ?_ (hmap s.ee)
  dsimp only [State.removeRecord]
  split
  · exact (State.noticeFeed_frame _ _).2.2.2.2.2.2.2.2.1
  · exact rfl

theorem keeps_removeRecord (s : State) (i : Fin 256) (r : Record) : Keeps s (s.removeRecord i r) := by
  obtain ⟨-, -, hstore, hqueue, -⟩ := State.removeRecord_removed s i r
  refine .of (store := fun h => ?_) (lists := fun h => ⟨?_, by simpa using h.2⟩) (directory := fun hd hr => ?_)
  · simpa [State.storeCanonical, hstore] using h
  · rw [hqueue]
    exact le_trans (List.length_filter_le _ _) h.1
  · have h := (keeps_setEntry s r.key.handle { s.entry r.key.handle with
      recordCount := (s.entry r.key.handle).recordCount - 1
      charge := (s.entry r.key.handle).charge - (s.removalBlocks r).length } rfl rfl (.inl rfl)).directory hd hr
    rw [State.releasesSound] at h ⊢
    simpa [State.removeRecord_dir] using h

theorem keeps_setExtension (s : State) (i : Fin 256) (r : Record) (x : Option Extension) (n : Nat) (st : Store)
    (hst : Memory.wf s.store.mem → Memory.wf st.mem) : Keeps s (s.setExtension i r x n st) :=
  .before (keeps_store _ st hst) (.before (keeps_setEntry _ _ _ rfl rfl (.inl rfl)) (keeps_setSlot s i _))

theorem keeps_replaceExtension (s : State) (q : Request) (i : Fin 256) (r : Record) (n : Nat) (data : List Byte) :
    Keeps s (s.replaceExtension q i r n data) := by
  dsimp only [State.replaceExtension]
  split
  · exact .before (keeps_respond _ _ _ _) (keeps_setExtension s i r _ _ _ id)
  · split
    · exact .before (keeps_respond _ _ _ _)
        (keeps_setExtension s i r _ _ _
        fun h => Store.wf_writeBytes (Store.wf_draw (st := s.store.giveBack r.chain) h _) _ _ _)
    · exact .before (keeps_respond _ _ _ _) (keeps_setExtension s i r _ _ _ id)

/-! ### The enrolment operations and the items -/

theorem keeps_stallUnit (s : State) (c : Context) : Keeps s (s.stallUnit c) :=
  .before (keeps_endContext _) (.before (keeps_raise _ _)
    (keeps_setEntry s _ _ rfl rfl (.inr ⟨UnitState.noConfusion, UnitState.noConfusion⟩)))

theorem keeps_overflow (s : State) (c : Context) : Keeps s (s.overflow c) := by
  dsimp only [State.overflow]
  split
  · exact (keeps_count s _).trans (keeps_stallUnit _ c)
  · exact ((keeps_count s _).trans (keeps_withContext _ _)).trans (keeps_raise _ _)

theorem keeps_drawFor (s : State) (c : Context) (n : Nat) : Keeps s (s.drawFor c n) := by
  dsimp only [State.drawFor]
  split
  · exact keeps_withContext s _
  · split
    · exact .before (keeps_withContext _ _) (.before (keeps_store _ _ fun h => Store.wf_draw h _)
        (keeps_setEntry s _ _ rfl rfl (.inl rfl)))
    · exact keeps_withContext s _

theorem keeps_reserve (s : State) (c : Context) (d : Descriptor) (cl : Classification) : Keeps s (s.reserve c d cl) := by
  dsimp only [State.reserve]
  split
  · exact (keeps_withContext s _).trans (keeps_count _ _)
  · exact keeps_overflow s c
  · exact (keeps_insertAt s _ _).trans (keeps_drawFor _ _ _)

theorem keeps_returnHeld (s : State) (c : Context) : Keeps s (s.returnHeld c) := by
  dsimp only [State.returnHeld]
  split
  · refine .before (keeps_store _ _ id) (keeps_setEntry s c.handle _ rfl rfl (.inl rfl))
  · exact .refl s

theorem keeps_conclude (s : State) (c : Context) (d : Descriptor) (cl : Classification) (i : Fin 256) (r : Record) :
    Keeps s (s.conclude c d cl i r) := by
  have hput (x : Context) (r' : Record) : Keeps s (((s.returnHeld c).putRecord i r' true).withContext x) :=
    .before (keeps_withContext _ _) (.before (keeps_putRecord _ _ _ _) (keeps_returnHeld s c))
  dsimp only [State.conclude]
  refine .before (keeps_noticeFeed _ _) ?_
  have hraise (t : State) (b : Prop) [Decidable b] (f : EventFlag) : Keeps t (if b then t.raise f else t) := by
    split
    · exact keeps_raise t f
    · exact .refl t
  have hcount (t : State) (b : Prop) [Decidable b] (x : Counter) : Keeps t (if b then t.count x else t) := by
    split
    · exact keeps_count t x
    · exact .refl t
  exact .before (hcount _ _ _) (.before (hraise _ _ _) (hput _ _))

theorem keeps_giveUp (s : State) (c : Context) : Keeps s (s.giveUp c) := by
  unfold State.giveUp
  split
  · exact keeps_settleAbandoned s
  · split
    · have hpark : Keeps s (s.dropIndex c).parkContext := (keeps_dropIndex s c).trans (keeps_ee _ _)
      dsimp only [State.giveUpInSlot]
      split
      · exact hpark.trans (keeps_pendingEmptied _ _)
      · exact hpark
    · exact keeps_finishDescriptor s c

theorem keeps_withdrawItem (s : State) (it : Item) : Keeps s (s.withdrawItem it) := by
  unfold State.withdrawItem
  split
  · exact keeps_count s _
  · split
    · exact keeps_count s _
    · split
      · split
        · exact (keeps_removeRecord s _ _).trans (keeps_giveUp _ _)
        · exact keeps_removeRecord s _ _
      · exact keeps_removeRecord s _ _

theorem State.charge_dir (s : State) (p : Nat) : (s.charge p).2.dir = s.dir := by simp

theorem keeps_addItem (s : State) (it : Item) : Keeps s (s.addItem it) := by
  dsimp only [State.addItem]
  split
  · have hcharge := keeps_charge s (s.positionOf it.handle)
    split
    · split
      · refine hcharge.trans (keeps_setEntry _ _ _ ?_ ?_ (.inl ?_)) <;> simp [State.entry, Entry.addIndex]
      · exact hcharge.trans (keeps_count _ _)
    · exact hcharge
  · exact keeps_count s _

theorem keeps_sweep (s : State) (h : Fin 8) : Keeps s (s.sweep h) := by
  unfold State.sweep
  split
  · exact ((keeps_removeRecord s _ _).trans (keeps_freeIfDrained _ h)).trans (keeps_settleAbandoned _)
  · exact .refl s

theorem keeps_sendOp (s : State) : Keeps s s.sendOp := by
  have hturn : Keeps s { s with line := { s.line with ouTurn := false } } :=
    keeps_line s _ rfl fun t ht _ => .inl ⟨t, ht, rfl⟩
  have hqueue (s : State) (o : OutputUnit) (hq : o.queue.length ≤ s.ou.queue.length) : Keeps s { s with ou := o } :=
    .of (lists := fun h => ⟨le_trans hq h.1, h.2⟩)
  dsimp only [State.sendOp]
  split
  · exact hturn
  next k rest hk =>
    have hrest : rest.length ≤ s.ou.queue.length := by simp [hk]
    split
    · exact hturn.trans (hqueue _ _ hrest)
    · refine .before (keeps_trySend _) (.before (keeps_occupy _ _ fun h => nomatch h)
        (.before (quiet_clearOut _).keeps (hturn.trans (hqueue _ _ hrest))))

/-! ### The cycle -/

theorem perHandle_getElem {α : Type} (f : Fin 8 → α) (h : Fin 8) : (perHandle f)[h] = f h := by
  fin_cases h <;> rfl

/-- A change of every entry that leaves its state, its UID and its position. -/
theorem keeps_perHandle (s : State) (f : Fin 8 → Entry) (hs : ∀ h, (f h).state = (s.entry h).state)
    (hu : ∀ h, (f h).uid = (s.entry h).uid) (hp : ∀ h, (f h).position = (s.entry h).position) :
    Keeps s { s with dir := { s.dir with entries := perHandle f } } := by
  refine .ofDir (fun hd => ?_) (releases := rfl)
  simp only [Directory.distinct, perHandle_getElem, hs, hu, hp]
  exact hd

theorem keeps_judgeVoid (s : State) : Keeps s s.judgeVoid := by
  unfold State.judgeVoid
  split
  · exact (quiet_rcu s _).keeps.trans (keeps_count _ _)
  · exact (quiet_rcu s _).keeps

theorem keeps_applyCredit (void : Bool) (s : State) (h : Fin 8) : Keeps s (State.applyCredit void s h) :=
  keeps_setEntry s h _ rfl rfl (.inl rfl)

theorem keeps_settleCredit (s : State) (void : Bool) : Keeps s (s.settleCredit void) :=
  .before (keeps_settleAbandoned _) (.before (keeps_foldl keeps_leaveOne _ _)
    (keeps_foldl (keeps_applyCredit void) _ s))

theorem keeps_judgeFormed (s : State) (void : Bool) (a x : Nat) : Keeps s (s.judgeFormed void a x) := by
  have hrun (n : Nat) : Keeps s (s.setSteadyRun n) := (quiet_rcu s _).keeps
  dsimp only [State.judgeFormed]
  split
  · split
    · exact (hrun _).trans (keeps_setChain _ _)
    · exact hrun _
  · exact hrun _

theorem keeps_ite {s t u : State} {c : Prop} [Decidable c] (ht : Keeps s t) (hu : Keeps s u) :
    Keeps s (if c then t else u) := by
  split
  · exact ht
  · exact hu

theorem keeps_judgeChain (s : State) (void : Bool) (a x : Nat) : Keeps s (s.judgeChain void a x) := by
  have hturn (c : ChainState) := keeps_setChain s c
  unfold State.judgeChain
  cases s.rcu.chain with
  | dormant => exact .refl s
  | forming => exact keeps_ite (hturn _) (.refl s)
  | formed => exact keeps_ite (hturn _) (keeps_ite (hturn _) (keeps_judgeFormed s _ _ _))
  | steady => exact keeps_ite (hturn _) (keeps_ite (hturn _) (keeps_ite (hturn _) (.refl s)))
  | disturbed => exact keeps_ite (.refl s) (keeps_ite (hturn _) (keeps_ite (hturn _) (hturn _)))

theorem keeps_closeCycle (s : State) (void : Bool) (a x : Nat) : Keeps s (s.closeCycle void a x) :=
  .before (quiet_rcu _ _).keeps
    (keeps_perHandle s (fun h => (s.entry h).clearMarks) (fun _ => rfl) (fun _ => rfl) (fun _ => rfl))

/-- A refilled meter stays within its depth and its refill setting (R88, R89). -/
theorem Meter.refilled_range {m : Meter} {depth refill : Nat} (ht : m.tokens ≤ depth) (hr : m.refill < refill) :
    (m.refilled depth refill).tokens ≤ depth ∧ (m.refilled depth refill).refill < refill := by
  unfold Meter.refilled
  split
  · split <;> dsimp only <;> omega
  · dsimp only
    omega

theorem keeps_refillMeters (s : State) : Keeps s s.refillMeters :=
  keeps_foldl (fun s m => keeps_meter s m _ Meter.refilled_range) _ s

theorem itemCount_oweAgeing (l : List WorkEntry) : itemCount (Machine.oweAgeing l) = itemCount l := by
  unfold Machine.oweAgeing
  split
  next hl =>
    obtain ⟨init, rfl⟩ := List.getLast?_eq_some_iff.1 hl
    simp [itemCount]
  next => simp [itemCount]

theorem keeps_oweAgeing (s : State) : Keeps s s.oweAgeing :=
  .of (lists := fun h => ⟨h.1, (itemCount_oweAgeing _).trans_le h.2⟩)

theorem keeps_settle (s : State) : Keeps s s.settle :=
  .before (quiet_startCycle _).keeps (.before (keeps_oweAgeing _) (.before (keeps_refillMeters _)
    (.before (keeps_closeCycle _ _ _ _) (.before (keeps_judgeChain _ _ _ _) (.before (keeps_settleCredit _ _)
      (keeps_judgeVoid s))))))

theorem keeps_openPhase (s : State) : Keeps s s.openPhase := by
  have hopen : Keeps s { (s.advance (s.rollEnd + 12000)).clearOut with
      rcu := { (s.advance (s.rollEnd + 12000)).clearOut.rcu with phaseOpen := true } } :=
    .before (quiet_rcu _ _).keeps (.before (quiet_clearOut _).keeps (quiet_advance s _).keeps)
  have hrescan (s : State) : Keeps s s.rescan := by
    unfold State.rescan
    split
    · exact keeps_startContext s _
    · exact .refl s
  have hbroadcast (s : State) : Keeps s s.sendBroadcast := by
    unfold State.sendBroadcast
    split
    · exact (quiet_rcu s _).keeps.trans (quiet_transmit _ _ _).keeps
    · exact .refl s
  have hheld (s : State) : Keeps s s.sendHeld := by
    unfold State.sendHeld
    split
    · split
      · exact keeps_trySend s
      · exact .refl s
    · exact .refl s
  exact .before (hheld _) (.before (hbroadcast _) (hopen.trans (hrescan _)))

/-! ### Unit requests -/

/-- The position byte of DECLARE_UNIT is refused where an entry holds it or a reseat goes there (R59). -/
theorem State.positionTaken_false {s : State} {p : Nat} (h : s.positionTaken p = false) :
    s.holder p = none ∧ s.reseatTo p = false := by
  simp only [State.positionTaken, Bool.or_eq_false_iff, Option.isSome_eq_false_iff, Option.isNone_iff_eq_none] at h
  exact ⟨h.1.1, h.2⟩

theorem keeps_declareUnit (s : State) (position : Option Nat) (h : Fin 8)
    (hp : ∀ n, position = some n → 1 ≤ n ∧ n ≤ 6 ∧ s.positionTaken n = false) :
    Keeps s (s.setEntry h (s.declaredEntry position)) := by
  refine .ofDir (fun hd => hd.set (fun hf => nomatch hf) (fun hg => ?_) (fun _ hu => nomatch hu) fun p he => ?_)
    (releases := rfl)
  · exact hg.elim (fun h => nomatch h) (fun h => nomatch h)
  · obtain ⟨h1, h6, hfree⟩ := hp p he
    obtain ⟨hholder, hreseat⟩ := State.positionTaken_false hfree
    refine .inr ⟨h1, h6, State.holder_none hd hholder, fun r hr hto => ?_⟩
    simp [State.reseatTo, hr, hto] at hreseat

/-- The list that RESTART_CHAIN leaves is empty but for a RELEASE in the slot (R104). -/
theorem keeps_restartChainOp (s : State) : Keeps s s.restartChainOp := by
  let u := (all8.filter fun h => (s.entry h).state.onChain).foldl State.leaveOne s
  have hleft : Keeps s u := keeps_foldl keeps_leaveOne _ s
  refine .before (keeps_settleAbandoned _) ⟨hleft.settings, hleft.pending, hleft.meters, hleft.store, hleft.flags,
    hleft.lists, fun hd hr => ?_⟩
  obtain ⟨hd', -, -, hslot⟩ := hleft.directory hd hr
  refine ⟨hd', ?_, fun p hp => ?_, hslot⟩
  · dsimp only [State.restartList]
    split
    · split
      · exact List.nodup_singleton _
      · exact List.nodup_nil
    · exact List.nodup_nil
  · dsimp only [State.restartList] at hp
    split at hp
    next x hx =>
      split at hp
      next hk => exact List.mem_singleton.1 hp ▸ hr.2.2 x hx hk
      next => cases hp
    next => cases hp

/-! ### Every effect -/

/-- An effect is a change that keeps the laws of the parts of the state, or one of the three that set the settings. -/
theorem Effect.keeps {s t : State} (h : Effect s t) :
    Keeps s t ∨ t = { State.reset with pending := s.pending } ∨
      (∃ image, t = (s.judgeImage image).finishLoad) ∨
      ∃ q n v p, t = (s.takeSetting n (clampSetting n.val v)).respond q .ok p := by
  cases h with
  | quiet h => exact .inl h.keeps
  | reset => exact .inr (.inl rfl)
  | loadEnd image => exact .inr (.inr (.inl ⟨image, rfl⟩))
  | writeSetting q n v p => exact .inr (.inr (.inr ⟨q, n, v, p, rfl⟩))
  | retire q i r => exact .inl (.before (keeps_respond _ _ _ _) ((keeps_granted s _).trans (keeps_removeRecord _ i r)))
  | declareRecord q k feed nominal flags i p =>
    exact .inl (.before (keeps_respond _ _ _ _) (.before (keeps_noticeFeed _ _)
      ((keeps_granted s _).trans (keeps_insertAt _ _ _))))
  | firstPart q i r n data => exact .inl ((keeps_granted s _).trans (keeps_replaceExtension _ q i r n data))
  | laterPart q chain o data =>
    exact .inl (.before (keeps_respond _ _ _ _)
      ((keeps_granted s _).trans (keeps_store _ _ fun h => Store.wf_writeBytes h _ _ _)))
  | declareUnit q position h p hp => exact .inl (.before (keeps_respond _ _ _ _) (keeps_declareUnit s position h hp))
  | releaseUnit q h => exact .inl (.before (keeps_respond _ _ _ _) (keeps_depart s h _ _))
  | resumeUnit q h =>
    exact .inl (.before (keeps_respond _ _ _ _)
      (keeps_setEntry s h _ rfl rfl (.inr ⟨UnitState.noConfusion, UnitState.noConfusion⟩)))
  | restartChain q => exact .inl (.before (keeps_respond _ _ _ _) (keeps_restartChainOp s))
  | frameEnds rx bytes => exact .inl (keeps_frameEnds s rx bytes)
  | openPhase => exact .inl (keeps_openPhase s)
  | giveTurn r => exact .inl (keeps_giveTurn s r)
  | requestEnd x ends timeout hx => 
    exact .inl ((quiet_advance s _).keeps.trans (keeps_reoccupy (x := x) (by simpa using hx) rfl))
  | timeout x deadline hx =>
    exact .inl (((quiet_advance s _).trans (quiet_clearOut _)).keeps.trans (keeps_timeout hx))
  | cycleEnd => exact .inl (((quiet_advance s _).trans (quiet_clearOut _)).keeps.trans (keeps_settle _))
  | reserve c d cl => exact .inl ((keeps_granted s _).trans (keeps_reserve _ c d cl))
  | conclude c d cl k i r => exact .inl ((keeps_granted s _).trans (keeps_conclude _ c d cl i r))
  | withdrawItem it =>
    exact .inl (((quiet_granted s _).trans (quiet_popWork _)).keeps.trans (keeps_withdrawItem _ it))
  | addItem it => exact .inl ((quiet_popWork s).keeps.trans (keeps_addItem _ it))
  | sweep h => exact .inl ((keeps_granted s _).trans (keeps_sweep _ h))
  | send => exact .inl ((keeps_granted s _).trans (keeps_sendOp _))

/-- Settles O2: every effect leaves the waiting commands. -/
theorem everyCommandCompletes : Obligations.EveryCommandCompletes := by
  intro c s
  obtain ⟨t, ht, he⟩ := exec_effect c s
  refine ⟨t, ht, ?_⟩
  rcases he.keeps with h | rfl | ⟨image, rfl⟩ | ⟨q, n, v, p, rfl⟩
  · exact h.pending
  · rfl
  · simp
  · simp

/-- Settles O1: the step is defined so. -/
theorem stepTakesFront : Obligations.StepTakesFront := by
  refine ⟨fun c rest s => rfl, fun s hs => ?_⟩
  rw [step, hs]

end Sys2Proof.Machine
end

section
/-! What the end of the load and a setting that takes a value change, field by field, and the laws of the settings and
the meters. -/

namespace Sys2Proof.Machine

/-! ### A setting takes a value -/

@[simp] theorem State.takeSetting_settings (s : State) (n : Fin 131) (v : Nat) :
    (s.takeSetting n v).settings = s.settings.set n v := by
  simp [State.takeSetting]

theorem State.lowerCredits_entry (s : State) (v : Nat) (h : Fin 8) :
    (s.lowerCredits v).dir.entries[h] =
      if s.dir.entries[h].state.onChain then { s.dir.entries[h] with credit := min s.dir.entries[h].credit v }
      else s.dir.entries[h] :=
  perHandle_getElem _ h

theorem State.settingEffect_dir (s : State) (n : Fin 131) (was v : Nat) :
    (s.settingEffect n was v).dir = if n.val = 3 then (s.lowerCredits v).dir else s.dir := by
  unfold State.settingEffect
  split
  · rfl
  · repeat' split
    all_goals rfl

/-- A write of the robustness lowers the credits of the units on the chain (R99). -/
theorem State.takeSetting_entry (s : State) (n : Fin 131) (v : Nat) (h : Fin 8) :
    (s.takeSetting n v).dir.entries[h] =
      if n.val = 3 ∧ s.dir.entries[h].state.onChain = true then
        { s.dir.entries[h] with credit := min s.dir.entries[h].credit v }
      else s.dir.entries[h] := by
  rw [State.takeSetting, State.settingEffect_dir]
  split
  next hn => simp only [hn, true_and]; exact State.lowerCredits_entry _ v h
  next hn => simp only [hn, false_and, if_false]

theorem State.takeSetting_releases (s : State) (n : Fin 131) (v : Nat) :
    (s.takeSetting n v).dir.releaseList = s.dir.releaseList ∧ (s.takeSetting n v).dir.reseat = s.dir.reseat := by
  rw [State.takeSetting, State.settingEffect_dir]
  split <;> exact ⟨rfl, rfl⟩

/-- A write leaves the line but for its polarity and its meters (R74, R89). -/
theorem State.takeSetting_line (s : State) (n : Fin 131) (v : Nat) :
    (s.takeSetting n v).line =
      { s.line with
        txInverted := (s.takeSetting n v).line.txInverted
        run := (s.takeSetting n v).line.run
        meters := (s.takeSetting n v).line.meters } := by
  unfold State.takeSetting State.settingEffect
  repeat' split
  all_goals rfl

/-- Auto polarity switched off sends upright from then on (R74). -/
theorem State.takeSetting_polarity (s : State) (n : Fin 131) (v : Nat) :
    if n.val = 13 ∧ v = 0 ∧ s.setting n ≠ 0 then
      (s.takeSetting n v).line.txInverted = false ∧ (s.takeSetting n v).line.run = 0
    else
      (s.takeSetting n v).line.txInverted = s.line.txInverted ∧ (s.takeSetting n v).line.run = s.line.run := by
  unfold State.takeSetting State.settingEffect
  by_cases h13 : n.val = 13
  · simp only [h13, true_and]
    split
    next hv => rw [if_neg (by decide), if_pos trivial]; exact ⟨rfl, rfl⟩
    next hv => rw [if_neg (by decide), if_pos trivial]; exact ⟨rfl, rfl⟩
  · simp only [h13, false_and, if_false]
    repeat' split
    all_goals exact ⟨rfl, rfl⟩

/-- A meter replaced by one made of it. -/
theorem State.withMeter_meter (s : State) (j m : Fin 4) (f : Meter → Meter) :
    (s.withMeter j (f s.line.meters[j])).line.meters[m] = if j = m then f s.line.meters[m] else s.line.meters[m] := by
  simp only [State.withMeter, Fin.getElem_fin, Vector.getElem_set, Fin.val_inj]
  split
  next h => subst h; rfl
  next => rfl

/-- A write of a depth cuts the meter's tokens, one of a refill setting starts its count afresh (R89). -/
theorem State.takeSetting_meter (s : State) (n : Fin 131) (v : Nat) (m : Fin 4) :
    (s.takeSetting n v).line.meters[m] =
      if n.val = 21 + m.val then { s.line.meters[m] with tokens := min s.line.meters[m].tokens v }
      else if n.val = 25 + m.val then { s.line.meters[m] with refill := 0 }
      else s.line.meters[m] := by
  have hm := m.isLt
  have hj (a : Nat) (h1 : a ≤ n.val) (h2 : n.val ≤ a + 3) : Fin.ofNat 4 (n.val - a) = m ↔ n.val = a + m.val := by
    simp only [Fin.ext_iff, Fin.ofNat]
    omega
  unfold State.takeSetting State.settingEffect
  split
  · rw [if_neg (by omega : ¬ n.val = 21 + m.val), if_neg (by omega : ¬ n.val = 25 + m.val)]; rfl
  · split
    · rw [if_neg (by omega : ¬ n.val = 21 + m.val), if_neg (by omega : ¬ n.val = 25 + m.val)]
      split <;> rfl
    · split
      next hn =>
        refine (State.withMeter_meter _ _ m fun x => { x with tokens := min x.tokens v }).trans ?_
        rw [if_neg (by omega : ¬ n.val = 25 + m.val)]
        exact if_congr (hj 21 hn.1 hn.2) rfl rfl
      next =>
        split
        next hn =>
          refine (State.withMeter_meter _ _ m fun x => { x with refill := 0 }).trans ?_
          rw [if_neg (by omega : ¬ n.val = 21 + m.val)]
          exact if_congr (hj 25 hn.1 hn.2) rfl rfl
        next =>
          rw [if_neg (by omega : ¬ n.val = 21 + m.val), if_neg (by omega : ¬ n.val = 25 + m.val)]
          split <;> rfl

/-- A write leaves the circuits but for the tol of the one whose tolpct or tolmin it sets (R150). -/
theorem State.takeSetting_lcm (s : State) (n : Fin 131) (v : Nat) :
    (s.takeSetting n v).lcm.blink = s.lcm.blink ∧ (s.takeSetting n v).lcm.nextSample = s.lcm.nextSample := by
  unfold State.takeSetting State.settingEffect
  repeat' split
  all_goals exact ⟨rfl, rfl⟩

theorem State.takeSetting_circuit (s : State) (n : Fin 131) (v : Nat) (k : Fin 8) :
    (s.takeSetting n v).lcm.circuits[k] =
      if n.val = 100 + 4 * k.val ∨ n.val = 101 + 4 * k.val then
        { s.lcm.circuits[k] with tol := (s.takeSetting n v).tolerance k s.lcm.circuits[k].expected }
      else s.lcm.circuits[k] := by
  have hk := k.isLt
  have htol (e : Nat) : (s.takeSetting n v).tolerance k e =
      ({ s with settings := s.settings.set n v } : State).tolerance k e := by
    simp [State.tolerance, State.tolpct, State.tolmin, State.setting]
  rw [htol]
  unfold State.takeSetting State.settingEffect
  split
  · rw [if_neg (by omega : ¬ (n.val = 100 + 4 * k.val ∨ n.val = 101 + 4 * k.val))]; rfl
  · split
    · rw [if_neg (by omega : ¬ (n.val = 100 + 4 * k.val ∨ n.val = 101 + 4 * k.val))]
      split <;> rfl
    · split
      · rw [if_neg (by omega : ¬ (n.val = 100 + 4 * k.val ∨ n.val = 101 + 4 * k.val))]; rfl
      · split
        · rw [if_neg (by omega : ¬ (n.val = 100 + 4 * k.val ∨ n.val = 101 + 4 * k.val))]; rfl
        · split
          next hn =>
            have hj : Fin.ofNat 8 ((n.val - 99) / 4) = k ↔ n.val = 100 + 4 * k.val ∨ n.val = 101 + 4 * k.val := by
              simp only [Fin.ext_iff, Fin.ofNat]
              omega
            simp only [← hj, State.setCircuit, State.circuit, Fin.getElem_fin, Vector.getElem_set, Fin.val_inj]
            split
            next h => subst h; rfl
            next => rfl
          next => rw [if_neg (by omega : ¬ (n.val = 100 + 4 * k.val ∨ n.val = 101 + 4 * k.val))]

/-! ### The end of the load -/

/-- Every meter is filled to its depth (R88). -/
theorem State.finishLoad_meter (s : State) (m : Fin 4) : s.finishLoad.line.meters[m] = ⟨s.meterDepth m, 0⟩ := by
  simp only [State.finishLoad, State.startCycle, State.transmit, State.clearOut, List.foldl_cons, List.foldl_nil,
    State.fillMeter]
  fin_cases m <;> simp [foldl_keeps (fun x : State => x.line)] <;> rfl

theorem State.refreshTol_circuit (s : State) (j k : Fin 8) :
    (s.refreshTol j).lcm.circuits[k] =
      if j = k then { s.lcm.circuits[k] with tol := s.tolerance k s.lcm.circuits[k].expected }
      else s.lcm.circuits[k] := by
  simp only [State.refreshTol, State.setCircuit, State.circuit, Fin.getElem_fin, Vector.getElem_set, Fin.val_inj]
  split
  next h => subst h; rfl
  next => rfl

/-- Each circuit of a list is refreshed once or more, under settings that stay. -/
theorem State.refreshTols_circuit (l : List (Fin 8)) :
    ∀ (s : State) (k : Fin 8), (l.foldl State.refreshTol s).lcm.circuits[k] =
      if k ∈ l then { s.lcm.circuits[k] with tol := s.tolerance k s.lcm.circuits[k].expected }
      else s.lcm.circuits[k] := by
  have htol (s : State) (j k : Fin 8) (e : Nat) : (s.refreshTol j).tolerance k e = s.tolerance k e := by
    simp [State.tolerance, State.tolpct, State.tolmin, State.setting]
  induction l with
  | nil => intro s k; simp
  | cons j l ih =>
    intro s k
    rw [List.foldl_cons, ih, State.refreshTol_circuit, htol]
    by_cases hj : j = k
    · subst hj
      simp
    · have hk : k ≠ j := Ne.symm hj
      simp [hj, hk]

/-- Every circuit's tol follows the settings (R140, R150). -/
theorem State.finishLoad_circuit (s : State) (k : Fin 8) :
    s.finishLoad.lcm.circuits[k] =
      { s.lcm.circuits[k] with tol := s.tolerance k s.lcm.circuits[k].expected } := by
  let s1 : State := { s with now := 0, port := { s.port with loading := false } }
  let s2 := ([0, 1, 2, 3] : List (Fin 4)).foldl State.fillMeter s1
  have hlcm : s2.lcm = s.lcm := foldl_keeps (fun x : State => x.lcm) (by simp) _ s1
  have hset : s2.settings = s.settings := foldl_keeps (fun x : State => x.settings) (by simp) _ s1
  have htol (e : Nat) : s2.tolerance k e = s.tolerance k e := by
    simp only [State.tolerance, State.tolpct, State.tolmin, State.setting, hset]
  have h := State.refreshTols_circuit all8 s2 k
  rw [if_pos (mem_all8 k), htol, hlcm] at h
  exact h

/-! ### The laws of the settings -/

/-- Every row of R179 has its bounds in order; a stepped one has them at steps, an odd one at odd values. -/
theorem settingRow_bounds : ∀ n : Fin 131,
    (settingRow n).lo ≤ (settingRow n).hi ∧
      ((settingRow n).kind = .steps → (settingRow n).lo % 10 = 0 ∧ (settingRow n).hi % 10 = 0) ∧
      ((settingRow n).kind = .odd → (settingRow n).lo % 2 = 1 ∧ (settingRow n).hi % 2 = 1) := by
  decide

/-- A clamped value is in its range, at its steps and of its parity. -/
theorem clampSetting_clampSetting (n : Fin 131) (v : Nat) : clampSetting n (clampSetting n v) = clampSetting n v := by
  obtain ⟨hle, hsteps, hodd⟩ := settingRow_bounds n
  dsimp only [clampSetting]
  cases hk : (settingRow n).kind with
  | bounds => dsimp only; omega
  | steps =>
    obtain ⟨hlo, hhi⟩ := hsteps hk
    dsimp only
    omega
  | odd =>
    obtain ⟨hlo, hhi⟩ := hodd hk
    dsimp only
    split <;> split <;> omega
  | mask => dsimp only; omega

/-- The lower bound of a setting that is limited by bounds alone. -/
theorem clampSetting_bounds {n : Fin 131} {v : Nat} (h : (settingRow n).kind = .bounds) :
    (settingRow n).lo ≤ clampSetting n v ∧ clampSetting n v ≤ (settingRow n).hi := by
  have hle := (settingRow_bounds n).1
  simp only [clampSetting, h]
  omega

/-- A refill setting is at least 1. -/
theorem settingRow_refill : ∀ m : Fin 4,
    (settingRow (25 + m.val)).kind = .bounds ∧ (settingRow (25 + m.val)).lo = 1 := by
  decide

theorem State.settingsInRange.refill {s : State} (h : s.settingsInRange) (m : Fin 4) : 0 < s.meterRefill m := by
  have hrow := settingRow_refill m
  have hb := (clampSetting_bounds (n := ⟨25 + m.val, by omega⟩) (v := s.settings[(⟨25 + m.val, by omega⟩ : Fin 131)]) hrow.1).1
  rw [h, hrow.2] at hb
  exact hb

theorem defaultSettings_getElem (n : Fin 131) : defaultSettings[n] = settingDefault n := by
  simp [defaultSettings]

theorem imageSettings_getElem (image : List Byte) (n : Fin 131) :
    (imageSettings image)[n] = clampSetting n (imageValue image n) := by
  simp [imageSettings]

theorem settingsInRange_reset : State.reset.settingsInRange := by
  have h : ∀ n : Fin 131, clampSetting n (settingDefault n) = settingDefault n := by decide
  intro n
  have hn : State.reset.settings[n] = settingDefault n := defaultSettings_getElem n
  rw [hn]
  exact h n

theorem metersInRange_reset : State.reset.metersInRange := by
  have h : ∀ m : Fin 4, settingDefault (21 + m.val) = 4 ∧ settingDefault (25 + m.val) = 5 := by decide
  intro m
  have hm : State.reset.line.meters[m] = ⟨4, 0⟩ := by simp [State.reset]
  have hd : State.reset.meterDepth m = 4 := (defaultSettings_getElem ⟨21 + m.val, by omega⟩).trans (h m).1
  have hr : State.reset.meterRefill m = 5 := (defaultSettings_getElem ⟨25 + m.val, by omega⟩).trans (h m).2
  rw [hm, hd, hr]
  decide

/-- The laws of the settings and the meters do not look at the waiting commands. -/
theorem ranges_withPending {s : State} {l : List Instr} (h : s.settingsInRange ∧ s.metersInRange) :
    ({ s with pending := l } : State).settingsInRange ∧ ({ s with pending := l } : State).metersInRange := h

theorem settingsInRange_judgeImage {s : State} (h : s.settingsInRange) (image : List Byte) :
    (s.judgeImage image).settingsInRange := by
  dsimp only [State.judgeImage]
  split
  · intro n
    rw [imageSettings_getElem]
    exact clampSetting_clampSetting n _
  · simpa [State.settingsInRange] using h

/-- At the end of the load every meter is full, and no cycle has been counted (R88). -/
theorem ranges_finishLoad {s : State} (h : s.settingsInRange) :
    s.finishLoad.settingsInRange ∧ s.finishLoad.metersInRange := by
  refine ⟨by simpa [State.settingsInRange] using h, fun m => ?_⟩
  rw [State.finishLoad_meter]
  have hset : s.finishLoad.settings = s.settings := by simp
  simp only [State.meterDepth, State.meterRefill, State.setting, hset]
  exact ⟨le_rfl, h.refill m⟩

/-- A written setting is in its range, and a meter follows the depth or the refill setting it is written under (R89). -/
theorem ranges_takeSetting {s : State} (hs : s.settingsInRange) (hm : s.metersInRange) (n : Fin 131) (v : Nat) :
    (s.takeSetting n (clampSetting n v)).settingsInRange ∧ (s.takeSetting n (clampSetting n v)).metersInRange := by
  have hget (j : Fin 131) : (s.takeSetting n (clampSetting n v)).settings[j] =
      if n = j then clampSetting n v else s.settings[j] := by
    simp [Vector.getElem_set, Fin.ext_iff]
  have hrange : (s.takeSetting n (clampSetting n v)).settingsInRange := by
    intro j
    rw [hget]
    split
    next hj => subst hj; exact clampSetting_clampSetting n v
    next => exact hs j
  refine ⟨hrange, fun m => ?_⟩
  have hrefill := hrange.refill m
  obtain ⟨htok, href⟩ := hm m
  simp only [State.meterDepth, State.meterRefill, State.setting, hget, Fin.ext_iff] at htok href hrefill ⊢
  rw [State.takeSetting_meter]
  split
  next h21 =>
    rw [if_neg (by omega)] at hrefill
    rw [if_neg (by omega)]
    exact ⟨min_le_right _ _, href⟩
  next h21 =>
    split
    next h25 =>
      rw [if_pos h25] at hrefill
      exact ⟨htok, hrefill⟩
    next h25 => exact ⟨htok, href⟩

/-- Settles O57: an effect leaves the settings and the meters in their ranges, or is one of the three that set them. -/
theorem stepKeepsSettingsAndMeters : Obligations.StepKeepsSettingsAndMeters := by
  intro s t hs hm hstep
  refine step_keeps (P := fun s => s.settingsInRange ∧ s.metersInRange) ⟨hs, hm⟩ hstep fun l u he => ?_
  rcases he.keeps with h | rfl | ⟨image, rfl⟩ | ⟨q, n, v, p, rfl⟩
  · exact ⟨by simpa [State.settingsInRange, h.settings] using hs, h.meters hm⟩
  · exact ⟨settingsInRange_reset, metersInRange_reset⟩
  · exact ranges_finishLoad (settingsInRange_judgeImage (s := { s with pending := l }) hs image)
  · exact ranges_takeSetting (s := { s with pending := l }) hs hm n v

end Sys2Proof.Machine
end

section
/-! The laws that hold right after reset, and what the steps that set the settings keep of the others. -/

namespace Sys2Proof.Machine

/-! ### Right after reset -/

theorem reset_slot (i : Fin 256) : State.reset.table.slots[i] = none := by
  simp [State.reset]

theorem reset_entry (h : Fin 8) : State.reset.dir.entries[h] = Entry.empty := by
  simp [State.reset]

theorem reset_circuit (k : Fin 8) : State.reset.lcm.circuits[k] = Circuit.atReset := by
  simp [State.reset]

theorem reset_records : State.reset.records = [] := by
  refine List.eq_nil_iff_forall_not_mem.2 fun p hp => ?_
  have h := (Table.mem_records _ p.1 p.2).1 hp
  rw [reset_slot] at h
  cases h

theorem reset_free : State.reset.store.free = List.finRange 512 := by
  refine List.ext_getElem (by simp [State.reset]) fun n h1 h2 => ?_
  simp only [List.length_finRange] at h2
  simp [State.reset, Fin.ext_iff, Nat.mod_eq_of_lt h2]

theorem distinct_reset : State.reset.dir.distinct := by
  simp only [Directory.distinct, reset_entry, Entry.empty]
  simp [State.reset]

theorem releasesSound_reset : State.reset.releasesSound := by
  simp [State.releasesSound, State.reset]

theorem blocksSound_reset : State.reset.blocksSound := by
  intro b
  have hcount : State.reset.store.free.count b = 1 := by
    rw [reset_free]
    exact List.count_eq_one_of_mem (List.nodup_finRange 512) (List.mem_finRange b)
  rw [hcount, reset_records]
  rfl

/-- Settles O56: the tables of reset are empty and its lists too, so every law holds of them. -/
theorem resetMeetsTheLaws : Obligations.ResetMeetsTheLaws := by
  refine ⟨⟨settingsInRange_reset, metersInRange_reset, reset_memory_wf, ?_, ?_, distinct_reset, releasesSound_reset, ?_,
    ?_, ?_, ?_⟩, ?_, ?_, ?_, ?_, ?_, blocksSound_reset, ?_⟩
  · simp [State.detailsFlagged, State.reset]
  · simp [State.listsBounded, State.reset, itemCount]
  · rw [State.enrolledCounted, reset_records]
    rfl
  · intro i r hr
    rw [reset_slot] at hr
    cases hr
  · refine ⟨fun i r hr => ?_, fun i j r q hr => ?_⟩
    · rw [reset_slot] at hr
      cases hr
    · rw [reset_slot] at hr
      cases hr
  · exact fun _ => ⟨reset_slot, rfl, rfl, rfl, rfl, rfl, rfl⟩
  · exact Nat.zero_le _
  · intro i r hr
    rw [reset_slot] at hr
    cases hr
  · intro i j r q hr
    rw [reset_slot] at hr
    cases hr
  · exact ⟨fun c hc => (nomatch hc), fun x hx => (nomatch hx)⟩
  · intro h
    rw [reset_records, reset_entry]
    exact ⟨rfl, fun _ => rfl⟩
  · intro k
    rw [reset_records, reset_circuit]
    rfl

/-- Settles O3: the fields of the machine right after reset, one by one. -/
theorem resetRestoresEveryBlock : Obligations.ResetRestoresEveryBlock := by
  intro s
  refine ⟨_, rfl, rfl, rfl, defaultSettings_getElem, rfl, rfl, reset_slot, rfl, rfl, rfl, rfl, ?_, ?_, reset_entry, rfl,
    rfl, rfl, rfl, rfl, rfl, ?_, rfl, rfl, rfl, rfl, rfl, rfl, rfl, rfl, rfl, rfl, rfl, rfl, rfl, rfl, rfl, rfl, rfl, rfl,
    ?_, rfl, rfl, rfl, ?_, rfl, rfl, rfl, rfl, rfl, rfl, rfl, rfl, rfl, rfl, rfl, rfl, rfl, ?_⟩
  · simp [State.reset]
  · intro b
    have h : State.reset.store.free[b.val]? = some b := by simp [reset_free]
    exact h
  · intro m
    have h : ∀ m : Fin 4, settingDefault (21 + m.val) = 4 := by decide
    have hm : State.reset.line.meters[m] = ⟨4, 0⟩ := by simp [State.reset]
    rw [h]
    exact ⟨congrArg Meter.tokens hm, congrArg Meter.refill hm⟩
  · intro h
    have hw : State.reset.ou.waiting[h] = 0 := by simp [State.reset]
    exact hw
  · intro k
    have h : ∀ k : Fin 8, settingDefault (101 + 4 * k.val) = 8 := by decide
    have hk : State.reset.lcm.circuits[k] = Circuit.atReset := reset_circuit k
    dsimp only
    rw [hk, h]
    exact ⟨rfl, rfl, rfl, rfl, rfl, rfl, rfl, rfl, rfl, rfl, rfl⟩
  · intro c
    have hl : State.reset.counters.live[c] = 0 := by simp [State.reset]
    have hs : State.reset.counters.snapshot[c] = 0 := by simp [State.reset]
    exact ⟨hl, hs⟩

/-! ### The steps that set the settings -/

theorem Directory.distinct_congr {d e : Directory} (hs : ∀ h : Fin 8, e.entries[h].state = d.entries[h].state)
    (hu : ∀ h : Fin 8, e.entries[h].uid = d.entries[h].uid) (hp : ∀ h : Fin 8, e.entries[h].position = d.entries[h].position)
    (hr : e.reseat = d.reseat) (hd : d.distinct) : e.distinct := by
  simpa only [Directory.distinct, hs, hu, hp, hr] using hd

/-- A setting written changes no UID, position or state of an entry, and neither list nor reseat. -/
theorem directory_takeSetting {s : State} (hd : s.dir.distinct) (hr : s.releasesSound) (n : Fin 131) (v : Nat) :
    (s.takeSetting n v).dir.distinct ∧ (s.takeSetting n v).releasesSound := by
  obtain ⟨hl, hs⟩ := State.takeSetting_releases s n v
  have hslot : (s.takeSetting n v).line.slot = s.line.slot := by rw [State.takeSetting_line]
  refine ⟨Directory.distinct_congr (fun h => ?_) (fun h => ?_) (fun h => ?_) hs hd, ?_⟩
  iterate 3
    rw [State.takeSetting_entry]
    split <;> rfl
  rwa [State.releasesSound, hl, hslot]

theorem directory_finishLoad {s : State} (hd : s.dir.distinct) (hr : s.releasesSound) (image : List Byte) :
    (s.judgeImage image).finishLoad.dir.distinct ∧ (s.judgeImage image).finishLoad.releasesSound := by
  have hslot : (s.judgeImage image).finishLoad.line.slot = s.line.slot := by
    rw [State.finishLoad_line]
    simp
  refine ⟨by simpa using hd, ?_⟩
  rw [State.releasesSound, hslot]
  simpa [State.releasesSound] using hr

theorem detailsFlagged_judgeImage {s : State} (h : s.detailsFlagged) (image : List Byte) :
    (s.judgeImage image).detailsFlagged := by
  dsimp only [State.judgeImage]
  split
  · exact h
  · exact (keeps_raise _ _).flags h

/-- Settles O59: an effect keeps the directory and its release list, and so do the three that set the settings. -/
theorem stepKeepsDirectoryDistinct : Obligations.StepKeepsDirectoryDistinct := by
  intro s t hd hr hstep
  refine step_keeps (P := fun s => s.dir.distinct ∧ s.releasesSound) ⟨hd, hr⟩ hstep fun l u he => ?_
  rcases he.keeps with h | rfl | ⟨image, rfl⟩ | ⟨q, n, v, p, rfl⟩
  · exact h.directory hd hr
  · exact ⟨distinct_reset, releasesSound_reset⟩
  · exact directory_finishLoad (s := { s with pending := l }) hd hr image
  · exact directory_takeSetting (s := { s with pending := l }) hd hr n _

theorem step_storeCanonical {s t : State} (hs : s.storeCanonical) (hstep : step s = .next t) : t.storeCanonical := by
  refine step_keeps (P := State.storeCanonical) hs hstep fun l u he => ?_
  rcases he.keeps with h | rfl | ⟨image, rfl⟩ | ⟨q, n, v, p, rfl⟩
  · exact h.store hs
  · exact reset_memory_wf
  · simpa [State.storeCanonical] using hs
  · simpa [State.storeCanonical] using hs

theorem step_flagged_bounded {s t : State} (hf : s.detailsFlagged) (hl : s.listsBounded) (hstep : step s = .next t) :
    t.detailsFlagged ∧ t.listsBounded := by
  refine step_keeps (P := fun s => s.detailsFlagged ∧ s.listsBounded) ⟨hf, hl⟩ hstep fun l u he => ?_
  rcases he.keeps with h | rfl | ⟨image, rfl⟩ | ⟨q, n, v, p, rfl⟩
  · exact ⟨h.flags hf, h.lists hl⟩
  · exact ⟨by simp [State.detailsFlagged, State.reset], by simp [State.listsBounded, State.reset, itemCount]⟩
  · refine ⟨?_, by simpa [State.listsBounded] using hl⟩
    have h := detailsFlagged_judgeImage (s := { s with pending := l }) hf image
    simpa [State.detailsFlagged] using h
  · exact ⟨by simpa [State.detailsFlagged] using hf, by simpa [State.listsBounded] using hl⟩

end Sys2Proof.Machine
end

section
/-! Sums and counts over the records of a table, as sums over its slots: what one slot adds, and what a slot that is
written changes. -/

namespace Sys2Proof.Machine

/-- What a slot adds to a sum over the records. -/
def slotSum (f : Record → Nat) (o : Option Record) : Nat := o.elim 0 f

@[simp] theorem slotSum_none (f : Record → Nat) : slotSum f none = 0 := rfl

@[simp] theorem slotSum_some (f : Record → Nat) (r : Record) : slotSum f (some r) = f r := rfl

/-- A sum over the records of a table. -/
def Table.sum (t : Table) (f : Record → Nat) : Nat := ((Table.records t).map fun p => f p.2).sum

theorem sum_filterMap {α : Type} (l : List α) (g : α → Option Record) (f : Record → Nat) :
    ((l.filterMap fun a => (g a).map fun r => (a, r)).map fun p => f p.2).sum = (l.map fun a => slotSum f (g a)).sum := by
  induction l with
  | nil => rfl
  | cons a l ih => cases h : g a <;> simp [h, ih]

theorem Table.records_eq (t : Table) :
    Table.records t = (List.finRange 256).filterMap fun i => t[i].map fun r => (i, r) := by
  have hlist : allSlots.zip t.toList = (List.finRange 256).map fun i => (i, t[i]) := by
    rw [allSlots_eq]
    refine List.ext_getElem (by simp) fun n h1 h2 => ?_
    simp
  rw [Table.records, hlist, List.filterMap_map]
  rfl

theorem Table.sum_eq (t : Table) (f : Record → Nat) : Table.sum t f = ∑ i : Fin 256, slotSum f t[i] := by
  rw [Table.sum, Table.records_eq, Fin.sum_univ_def]
  exact sum_filterMap (List.finRange 256) (fun i => t[i]) f

/-- A slot that is written changes a sum by what it adds. -/
theorem Table.sum_set (t : Table) (f : Record → Nat) (i : Fin 256) (o : Option Record) :
    Table.sum (t.set i o) f + slotSum f t[i] = Table.sum t f + slotSum f o := by
  have hset : ∀ j : Fin 256, slotSum f (t.set i o)[j] = Function.update (fun j : Fin 256 => slotSum f t[j]) i (slotSum f o) j := by
    intro j
    simp only [Function.update_apply, Fin.getElem_fin, Vector.getElem_set, Fin.val_inj, eq_comm (a := j)]
    split <;> rfl
  rw [Table.sum_eq, Table.sum_eq, Finset.sum_congr rfl fun j _ => hset j,
    Finset.sum_update_of_mem (Finset.mem_univ i), add_comm (slotSum f o), add_right_comm,
    ← Finset.sum_sdiff (Finset.subset_univ {i}) (f := fun j : Fin 256 => slotSum f t[j]), Finset.sum_singleton]

theorem sum_filter {α : Type} (l : List α) (P : α → Bool) (f : α → Nat) :
    ((l.filter P).map f).sum = (l.map fun a => if P a then f a else 0).sum := by
  induction l with
  | nil => rfl
  | cons a l ih => cases h : P a <;> simp [h, ih]

theorem length_filter_eq_sum {α : Type} (l : List α) (P : α → Bool) :
    (l.filter P).length = (l.map fun a => if P a then 1 else 0).sum := by
  rw [← sum_filter l P fun _ => 1]
  simp

end Sys2Proof.Machine
end

section
/-! The laws that bind the table, the directory and the enrolment context to each other, in the terms their proofs use,
and the changes that carry them from one state to the next (`Carries`). -/

namespace Sys2Proof.Machine

/-! ### The laws in terms of sums over the slots -/

/-- Whether a record is of a handle, as what it adds to the handle's record count. -/
def Record.ofHandle (h : Fin 8) (r : Record) : Nat := if r.key.handle = h then 1 else 0

/-- What a record adds to a circuit's expected current, given which handles are LEAVING (R149). -/
def Record.draws (leaving : Fin 8 → Bool) (k : Fin 8) (r : Record) : Nat :=
  if r.feed = .circuit k ∧ r.state ≠ .pending ∧ leaving r.key.handle = false then r.nominal else 0

/-- How often the enrolment context holds a block. -/
def State.heldCount (s : State) (b : Fin 512) : Nat := s.ee.elim 0 fun c => c.held.count b

theorem State.countsSound_iff (s : State) :
    s.countsSound ↔ ∀ h : Fin 8, (s.entry h).recordCount = Table.sum s.table.slots (Record.ofHandle h) ∧
      ((s.entry h).state = .free ∨ (s.entry h).state = .joining → (s.entry h).recordCount = 0) := by
  refine forall_congr' fun h => ?_
  rw [length_filter_eq_sum]
  simp only [decide_eq_true_eq]
  rfl

theorem State.blocksSound_iff (s : State) :
    s.blocksSound ↔ ∀ b : Fin 512,
      s.store.free.count b + Table.sum s.table.slots (fun r => r.chain.count b) + s.heldCount b = 1 := by
  have hheld (b : Fin 512) : s.heldCount b = match s.ee with | some c => c.held.count b | none => 0 := by
    unfold State.heldCount
    cases s.ee <;> rfl
  simp only [hheld]
  rfl

theorem State.expectedCurrent_sum (s : State) (k : Fin 8) :
    s.expectedCurrent k = min 4095 (Table.sum s.table.slots (Record.draws s.leaving k)) := by
  rw [State.expectedCurrent, sum_filter]
  simp only [State.counted, Bool.and_eq_true, decide_eq_true_eq, Bool.not_eq_true', and_assoc, ne_eq]
  rfl

theorem State.enrolledCounted_iff (s : State) :
    s.enrolledCounted ↔
      s.table.enrolledCount = Table.sum s.table.slots fun r => if r.origin = .enrolled then 1 else 0 := by
  rw [State.enrolledCounted, length_filter_eq_sum]
  simp only [decide_eq_true_eq]
  rfl

/-- A unit without records has none that draws current: whether it is LEAVING does not matter (R149). -/
theorem State.countsSound.none_of {s : State} (hc : s.countsSound) {h : Fin 8} (h0 : (s.entry h).recordCount = 0)
    {i : Fin 256} {r : Record} (hr : s.table.slots[i] = some r) : r.key.handle ≠ h := by
  intro hh
  exact hc.pos (p := (i, r)) ((Table.mem_records _ i r).2 hr) hh h0

/-! ### The enrolment context -/

/-- What the laws say of a context: its unit's state, the blocks it holds and the record it names (R106, R122). -/
structure Context.Fits (s : State) (c : Context) : Prop where
  unit : c.abandoned = false →
    if c.phase = .assigning then (s.entry c.handle).state = .joining
    else (s.entry c.handle).state = .enrolling ∨ (s.entry c.handle).state = .live
  held : c.pendingKey = none → c.held = []
  named : ∀ k, c.pendingKey = some k → k.handle = c.handle ∧ (c.phase = .fetching ∨ c.phase = .concluding) ∧
    ∃ (i : Fin 256) (r : Record), s.table.slots[i] = some r ∧ r.key = k ∧ r.state = .pending

/-- The kind of transaction that the phase of a context calls for (R109, R111, R116, R118). -/
def Context.callsFor (c : Context) : HeadKind → Prop
  | .assign => c.phase = .assigning ∧ c.pendingKey = none
  | .descq => c.phase = .reading ∧ c.classification = none ∧ c.pendingKey = none
  | .extq => c.phase = .fetching
  | _ => c.phase = .concluding ∧ c.pendingKey = none

/-- A transaction in the slot is the context's. -/
structure Context.Owns (c : Context) (x : Transaction) : Prop where
  subject : x.subject = some c.handle
  withdrawn : x.withdrawn = c.abandoned
  kind : c.abandoned = false → c.callsFor x.request.kind

theorem State.contextSound_iff (s : State) :
    s.contextSound ↔ (∀ c, s.ee = some c → c.Fits s) ∧
      ∀ x, s.line.slot = some x → x.requester = .ee → ∃ c, s.ee = some c ∧ c.Owns x := by
  refine and_congr (forall_congr' fun c => forall_congr' fun _ => ?_)
    (forall_congr' fun x => forall_congr' fun _ => forall_congr' fun _ => exists_congr fun c => and_congr_right fun _ => ?_)
  · exact ⟨fun ⟨h1, h2, h3⟩ => ⟨h1, h2, h3⟩, fun h => ⟨h.unit, h.held, h.named⟩⟩
  · exact ⟨fun ⟨h1, h2, h3⟩ => ⟨h1, h2, h3⟩, fun h => ⟨h.subject, h.withdrawn, h.kind⟩⟩

/-! ### The laws together -/

/-- The laws of the table, the directory and the context that hold only together. -/
structure State.Core (s : State) : Prop where
  buckets : s.bucketsSound
  counts : s.countsSound
  pendings : s.pendingSound
  context : s.contextSound

/-- A context that is not abandoned has a unit that is neither FREE nor LEAVING nor DECLARED. -/
theorem Context.Fits.onChain {s : State} {c : Context} (h : c.Fits s) (ha : c.abandoned = false) :
    (s.entry c.handle).state.onChain = true := by
  have hu := h.unit ha
  split at hu
  · rw [hu]; rfl
  · rcases hu with hu | hu <;> (rw [hu]; rfl)

theorem State.Core.fits {s : State} (h : s.Core) {c : Context} (hc : s.ee = some c) : c.Fits s :=
  ((s.contextSound_iff).1 h.context).1 c hc

theorem State.Core.owns {s : State} (h : s.Core) {c : Context} {x : Transaction} (hc : s.ee = some c)
    (hx : s.line.slot = some x) (hr : x.requester = .ee) : c.Owns x := by
  obtain ⟨c', hc', ho⟩ := ((s.contextSound_iff).1 h.context).2 x hx hr
  cases hc.symm.trans hc'
  exact ho

/-- Without a context the slot holds no transaction of the Enrolment Engine. -/
theorem State.Core.slot_of_idle {s : State} (h : s.Core) (he : s.ee = none) {x : Transaction}
    (hx : s.line.slot = some x) : x.requester ≠ .ee := by
  intro hr
  obtain ⟨c, hc, -⟩ := ((s.contextSound_iff).1 h.context).2 x hx hr
  rw [he] at hc
  cases hc

/-- Where no context names a record, none is PENDING (R7). -/
theorem State.Core.no_pending {s : State} (h : s.Core) (he : ∀ c, s.ee = some c → c.pendingKey = none) {i : Fin 256}
    {r : Record} (hr : s.table.slots[i] = some r) : r.state ≠ .pending := by
  intro hp
  obtain ⟨-, -, c, hc, hk⟩ := h.pendings i r hr hp
  rw [he c hc] at hk
  cases hk

/-- The PENDING record is the one the context names, and there is one of its key: at most one is PENDING (R7). -/
theorem State.onePending_of {s : State} (hb : s.bucketsSound) (hp : s.pendingSound) : s.onePending := by
  intro i j r q hi hj hr hq
  obtain ⟨-, -, c, hc, hk⟩ := hp i r hi hr
  obtain ⟨-, -, c', hc', hk'⟩ := hp j q hj hq
  cases hc.symm.trans hc'
  exact hb.2 i j r q hi hj (Option.some.inj (hk.symm.trans hk'))

/-- A change that carries the laws from s to t: those that hold together, and with them those of the blocks and of the
expected currents. -/
structure Carries (s t : State) : Prop where
  core : s.Core → t.Core
  blocks : s.Core → s.blocksSound → t.blocksSound
  expected : s.Core → s.expectedSound → t.expectedSound

theorem Carries.refl (s : State) : Carries s s := ⟨id, fun _ => id, fun _ => id⟩

theorem Carries.trans {s t u : State} (h : Carries s t) (g : Carries t u) : Carries s u where
  core := g.core ∘ h.core
  blocks hc hb := g.blocks (h.core hc) (h.blocks hc hb)
  expected hc he := g.expected (h.core hc) (h.expected hc he)

theorem Carries.before {s t u : State} (g : Carries t u) (h : Carries s t) : Carries s u := h.trans g

/-- What follows from the laws may be used to show that a change carries them. -/
theorem Carries.given {s t : State} (h : s.Core → Carries s t) : Carries s t :=
  ⟨fun hc => (h hc).core hc, fun hc => (h hc).blocks hc, fun hc => (h hc).expected hc⟩

theorem carries_foldl {α : Type} {f : State → α → State} (hf : ∀ s a, Carries s (f s a)) :
    ∀ (l : List α) (s : State), Carries s (l.foldl f s)
  | [], s => .refl s
  | a :: l, s => (hf s a).trans (carries_foldl hf l (f s a))

/-! ### Changes that the laws do not speak of -/

/-- The fields of a transaction that the laws speak of. -/
def Transaction.fixed (x : Transaction) : Requester × Option (Fin 8) × Bool × HeadKind :=
  (x.requester, x.subject, x.withdrawn, x.request.kind)

/-- The fields of a context that the laws speak of. -/
def Context.fixed (c : Context) : Fin 8 × Phase × Bool × Option Key × List (Fin 512) × Bool :=
  (c.handle, c.phase, decide (c.classification = none), c.pendingKey, c.held, c.abandoned)

/-- What two tables whose records have the same fixed fields agree on. -/
theorem Table.sum_fixed {t u : Table} (h : ∀ i : Fin 256, (u[i]).map Record.fixed = (t[i]).map Record.fixed)
    {f : Record → Nat} (hf : ∀ r q : Record, r.fixed = q.fixed → f r = f q) : Table.sum u f = Table.sum t f := by
  rw [Table.sum_eq, Table.sum_eq]
  refine Finset.sum_congr rfl fun i _ => ?_
  have hi := h i
  cases hu : u[i] with
  | none =>
    cases ht : t[i] with
    | none => rfl
    | some q => rw [hu, ht] at hi; cases hi
  | some r =>
    cases ht : t[i] with
    | none => rw [hu, ht] at hi; cases hi
    | some q => rw [hu, ht] at hi; exact hf r q (Option.some.inj hi)

/-- The record in a slot, in a table whose records have the same fixed fields. -/
theorem slot_of_fixed {t u : Table} (h : ∀ i : Fin 256, (u[i]).map Record.fixed = (t[i]).map Record.fixed) {i : Fin 256}
    {r : Record} (hr : u[i] = some r) : ∃ q, t[i] = some q ∧ q.fixed = r.fixed := by
  have hi := h i
  rw [hr] at hi
  exact Option.map_eq_some_iff.1 hi.symm

theorem Record.fixed_iff (r q : Record) :
    r.fixed = q.fixed ↔ r.key = q.key ∧ r.origin = q.origin ∧ (r.state = .pending ↔ q.state = .pending) ∧
      r.feed = q.feed ∧ r.nominal = q.nominal ∧ r.extension = q.extension := by
  simp [Record.fixed]

/-- The state agrees with another on everything that the laws speak of. -/
structure Agrees (s t : State) : Prop where
  hash : t.hashP = s.hashP ∨ ∀ i : Fin 256, s.table.slots[i] = none
  slots : ∀ i : Fin 256, (t.table.slots[i]).map Record.fixed = (s.table.slots[i]).map Record.fixed
  states : ∀ h : Fin 8, (t.entry h).state = (s.entry h).state
  counts : ∀ h : Fin 8, (t.entry h).recordCount = (s.entry h).recordCount
  ee : t.ee.map Context.fixed = s.ee.map Context.fixed
  slot : t.line.slot.map Transaction.fixed = s.line.slot.map Transaction.fixed
  free : t.store.free = s.store.free
  expected : ∀ k : Fin 8, t.lcm.circuits[k].expected = s.lcm.circuits[k].expected

theorem bucketsSound_of {s t : State} (hp : t.hashP = s.hashP ∨ ∀ i : Fin 256, s.table.slots[i] = none)
    (h : ∀ i : Fin 256, (t.table.slots[i]).map Record.fixed = (s.table.slots[i]).map Record.fixed)
    (hb : s.bucketsSound) : t.bucketsSound := by
  rcases hp with hp | hempty
  · have hbucket (k : Key) : t.bucketOf k = s.bucketOf k := by rw [State.bucketOf, hp]; rfl
    refine ⟨fun i r hr => ?_, fun i j r q hi hj hk => ?_⟩
    · obtain ⟨r', hr', hf⟩ := slot_of_fixed h hr
      rw [hbucket, ← ((r'.fixed_iff r).1 hf).1]
      exact hb.1 i r' hr'
    · obtain ⟨r', hr', hf⟩ := slot_of_fixed h hi
      obtain ⟨q', hq', hf'⟩ := slot_of_fixed h hj
      exact hb.2 i j r' q' hr' hq' (((r'.fixed_iff r).1 hf).1.trans (hk.trans ((q'.fixed_iff q).1 hf').1.symm))
  · have hnone {i : Fin 256} {r : Record} : t.table.slots[i] ≠ some r := fun hr => by
      obtain ⟨r', hr', -⟩ := slot_of_fixed h hr
      rw [hempty i] at hr'
      cases hr'
    exact ⟨fun i r hr => absurd hr hnone, fun i j r q hi => absurd hi hnone⟩

theorem Context.fixed_iff (c d : Context) :
    c.fixed = d.fixed ↔ c.handle = d.handle ∧ c.phase = d.phase ∧ (c.classification = none ↔ d.classification = none) ∧
      c.pendingKey = d.pendingKey ∧ c.held = d.held ∧ c.abandoned = d.abandoned := by
  simp [Context.fixed]

/-- The context that another state holds in the place of this one's. -/
theorem Agrees.context {s t : State} (h : Agrees s t) {c : Context} (hc : t.ee = some c) :
    ∃ d, s.ee = some d ∧ d.fixed = c.fixed := by
  have hee := h.ee
  rw [hc] at hee
  exact Option.map_eq_some_iff.1 hee.symm

theorem Agrees.symm {s t : State} (h : Agrees s t) : Agrees t s :=
  ⟨h.hash.imp Eq.symm fun hn i => by simpa [hn i] using h.slots i, fun i => (h.slots i).symm, fun g => (h.states g).symm, fun g => (h.counts g).symm, h.ee.symm,
    h.slot.symm, h.free.symm, fun k => (h.expected k).symm⟩

theorem Agrees.fits {s t : State} (h : Agrees s t) {c d : Context} (hcd : d.fixed = c.fixed) (hd : d.Fits s) :
    c.Fits t := by
  obtain ⟨h1, h2, -, h4, h5, h6⟩ := (d.fixed_iff c).1 hcd
  refine ⟨by simpa only [h.states, ← h1, ← h2, ← h6] using hd.unit, by simpa only [← h4, ← h5] using hd.held,
    fun k hk => ?_⟩
  obtain ⟨hk1, hk2, i, r, hr, hkey, hp⟩ := hd.named k (h4.trans hk)
  obtain ⟨q, hq, hf⟩ := slot_of_fixed (fun i => (h.slots i).symm) hr
  obtain ⟨hk', -, hs', -⟩ := (q.fixed_iff r).1 hf
  exact ⟨h1 ▸ hk1, h2 ▸ hk2, i, q, hq, hk'.trans hkey, hs'.2 hp⟩

/-- A transaction is owned by contexts that agree, and so are transactions that agree. -/
theorem Context.Owns.of_fixed {c d : Context} {x y : Transaction} (hcd : d.fixed = c.fixed) (hxy : y.fixed = x.fixed)
    (ho : d.Owns y) : c.Owns x := by
  obtain ⟨h1, h2, h3, h4, -, h6⟩ := (d.fixed_iff c).1 hcd
  simp only [Transaction.fixed, Prod.mk.injEq] at hxy
  obtain ⟨-, hs, hw, hk⟩ := hxy
  refine ⟨hs ▸ h1 ▸ ho.subject, hw ▸ h6 ▸ ho.withdrawn, fun ha => ?_⟩
  have hcalls := ho.kind (h6.trans ha)
  rw [hk] at hcalls
  cases hkind : x.request.kind <;> rw [hkind] at hcalls <;>
    simpa only [Context.callsFor, ← h2, ← h3, ← h4] using hcalls

theorem Agrees.core {s t : State} (h : Agrees s t) (hc : s.Core) : t.Core where
  buckets := bucketsSound_of h.hash h.slots hc.buckets
  counts := by
    rw [State.countsSound_iff]
    intro g
    rw [h.counts, h.states, Table.sum_fixed h.slots fun r q hf => by rw [Record.ofHandle, ((r.fixed_iff q).1 hf).1]; rfl]
    exact (s.countsSound_iff.1 hc.counts) g
  pendings i r hr hp := by
    obtain ⟨q, hq, hf⟩ := slot_of_fixed h.slots hr
    obtain ⟨hkey, horigin, hstate, -, -, hext⟩ := (q.fixed_iff r).1 hf
    obtain ⟨h1, h2, c, h3, h4⟩ := hc.pendings i q hq (hstate.2 hp)
    obtain ⟨d, hd, hf'⟩ := h.symm.context h3
    exact ⟨horigin ▸ h1, hext ▸ h2, d, hd, hkey ▸ ((d.fixed_iff c).1 hf').2.2.2.1.trans h4⟩
  context := by
    rw [State.contextSound_iff]
    refine ⟨fun c hee => ?_, fun x hx hr => ?_⟩
    · obtain ⟨d, hd, hf⟩ := h.context hee
      exact h.fits hf (hc.fits hd)
    · have hslot := h.slot
      rw [hx] at hslot
      obtain ⟨y, hy, hf⟩ := Option.map_eq_some_iff.1 hslot.symm
      have hreq : y.requester = x.requester := congrArg Prod.fst hf
      obtain ⟨d, hd, ho⟩ := (s.contextSound_iff.1 hc.context).2 y hy (hreq.trans hr)
      obtain ⟨c, hee, hcd⟩ := h.symm.context hd
      exact ⟨c, hee, ho.of_fixed hcd.symm hf⟩

theorem Agrees.carries {s t : State} (h : Agrees s t) : Carries s t where
  core := h.core
  blocks _ hb := by
    rw [State.blocksSound_iff] at hb ⊢
    intro b
    have hheld : t.heldCount b = s.heldCount b := by
      have hee := h.ee
      unfold State.heldCount
      cases ht : t.ee with
      | none =>
        rw [ht] at hee
        rw [Option.map_eq_none_iff.1 hee.symm]
      | some c =>
        obtain ⟨d, hd, hf⟩ := h.context ht
        rw [hd]
        exact congrArg (List.count b) ((d.fixed_iff c).1 hf).2.2.2.2.1.symm
    rw [h.free, hheld, Table.sum_fixed h.slots fun r q hf => by
      rw [Record.chain, ((r.fixed_iff q).1 hf).2.2.2.2.2]; rfl]
    exact hb b
  expected _ he := by
    rw [State.expectedSound_iff] at he ⊢
    intro k
    have hleaving : t.leaving = s.leaving := by
      funext g
      simp only [State.leaving, h.states]
    rw [h.expected, he, State.expectedCurrent_sum, State.expectedCurrent_sum, hleaving,
      Table.sum_fixed h.slots fun r q hf => ?_]
    obtain ⟨hkey, -, hstate, hfeed, hnominal, -⟩ := (r.fixed_iff q).1 hf
    simp only [Record.draws, hkey, hfeed, hnominal, ne_eq, hstate]

/-- A change whose fields the frame lemmas show to agree. -/
theorem carries_of {s t : State} (settings : t.settings = s.settings := by simp)
    (slots : ∀ i : Fin 256, (t.table.slots[i]).map Record.fixed = (s.table.slots[i]).map Record.fixed := by simp)
    (states : ∀ h : Fin 8, (t.entry h).state = (s.entry h).state := by simp [State.entry])
    (counts : ∀ h : Fin 8, (t.entry h).recordCount = (s.entry h).recordCount := by simp [State.entry])
    (ee : t.ee.map Context.fixed = s.ee.map Context.fixed := by simp)
    (slot : t.line.slot.map Transaction.fixed = s.line.slot.map Transaction.fixed := by simp)
    (free : t.store.free = s.store.free := by simp)
    (expected : ∀ k : Fin 8, t.lcm.circuits[k].expected = s.lcm.circuits[k].expected := by simp) : Carries s t :=
  Agrees.carries ⟨.inl (by rw [State.hashP, State.setting, settings]; rfl), slots, states, counts, ee, slot, free, expected⟩

theorem Quiet.carries {s t : State} (h : Quiet s t) : Carries s t :=
  carries_of (settings := h.settings) (slots := h.slots) (states := fun g => by rw [State.entry, h.dir]; rfl)
    (counts := fun g => by rw [State.entry, h.dir]; rfl) (ee := by rw [h.ee]) (slot := by rw [h.slot]) (free := by rw [h.store])
    (expected := h.expected)

end Sys2Proof.Machine
end

section
/-! What carries the laws of the table, the directory and the context: changes of an entry, of the context and of the
slot, and the departure of units. -/

namespace Sys2Proof.Machine

theorem State.entry_setEntry (s : State) (h g : Fin 8) (e : Entry) :
    (s.setEntry h e).entry g = if h = g then e else s.entry g := by
  simp [State.entry, State.setEntry, Vector.getElem_set, Fin.ext_iff]

/-- An entry replaced whose state and record count stay. -/
theorem carries_setEntry {s : State} {h : Fin 8} {e : Entry} (hstate : e.state = (s.entry h).state)
    (hcount : e.recordCount = (s.entry h).recordCount) : Carries s (s.setEntry h e) := by
  refine carries_of (states := fun g => ?_) (counts := fun g => ?_)
  all_goals
    rw [State.entry_setEntry]
    split
    next hg => subst hg; assumption
    next => rfl

/-- An entry that takes another state, one that its records and its context allow. -/
theorem carries_setState {s : State} {h : Fin 8} {e : Entry} (hcount : e.recordCount = (s.entry h).recordCount)
    (hfree : e.state = .free ∨ e.state = .joining → e.recordCount = 0)
    (hunit : ∀ c, s.ee = some c → c.handle = h → c.abandoned = false →
      if c.phase = .assigning then e.state = .joining else e.state = .enrolling ∨ e.state = .live)
    (hleaving : (e.state = .leaving ↔ (s.entry h).state = .leaving) ∨ e.recordCount = 0) :
    Carries s (s.setEntry h e) where
  core hc := {
    buckets := hc.buckets
    counts := by
      rw [State.countsSound_iff]
      intro g
      have hg := (s.countsSound_iff.1 hc.counts) g
      rw [State.entry_setEntry]
      split
      next hgh =>
        subst hgh
        exact ⟨hcount.trans hg.1, hfree⟩
      next => exact hg
    pendings := hc.pendings
    context := by
      rw [State.contextSound_iff]
      refine ⟨fun c hee => ?_, (s.contextSound_iff.1 hc.context).2⟩
      have hfit := hc.fits hee
      refine ⟨fun ha => ?_, hfit.held, hfit.named⟩
      rw [State.entry_setEntry]
      by_cases hh : h = c.handle
      · rw [if_pos hh]
        exact hunit c hee hh.symm ha
      · rw [if_neg hh]
        exact hfit.unit ha }
  blocks _ hb := hb
  expected hc he := by
    rw [State.expectedSound_iff] at he ⊢
    intro k
    refine (he k).trans (State.expectedCurrent_congr (s := s) (t := s.setEntry h e) k rfl fun p hp _ _ => ?_).symm
    rw [State.leaving, State.leaving, State.entry_setEntry]
    split
    next hh =>
      rcases hleaving with hl | h0
      · rw [← hh]
        exact decide_eq_decide.2 hl
      · have hne := hc.counts.none_of (hcount.symm.trans h0) ((Table.mem_records _ _ _).1 hp)
        exact absurd hh.symm hne
    next => rfl

/-! ### The context and the slot -/

/-- No transaction of the Enrolment Engine is in the slot. -/
def State.noEeSlot (s : State) : Prop := ∀ x, s.line.slot = some x → x.requester ≠ .ee

theorem State.noEeSlot_of {s : State} (h : s.slotHeldBy .ee = false) : s.noEeSlot := by
  intro x hx hr
  simp [State.slotHeldBy, hx, hr] at h

/-- Another context, or none, while the slot holds no transaction of the Enrolment Engine: it names the PENDING record
that the one before named, and holds its blocks. -/
theorem carries_ee {s : State} {x : Option Context} (hslot : s.Core → s.noEeSlot)
    (hkey : s.Core → ∀ c k, s.ee = some c → c.pendingKey = some k → ∃ c', x = some c' ∧ c'.pendingKey = some k)
    (hheld : s.Core → ∀ b, ({ s with ee := x } : State).heldCount b = s.heldCount b)
    (hfits : s.Core → ∀ c, x = some c → c.Fits s) : Carries s { s with ee := x } where
  core hc := {
    buckets := hc.buckets
    counts := hc.counts
    pendings := fun i r hr hp => by
      obtain ⟨h1, h2, c, h3, h4⟩ := hc.pendings i r hr hp
      exact ⟨h1, h2, hkey hc c _ h3 h4⟩
    context := (State.contextSound_iff _).2 ⟨fun c hx => by
      have hfit := hfits hc c hx
      exact ⟨hfit.unit, hfit.held, hfit.named⟩, fun y hy hr => absurd hr (hslot hc y hy)⟩ }
  blocks hc hb := by
    rw [State.blocksSound_iff] at hb ⊢
    intro b
    rw [hheld hc]
    exact hb b
  expected _ he := he

/-- The context replaced by one that names the same record and holds the same blocks. -/
theorem carries_withContext {s : State} {c c' : Context} (hee : s.ee = some c) (hslot : s.Core → s.noEeSlot)
    (hkey : c'.pendingKey = c.pendingKey) (hheld : c'.held = c.held) (hfits : s.Core → c.Fits s → c'.Fits s) :
    Carries s (s.withContext c') := by
  refine carries_ee hslot (fun _ d k hd hk => ?_) (fun _ b => ?_) fun hc d hd => ?_
  · cases hee.symm.trans hd
    exact ⟨c', rfl, hkey.trans hk⟩
  · simp [State.heldCount, hee, hheld]
  · cases hd
    exact hfits hc (hc.fits hee)

theorem carries_setChain (s : State) (c : ChainState) : Carries s (s.setChain c) := (quiet_setChain s c).carries

theorem carries_contextEnded (s : State) : Carries s s.contextEnded := by
  unfold State.contextEnded
  split
  · exact carries_setChain _ _
  · exact .refl s

/-- The end of a context that names no record. -/
theorem carries_endContext {s : State} (hslot : s.Core → s.noEeSlot)
    (hkey : s.Core → ∀ c, s.ee = some c → c.pendingKey = none) : Carries s s.endContext := by
  refine .before (carries_contextEnded _) (carries_ee hslot (fun hc c k hee hk => ?_) (fun hc b => ?_) fun _ c hx => ?_)
  · rw [hkey hc c hee] at hk
    cases hk
  · cases hee : s.ee with
    | none => simp [State.heldCount, hee]
    | some c => simp [State.heldCount, hee, (hc.fits hee).held (hkey hc c hee)]
  · cases hx

theorem carries_settleAbandoned (s : State) : Carries s s.settleAbandoned := by
  unfold State.settleAbandoned
  split
  next c hee =>
    split
    next h =>
      obtain ⟨-, hk, hs⟩ := h
      exact carries_endContext (fun _ => State.noEeSlot_of hs) fun _ c' hc' => by
        cases hee.symm.trans hc'
        exact hk
    next => exact .refl s
  next => exact .refl s

/-- A change of the line that leaves the fixed fields of the transaction in the slot. -/
theorem carries_line {s : State} {l : TrainLine}
    (h : l.slot.map Transaction.fixed = s.line.slot.map Transaction.fixed) : Carries s { s with line := l } :=
  carries_of (slot := h)

/-- A line whose slot holds no transaction of the Enrolment Engine, or one that the context owns. -/
theorem carries_slot {s : State} {l : TrainLine}
    (h : s.Core → ∀ x, l.slot = some x → x.requester = .ee → ∃ c, s.ee = some c ∧ c.Owns x) :
    Carries s { s with line := l } where
  core hc := {
    buckets := hc.buckets
    counts := hc.counts
    pendings := hc.pendings
    context := (State.contextSound_iff _).2 ⟨fun c hee => by
      have hfit := hc.fits (s := s) hee
      exact ⟨hfit.unit, hfit.held, hfit.named⟩, h hc⟩ }
  blocks _ hb := hb
  expected _ he := he

theorem carries_emptySlot (s : State) : Carries s { s with line := { s.line with slot := none } } :=
  carries_slot fun _ _ h => nomatch h

theorem carries_trySend (s : State) : Carries s s.trySend := by
  unfold State.trySend
  split
  · exact .refl s
  next x hx =>
    dsimp only
    split
    · split
      · refine .before (quiet_count _ _).carries (carries_line ?_)
        rw [hx]
        rfl
      · refine carries_line ?_
        rw [hx]
        rfl
    · refine carries_line ?_
      rw [hx]
      rfl

/-! ### Departure -/

/-- A context after the units of a departure have left (R122). -/
def Context.departed (A : Fin 8 → Bool) (c : Context) : Context :=
  if A c.handle then
    { c with abandoned := true, classification := if c.pendingKey = none then none else c.classification }
  else c

theorem Context.departed_stays {A : Fin 8 → Bool} {c : Context} (h : A c.handle = false) : c.departed A = c := by
  rw [Context.departed, if_neg (by simp [h])]

theorem Context.departed_leaves {A : Fin 8 → Bool} {c : Context} (h : A c.handle = true) :
    (c.departed A).abandoned = true := by
  rw [Context.departed, if_pos h]

@[simp] theorem Context.departed_frame (A : Fin 8 → Bool) (c : Context) :
    (c.departed A).handle = c.handle ∧ (c.departed A).phase = c.phase ∧ (c.departed A).pendingKey = c.pendingKey ∧
    (c.departed A).held = c.held := by
  unfold Context.departed
  split <;> exact ⟨rfl, rfl, rfl, rfl⟩

theorem Left.ee_eq {s t : State} {A : Fin 8 → Bool} (h : Left s t A) : t.ee = s.ee.map (Context.departed A) := by
  rw [h.context]
  cases s.ee with
  | none => rfl
  | some c => exact (apply_ite some _ _ _).symm

theorem Left.table_eq {s t : State} {A : Fin 8 → Bool} (h : Left s t A) : t.table = s.table := by rw [h.rest]

theorem Left.settings_eq {s t : State} {A : Fin 8 → Bool} (h : Left s t A) : t.settings = s.settings := by rw [h.rest]

theorem Left.store_eq {s t : State} {A : Fin 8 → Bool} (h : Left s t A) : t.store = s.store := by rw [h.rest]

theorem Left.entry_stays {s t : State} {A : Fin 8 → Bool} (h : Left s t A) {g : Fin 8} (hg : A g = false) :
    t.entry g = s.entry g := by
  rw [State.entry, h.entries, if_pos hg]
  rfl

/-- A transaction that is in the slot after a departure was there before, and is withdrawn with its subject. -/
theorem Left.slot_some {s t : State} {A : Fin 8 → Bool} (h : Left s t A) {y : Transaction} (hy : t.line.slot = some y) :
    ∃ x, s.line.slot = some x ∧ (if x.about A then y = { x with withdrawn := true } else y = x) := by
  have hslot := h.slot
  rw [hy] at hslot
  cases hx : s.line.slot with
  | none => rw [hx] at hslot; cases hslot
  | some x =>
    rw [hx] at hslot
    refine ⟨x, rfl, ?_⟩
    dsimp only at hslot
    split at hslot
    next ha =>
      rw [if_pos ha]
      split at hslot
      · cases hslot
      · exact Option.some.inj hslot
    next ha =>
      rw [if_neg ha]
      exact Option.some.inj hslot

/-- The units of a departure leave with their context abandoned and its transaction withdrawn (R86, R122). -/
theorem Left.contextSound {s t : State} {A : Fin 8 → Bool} (h : Left s t A) (hc : s.Core) : t.contextSound := by
  rw [State.contextSound_iff]
  refine ⟨fun c' hee' => ?_, fun y hy hr => ?_⟩
  · rw [h.ee_eq] at hee'
    obtain ⟨c, hee, rfl⟩ := Option.map_eq_some_iff.1 hee'
    have hfit := hc.fits hee
    refine ⟨fun ha => ?_, by simpa using hfit.held, by simpa [h.table_eq] using hfit.named⟩
    cases hA : A c.handle with
    | true => rw [Context.departed_leaves hA] at ha; cases ha
    | false =>
      rw [Context.departed_stays hA] at ha ⊢
      rw [h.entry_stays hA]
      exact hfit.unit ha
  · obtain ⟨x, hx, hxy⟩ := h.slot_some hy
    have hreq : x.requester = .ee := by split at hxy <;> (subst hxy; exact hr)
    obtain ⟨c, hee, ho⟩ := (s.contextSound_iff.1 hc.context).2 x hx hreq
    have habout : x.about A = A c.handle := by rw [Transaction.about, ho.subject]; rfl
    refine ⟨c.departed A, by rw [h.ee_eq, hee]; rfl, ?_⟩
    cases hA : A c.handle with
    | true =>
      rw [if_pos (habout.trans hA)] at hxy
      have hab := Context.departed_leaves hA
      subst hxy
      exact ⟨by simpa using ho.subject, hab.symm, fun hn => absurd (hab.symm.trans hn) (by decide)⟩
    | false =>
      rw [if_neg (by simp [habout, hA])] at hxy
      rw [Context.departed_stays hA, hxy]
      exact ho

theorem Left.core {s t : State} {A : Fin 8 → Bool} (h : Left s t A) (hc : s.Core) : t.Core where
  buckets := bucketsSound_of (.inl (by rw [State.hashP, State.setting, h.settings_eq]; rfl)) (fun i => by rw [h.table_eq])
    hc.buckets
  counts := by
    rw [State.countsSound_iff]
    intro g
    obtain ⟨hn, h0⟩ := (s.countsSound_iff.1 hc.counts) g
    rw [h.table_eq, State.entry, h.entries]
    split
    · exact ⟨hn, h0⟩
    · split
      next hz => exact ⟨hz.1.symm.trans hn, fun _ => rfl⟩
      next => exact ⟨hn, fun hf => hf.elim (fun hf => nomatch hf) (fun hf => nomatch hf)⟩
  pendings i r hr hp := by
    rw [h.table_eq] at hr
    obtain ⟨h1, h2, c, hee, hk⟩ := hc.pendings i r hr hp
    exact ⟨h1, h2, c.departed A, by rw [h.ee_eq, hee]; rfl, by simpa using hk⟩
  context := h.contextSound hc

theorem Left.carries {s t : State} {A : Fin 8 → Bool} (h : Left s t A) : Carries s t where
  core := h.core
  blocks _ hb := by
    have hheld (b : Fin 512) : t.heldCount b = s.heldCount b := by
      rw [State.heldCount, State.heldCount, h.ee_eq]
      cases s.ee with
      | none => rfl
      | some c => simp
    rw [State.blocksSound_iff] at hb ⊢
    intro b
    rw [h.store_eq, h.table_eq, hheld]
    exact hb b
  expected hc he := by
    rw [State.expectedSound_iff]
    intro k
    rw [h.circuits.2.2 he hc.counts k]
    split
    next hsame => exact hsame.symm
    next => rfl

theorem carries_leaveOne (s : State) (h : Fin 8) : Carries s (s.leaveOne h) := by
  by_cases hgone : (s.entry h).state = .free ∨ (s.entry h).state = .leaving
  · rw [State.leaveOne, if_pos hgone]
    exact .refl s
  · obtain ⟨hfree, hleaving⟩ := not_or.1 hgone
    exact ((Left.nothing s).step (g := h) rfl hfree hleaving).carries

theorem carries_owe (s : State) (ps : List Nat) : Carries s (s.owe ps) := carries_of (states := fun _ => rfl) (counts := fun _ => rfl)

theorem carries_depart (s : State) (h : Fin 8) (cascade release : Bool) : Carries s (s.depart h cascade release) :=
  .before (carries_settleAbandoned _) (.before (carries_owe _ _) (carries_foldl carries_leaveOne _ s))

end Sys2Proof.Machine
end

section
/-! What the steps of a context, the Transaction Engine, a received frame and the cycle's end carry from one state to the
next: none of them changes the table. -/

namespace Sys2Proof.Machine

/-! ### The steps of a context -/

theorem carries_raise (s : State) (f : EventFlag) : Carries s (s.raise f) := (quiet_raise s f).carries

theorem carries_count (s : State) (x : Counter) : Carries s (s.count x) := (quiet_count s x).carries

theorem carries_raiseJoined (s : State) (h : Fin 8) : Carries s (s.raiseJoined h) :=
  carries_of (states := fun _ => rfl) (counts := fun _ => rfl)

theorem carries_joinUnit (s : State) (h : Fin 8) : Carries s (s.joinUnit h) :=
  .before (quiet_startFlash _).carries (.before (carries_raiseJoined _ h) (carries_setEntry rfl rfl))

/-- An ENROLLING or LIVE unit has no context in ASSIGNING that is not abandoned. -/
theorem State.Core.not_assigning {s : State} (hc : s.Core) {c : Context} (hee : s.ee = some c)
    (ha : c.abandoned = false) (hs : (s.entry c.handle).state = .enrolling ∨ (s.entry c.handle).state = .live) :
    c.phase ≠ .assigning := by
  intro hp
  have hu := (hc.fits hee).unit ha
  rw [if_pos hp] at hu
  rw [hu] at hs
  rcases hs with hs | hs <;> cases hs

theorem carries_pendingEmptied (s : State) (h : Fin 8) : Carries s (s.pendingEmptied h) := by
  refine .given fun hc => ?_
  dsimp only [State.pendingEmptied]
  split
  next hs =>
    have hlive : Carries s (s.setEntry h { s.entry h with state := .live }) := by
      refine carries_setState rfl (fun hf => hf.elim (fun hf => nomatch hf) (fun hf => nomatch hf)) ?_ (.inl ?_)
      · intro c hee hh ha
        rw [if_neg (hc.not_assigning hee ha (hh ▸ hs))]
        exact .inr rfl
      · refine ⟨fun hl => (nomatch hl), fun hl => ?_⟩
        rw [hl] at hs
        rcases hs with hs | hs <;> cases hs
    split
    · exact hlive
    · exact hlive.trans (carries_joinUnit _ h)
  next => exact .refl s

/-- The context dropped where it names no record and the slot holds no transaction of it. -/
theorem carries_dropContext {s : State} (hslot : s.Core → s.noEeSlot)
    (hkey : s.Core → ∀ c, s.ee = some c → c.pendingKey = none) : Carries s { s with ee := none } := by
  refine carries_ee hslot (fun hc c k hee hk => ?_) (fun hc b => ?_) fun _ c hx => (nomatch hx)
  · rw [hkey hc c hee] at hk
    cases hk
  · cases hee : s.ee with
    | none => simp [State.heldCount, hee]
    | some c => simp [State.heldCount, hee, (hc.fits hee).held (hkey hc c hee)]

/-- A context taken while the Enrolment Engine is idle. -/
theorem carries_newContext {s : State} {c : Context} (hidle : s.ee = none) (hheld : c.held = []) (hfits : s.Core → c.Fits s) : Carries s (s.withContext c) := by
  refine carries_ee (fun hc x hx => hc.slot_of_idle hidle hx) (fun _ d k hd => ?_) (fun _ b => ?_) fun hc d hd => ?_
  · rw [hidle] at hd
    cases hd
  · simp [State.heldCount, hidle, hheld]
  · cases hd
    exact hfits hc

theorem newContext_fits {s : State} {h : Fin 8} {p : Phase} {i : Option (BitVec 6)}
    (hu : if p = .assigning then (s.entry h).state = .joining
      else (s.entry h).state = .enrolling ∨ (s.entry h).state = .live) : (newContext h p i).Fits s :=
  ⟨fun _ => hu, fun _ => rfl, fun _ hk => nomatch hk⟩

/-- What follows an emptied pending set does not look at the context. -/
theorem State.pendingEmptied_idle (s : State) (h : Fin 8) :
    ({ s with ee := none } : State).pendingEmptied h = { s.pendingEmptied h with ee := none } := by
  rw [State.pendingEmptied_eq, State.pendingEmptied_eq]
  dsimp only [State.setEmptied]
  split
  · split <;> rfl
  · rfl

/-- The next descriptor is taken as by an idle engine, for a unit that is ENROLLING or LIVE. -/
theorem carries_nextDescriptor {s u : State} {c : Context} (hee : u.ee = some c)
    (hdrop : Carries s { u with ee := none }) (hstate : s.Core → (u.entry c.handle).state = .enrolling ∨
      (u.entry c.handle).state = .live) : Carries s u.nextDescriptor := by
  have hlive (hc : s.Core) : if Phase.reading = .assigning then (u.entry c.handle).state = .joining
      else (u.entry c.handle).state = .enrolling ∨ (u.entry c.handle).state = .live := hstate hc
  refine .given fun hc => ?_
  unfold State.nextDescriptor
  rw [hee]
  dsimp only
  split
  next i _ =>
    refine hdrop.trans (carries_newContext (s := { u with ee := none }) rfl rfl fun _ => newContext_fits ?_)
    exact hlive hc
  next =>
    have hend : Carries ({ u with ee := none } : State) ({ u.pendingEmptied c.handle with ee := none } : State) := by
      rw [← State.pendingEmptied_idle]
      exact carries_pendingEmptied _ _
    exact (hdrop.trans hend).trans (carries_contextEnded _)

theorem State.dropIndex_ee (s : State) (c : Context) : (s.dropIndex c).ee = s.ee := by simp

theorem carries_dropIndex (s : State) (c : Context) : Carries s (s.dropIndex c) := by
  unfold State.dropIndex
  split
  · exact .refl s
  · exact carries_setEntry rfl rfl

theorem State.dropIndex_state (s : State) (c : Context) (g : Fin 8) :
    ((s.dropIndex c).entry g).state = (s.entry g).state := by
  unfold State.dropIndex
  split
  · rfl
  · rw [State.entry_setEntry]
    split
    next h => subst h; rfl
    next => rfl

/-- A descriptor is finished with whose context names no record, while the slot holds no transaction of it. -/
theorem carries_finishDescriptor {s : State} {c d : Context} (hee : s.ee = some d)
    (hslot : s.noEeSlot) (hkey : d.pendingKey = none)
    (hstate : s.Core → (s.entry d.handle).state = .enrolling ∨ (s.entry d.handle).state = .live) :
    Carries s (s.finishDescriptor c) := by
  have hee' : (s.dropIndex c).ee = some d := (s.dropIndex_ee c).trans hee
  refine carries_nextDescriptor hee' (.before (carries_dropContext (fun _ => ?_) fun _ c' hc' => ?_)
    (carries_dropIndex s c)) fun hc => ?_
  · simpa [State.noEeSlot] using hslot
  · cases hee'.symm.trans hc'
    exact hkey
  · rw [State.dropIndex_state]
    exact hstate hc

/-! ### The end of a transaction -/

section
variable {s : State} {c : Context}

theorem carries_freeJoining (hee : s.ee = some c) (hslot : s.noEeSlot) (ha : c.abandoned = false)
    (hphase : c.phase = .assigning) (hkey : c.pendingKey = none) : Carries s (s.freeJoining c.handle) := by
  refine .given fun hc => ?_
  have hjoining : (s.entry c.handle).state = .joining := by
    have hu := (hc.fits hee).unit ha
    rwa [if_pos hphase] at hu
  have hzero : (s.entry c.handle).recordCount = 0 := (s.countsSound_iff.1 hc.counts c.handle).2 (.inr hjoining)
  have hdrop : Carries s { s with ee := none } := carries_dropContext (fun _ => hslot) fun _ c' hc' => by
    cases hee.symm.trans hc'
    exact hkey
  have hfree : Carries ({ s with ee := none } : State) (({ s with ee := none } : State).setEntry c.handle Entry.empty) :=
    carries_setState hzero.symm (fun _ => rfl) (fun c' hc' => (nomatch hc')) (.inr rfl)
  have hpurge : Carries (({ s with ee := none } : State).setEntry c.handle Entry.empty)
      { (s.setEntry c.handle Entry.empty).purgeItems c.handle with ee := none } :=
    carries_of (states := fun g => by simp [State.entry, State.setEntry])
      (counts := fun g => by simp [State.entry, State.setEntry])
  exact ((hdrop.trans hfree).trans hpurge).trans (carries_contextEnded _)

theorem carries_assignEnded (hee : s.ee = some c) (hslot : s.noEeSlot) (o : Ending)
    (ho : o ≠ .withdrawn → c.abandoned = false ∧ c.callsFor .assign) : Carries s (s.assignEnded c o) := by
  cases o with
  | answered p =>
    obtain ⟨ha, hphase, hkey⟩ := ho Ending.noConfusion
    refine .given fun hc => ?_
    have hjoining : (s.entry c.handle).state = .joining := by
      have hu := (hc.fits hee).unit ha
      rwa [if_pos hphase] at hu
    have hdrop : Carries s { s with ee := none } := carries_dropContext (fun _ => hslot) fun _ c' hc' => by
      cases hee.symm.trans hc'
      exact hkey
    let e : Entry := { s.entry c.handle with
      state := .enrolling, pendingSet := firstIndices (s.entry c.handle).descriptorCount }
    have henrol : Carries ({ s with ee := none } : State) (({ s with ee := none } : State).setEntry c.handle e) :=
      carries_setState rfl (fun hf => hf.elim (fun hf => nomatch hf) (fun hf => nomatch hf)) (fun c' hc' => (nomatch hc'))
        (.inl ⟨fun hl => (nomatch hl), fun hl => (nomatch hjoining.symm.trans hl)⟩)
    refine carries_nextDescriptor (u := s.setEntry c.handle e) hee (hdrop.trans henrol) fun _ => ?_
    rw [State.entry_setEntry, if_pos rfl]
    exact .inl rfl
  | declined =>
    obtain ⟨ha, hphase, hkey⟩ := ho Ending.noConfusion
    exact carries_freeJoining hee hslot ha hphase hkey
  | failed =>
    obtain ⟨ha, hphase, hkey⟩ := ho Ending.noConfusion
    exact carries_freeJoining hee hslot ha hphase hkey
  | withdrawn => exact carries_settleAbandoned s

/-- The unit of a context past ASSIGNING is ENROLLING or LIVE. -/
theorem State.Core.enrolling_or_live (hc : s.Core) (hee : s.ee = some c) (ha : c.abandoned = false)
    (hp : c.phase ≠ .assigning) : (s.entry c.handle).state = .enrolling ∨ (s.entry c.handle).state = .live := by
  have hu := (hc.fits hee).unit ha
  rwa [if_neg hp] at hu

/-- A context goes on without a record, or with the one it names, past ASSIGNING. -/
theorem carries_contextOn {c' : Context} (hee : s.ee = some c) (hslot : s.noEeSlot) (hp : c.phase ≠ .assigning)
    (hp' : c'.phase ≠ .assigning) (hh : c'.handle = c.handle) (ha : c'.abandoned = c.abandoned)
    (hkey : c'.pendingKey = c.pendingKey) (hheld : c'.held = c.held)
    (hnamed : c.pendingKey ≠ none → c'.phase = .fetching ∨ c'.phase = .concluding) : Carries s (s.withContext c') := by
  refine carries_withContext hee (fun _ => hslot) hkey hheld fun hc hfit => ⟨fun hn => ?_, ?_, fun k hk => ?_⟩
  · rw [if_neg hp', hh]
    exact hc.enrolling_or_live hee (ha.symm.trans hn) hp
  · rw [hkey, hheld]
    exact hfit.held
  · obtain ⟨h1, -, h3⟩ := hfit.named k (hkey ▸ hk)
    exact ⟨hh ▸ h1, hnamed (by rw [← hkey, hk]; exact Option.some_ne_none k), h3⟩

theorem carries_descqEnded (hee : s.ee = some c) (hslot : s.noEeSlot) (o : Ending)
    (ho : o ≠ .withdrawn → c.abandoned = false ∧ c.callsFor .descq) : Carries s (s.descqEnded c o) := by
  cases o with
  | answered p =>
    obtain ⟨-, hphase, -, hkey⟩ := ho Ending.noConfusion
    have hp : c.phase ≠ .assigning := by rw [hphase]; exact Phase.noConfusion
    dsimp only [State.descqEnded]
    split
    · dsimp only [State.takeDescriptor]
      split
      · exact .before (carries_count _ _)
          (carries_contextOn hee hslot hp Phase.noConfusion rfl rfl rfl rfl fun _ => .inr rfl)
      · exact carries_contextOn hee hslot hp hp rfl rfl rfl rfl fun hk => absurd hkey hk
    · exact carries_depart s _ _ _
  | declined =>
    obtain ⟨ha, hphase, -, hkey⟩ := ho Ending.noConfusion
    exact carries_finishDescriptor hee hslot hkey fun hc =>
      hc.enrolling_or_live hee ha (by rw [hphase]; exact Phase.noConfusion)
  | failed => exact carries_depart s _ _ _
  | withdrawn => exact carries_settleAbandoned s

theorem carries_store (st : Store) (h : st.free = s.store.free) : Carries s { s with store := st } :=
  carries_of (states := fun _ => rfl) (counts := fun _ => rfl) (free := h)

theorem carries_extqEnded (hee : s.ee = some c) (hslot : s.noEeSlot) (o : Ending)
    (ho : o ≠ .withdrawn → c.abandoned = false ∧ c.callsFor .extq) : Carries s (s.extqEnded c o) := by
  unfold State.extqEnded
  split
  · exact carries_settleAbandoned s
  next hw =>
    obtain ⟨ha, hphase⟩ := ho hw
    have hphase : c.phase = .fetching := hphase
    have hp : c.phase ≠ .assigning := by rw [hphase]; exact Phase.noConfusion
    have hstop : Carries s (s.withContext c.stopFetch) :=
      carries_contextOn hee hslot hp Phase.noConfusion rfl rfl rfl rfl fun _ => .inr rfl
    split
    next hkey =>
      exact carries_nextDescriptor hee
        (carries_dropContext (fun _ => hslot) fun _ c' hc' => by cases hee.symm.trans hc'; exact hkey)
        fun hc => hc.enrolling_or_live hee ha hp
    next =>
      split
      · split
        · refine .before (carries_contextOn (c := c) (by exact hee) hslot hp ?_ rfl rfl rfl rfl fun _ => ?_)
            (carries_store _ (Store.writeBytes_free _ _ _ _))
          · dsimp only
            split <;> exact Phase.noConfusion
          · dsimp only
            split
            · exact .inr rfl
            · exact .inl rfl
        · exact hstop
      · exact hstop

theorem carries_verdictEnded (hee : s.ee = some c) (hslot : s.noEeSlot) (o : Ending)
    (ho : o ≠ .withdrawn → c.abandoned = false ∧ c.phase = .concluding ∧ c.pendingKey = none) :
    Carries s (s.verdictEnded c o) := by
  have hfinish (hw : o ≠ .withdrawn) : Carries s (s.finishDescriptor c) := by
    obtain ⟨ha, hphase, hkey⟩ := ho hw
    exact carries_finishDescriptor hee hslot hkey fun hc =>
      hc.enrolling_or_live hee ha (by rw [hphase]; exact Phase.noConfusion)
  cases o
  case withdrawn => exact carries_settleAbandoned s
  all_goals exact hfinish Ending.noConfusion

theorem carries_eeEnded (hee : s.ee = some c) (hslot : s.noEeSlot) (kind : HeadKind) (o : Ending)
    (ho : o ≠ .withdrawn → c.abandoned = false ∧ c.callsFor kind) : Carries s (s.eeEnded kind o) := by
  unfold State.eeEnded
  rw [hee]
  cases kind
  case assign => exact carries_assignEnded hee hslot o ho
  case descq => exact carries_descqEnded hee hslot o ho
  case extq => exact carries_extqEnded hee hslot o ho
  all_goals exact carries_verdictEnded hee hslot o ho

end

theorem carries_reseatEnded (s : State) (o : Ending) : Carries s (s.reseatEnded o) := by
  have hdir (h : Fin 8) (e : Entry) (x : Option Reseat) (h1 : e.state = (s.entry h).state)
      (h2 : e.recordCount = (s.entry h).recordCount) :
      Carries s { s with dir := { s.dir with entries := s.dir.entries.set h e, reseat := x } } :=
    .before (carries_of (s := s.setEntry h e) (states := fun _ => rfl) (counts := fun _ => rfl)) (carries_setEntry h1 h2)
  unfold State.reseatEnded
  split
  · exact .refl s
  · dsimp only
    split
    · exact .refl s
    · split
      · exact .before (carries_raise _ _) (hdir _ _ _ rfl rfl)
      · exact hdir _ _ _ rfl rfl
    · exact hdir _ _ _ rfl rfl

theorem carries_udEnded (s : State) (kind : HeadKind) (o : Ending) : Carries s (s.udEnded kind o) := by
  unfold State.udEnded
  split
  · exact carries_of (states := fun _ => rfl) (counts := fun _ => rfl)
  · exact carries_reseatEnded s o

/-- A transaction ends with its requester told: one of the Enrolment Engine is its context's, and one of an abandoned
context ends WITHDRAWN. -/
theorem carries_endTransaction {s : State} {x : Transaction} (hx : s.line.slot = some x) (o : Ending) :
    Carries s (s.endTransaction x o) := by
  refine .given fun hc => ?_
  dsimp only [State.endTransaction]
  split
  next hr =>
    rcases Option.eq_none_or_eq_some s.ee with hee | ⟨c, hee⟩
    · exact absurd hr (hc.slot_of_idle hee hx)
    · have ho := hc.owns hee hx hr
      have hempty : ({ s with line := { s.line with slot := none } } : State).noEeSlot := fun y hy => (nomatch hy)
      refine (carries_emptySlot s).trans (carries_eeEnded (c := c) (by exact hee) hempty _ _ fun hw => ?_)
      have hn : x.withdrawn = false := by
        cases h : x.withdrawn with
        | false => rfl
        | true => rw [h, if_pos rfl] at hw; exact absurd rfl hw
      have ha := ho.withdrawn.symm.trans hn
      exact ⟨ha, ho.kind ha⟩
  · exact (carries_emptySlot s).trans (carries_of (states := fun _ => rfl) (counts := fun _ => rfl))
  · exact (carries_emptySlot s).trans (carries_udEnded _ _ _)

theorem carries_timeout {s : State} {x : Transaction} (hx : s.line.slot = some x) : Carries s (s.timeout x) := by
  unfold State.timeout
  split
  · exact carries_endTransaction hx _
  · split
    · refine .before (carries_trySend _) (carries_line ?_)
      rw [hx]
      rfl
    · exact (carries_count s _).trans (carries_endTransaction (by simpa using hx) _)

end Sys2Proof.Machine
end

section
/-! What received frames, the turns of the Transaction Engine, the cycle's end and the requests about units carry from
one state to the next: none of them changes the table. -/

namespace Sys2Proof.Machine

/-! ### Received frames -/

theorem carries_workList (s : State) (l : List WorkEntry) : Carries s { s with workList := l } :=
  carries_of (states := fun _ => rfl) (counts := fun _ => rfl)

theorem carries_offerItem (s : State) (h : Fin 8) (it : Byte × Byte × Byte × Word) : Carries s (s.offerItem h it) := by
  unfold State.offerItem
  split
  · exact carries_count s _
  · split
    · exact carries_count s _
    · split
      · exact carries_count s _
      · exact carries_workList s _

theorem carries_claim (s : State) (h : Fin 8) (parting : Bool) (items : List (Byte × Byte × Byte × Word)) :
    Carries s (s.claim h parting items) := by
  refine .before (carries_foldl (fun s it => carries_offerItem s h it) _ _) ?_
  dsimp only
  split
  · exact .before (carries_depart _ _ _ _) (carries_setEntry rfl rfl)
  · exact carries_setEntry rfl rfl

theorem carries_unclaimed (s : State) (p : Nat) (items : List (Byte × Byte × Byte × Word)) :
    Carries s (s.unclaimed p items) := by
  have hcount := (quiet_countTimes s .itemsUnknown items.length).carries
  dsimp only [State.unclaimed]
  split
  · exact hcount
  · split
    · exact hcount.trans ((carries_owe _ _).trans (carries_raise _ _))
    · exact hcount.trans (carries_owe _ _)

theorem carries_presentInSlot (s : State) (p : Nat) (payload : List Byte) : Carries s (s.presentInSlot p payload) := by
  dsimp only [State.presentInSlot]
  split
  · exact carries_claim s _ _ _
  · exact carries_unclaimed s _ _

theorem carries_reseat (s : State) (x : Option Reseat) : Carries s { s with dir := { s.dir with reseat := x } } :=
  carries_of (states := fun _ => rfl) (counts := fun _ => rfl)

theorem carries_presentMisplaced (s : State) (p hop : Nat) : Carries s (s.presentMisplaced p hop) := by
  have hcheck (s : State) (h : Fin 8) (p q : Nat) : Carries s (s.reseatCheck h p q) := by
    unfold State.reseatCheck
    split
    · exact carries_reseat s _
    · exact .refl s
  unfold State.presentMisplaced
  split
  · dsimp only
    split
    · exact .refl s
    · split
      · exact .before (hcheck _ _ _ _) (carries_setEntry rfl rfl)
      · exact carries_setEntry rfl rfl
  · exact .refl s

theorem carries_strayFrame (s : State) : Carries s s.strayFrame := (quiet_strayFrame s).carries

theorem carries_notePlaced (s : State) (p : Nat) : Carries s (s.notePlaced p) := (quiet_rcu s _).carries

theorem carries_placePresent (s : State) (arrival : Nat) (f : NodeFrame) : Carries s (s.placePresent arrival f) := by
  unfold State.placePresent
  split
  · split
    · exact (carries_notePlaced s _).trans (carries_presentInSlot _ _ _)
    · exact (carries_notePlaced s _).trans ((carries_strayFrame _).trans (carries_presentMisplaced _ _ _))
  · exact carries_strayFrame s

theorem carries_charge (s : State) (p : Nat) : Carries s (s.charge p).2 := by
  unfold State.charge
  split
  · exact .refl s
  · dsimp only
    split
    · exact carries_line rfl
    · exact carries_count s _

theorem carries_contextStarted (s : State) : Carries s s.contextStarted := by
  exact carries_setChain s _

/-- The FREE entry that an announce is given has no records, and the context is idle (R56, R107). -/
theorem carries_allocate {s : State} {h : Fin 8} (uid : Uid) (n q : Nat) (hfree : (s.entry h).state = .free)
    (hidle : s.ee = none) : Carries s (s.allocate h uid n q) := by
  refine .given fun hc => ?_
  have hzero : (s.entry h).recordCount = 0 := (s.countsSound_iff.1 hc.counts h).2 (.inl hfree)
  refine .before (carries_contextStarted _) (.before (carries_newContext (by exact hidle) rfl fun _ => newContext_fits ?_)
    (carries_setState hzero.symm (fun _ => rfl) (fun c hee => ?_) (.inr rfl)))
  · rw [if_pos rfl, State.entry_setEntry, if_pos rfl]
  · rw [hidle] at hee
    cases hee

theorem carries_directoryAnnounce (s : State) (uid : Uid) (n q : Nat) : Carries s (s.directoryAnnounce uid n q) := by
  have hdefer (s : State) : Carries s s.defer := carries_count s _
  unfold State.directoryAnnounce
  split
  · split
    · exact hdefer s
    · exact (carries_depart s _ _ _).trans (hdefer _)
  · split
    · exact hdefer s
    · split
      · split
        · exact (carries_raise s _).trans (hdefer _)
        · exact hdefer s
      · split
        · exact hdefer s
        · split
          · exact hdefer s
          next hidle =>
            split
            · exact (carries_raise s _).trans (hdefer _)
            next hlowest =>
              exact carries_allocate _ _ _ (by simpa using List.find?_some hlowest) (by simpa using hidle)

theorem carries_announceTaken (s : State) : Carries s s.announceTaken := by
  dsimp only [State.announceTaken]
  split
  · exact (quiet_rcu s _).carries.trans (carries_setChain _ _)
  · exact (quiet_rcu s _).carries

theorem carries_takeAnnounce (s : State) (f : NodeFrame) : Carries s (s.takeAnnounce f) := by
  unfold State.takeAnnounce
  split
  · have hcharge := (carries_announceTaken s).trans (carries_charge _ (f.hop + 1))
    dsimp only
    split
    · exact hcharge.trans (carries_directoryAnnounce _ _ _ _)
    · exact hcharge
  · exact carries_strayFrame s

theorem carries_placeAnswer (s : State) (arrival : Nat) (f : NodeFrame) : Carries s (s.placeAnswer arrival f) := by
  unfold State.placeAnswer
  split
  next hx =>
    split
    · exact carries_endTransaction hx _
    · exact carries_strayFrame s
  next => exact carries_strayFrame s

theorem carries_placeFrame (s : State) (arrival : Nat) (f : NodeFrame) : Carries s (s.placeFrame arrival f) := by
  unfold State.placeFrame
  split
  · exact carries_strayFrame s
  · split
    · exact carries_placePresent s _ _
    · split
      · split
        · exact carries_takeAnnounce s _
        · exact carries_strayFrame s
      · exact carries_placeAnswer s _ _

theorem carries_frameEnds (s : State) (rx : Reception) (bytes : List Byte) : Carries s (s.frameEnds rx bytes) := by
  have hend := ((quiet_stopReceiving s).trans (quiet_advance _ (rx.frameEnd bytes))).carries
  dsimp only [State.frameEnds]
  split
  · refine hend.trans ((carries_count _ .framesGood).trans (.trans (carries_line ?_) (carries_placeFrame _ _ _)))
    rw [TrainLine.notePolarity_slot]
  · exact hend.trans (quiet_badFrame _).carries

/-! ### The turns of the Transaction Engine -/

/-- A transaction of another requester than the Enrolment Engine takes the slot. -/
theorem carries_occupy (s : State) {x : Transaction} (hx : x.requester ≠ .ee) : Carries s (s.occupy x) := by
  refine carries_slot fun _ y hy hr => ?_
  cases hy
  exact absurd hr hx

/-- The transaction in the slot goes on with another attempt. -/
theorem carries_reoccupy {s : State} {x y : Transaction} (hx : s.line.slot = some x) (hy : y.fixed = x.fixed) :
    Carries s (s.occupy y) := by
  refine carries_line ?_
  rw [hx]
  exact congrArg some hy

/-- The context that waits for a turn names no record, but the one whose extension it fetches (R81). -/
theorem Context.wantsTurn_callsFor {s : State} {c : Context} (hfit : c.Fits s) (hw : c.wantsTurn = true) :
    c.abandoned = false ∧ c.callsFor (s.contextFrame c).kind := by
  have hnamed {k : Key} (hk : c.pendingKey = some k) : c.phase = .fetching ∨ c.phase = .concluding :=
    (hfit.named k hk).2.1
  simp only [Context.wantsTurn, Bool.and_eq_true, Bool.not_eq_true'] at hw
  refine ⟨hw.1, ?_⟩
  have hphase := hw.2
  unfold State.contextFrame
  cases hp : c.phase <;> simp only [hp] at hphase hnamed
  case assigning =>
    refine ⟨hp, ?_⟩
    cases hk : c.pendingKey with
    | none => rfl
    | some k => exact absurd (hnamed hk) (by decide)
  case reading =>
    simp only [Bool.and_eq_true, Option.isNone_iff_eq_none] at hphase
    refine ⟨hp, hphase.2, ?_⟩
    cases hk : c.pendingKey with
    | none => rfl
    | some k => exact absurd (hnamed hk) (by decide)
  case fetching => exact hp
  case concluding =>
    simp only [Bool.and_eq_true, Option.isNone_iff_eq_none] at hphase
    exact ⟨hp, hphase.1⟩

theorem carries_startEe {s : State} (hw : s.turnWanted .ee = true) : Carries s s.startEe := by
  unfold State.startEe
  split
  next c hee =>
    simp only [State.turnWanted, hee] at hw
    refine .before (carries_trySend _) (carries_slot fun hc x hx _ => ?_)
    cases hx
    obtain ⟨ha, hcalls⟩ := Context.wantsTurn_callsFor (hc.fits hee) hw
    exact ⟨c, hee, rfl, ha.symm, fun _ => hcalls⟩
  next => exact .refl s

theorem carries_startUd (s : State) : Carries s s.startUd := by
  unfold State.startUd
  split
  · exact (carries_occupy s Requester.noConfusion).trans (carries_trySend _)
  · split
    · exact (carries_reseat s _).trans ((carries_occupy _ Requester.noConfusion).trans (carries_trySend _))
    · exact .refl s

theorem carries_giveTurn {s : State} {r : Requester} (hr : s.nextTurn = some r) : Carries s (s.giveTurn r) := by
  have hturn : Carries s ({ s with line := { s.line with turn := r } } : State).clearOut := carries_line rfl
  have hw : s.turnWanted r = true := List.find?_some hr
  cases r
  · exact hturn.trans (carries_startEe hw)
  · exact hturn.trans (carries_line rfl)
  · exact hturn.trans (carries_startUd _)

/-- The entry taken for a rescan is LIVE (R108). -/
theorem State.rescanEntry_live {s : State} {h : Fin 8} (hr : s.rescanEntry = some h) : (s.entry h).state = .live := by
  obtain ⟨p, -, hp⟩ := List.exists_of_findSome?_eq_some hr
  have hfound := List.find?_some hp
  simp only [Bool.and_eq_true, decide_eq_true_eq] at hfound
  exact hfound.1.1

theorem carries_rescan (s : State) : Carries s s.rescan := by
  unfold State.rescan
  split
  next hidle hentry =>
    refine .before (carries_contextStarted _) (carries_newContext hidle rfl fun _ => newContext_fits ?_)
    rw [if_neg Phase.noConfusion]
    exact .inr (State.rescanEntry_live hentry)
  next => exact .refl s

theorem carries_openPhase (s : State) : Carries s s.openPhase := by
  have hbroadcast (s : State) : Carries s s.sendBroadcast := by
    unfold State.sendBroadcast
    split
    · exact (quiet_rcu s _).carries.trans (quiet_transmit _ _ _).carries
    · exact .refl s
  have hheld (s : State) : Carries s s.sendHeld := by
    unfold State.sendHeld
    split
    · split
      · exact carries_trySend s
      · exact .refl s
    · exact .refl s
  refine .before (hheld _) (.before (hbroadcast _) (.before (carries_rescan _) ?_))
  exact ((quiet_advance s _).trans ((quiet_clearOut _).trans (quiet_rcu _ _))).carries

theorem carries_requestEnd {s : State} {x : Transaction} (hx : s.line.slot = some x) (ends timeout : Nat) :
    Carries s ((s.advance ends).occupy { x with attempt := .awaiting (ends + timeout) }) :=
  (quiet_advance s _).carries.trans (carries_reoccupy (x := x) (by simpa using hx) rfl)

theorem carries_ou (s : State) (o : OutputUnit) : Carries s { s with ou := o } :=
  carries_of (states := fun _ => rfl) (counts := fun _ => rfl)

theorem carries_sendOp (s : State) : Carries s s.sendOp := by
  have hturn : Carries s { s with line := { s.line with ouTurn := false } } := carries_line rfl
  dsimp only [State.sendOp]
  split
  · exact hturn
  · split
    · exact hturn.trans (carries_ou _ _)
    · exact .before (carries_trySend _) (.before (carries_occupy _ Requester.noConfusion)
        (.before (quiet_clearOut _).carries (hturn.trans (carries_ou _ _))))

/-! ### The cycle's end -/

/-- A change of every entry that leaves its state and its record count. -/
theorem carries_perHandle (s : State) (f : Fin 8 → Entry) (hs : ∀ h, (f h).state = (s.entry h).state)
    (hn : ∀ h, (f h).recordCount = (s.entry h).recordCount) :
    Carries s { s with dir := { s.dir with entries := perHandle f } } :=
  carries_of (states := fun h => by rw [← hs h]; exact congrArg Entry.state (perHandle_getElem f h))
    (counts := fun h => by rw [← hn h]; exact congrArg Entry.recordCount (perHandle_getElem f h))

theorem carries_rcu (s : State) (r : RollCall) : Carries s { s with rcu := r } := (quiet_rcu s r).carries

theorem carries_judgeVoid (s : State) : Carries s s.judgeVoid := by
  unfold State.judgeVoid
  split
  · exact (carries_rcu s _).trans (carries_count _ _)
  · exact carries_rcu s _

theorem carries_settleCredit (s : State) (void : Bool) : Carries s (s.settleCredit void) :=
  .before (carries_settleAbandoned _) (.before (carries_foldl carries_leaveOne _ _)
    (carries_foldl (f := State.applyCredit void) (fun _ _ => carries_setEntry rfl rfl) _ s))

theorem carries_ite {s t u : State} {c : Prop} [Decidable c] (ht : Carries s t) (hu : Carries s u) :
    Carries s (if c then t else u) := by
  split
  · exact ht
  · exact hu

theorem carries_judgeFormed (s : State) (void : Bool) (a x : Nat) : Carries s (s.judgeFormed void a x) := by
  have hrun (n : Nat) : Carries s (s.setSteadyRun n) := carries_rcu s _
  exact carries_ite (carries_ite ((hrun _).trans (carries_setChain _ _)) (hrun _)) (hrun _)

theorem carries_judgeChain (s : State) (void : Bool) (a x : Nat) : Carries s (s.judgeChain void a x) := by
  have hturn (c : ChainState) := carries_setChain s c
  unfold State.judgeChain
  cases s.rcu.chain with
  | dormant => exact .refl s
  | forming => exact carries_ite (hturn _) (.refl s)
  | formed => exact carries_ite (hturn _) (carries_ite (hturn _) (carries_judgeFormed s _ _ _))
  | steady => exact carries_ite (hturn _) (carries_ite (hturn _) (carries_ite (hturn _) (.refl s)))
  | disturbed => exact carries_ite (.refl s) (carries_ite (hturn _) (carries_ite (hturn _) (hturn _)))

theorem carries_settle (s : State) : Carries s s.settle := by
  have hclose (s : State) (void : Bool) (a x : Nat) : Carries s (s.closeCycle void a x) :=
    .before (carries_rcu _ _) (carries_perHandle s (fun h => (s.entry h).clearMarks) (fun _ => rfl) fun _ => rfl)
  have hmeters (s : State) : Carries s s.refillMeters :=
    carries_foldl (f := State.refillMeter) (fun s m => carries_line rfl) _ s
  exact .before (quiet_startCycle _).carries (.before (carries_workList _ _) (.before (hmeters _) (.before (hclose _ _ _ _)
    (.before (carries_judgeChain _ _ _ _) (.before (carries_settleCredit _ _) (carries_judgeVoid s))))))

/-! ### Requests about units -/

/-- DECLARE_UNIT takes a FREE entry, which has no records (R59). -/
theorem carries_declareUnit {s : State} {h : Fin 8} (position : Option Nat) (hl : s.lowestFree = some h) :
    Carries s (s.setEntry h (s.declaredEntry position)) := by
  refine .given fun hc => ?_
  have hfree : (s.entry h).state = .free := by simpa using List.find?_some hl
  have hzero : (s.entry h).recordCount = 0 := (s.countsSound_iff.1 hc.counts h).2 (.inl hfree)
  refine carries_setState hzero.symm (fun _ => rfl) (fun c hee hh ha => ?_) (.inr rfl)
  have hon := (hc.fits hee).onChain ha
  rw [hh, hfree] at hon
  cases hon

/-- RESUME_UNIT takes a STALLED entry, which no context enrols (R60). -/
theorem carries_resumeUnit {s : State} {h : Fin 8} (hs : (s.entry h).state = .stalled) :
    Carries s (s.setEntry h { s.entry h with state := .live }) := by
  refine .given fun hc => carries_setState rfl (fun hf => hf.elim (fun hf => nomatch hf) (fun hf => nomatch hf))
    (fun c hee hh ha => ?_) (.inl ⟨fun hl => (nomatch hl), fun hl => (nomatch hs.symm.trans hl)⟩)
  have hu := (hc.fits hee).unit ha
  rw [hh, hs] at hu
  split at hu
  · cases hu
  · rcases hu with hu | hu <;> cases hu

theorem carries_restartChainOp (s : State) : Carries s s.restartChainOp := by
  have howe (t : State) (l : List Nat) : Carries t
      { t with dir := { t.dir with releaseList := l }, rcu := { t.rcu with broadcastOwed := true } } :=
    carries_of (states := fun _ => rfl) (counts := fun _ => rfl)
  exact .before (carries_settleAbandoned _) (.before (howe _ _) (carries_foldl carries_leaveOne _ s))

theorem carries_addItem (s : State) (it : Item) : Carries s (s.addItem it) := by
  have hcharge := carries_charge s (s.positionOf it.handle)
  have hentry : (s.charge (s.positionOf it.handle)).2.entry it.handle = s.entry it.handle := by simp [State.entry]
  dsimp only [State.addItem]
  split
  · split
    · split
      · refine hcharge.trans (carries_setEntry ?_ ?_)
        · rw [hentry]; rfl
        · rw [hentry]; rfl
      · exact hcharge.trans (carries_count _ _)
    · exact hcharge
  · exact carries_count s _

end Sys2Proof.Machine
end

section
/-! A slot that is written (`Writes`): what it takes to carry the laws of the table, and the records that are inserted,
concluded, replaced and removed. -/

namespace Sys2Proof.Machine

/-! ### A slot that is written -/

/-- A context still fits where its unit's state stays and the PENDING record it names stands. -/
theorem Context.Fits.keep {s t : State} {c : Context} (h : c.Fits s)
    (hstates : ∀ g : Fin 8, (t.entry g).state = (s.entry g).state)
    (hslots : ∀ (i : Fin 256) (r : Record), s.table.slots[i] = some r → r.state = .pending →
      c.pendingKey = some r.key → t.table.slots[i] = some r) : c.Fits t := by
  refine ⟨by simpa only [hstates] using h.unit, h.held, fun k hk => ?_⟩
  obtain ⟨h1, h2, i, r, hr, hkey, hp⟩ := h.named k hk
  exact ⟨h1, h2, i, r, hslots i r hr hp (hkey ▸ hk), hkey, hp⟩

/-- A state whose slot i holds another record, or none: the fields that the laws speak of follow. -/
structure Writes (s t : State) (i : Fin 256) (o : Option Record) : Prop where
  hash : t.hashP = s.hashP
  slots : t.table.slots = s.table.slots.set i o
  placed : ∀ r, o = some r → i.val / 4 = (s.bucketOf r.key).val ∧
    ∀ (j : Fin 256) (q : Record), j ≠ i → s.table.slots[j] = some q → q.key ≠ r.key
  states : ∀ h : Fin 8, (t.entry h).state = (s.entry h).state
  counts : ∀ h : Fin 8, (t.entry h).recordCount + slotSum (Record.ofHandle h) s.table.slots[i] =
    (s.entry h).recordCount + slotSum (Record.ofHandle h) o
  unit : ∀ r, o = some r → (s.entry r.key.handle).state ≠ .free ∧ (s.entry r.key.handle).state ≠ .joining
  blocks : ∀ b : Fin 512, t.store.free.count b + slotSum (fun r => r.chain.count b) o + t.heldCount b =
    s.store.free.count b + slotSum (fun r => r.chain.count b) s.table.slots[i] + s.heldCount b
  expected : ∀ k : Fin 8, t.lcm.circuits[k].expected = t.expectedCurrent k ∨
    t.lcm.circuits[k].expected = s.lcm.circuits[k].expected ∧
      slotSum (Record.draws s.leaving k) o = slotSum (Record.draws s.leaving k) s.table.slots[i]

section
variable {s t : State} {i : Fin 256} {o : Option Record}

/-- A slot after the write. -/
theorem Writes.getSlot (h : Writes s t i o) (j : Fin 256) :
    t.table.slots[j] = if i = j then o else s.table.slots[j] := by
  rw [h.slots]
  simp [Vector.getElem_set, Fin.ext_iff]

theorem Writes.other (h : Writes s t i o) {j : Fin 256} (hj : j ≠ i) : t.table.slots[j] = s.table.slots[j] := by
  rw [h.getSlot, if_neg (Ne.symm hj)]

theorem Writes.at_slot (h : Writes s t i o) : t.table.slots[i] = o := by rw [h.getSlot, if_pos rfl]

theorem Writes.leaving (h : Writes s t i o) : t.leaving = s.leaving := by
  funext g
  simp only [State.leaving, h.states]

theorem Writes.bucketsSound (h : Writes s t i o) (hb : s.bucketsSound) : t.bucketsSound := by
  have hbucket (k : Key) : t.bucketOf k = s.bucketOf k := by rw [State.bucketOf, h.hash]; rfl
  refine ⟨fun j r hr => ?_, fun j l r q hj hl hk => ?_⟩
  · rw [hbucket]
    by_cases hji : j = i
    · subst hji
      exact (h.placed r (h.at_slot.symm.trans hr)).1
    · exact hb.1 j r ((h.other hji).symm.trans hr)
  · by_cases hji : j = i
    · by_cases hli : l = i
      · exact hji.trans hli.symm
      · subst hji
        exact absurd hk.symm ((h.placed r (h.at_slot.symm.trans hj)).2 l q hli ((h.other hli).symm.trans hl))
    · by_cases hli : l = i
      · subst hli
        exact absurd hk ((h.placed q (h.at_slot.symm.trans hl)).2 j r hji ((h.other hji).symm.trans hj))
      · exact hb.2 j l r q ((h.other hji).symm.trans hj) ((h.other hli).symm.trans hl) hk

theorem Writes.countsSound (h : Writes s t i o) (hc : s.countsSound) : t.countsSound := by
  rw [State.countsSound_iff] at hc ⊢
  intro g
  have hsum := Table.sum_set s.table.slots (Record.ofHandle g) i o
  rw [← h.slots] at hsum
  have hcount := h.counts g
  refine ⟨by have := (hc g).1; omega, fun hf => ?_⟩
  rw [h.states] at hf
  have hzero := (hc g).2 hf
  have hnone : slotSum (Record.ofHandle g) o = 0 := by
    cases o with
    | none => rfl
    | some r =>
      obtain ⟨hfree, hjoining⟩ := h.unit r rfl
      refine if_neg fun hg => ?_
      rw [hg] at hfree hjoining
      exact hf.elim hfree hjoining
  omega

theorem Writes.blocksSound (h : Writes s t i o) (hb : s.blocksSound) : t.blocksSound := by
  rw [State.blocksSound_iff] at hb ⊢
  intro b
  have hsum := Table.sum_set s.table.slots (fun r => r.chain.count b) i o
  rw [← h.slots] at hsum
  have := h.blocks b
  have := hb b
  omega

theorem Writes.expectedSound (h : Writes s t i o) (he : s.expectedSound) : t.expectedSound := by
  rw [State.expectedSound_iff] at he ⊢
  intro k
  rcases h.expected k with hk | ⟨hk, hdraws⟩
  · exact hk
  · have hsum := Table.sum_set s.table.slots (Record.draws s.leaving k) i o
    rw [← h.slots] at hsum
    rw [hk, he, State.expectedCurrent_sum, State.expectedCurrent_sum, h.leaving]
    congr 1
    omega

theorem Writes.carries (h : Writes s t i o) (hp : s.Core → t.pendingSound) (hc : s.Core → t.contextSound) :
    Carries s t where
  core hcore := ⟨h.bucketsSound hcore.buckets, h.countsSound hcore.counts, hp hcore, hc hcore⟩
  blocks _ := h.blocksSound
  expected _ := h.expectedSound

/-- The other PENDING records are named as before. -/
theorem Writes.pendingSound (h : Writes s t i o) (hp : s.pendingSound)
    (ho : ∀ r, o = some r → r.state = .pending →
      r.origin = .enrolled ∧ r.extension = none ∧ ∃ c, t.ee = some c ∧ c.pendingKey = some r.key)
    (hother : ∀ (j : Fin 256) (r : Record) (c : Context), j ≠ i → s.table.slots[j] = some r → r.state = .pending →
      s.ee = some c → c.pendingKey = some r.key → ∃ c', t.ee = some c' ∧ c'.pendingKey = some r.key) :
    t.pendingSound := by
  intro j r hr hpend
  by_cases hji : j = i
  · subst hji
    exact ho r (h.at_slot.symm.trans hr) hpend
  · have hr' := (h.other hji).symm.trans hr
    obtain ⟨h1, h2, c, hee, hk⟩ := hp j r hr' hpend
    exact ⟨h1, h2, hother j r c hji hr' hpend hee hk⟩

/-- A slot is written that held no PENDING record and holds none: the context and its transaction stay. -/
theorem Writes.carries_idle (h : Writes s t i o) (hee : t.ee = s.ee) (hslot : t.line.slot = s.line.slot)
    (hwas : ∀ r, s.table.slots[i] = some r → r.state ≠ .pending) (hnow : ∀ r, o = some r → r.state ≠ .pending) :
    Carries s t := by
  refine h.carries (fun hc => ?_) fun hc => ?_
  · exact h.pendingSound hc.pendings (fun r hr hp => absurd hp (hnow r hr)) fun j r c _ _ _ hc' hk => ⟨c, hee.trans hc', hk⟩
  · rw [State.contextSound_iff]
    refine ⟨fun c hc' => (hc.fits (hee.symm.trans hc')).keep h.states fun j r hr hp _ => ?_, fun x hx hr => ?_⟩
    · rw [h.other fun hji => hwas r (hji ▸ hr) hp]
      exact hr
    · rw [hee]
      exact (s.contextSound_iff.1 hc.context).2 x (hslot.symm.trans hx) hr

end

/-! ### Notices of circuits -/

theorem State.expectedCurrent_of {s t : State} (hslots : t.table.slots = s.table.slots)
    (hstates : ∀ h : Fin 8, (t.entry h).state = (s.entry h).state) (k : Fin 8) :
    t.expectedCurrent k = s.expectedCurrent k := by
  have hleaving : t.leaving = s.leaving := by
    funext g
    simp only [State.leaving, hstates]
  rw [State.expectedCurrent_sum, State.expectedCurrent_sum, hslots, hleaving]

theorem State.expectedCurrent_noticeFeed (s : State) (f : Feed) (k : Fin 8) :
    (s.noticeFeed f).expectedCurrent k = s.expectedCurrent k :=
  State.expectedCurrent_of (by simp) (by simp [State.entry]) k

/-- A notice of a feed gives its circuit the expected current of its records (R149). -/
theorem State.noticeFeed_expected (s : State) (f : Feed) (k : Fin 8) :
    ((s.noticeFeed f).lcm.circuits[k]).expected =
      if f = .circuit k then s.expectedCurrent k else s.lcm.circuits[k].expected := by
  obtain ⟨-, -, hother, hnoticed⟩ := (s.noticeFeed_noticed f).1
  by_cases hf : f = .circuit k
  · rw [hnoticed k hf, if_pos hf, State.expectedCurrent_noticeFeed]
    split
    next h => exact h.symm
    next => rfl
  · rw [hother k hf, if_neg hf]

/-- A record that is PENDING, or whose unit is LEAVING, draws nothing on any circuit (R149). -/
theorem Record.draws_zero {leaving : Fin 8 → Bool} {k : Fin 8} {r : Record}
    (h : r.state ≠ .pending → leaving r.key.handle = false → r.feed ≠ .circuit k) : r.draws leaving k = 0 :=
  if_neg fun ⟨h1, h2, h3⟩ => h h2 h3 h1

/-- After a notice of its feed, a circuit has its expected current or a record changed that draws nothing on it. -/
theorem State.noticeFeed_settles {s u : State} {f : Feed} {x y : Nat} {k : Fin 8}
    (hcircuits : ∀ k : Fin 8, u.lcm.circuits[k].expected = s.lcm.circuits[k].expected)
    (h : f ≠ .circuit k → x = y) :
    ((u.noticeFeed f).lcm.circuits[k]).expected = (u.noticeFeed f).expectedCurrent k ∨
      ((u.noticeFeed f).lcm.circuits[k]).expected = s.lcm.circuits[k].expected ∧ x = y := by
  rw [State.noticeFeed_expected, State.expectedCurrent_noticeFeed]
  by_cases hf : f = .circuit k
  · exact .inl (if_pos hf)
  · exact .inr ⟨(if_neg hf).trans (hcircuits k), h hf⟩

/-! ### Insertion -/

/-- An insertion finds a free way in the bucket of a key that no record has (R13). -/
theorem State.place_at {s : State} {k : Key} {origin : Origin} {i : Fin 256} (h : s.place k origin = .at_ i) :
    s.find k = none ∧ s.freeWay k = some i ∧ (origin = .enrolled → s.table.enrolledCount < s.dynamicLimit) := by
  unfold State.place at h
  split at h
  · cases h
  next hfind =>
    split at h
    · cases h
    next hway =>
      split at h
      · cases h
      next hlimit =>
        cases h
        refine ⟨by simpa using hfind, hway, fun ho => ?_⟩
        exact Nat.lt_of_not_le fun hle => hlimit ⟨ho, hle⟩

/-- In a sound table no record has a key that the lookup does not find (R12). -/
theorem State.bucketsSound.none_of_find {s : State} (hb : s.bucketsSound) {k : Key} (hf : s.find k = none) {j : Fin 256}
    {q : Record} (hq : s.table.slots[j] = some q) : q.key ≠ k := by
  intro hk
  exact State.find_none_spec hf j q (hk ▸ hb.1 j q hq) hq hk

theorem State.insertAt_slots (s : State) (i : Fin 256) (r : Record) :
    (s.insertAt i r).table.slots = s.table.slots.set i (some r) := by
  dsimp only [State.insertAt]
  split <;> rfl

theorem State.insertAt_entry (s : State) (i : Fin 256) (r : Record) (h : Fin 8) :
    (s.insertAt i r).entry h =
      if r.key.handle = h then { s.entry h with recordCount := (s.entry h).recordCount + 1 } else s.entry h := by
  have hset : (s.insertAt i r).entry h = (s.setEntry r.key.handle
      { s.entry r.key.handle with recordCount := (s.entry r.key.handle).recordCount + 1 }).entry h := by
    dsimp only [State.insertAt]
    split <;> rfl
  rw [hset, State.entry_setEntry]
  split
  next hh => subst hh; rfl
  next => rfl

section
variable {s t : State} {i : Fin 256} {r : Record}

/-- A record without an extension is inserted, in a state that differs in nothing else but the context, its blocks and
the notice of circuits. -/
theorem writes_insert {k : Key} {origin : Origin} (hb : s.bucketsSound) (hplace : s.place k origin = .at_ i)
    (hkey : r.key = k) (hext : r.extension = none) (hhash : t.hashP = s.hashP)
    (hslots : t.table.slots = s.table.slots.set i (some r))
    (hunit : (s.entry k.handle).state ≠ .free ∧ (s.entry k.handle).state ≠ .joining)
    (hstates : ∀ h, (t.entry h).state = ((s.insertAt i r).entry h).state)
    (hcounts : ∀ h, (t.entry h).recordCount = ((s.insertAt i r).entry h).recordCount)
    (hfree : ∀ b, t.store.free.count b + t.heldCount b = s.store.free.count b + s.heldCount b)
    (hexpected : ∀ k, t.lcm.circuits[k].expected = t.expectedCurrent k ∨
      t.lcm.circuits[k].expected = s.lcm.circuits[k].expected ∧ r.draws s.leaving k = 0) :
    Writes s t i (some r) := by
  obtain ⟨hfind, hway, -⟩ := State.place_at hplace
  obtain ⟨hbucket, hnone, -⟩ := (s.freeWay_spec k i).1 hway
  subst hkey
  refine ⟨hhash, hslots, ?_, fun h => ?_, fun h => ?_, ?_, fun b => ?_, fun k => ?_⟩
  · rintro r' hr'
    cases hr'
    exact ⟨hbucket, fun j q _ hq => hb.none_of_find hfind hq⟩
  · rw [hstates, State.insertAt_entry]
    split <;> rfl
  · rw [hcounts, State.insertAt_entry, hnone, slotSum_some, slotSum_none, Record.ofHandle]
    split <;> rfl
  · rintro r' hr'
    cases hr'
    exact hunit
  · have hchain : r.chain = [] := by rw [Record.chain, hext]
    rw [hnone, slotSum_some, slotSum_none, hchain]
    simpa using hfree b
  · rw [hnone]
    exact hexpected k

end

/-! ### Removal -/

theorem State.removeRecord_entry (s : State) (i : Fin 256) (r : Record) (h : Fin 8) :
    ((s.removeRecord i r).entry h).state = (s.entry h).state ∧ ((s.removeRecord i r).entry h).recordCount =
      if r.key.handle = h then (s.entry h).recordCount - 1 else (s.entry h).recordCount := by
  rw [State.entry, State.removeRecord_dir]
  change ((s.setEntry _ _).entry h).state = _ ∧ ((s.setEntry _ _).entry h).recordCount = _
  rw [State.entry_setEntry]
  split
  next hh => subst hh; exact ⟨rfl, rfl⟩
  next => exact ⟨rfl, rfl⟩

/-- A removal gives notice of the circuit that the record drew on (R14, R15). -/
theorem State.removeRecord_expected (s : State) (i : Fin 256) (r : Record) (k : Fin 8) :
    (s.removeRecord i r).lcm.circuits[k].expected = (s.removeRecord i r).expectedCurrent k ∨
      (s.removeRecord i r).lcm.circuits[k].expected = s.lcm.circuits[k].expected ∧ 0 = r.draws s.leaving k := by
  dsimp only [State.removeRecord]
  split
  next h =>
    refine State.noticeFeed_settles (s := s) (fun _ => rfl) fun hf => ?_
    exact (Record.draws_zero fun _ _ => hf).symm
  next h => exact .inr ⟨rfl, (Record.draws_zero fun hp hl => absurd ⟨hp, hl⟩ h).symm⟩

theorem State.removeRecord_store (s : State) (i : Fin 256) (r : Record) :
    (s.removeRecord i r).store.free = s.removalBlocks r ++ s.store.free := by
  obtain ⟨-, -, hstore, -⟩ := s.removeRecord_removed i r
  rw [hstore]

/-- The blocks a removal returns are the record's and, where the context names it, those the context holds. -/
theorem State.removalBlocks_count (s : State) (i : Fin 256) (r : Record) (b : Fin 512) :
    (s.removalBlocks r).count b + (s.removeRecord i r).heldCount b = r.chain.count b + s.heldCount b := by
  unfold State.heldCount
  rw [State.removeRecord_ee]
  unfold State.removalBlocks
  cases s.ee with
  | none => rfl
  | some c =>
    dsimp only [Option.map_some, Option.elim_some]
    split
    · rw [List.count_append, Context.dropPending, Nat.add_comm (List.count b c.held)]
      rfl
    · rfl

/-- The record in a slot is removed. -/
theorem writes_removeRecord {s : State} {i : Fin 256} {r : Record} (hc : s.Core) (hr : s.table.slots[i] = some r) :
    Writes s (s.removeRecord i r) i none := by
  obtain ⟨hslots, -, -, -⟩ := s.removeRecord_removed i r
  refine ⟨by simp [State.hashP, State.setting], hslots, fun _ h => (nomatch h), fun h => (s.removeRecord_entry i r h).1,
    fun h => ?_, fun _ h => (nomatch h), fun b => ?_, fun k => ?_⟩
  · rw [(s.removeRecord_entry i r h).2, hr, slotSum_some, slotSum_none, Record.ofHandle]
    split
    next hh =>
      have := hc.counts.pos (p := (i, r)) ((Table.mem_records _ i r).2 hr) hh
      have : (s.entry h).recordCount ≠ 0 := this
      omega
    next => rfl
  · have := s.removalBlocks_count i r b
    rw [State.removeRecord_store, hr, slotSum_some, slotSum_none, List.count_append]
    omega
  · rw [hr]
    exact s.removeRecord_expected i r k

/-- A removal carries the laws: a context that named the record names none, and goes on (R15, R121, R122). -/
theorem carries_removeRecord {s : State} {i : Fin 256} {r : Record} (hr : s.table.slots[i] = some r) :
    Carries s (s.removeRecord i r) := by
  refine .given fun hc => ?_
  have hw := writes_removeRecord hc hr
  have hee := s.removeRecord_ee i r
  have hkeep {c : Context} {q : Record} {j : Fin 256} (hj : j ≠ i) (hq : s.table.slots[j] = some q)
      (hk : c.pendingKey = some q.key) : ¬(r.state = .pending ∧ c.pendingKey = some r.key) := by
    rintro ⟨-, hk'⟩
    exact hj (hc.buckets.2 j i q r hq hr (Option.some.inj (hk.symm.trans hk')))
  refine hw.carries (fun _ => ?_) fun _ => ?_
  · refine hw.pendingSound hc.pendings (fun _ h => (nomatch h)) fun j q c hj hq _ hc' hk => ⟨c, ?_, hk⟩
    rw [hee, hc', Option.map_some, if_neg (hkeep hj hq hk)]
  · rw [State.contextSound_iff]
    refine ⟨fun c' hc' => ?_, fun x hx hreq => ?_⟩
    · rw [hee] at hc'
      obtain ⟨c, hc0, rfl⟩ := Option.map_eq_some_iff.1 hc'
      have hfit := hc.fits hc0
      split
      next hnamed =>
        refine ⟨fun ha => ?_, fun _ => rfl, fun k hk => (nomatch hk)⟩
        simp only [hw.states]
        exact hfit.unit ha
      next hnamed =>
        refine hfit.keep hw.states fun j q hq hp hk => ?_
        rw [hw.other fun hji => hnamed ?_]
        · exact hq
        · subst hji
          cases hr.symm.trans hq
          exact ⟨hp, hk⟩
    · have hx' : s.line.slot = some x := by simpa using hx
      obtain ⟨c, hc0, ho⟩ := (s.contextSound_iff.1 hc.context).2 x hx' hreq
      rw [hee, hc0, Option.map_some]
      refine ⟨_, rfl, ?_⟩
      split
      next hnamed =>
        refine ⟨ho.subject, ho.withdrawn, fun ha => ?_⟩
        have hcalls := ho.kind ha
        cases hkind : x.request.kind <;> rw [hkind] at hcalls
        case extq => exact hcalls
        all_goals simp [Context.callsFor, hnamed.2] at hcalls
      next => exact ho

end Sys2Proof.Machine
end

section
/-! The operations on records carry the laws: insertion and reservation, conclusion, the replacement of an extension,
WITHDRAWN items and the Drain Sweeper. -/

namespace Sys2Proof.Machine

theorem carries_respond (s : State) (q : Request) (r : Result) (p : List Byte) : Carries s (s.respond q r p) :=
  (quiet_respond s q r p).carries

/-! ### DECLARE_RECORD -/

/-- A DECLARED record is inserted for a unit that is neither FREE nor JOINING, with the notice of its circuit (R13, R29). -/
theorem carries_declareRecord {s : State} {i : Fin 256} {r : Record} {k : Key} (hplace : s.place k .declared = .at_ i)
    (hkey : r.key = k) (hext : r.extension = none) (hactive : r.state = .active)
    (hunit : (s.entry k.handle).state = .declared) : Carries s ((s.insertAt i r).noticeFeed r.feed) := by
  refine .given fun hc => ?_
  have hnone : s.table.slots[i] = none := ((s.freeWay_spec k i).1 (State.place_at hplace).2.1).2.1
  have hw : Writes s ((s.insertAt i r).noticeFeed r.feed) i (some r) := by
    refine writes_insert hc.buckets hplace hkey hext (by simp [State.hashP, State.setting]) ?_ ?_ ?_ ?_ ?_ fun k => ?_
    · simpa using s.insertAt_slots i r
    · rw [hunit]
      exact ⟨UnitState.noConfusion, UnitState.noConfusion⟩
    · simp [State.entry]
    · simp [State.entry]
    · simp [State.heldCount]
    · refine (State.noticeFeed_settles (s := s) (x := 0) (y := r.draws s.leaving k) (fun _ => by simp) fun hf => ?_).imp_right
        (And.imp_right Eq.symm)
      exact (Record.draws_zero fun _ _ => hf).symm
  refine hw.carries_idle (by simp) (by simp) (fun q hq => ?_) fun q hq => ?_
  · rw [hnone] at hq
    cases hq
  · cases hq
    rw [hactive]
    exact RecordState.noConfusion

/-! ### The reservation operation -/

section
variable {s : State} {c : Context}

/-- A context that waits for its reservation operation has no transaction in the slot (R111, R115). -/
theorem State.Core.noEeSlot_of (hc : s.Core) (hee : s.ee = some c) (ha : c.abandoned = false)
    (h : ∀ k, ¬ c.callsFor k) : s.noEeSlot :=
  fun _ hx hr => h _ ((hc.owns hee hx hr).kind ha)

theorem Context.wantsReservation_spec (h : c.wantsReservation = true) :
    c.abandoned = false ∧ c.phase = .reading ∧ c.classification.isSome ∧ c.pendingKey = none := by
  simpa [Context.wantsReservation, and_assoc] using h

theorem Context.reserving_calls (hp : c.phase = .reading) (hcl : c.classification.isSome) (k : HeadKind) :
    ¬ c.callsFor k := by
  have hne : c.classification ≠ none := by
    intro h
    rw [h] at hcl
    cases hcl
  cases k <;> simp [Context.callsFor, hp, hne]

/-- A context that fits, with no transaction of it in the slot, is sound. -/
theorem Context.Fits.sound (h : c.Fits s) (hee : s.ee = some c) (hslot : s.noEeSlot) : s.contextSound := by
  rw [State.contextSound_iff]
  refine ⟨fun d hd => ?_, fun x hx hr => absurd hr (hslot x hx)⟩
  cases hee.symm.trans hd
  exact h

theorem State.drawFor_entry (s : State) (c : Context) (n : Nat) (h : Fin 8) :
    ((s.drawFor c n).entry h).state = (s.entry h).state ∧
      ((s.drawFor c n).entry h).recordCount = (s.entry h).recordCount := by
  have hset (e : Entry) (h1 : e.state = (s.entry c.handle).state) (h2 : e.recordCount = (s.entry c.handle).recordCount) :
      ((s.setEntry c.handle e).entry h).state = (s.entry h).state ∧
        ((s.setEntry c.handle e).entry h).recordCount = (s.entry h).recordCount := by
    rw [State.entry_setEntry]
    split
    next hh => subst hh; exact ⟨h1, h2⟩
    next => exact ⟨rfl, rfl⟩
  unfold State.drawFor
  dsimp only
  split
  · exact ⟨rfl, rfl⟩
  · split
    · exact hset _ rfl rfl
    · exact ⟨rfl, rfl⟩

/-- The context after a reservation names the record and holds the blocks drawn (R34, R115). -/
theorem State.drawFor_context (s : State) (c : Context) (n : Nat) (hheld : c.held = []) :
    ∃ c', (s.drawFor c n).ee = some c' ∧ c'.handle = c.handle ∧ c'.pendingKey = c.pendingKey ∧
      (c'.phase = .fetching ∨ c'.phase = .concluding) ∧
      ∀ b, (s.drawFor c n).store.free.count b + c'.held.count b = s.store.free.count b := by
  unfold State.drawFor
  dsimp only
  split
  · exact ⟨_, rfl, rfl, rfl, .inr rfl, fun b => by simp [State.withContext, hheld]⟩
  · split
    · refine ⟨_, rfl, rfl, rfl, .inl rfl, fun b => ?_⟩
      simp only [State.withContext, Store.draw]
      rw [Nat.add_comm, ← List.count_append, List.take_append_drop]
    · exact ⟨_, rfl, rfl, rfl, .inr rfl, fun b => by simp [State.withContext, hheld]⟩

/-- A PENDING record is reserved, and the context names it (R115). -/
theorem carries_reserveRecord {i : Fin 256} {r : Record} {k : Key} {n : Nat} (hee : s.ee = some c)
    (hw : c.wantsReservation = true) (hplace : s.place k .enrolled = .at_ i) (hkey : r.key = k)
    (hhandle : k.handle = c.handle) (horigin : r.origin = .enrolled) (hpending : r.state = .pending)
    (hext : r.extension = none) :
    Carries s ((s.insertAt i r).drawFor { c with pendingKey := some k } n) := by
  refine .given fun hc => ?_
  obtain ⟨ha, hphase, hcl, hnone⟩ := c.wantsReservation_spec hw
  have hnot : c.phase ≠ .assigning := by rw [hphase]; exact Phase.noConfusion
  have hunit := hc.enrolling_or_live hee ha hnot
  have hheld := (hc.fits hee).held hnone
  have hslot := hc.noEeSlot_of hee ha (Context.reserving_calls hphase hcl)
  obtain ⟨c', hee', hh', hk', hp', hblocks⟩ :=
    (s.insertAt i r).drawFor_context { c with pendingKey := some k } n hheld
  have hentry := (s.insertAt i r).drawFor_entry { c with pendingKey := some k } n
  have hwr : Writes s ((s.insertAt i r).drawFor { c with pendingKey := some k } n) i (some r) := by
    refine writes_insert hc.buckets hplace hkey hext (by simp [State.hashP, State.setting]) ?_ ?_ (fun h => (hentry h).1)
      (fun h => (hentry h).2) (fun b => ?_) fun g => .inr ⟨by simp, Record.draws_zero fun hp => absurd hpending hp⟩
    · simpa using s.insertAt_slots i r
    · rw [hhandle]
      rcases hunit with hu | hu <;> rw [hu] <;> exact ⟨UnitState.noConfusion, UnitState.noConfusion⟩
    · have hnow : ((s.insertAt i r).drawFor { c with pendingKey := some k } n).heldCount b = c'.held.count b := by
        rw [State.heldCount, hee']
        rfl
      have hwas : s.heldCount b = 0 := by
        rw [State.heldCount, hee, Option.elim_some, hheld]
        rfl
      rw [hnow, hwas]
      simpa using hblocks b
  refine hwr.carries (fun _ => ?_) fun _ => Context.Fits.sound (c := c') ⟨fun _ => ?_, fun hk => ?_, fun g hg => ?_⟩ hee' ?_
  · refine hwr.pendingSound hc.pendings (fun q hq _ => ?_) fun j q d _ _ _ hd hq => ?_
    · cases hq
      exact ⟨horigin, hext, c', hee', hk'.trans (congrArg some hkey.symm)⟩
    · cases hee.symm.trans hd
      rw [hnone] at hq
      cases hq
  · rw [if_neg (by rcases hp' with hp | hp <;> rw [hp] <;> exact Phase.noConfusion), hwr.states, hh']
    exact hunit
  · rw [hk'] at hk
    cases hk
  · cases hk'.symm.trans hg
    exact ⟨hhandle.trans hh'.symm, hp', i, r, hwr.at_slot, hkey, hpending⟩
  · simpa [State.noEeSlot] using hslot

theorem carries_stallUnit (hslot : s.noEeSlot) (hee : s.ee = some c) (hkey : c.pendingKey = none)
    (hunit : s.Core → (s.entry c.handle).state = .enrolling ∨ (s.entry c.handle).state = .live) :
    Carries s (s.stallUnit c) := by
  refine .given fun hc => ?_
  have hdrop : Carries s { s with ee := none } := carries_dropContext (fun _ => hslot) fun _ d hd => by
    cases hee.symm.trans hd
    exact hkey
  have hstall : Carries ({ s with ee := none } : State)
      (({ s with ee := none } : State).setEntry c.handle { s.entry c.handle with state := .stalled }) := by
    refine carries_setState rfl (fun hf => hf.elim (fun hf => nomatch hf) (fun hf => nomatch hf)) (fun d hd => (nomatch hd))
      (.inl ⟨fun hl => (nomatch hl), fun hl => ?_⟩)
    have hl : (s.entry c.handle).state = .leaving := hl
    rcases hunit hc with hu | hu <;> (rw [hu] at hl; cases hl)
  exact (hdrop.trans hstall).trans ((carries_raise _ .unitStalled).trans (carries_contextEnded _))

theorem carries_reserve (hee : s.ee = some c) (hw : c.wantsReservation = true) (d : Descriptor) (cl : Classification) :
    Carries s (s.reserve c d cl) := by
  refine .given fun hc => ?_
  obtain ⟨ha, hphase, hcl, hnone⟩ := c.wantsReservation_spec hw
  have hnot : c.phase ≠ .assigning := by rw [hphase]; exact Phase.noConfusion
  have hslot := hc.noEeSlot_of hee ha (Context.reserving_calls hphase hcl)
  have hrefuse (why : RefuseReason) : Carries s (s.withContext (c.refuse why)) :=
    carries_contextOn hee hslot hnot Phase.noConfusion rfl rfl rfl rfl fun _ => .inr rfl
  dsimp only [State.reserve]
  split
  · exact (hrefuse _).trans (carries_count _ _)
  · dsimp only [State.overflow]
    split
    · refine (carries_count s _).trans (carries_stallUnit ?_ (by simpa using hee) hnone fun _ => ?_)
      · simpa [State.noEeSlot] using hslot
      · simpa [State.entry] using hc.enrolling_or_live hee ha hnot
    · refine .before (carries_raise _ _) ((carries_count s .insertOverflows).trans ?_)
      refine carries_contextOn (c := c) (by simpa using hee) ?_ hnot Phase.noConfusion rfl rfl rfl rfl fun _ => .inr rfl
      simpa [State.noEeSlot] using hslot
  next hplace => exact carries_reserveRecord hee hw hplace rfl rfl rfl rfl rfl

end

/-! ### A record written over another of its key -/

/-- A record is written over one of the same key, and the blocks that its extension gains come from the free stack and
the context. -/
theorem writes_replace {s t : State} {i : Fin 256} {r q : Record} (hc : s.Core) (hr : s.table.slots[i] = some r)
    (hkey : q.key = r.key) (hhash : t.hashP = s.hashP) (hslots : t.table.slots = s.table.slots.set i (some q))
    (hstates : ∀ h, (t.entry h).state = (s.entry h).state)
    (hcounts : ∀ h, (t.entry h).recordCount = (s.entry h).recordCount)
    (hblocks : ∀ b, t.store.free.count b + q.chain.count b + t.heldCount b =
      s.store.free.count b + r.chain.count b + s.heldCount b)
    (hexpected : ∀ k, t.lcm.circuits[k].expected = t.expectedCurrent k ∨
      t.lcm.circuits[k].expected = s.lcm.circuits[k].expected ∧ q.draws s.leaving k = r.draws s.leaving k) :
    Writes s t i (some q) := by
  refine ⟨hhash, hslots, ?_, hstates, fun h => ?_, ?_, ?_, ?_⟩
  · rintro q' hq'
    cases hq'
    rw [hkey]
    exact ⟨hc.buckets.1 i r hr, fun j p hj hp hk => hj (hc.buckets.2 j i p r hp hr hk)⟩
  · rw [hr, hcounts, slotSum_some, slotSum_some, Record.ofHandle, Record.ofHandle, hkey]
  · rintro q' hq'
    cases hq'
    rw [hkey]
    have hunit := (s.countsSound_iff.1 hc.counts r.key.handle).2
    exact not_or.1 fun hf => hc.counts.none_of (hunit hf) hr rfl
  · rw [hr]
    exact hblocks
  · rw [hr]
    exact hexpected

/-! ### WRITE_EXTENSION -/

theorem carries_replaceExtension {s : State} {i : Fin 256} {r : Record} (hr : s.table.slots[i] = some r)
    (horigin : r.origin = .declared) (q : Request) (n : Nat) (data : List Byte) :
    Carries s (s.replaceExtension q i r n data) := by
  refine .given fun hc => ?_
  have hpending : r.state ≠ .pending := fun hp => by
    have := (hc.pendings i r hr hp).1
    rw [horigin] at this
    cases this
  have hset (x : Option Extension) (charge : Nat) (st : Store)
      (hfree : ∀ b, st.free.count b + ({ r with extension := x } : Record).chain.count b =
        s.store.free.count b + r.chain.count b) : Carries s (s.setExtension i r x charge st) := by
    have hentry (h : Fin 8) : ((s.setExtension i r x charge st).entry h).state = (s.entry h).state ∧
        ((s.setExtension i r x charge st).entry h).recordCount = (s.entry h).recordCount := by
      change ((s.setEntry r.key.handle { s.entry r.key.handle with charge := charge }).entry h).state = _ ∧
        ((s.setEntry r.key.handle { s.entry r.key.handle with charge := charge }).entry h).recordCount = _
      rw [State.entry_setEntry]
      split
      next hh => subst hh; exact ⟨rfl, rfl⟩
      next => exact ⟨rfl, rfl⟩
    refine (writes_replace (q := { r with extension := x }) hc hr (by rfl) (by rfl) (by rfl) (fun h => (hentry h).1) (fun h => (hentry h).2) (fun b => ?_)
      fun k => .inr ⟨rfl, rfl⟩).carries_idle (by rfl) (by rfl) ?_ ?_
    · exact congrArg (· + s.heldCount b) (hfree b)
    · rintro q hq
      cases hr.symm.trans hq
      exact hpending
    · rintro q hq
      cases hq
      exact hpending
  have hback (b : Fin 512) : (s.store.giveBack r.chain).free.count b = s.store.free.count b + r.chain.count b := by
    rw [Store.giveBack, List.count_append, Nat.add_comm]
  have habsent (charge : Nat) : Carries s (s.setExtension i r none charge (s.store.giveBack r.chain)) :=
    hset _ _ _ fun b => hback b
  dsimp only [State.replaceExtension]
  split
  · exact (habsent _).trans (carries_respond _ _ _ _)
  · split
    · refine (hset _ _ _ fun b => ?_).trans (carries_respond _ _ _ _)
      rw [Store.writeBytes_free, ← hback b]
      exact (Nat.add_comm _ _).trans (List.count_append.symm.trans (congrArg _ (List.take_append_drop _ _)))
    · exact (habsent _).trans (carries_respond _ _ _ _)

/-! ### The conclusion operation -/

theorem State.putRecord_slots (s : State) (i : Fin 256) (r : Record) (changed : Bool) :
    ∃ q : Record, (s.putRecord i r changed).table.slots = s.table.slots.set i (some q) ∧ q.fixed = r.fixed ∧
      q.policy = r.policy ∧ (r.policy = .quiet → q.touched = r.touched) := by
  unfold State.putRecord
  split
  next h =>
    refine ⟨_, rfl, rfl, rfl, fun hq => ?_⟩
    simp [hq] at h
  next => exact ⟨_, rfl, rfl, rfl, fun _ => rfl⟩

theorem Context.wantsConclusion_spec {c : Context} (h : c.wantsConclusion = true) :
    c.abandoned = false ∧ c.phase = .concluding ∧ c.pendingKey.isSome := by
  simpa [Context.wantsConclusion, and_assoc] using h

theorem Context.concluding_calls {c : Context} (hp : c.phase = .concluding) (hk : c.pendingKey.isSome) (k : HeadKind) :
    ¬ c.callsFor k := by
  have hne : c.pendingKey ≠ none := by
    intro h
    rw [h] at hk
    cases hk
  cases k <;> simp [Context.callsFor, hp, hne]

theorem State.returnHeld_entry (s : State) (c : Context) (h : Fin 8) :
    ((s.returnHeld c).entry h).state = (s.entry h).state ∧
      ((s.returnHeld c).entry h).recordCount = (s.entry h).recordCount := by
  dsimp only [State.returnHeld]
  split
  · change ((s.setEntry c.handle { s.entry c.handle with charge := _ }).entry h).state = _ ∧
      ((s.setEntry c.handle { s.entry c.handle with charge := _ }).entry h).recordCount = _
    rw [State.entry_setEntry]
    split
    next hh => subst hh; exact ⟨rfl, rfl⟩
    next => exact ⟨rfl, rfl⟩
  · exact ⟨rfl, rfl⟩

/-- The blocks held go to the record's extension, or back on the stack with the withheld note (R36, R117). -/
theorem concluded_blocks (s : State) (c : Context) (d : Descriptor) (cl : Classification) {r : Record}
    (hext : r.extension = none) (b : Fin 512) :
    (s.returnHeld c).store.free.count b + (concludedRecord c d cl r).chain.count b =
      s.store.free.count b + c.held.count b := by
  cases hw : c.withheld with
  | true => simp [State.returnHeld, concludedRecord, Record.chain, hw, hext, Store.giveBack, Nat.add_comm]
  | false =>
    by_cases hheld : c.held = []
    · simp [State.returnHeld, concludedRecord, Record.chain, hw, hext, hheld]
    · simp [State.returnHeld, concludedRecord, Record.chain, hw, hheld]

theorem concludedRecord_frame (c : Context) (d : Descriptor) (cl : Classification) (r : Record) :
    (concludedRecord c d cl r).key = r.key ∧ (concludedRecord c d cl r).feed = r.feed ∧
      (concludedRecord c d cl r).state ≠ .pending := by
  refine ⟨rfl, rfl, ?_⟩
  dsimp only [concludedRecord]
  split <;> exact RecordState.noConfusion

theorem carries_conclude {s : State} {c : Context} {i : Fin 256} {r : Record} {k : Key} (hee : s.ee = some c)
    (hkey : c.pendingKey = some k) (hr : s.table.slots[i] = some r) (hrk : r.key = k) (hw : c.wantsConclusion = true)
    (d : Descriptor) (cl : Classification) : Carries s (s.conclude c d cl i r) := by
  refine .given fun hc => ?_
  obtain ⟨ha, hphase, hsome⟩ := c.wantsConclusion_spec hw
  have hslot := hc.noEeSlot_of hee ha (Context.concluding_calls hphase hsome)
  have hnot : c.phase ≠ .assigning := by rw [hphase]; exact Phase.noConfusion
  have hunit := hc.enrolling_or_live hee ha hnot
  obtain ⟨-, -, j, p, hp, hpk, hpending⟩ := (hc.fits hee).named k hkey
  obtain rfl : j = i := hc.buckets.2 j i p r hp hr (hpk.trans hrk.symm)
  obtain rfl : p = r := Option.some.inj (hp.symm.trans hr)
  have hext := (hc.pendings j p hr hpending).2.1
  obtain ⟨hck, hcf, hcs⟩ := concludedRecord_frame c d cl p
  obtain ⟨q, hslots, hfixed, -⟩ := (s.returnHeld c).putRecord_slots j (concludedRecord c d cl p) true
  obtain ⟨hqk, -, hqs, hqf, -, hqx⟩ := (q.fixed_iff _).1 hfixed
  have hentry (h : Fin 8) : ((s.conclude c d cl j p).entry h).state = (s.entry h).state ∧
      ((s.conclude c d cl j p).entry h).recordCount = (s.entry h).recordCount := by
    rw [← (s.returnHeld_entry c h).1, ← (s.returnHeld_entry c h).2]
    dsimp only [State.conclude]
    split <;> split <;> simp [State.entry]
  have hee' : (s.conclude c d cl j p).ee = some (concludedContext c cl (concludedRecord c d cl p).state) := by
    dsimp only [State.conclude]
    split <;> split <;> simp [State.withContext]
  have hwr : Writes s (s.conclude c d cl j p) j (some q) := by
    refine writes_replace hc hr (hqk.trans hck) (by simp [State.hashP, State.setting]) ?_ (fun h => (hentry h).1)
      (fun h => (hentry h).2) (fun b => ?_) fun k => ?_
    · dsimp only [State.conclude]
      split <;> split <;> simpa using hslots
    · have hb := concluded_blocks s c d cl hext b
      have hstore : (s.conclude c d cl j p).store = (s.returnHeld c).store := by
        dsimp only [State.conclude]
        split <;> split <;> simp
      have hchain : q.chain = (concludedRecord c d cl p).chain := by rw [Record.chain, hqx]; rfl
      have hnone : p.chain = [] := by rw [Record.chain, hext]
      simp only [hstore, hchain, hnone, State.heldCount, hee', hee, Option.elim_some, concludedContext, List.count_nil]
      omega
    · refine State.noticeFeed_settles (s := s) (fun _ => ?_) fun hf => ?_
      · split <;> split <;> simp
      · rw [Record.draws_zero fun _ _ => by rw [hqf]; exact hf, Record.draws_zero fun h => absurd hpending h]
  refine hwr.carries (fun _ => ?_) fun _ =>
    Context.Fits.sound (c := concludedContext c cl (concludedRecord c d cl p).state)
      ⟨fun _ => ?_, fun _ => rfl, fun g hg => (nomatch hg)⟩ hee' ?_
  · refine hwr.pendingSound hc.pendings (fun x hx hxp => ?_) fun l x e hl hx hxp he hxk => ?_
    · cases hx
      exact absurd (hqs.1 hxp) hcs
    · cases hee.symm.trans he
      exact absurd (hc.buckets.2 l j x p hx hr ((Option.some.inj (hxk.symm.trans hkey)).trans hrk.symm)) hl
  · rw [if_neg (by exact hnot), hwr.states]
    exact hunit
  · simpa [State.noEeSlot] using hslot

/-! ### WITHDRAWN items and the Drain Sweeper -/

/-- The context as it is parked names the same record and holds the same blocks; a transaction of it is its own (R121;
log entry 25). -/
theorem carries_parkContext (s : State) : Carries s s.parkContext := by
  refine carries_of (states := fun _ => rfl) (counts := fun _ => rfl) (ee := ?_)
  rw [State.parkContext, Option.map_map]
  rfl

theorem carries_giveUpInSlot (s : State) (c : Context) : Carries s (s.giveUpInSlot c) := by
  have hpark := (carries_dropIndex s c).trans (carries_parkContext _)
  dsimp only [State.giveUpInSlot]
  split
  · exact hpark.trans (carries_pendingEmptied _ _)
  · exact hpark

/-- The descriptor in hand is given up whose record has been removed (R121, R122). -/
theorem carries_giveUp {s : State} {c d : Context} (hee : s.ee = some d)
    (hkey : d.pendingKey = none)
    (hstate : c.abandoned = false → s.Core → (s.entry d.handle).state = .enrolling ∨ (s.entry d.handle).state = .live) :
    Carries s (s.giveUp c) := by
  unfold State.giveUp
  split
  · exact carries_settleAbandoned s
  next ha =>
    split
    · exact carries_giveUpInSlot s c
    next hslot =>
      exact carries_finishDescriptor hee (State.noEeSlot_of (Bool.eq_false_iff.2 hslot)) hkey
        (hstate (Bool.eq_false_iff.2 ha))

theorem carries_withdrawItem (s : State) (it : Item) : Carries s (s.withdrawItem it) := by
  refine .given fun hc => ?_
  unfold State.withdrawItem
  split
  · exact carries_count s _
  next i r hitem =>
    have hr := State.slot_of_itemRecord hitem
    split
    · exact carries_count s _
    · split
      next c hee =>
        split
        next hnamed =>
          refine (carries_removeRecord hr).trans (carries_giveUp (d := c.dropPending) ?_ rfl fun ha hcore => ?_)
          · rw [State.removeRecord_ee, hee, Option.map_some, if_pos hnamed]
          · rw [(s.removeRecord_entry i r _).1]
            obtain ⟨-, hphase, -⟩ := (hc.fits hee).named _ hnamed.2
            have hnot : c.phase ≠ .assigning := by rcases hphase with hp | hp <;> rw [hp] <;> exact Phase.noConfusion
            exact hc.enrolling_or_live (c := c) hee ha hnot
        next => exact carries_removeRecord hr
      next => exact carries_removeRecord hr

/-- A drained LEAVING entry becomes FREE: it has no records, and its context is abandoned (R64). -/
theorem carries_freeIfDrained (s : State) (h : Fin 8) : Carries s (s.freeIfDrained h) := by
  refine .given fun hc => ?_
  dsimp only [State.freeIfDrained]
  split
  next hd =>
    obtain ⟨hleaving, hzero, -⟩ := hd
    have hraise (s : State) : Carries s (s.raiseLeft h) := carries_of (states := fun _ => rfl) (counts := fun _ => rfl)
    refine .before (hraise _) (carries_setState hzero.symm (fun _ => rfl) (fun c hee hh ha => ?_) (.inr rfl))
    have hon := (hc.fits hee).onChain ha
    rw [hh, hleaving] at hon
    cases hon
  next => exact .refl s

theorem carries_sweep (s : State) (h : Fin 8) : Carries s (s.sweep h) := by
  unfold State.sweep
  split
  next i r hfound =>
    have hr := (Table.mem_records _ i r).1 (List.mem_of_find?_eq_some hfound)
    exact (carries_removeRecord hr).trans ((carries_freeIfDrained _ h).trans (carries_settleAbandoned _))
  next => exact .refl s

end Sys2Proof.Machine
end

section
/-! Every effect carries the laws of the table, the directory and the context, or is a reset; and with that the
expected currents and the blocks of the Extension Store (O58). -/

namespace Sys2Proof.Machine

/-- The hash polynomial is written only while the table is empty (R10). -/
theorem State.settingInUse_hash {s : State} {n : Fin 131} {v : Nat} (h : s.settingInUse n v = false) (hn : n = 0) :
    ∀ i : Fin 256, s.table.slots[i] = none := by
  intro i
  subst hn
  cases hi : s.table.slots[i] with
  | none => rfl
  | some r =>
    have hmem : (i, r) ∈ s.records := (Table.mem_records _ i r).2 hi
    simp [State.settingInUse] at h
    rw [h] at hmem
    cases hmem

theorem carries_takeSetting {s : State} {n : Fin 131} {v w : Nat} (h : s.settingInUse n w = false) :
    Carries s (s.takeSetting n v) := by
  refine Agrees.carries ⟨?_, by simp, fun g => ?_, fun g => ?_, by simp, ?_, by simp, fun k => ?_⟩
  · by_cases hn : n = 0
    · exact .inr (State.settingInUse_hash h hn)
    · have h0 : n.val ≠ 0 := fun h0 => hn (Fin.ext h0)
      left
      simp [State.hashP, State.setting, h0]
  · rw [State.entry, State.takeSetting_entry]
    split <;> rfl
  · rw [State.entry, State.takeSetting_entry]
    split <;> rfl
  · rw [State.takeSetting_line]
  · rw [State.takeSetting_circuit]
    split <;> rfl

/-- The load ends with the table empty, as the idle load has it. -/
theorem carries_finishLoad {s : State} (hi : s.loadIdle) (hl : s.port.loading = true) (image : List Byte) :
    Carries s (s.judgeImage image).finishLoad := by
  obtain ⟨hempty, -⟩ := hi hl
  refine Agrees.carries ⟨.inr hempty, by simp, by simp [State.entry], by simp [State.entry], by simp, ?_, by simp,
    fun k => ?_⟩
  · rw [State.finishLoad_line]
    simp
  · rw [State.finishLoad_circuit]
    simp

theorem Effect.carries {s t : State} (h : Effect s t) (hi : s.loadIdle) :
    Carries s t ∨ t = { State.reset with pending := s.pending } := by
  have hgranted (g : Grantee) : Carries s (s.granted g) := (quiet_granted s g).carries
  have hcleared (n : Nat) : Carries s (s.advance n).clearOut := ((quiet_advance s n).trans (quiet_clearOut _)).carries
  cases h with
  | reset => exact .inr rfl
  | quiet h => exact .inl h.carries
  | loadEnd image hl => exact .inl (carries_finishLoad hi hl image)
  | retire q i r hr =>
    exact .inl (.before (carries_respond _ _ _ _) ((hgranted .hp).trans (carries_removeRecord (by simpa using hr))))
  | declareRecord q k feed nominal flags i p hunit hplace =>
    refine .inl (.before (carries_respond _ _ _ _) ((hgranted .hp).trans ?_))
    exact carries_declareRecord (r := newRecord k .declared .active .enrol Option.none flags feed nominal) hplace rfl rfl rfl
      (by simpa [State.entry] using hunit)
  | firstPart q i r n data hr _ horigin =>
    exact .inl ((hgranted .hp).trans (carries_replaceExtension (by simpa using hr) horigin q n data))
  | laterPart q chain o data =>
    refine .inl (.before (carries_respond _ _ _ _) ((hgranted .hp).trans (carries_store _ ?_)))
    simp
  | declareUnit q position h p _ hl => exact .inl (.before (carries_respond _ _ _ _) (carries_declareUnit position hl))
  | releaseUnit q h => exact .inl (.before (carries_respond _ _ _ _) (carries_depart s h _ _))
  | resumeUnit q h hs => exact .inl (.before (carries_respond _ _ _ _) (carries_resumeUnit hs))
  | restartChain q => exact .inl (.before (carries_respond _ _ _ _) (carries_restartChainOp s))
  | writeSetting q n v p huse => exact .inl (.before (carries_respond _ _ _ _) (carries_takeSetting huse))
  | frameEnds rx bytes => exact .inl (carries_frameEnds s rx bytes)
  | openPhase => exact .inl (carries_openPhase s)
  | giveTurn r hr => exact .inl (carries_giveTurn hr)
  | requestEnd x ends timeout hx => exact .inl (carries_requestEnd hx ends timeout)
  | timeout x deadline hx => exact .inl ((hcleared deadline).trans (carries_timeout hx))
  | cycleEnd => exact .inl ((hcleared _).trans (carries_settle _))
  | reserve c d cl hee _ hw => exact .inl ((hgranted .ee).trans (carries_reserve (by simpa using hee) hw d cl))
  | conclude c d cl k i r hee hkey hfind hw =>
    obtain ⟨hr, hrk, -⟩ := State.find_spec hfind
    exact .inl ((hgranted .ee).trans (carries_conclude (by simpa using hee) hkey (by simpa using hr) hrk hw d cl))
  | withdrawItem it => exact .inl (((quiet_granted s .rh).trans (quiet_popWork _)).carries.trans (carries_withdrawItem _ it))
  | addItem it => exact .inl ((quiet_popWork s).carries.trans (carries_addItem _ it))
  | sweep h => exact .inl ((hgranted .sweeper).trans (carries_sweep _ h))
  | send => exact .inl ((hgranted .ou).trans (carries_sendOp _))

theorem core_reset (l : List Instr) : ({ State.reset with pending := l } : State).Core := by
  obtain ⟨⟨-, -, -, -, -, -, -, -, -, hbuckets, -⟩, -, hpending, -, hcontext, hcounts, -, -⟩ := resetMeetsTheLaws
  exact ⟨hbuckets, hcounts, hpending, hcontext⟩

/-- Settles O58: what the single fields need is in `Keeps`; the blocks and the expected currents are carried with the
laws that hold only together. -/
theorem stepKeepsStoreMasksAndBounds : Obligations.StepKeepsStoreMasksAndBounds := by
  refine ⟨fun s t => step_storeCanonical, fun s t => step_flagged_bounded, fun s t hb hi hc hp hx hstep => ⟨fun h => ?_, fun h => ?_⟩⟩
  · refine step_keeps (P := State.blocksSound) h hstep fun l u he => ?_
    rcases he.carries hi with hu | rfl
    · exact hu.blocks ⟨hb, hc, hp, hx⟩ h
    · exact blocksSound_reset
  · refine step_keeps (P := State.expectedSound) h hstep fun l u he => ?_
    rcases he.carries hi with hu | rfl
    · exact hu.expected ⟨hb, hc, hp, hx⟩ h
    · exact resetMeetsTheLaws.2.2.2.2.2.2.2

end Sys2Proof.Machine
end

section
/-! The laws of the table that hold by themselves: records in their buckets, the enrolled count and its limit, the
touched mark of a QUIET record, and the idle table while the load runs (O60). -/

namespace Sys2Proof.Machine

/-- What a record adds to the enrolled count (R1). -/
def Record.enrols (r : Record) : Nat := if r.origin = .enrolled then 1 else 0

/-- The laws of the table that need no other block. -/
structure State.TableLaws (s : State) : Prop where
  buckets : s.bucketsSound
  counted : s.enrolledCounted
  touched : s.quietUntouched

/-- A change that keeps the laws of the table, and the enrolled count within its limit. -/
structure Retables (s t : State) : Prop where
  laws : s.TableLaws → t.TableLaws
  limit : s.withinLimit → t.withinLimit

theorem Retables.refl (s : State) : Retables s s := ⟨id, id⟩

theorem Retables.trans {s t u : State} (h : Retables s t) (g : Retables t u) : Retables s u :=
  ⟨g.laws ∘ h.laws, g.limit ∘ h.limit⟩

theorem Retables.before {s t u : State} (g : Retables t u) (h : Retables s t) : Retables s u := h.trans g

/-- The table keeps its records and its count, and the settings stay. -/
theorem retables_of {s t : State} (settings : t.settings = s.settings := by simp)
    (slots : t.table.slots = s.table.slots := by simp)
    (enrolled : t.table.enrolledCount = s.table.enrolledCount := by simp) : Retables s t where
  laws h := {
    buckets := bucketsSound_of (.inl (by rw [State.hashP, State.setting, settings]; rfl)) (fun i => by rw [slots]) h.buckets
    counted := by
      have hc := h.counted
      rw [State.enrolledCounted_iff] at hc ⊢
      rw [enrolled, slots]
      exact hc
    touched := by simpa only [State.quietUntouched, slots] using h.touched }
  limit hw := by simpa only [State.withinLimit, enrolled, settings] using hw

theorem Quiet.retables {s t : State} (h : Quiet s t) : Retables s t where
  laws hl := {
    buckets := bucketsSound_of (.inl (by rw [State.hashP, State.setting, h.settings]; rfl)) h.slots hl.buckets
    counted := by
      have hc := hl.counted
      rw [State.enrolledCounted_iff] at hc ⊢
      rw [h.enrolled, hc]
      refine (Table.sum_fixed h.slots fun r q hf => ?_).symm
      rw [((r.fixed_iff q).1 hf).2.1]
    touched := h.touched hl.touched }
  limit hw := by simpa only [State.withinLimit, h.enrolled, h.settings] using hw

theorem retables_respond (s : State) (q : Request) (r : Result) (p : List Byte) : Retables s (s.respond q r p) :=
  (quiet_respond s q r p).retables

/-! ### Slots that are written -/

section
variable {s t : State} {i : Fin 256} {o : Option Record}

/-- The laws of the table after a slot has been written. -/
theorem tableLaws_write (hl : s.TableLaws) (hhash : t.hashP = s.hashP) (hslots : t.table.slots = s.table.slots.set i o)
    (hplaced : ∀ r, o = some r → i.val / 4 = (s.bucketOf r.key).val ∧
      ∀ (j : Fin 256) (q : Record), j ≠ i → s.table.slots[j] = some q → q.key ≠ r.key)
    (hcount : t.table.enrolledCount + slotSum Record.enrols s.table.slots[i] =
      s.table.enrolledCount + slotSum Record.enrols o)
    (htouched : ∀ r, o = some r → r.policy = .quiet → r.touched = false) : t.TableLaws where
  buckets := by
    have hget (j : Fin 256) : t.table.slots[j] = if i = j then o else s.table.slots[j] := by
      rw [hslots]
      simp [Vector.getElem_set, Fin.ext_iff]
    have hbucket (k : Key) : t.bucketOf k = s.bucketOf k := by rw [State.bucketOf, hhash]; rfl
    refine ⟨fun j r hr => ?_, fun j l r q hj hm hk => ?_⟩
    · rw [hbucket]
      rw [hget] at hr
      split at hr
      next h => subst h; exact (hplaced r hr).1
      next => exact hl.buckets.1 j r hr
    · rw [hget] at hj hm
      split at hj
      next h =>
        subst h
        split at hm
        next h => exact h
        next h => exact absurd hk.symm ((hplaced r hj).2 l q (Ne.symm h) hm)
      next h =>
        split at hm
        next h' => subst h'; exact absurd hk ((hplaced q hm).2 j r (Ne.symm h) hj)
        next => exact hl.buckets.2 j l r q hj hm hk
  counted := by
    have hc := hl.counted
    have hsum := Table.sum_set s.table.slots Record.enrols i o
    rw [State.enrolledCounted_iff] at hc ⊢
    have hc : s.table.enrolledCount = Table.sum s.table.slots Record.enrols := hc
    rw [hslots]
    change _ = Table.sum _ Record.enrols
    omega
  touched := by
    intro j r hr hq
    rw [hslots] at hr
    by_cases hij : i = j
    · subst hij
      exact htouched r (by simpa using hr) hq
    · refine hl.touched j r ?_ hq
      simpa [Vector.getElem_set, Fin.val_inj, hij] using hr

end

/-- A record is written over one of its key, its origin and its policy. -/
theorem retables_replace {s t : State} {i : Fin 256} {r q : Record} (hr : s.table.slots[i] = some r)
    (hkey : q.key = r.key) (horigin : q.origin = r.origin) (hpolicy : q.policy = r.policy)
    (htouched : r.policy = .quiet → q.touched = r.touched) (hsettings : t.settings = s.settings)
    (hslots : t.table.slots = s.table.slots.set i (some q))
    (hcount : t.table.enrolledCount = s.table.enrolledCount) : Retables s t where
  laws hl := by
    refine tableLaws_write hl (by rw [State.hashP, State.setting, hsettings]; rfl) hslots (fun x hx => ?_) ?_ fun x hx hq => ?_
    · cases hx
      rw [hkey]
      exact ⟨hl.buckets.1 i r hr, fun j p hj hp hk => hj (hl.buckets.2 j i p r hp hr hk)⟩
    · rw [hr, slotSum_some, slotSum_some, Record.enrols, Record.enrols, horigin, hcount]
    · cases hx
      have hquiet := hpolicy.symm.trans hq
      rw [htouched hquiet]
      exact hl.touched i r hr hquiet
  limit hw := by simpa only [State.withinLimit, hcount, hsettings] using hw

theorem State.insertAt_count (s : State) (i : Fin 256) (r : Record) :
    (s.insertAt i r).table.enrolledCount = s.table.enrolledCount + r.enrols := by
  dsimp only [State.insertAt, Record.enrols]
  split <;> rfl

/-- A record that is not touched is inserted where its key may stand (R13, R16). -/
theorem retables_insertAt {s : State} {i : Fin 256} {r : Record} {k : Key} {origin : Origin}
    (hplace : s.place k origin = .at_ i) (hkey : r.key = k) (horigin : r.origin = origin) (htouched : r.touched = false) :
    Retables s (s.insertAt i r) := by
  obtain ⟨hfind, hway, hlimit⟩ := State.place_at hplace
  obtain ⟨hbucket, hnone, -⟩ := (s.freeWay_spec k i).1 hway
  subst hkey horigin
  refine ⟨fun hl => tableLaws_write hl (by simp [State.hashP, State.setting]) (s.insertAt_slots i r) (fun q hq => ?_) ?_
    fun q hq _ => ?_, fun hw => ?_⟩
  · cases hq
    exact ⟨hbucket, fun j q _ hq => hl.buckets.none_of_find hfind hq⟩
  · rw [hnone, State.insertAt_count]
    rfl
  · cases hq
    exact htouched
  · unfold State.withinLimit at hw ⊢
    rw [State.insertAt_count]
    simp only [State.insertAt_frame]
    by_cases ho : r.origin = .enrolled
    · have hlt : s.table.enrolledCount < s.settings[(1 : Fin 131)] * 32 := hlimit ho
      rw [Record.enrols, if_pos ho]
      exact hlt
    · rw [Record.enrols, if_neg ho]
      exact hw

theorem retables_removeRecord {s : State} {i : Fin 256} {r : Record} (hr : s.table.slots[i] = some r) :
    Retables s (s.removeRecord i r) := by
  obtain ⟨hslots, hcount, -⟩ := s.removeRecord_removed i r
  refine ⟨fun hl => tableLaws_write hl (by simp [State.hashP, State.setting]) hslots (fun _ h => (nomatch h)) ?_
    fun _ h => (nomatch h), fun hw => ?_⟩
  · have hc := hl.counted
    rw [State.enrolledCounted_iff] at hc
    have hc : s.table.enrolledCount = Table.sum s.table.slots Record.enrols := hc
    have hsum := Table.sum_set s.table.slots Record.enrols i none
    rw [hr] at hsum ⊢
    simp only [slotSum_some, slotSum_none, Record.enrols] at hsum ⊢
    rw [hcount]
    split
    next ho =>
      rw [if_pos ho] at hsum
      omega
    next => rfl
  · unfold State.withinLimit at hw ⊢
    rw [hcount]
    simp only [State.removeRecord_frame]
    split
    · exact (Nat.sub_le _ _).trans hw
    · exact hw

/-! ### The operations on records -/

theorem retables_replaceExtension {s : State} {i : Fin 256} {r : Record} (hr : s.table.slots[i] = some r) (q : Request)
    (n : Nat) (data : List Byte) : Retables s (s.replaceExtension q i r n data) := by
  have hset (x : Option Extension) (charge : Nat) (st : Store) : Retables s (s.setExtension i r x charge st) :=
    retables_replace (q := { r with extension := x }) hr rfl rfl rfl (fun _ => rfl) (by rfl) (by rfl) (by rfl)
  dsimp only [State.replaceExtension]
  split
  · exact (hset _ _ _).trans (retables_respond _ _ _ _)
  · split
    · exact (hset _ _ _).trans (retables_respond _ _ _ _)
    · exact (hset _ _ _).trans (retables_respond _ _ _ _)

theorem retables_drawFor (s : State) (c : Context) (n : Nat) : Retables s (s.drawFor c n) := retables_of

theorem retables_noticeFeed (s : State) (f : Feed) : Retables s (s.noticeFeed f) := retables_of

theorem retables_reserve (s : State) (c : Context) (d : Descriptor) (cl : Classification) :
    Retables s (s.reserve c d cl) := by
  dsimp only [State.reserve]
  split
  · exact retables_of
  · exact retables_of
  next hplace => exact .before (retables_drawFor _ _ _) (retables_insertAt hplace rfl rfl rfl)

theorem retables_conclude {s : State} {i : Fin 256} {r : Record} (hr : s.table.slots[i] = some r) (c : Context)
    (d : Descriptor) (cl : Classification) : Retables s (s.conclude c d cl i r) := by
  obtain ⟨q, hslots, hfixed, hpolicy, htouched⟩ := (s.returnHeld c).putRecord_slots i (concludedRecord c d cl r) true
  obtain ⟨hkey, horigin, -⟩ := (q.fixed_iff _).1 hfixed
  have hcount : ((s.returnHeld c).putRecord i (concludedRecord c d cl r) true).table.enrolledCount =
      s.table.enrolledCount := by
    unfold State.putRecord State.setSlot
    split <;> simp
  refine retables_replace hr hkey horigin hpolicy htouched (by simp) ?_ ?_
  · dsimp only [State.conclude]
    split <;> split <;> simpa using hslots
  · dsimp only [State.conclude]
    split <;> split <;> simpa using hcount

theorem retables_withdrawItem (s : State) (it : Item) : Retables s (s.withdrawItem it) := by
  unfold State.withdrawItem
  split
  · exact retables_of
  next i r hitem =>
    have hremove := retables_removeRecord (State.slot_of_itemRecord hitem)
    split
    · exact retables_of
    · split
      · split
        · exact hremove.trans retables_of
        · exact hremove
      · exact hremove

theorem retables_sweep (s : State) (h : Fin 8) : Retables s (s.sweep h) := by
  unfold State.sweep
  split
  next i r hfound =>
    exact (retables_removeRecord ((Table.mem_records _ i r).1 (List.mem_of_find?_eq_some hfound))).trans retables_of
  next => exact .refl s

/-- The hash polynomial and the dynamic limit are written only where the table allows it (R10, R16). -/
theorem retables_takeSetting {s : State} {n : Fin 131} {v : Nat} (h : s.settingInUse n v = false) :
    Retables s (s.takeSetting n v) where
  laws hl := {
    buckets := by
      refine bucketsSound_of ?_ (by simp) hl.buckets
      by_cases hn : n = 0
      · exact .inr (State.settingInUse_hash h hn)
      · have h0 : n.val ≠ 0 := fun h0 => hn (Fin.ext h0)
        left
        simp [State.hashP, State.setting, h0]
    counted := by
      have hc := hl.counted
      rw [State.enrolledCounted_iff] at hc ⊢
      simpa using hc
    touched := by simpa only [State.quietUntouched, State.takeSetting_frame] using hl.touched }
  limit hw := by
    unfold State.withinLimit at hw ⊢
    rw [State.takeSetting_settings]
    by_cases h1 : n = 1
    · subst h1
      simp [State.settingInUse] at h
      simpa using h
    · have hn : n.val ≠ 1 := fun hn => h1 (Fin.ext hn)
      simpa [Vector.getElem_set, hn] using hw

theorem retables_finishLoad {s : State} (hi : s.loadIdle) (hload : s.port.loading = true) (image : List Byte) :
    Retables s (s.judgeImage image).finishLoad := by
  obtain ⟨hempty, hzero, -⟩ := hi hload
  refine ⟨fun hl => ⟨bucketsSound_of (.inr hempty) (by simp) hl.buckets, ?_, ?_⟩, fun _ => ?_⟩
  · have hc := hl.counted
    rw [State.enrolledCounted_iff] at hc ⊢
    simpa using hc
  · simpa only [State.quietUntouched, State.finishLoad_frame, State.judgeImage_frame] using hl.touched
  · simp [State.withinLimit, hzero]

theorem Effect.retables {s t : State} (h : Effect s t) (hi : s.loadIdle) :
    Retables s t ∨ t = { State.reset with pending := s.pending } := by
  have hgranted (g : Grantee) : Retables s (s.granted g) := (quiet_granted s g).retables
  cases h with
  | reset => exact .inr rfl
  | quiet h => exact .inl h.retables
  | loadEnd image hl => exact .inl (retables_finishLoad hi hl image)
  | retire q i r hr =>
    exact .inl (.before (retables_respond _ _ _ _) ((hgranted .hp).trans (retables_removeRecord (by simpa using hr))))
  | declareRecord q k feed nominal flags i p _ hplace =>
    exact .inl (.before (retables_respond _ _ _ _) (.before (retables_noticeFeed _ _) ((hgranted .hp).trans
      (retables_insertAt hplace rfl rfl rfl))))
  | firstPart q i r n data hr =>
    exact .inl ((hgranted .hp).trans (retables_replaceExtension (by simpa using hr) q n data))
  | writeSetting q n v p huse => exact .inl (.before (retables_respond _ _ _ _) (retables_takeSetting huse))
  | reserve c d cl => exact .inl ((hgranted .ee).trans (retables_reserve _ c d cl))
  | conclude c d cl k i r _ _ hfind =>
    obtain ⟨hr, -⟩ := State.find_spec hfind
    exact .inl ((hgranted .ee).trans (retables_conclude (by simpa using hr) c d cl))
  | withdrawItem it =>
    exact .inl (((quiet_granted s .rh).trans (quiet_popWork _)).retables.trans (retables_withdrawItem _ it))
  | addItem it => exact .inl ((quiet_popWork s).retables.trans retables_of)
  | sweep h => exact .inl ((hgranted .sweeper).trans (retables_sweep _ h))
  | send => exact .inl ((hgranted .ou).trans retables_of)
  | laterPart q chain o data =>
    exact .inl ((hgranted .hp).trans (.before (retables_respond _ _ _ _) retables_of))
  | timeout | cycleEnd | requestEnd | declareUnit | releaseUnit | resumeUnit | restartChain | frameEnds | openPhase
  | giveTurn => exact .inl retables_of

/-! ### The idle load -/

/-- What the idle load speaks of stays. -/
theorem loadIdle_of {s t : State} (hi : s.loadIdle) (hport : t.port = s.port)
    (hslots : s.port.loading = true → t.table.slots = s.table.slots)
    (hcount : s.port.loading = true → t.table.enrolledCount = s.table.enrolledCount)
    (hee : s.port.loading = true → t.ee = s.ee)
    (hrx : s.port.loading = true → s.line.reception = none → t.line.reception = none)
    (hwork : s.port.loading = true → t.workList = s.workList) : t.loadIdle := by
  intro hl
  rw [hport] at hl
  obtain ⟨h1, h2, h3, h4, h5, h6, h7⟩ := hi hl
  refine ⟨fun i => ?_, (hcount hl).trans h2, ?_, ?_, (hee hl).trans h5, hrx hl h6, (hwork hl).trans h7⟩
  · rw [hslots hl]
    exact h1 i
  · rw [hport]
    exact h3
  · rw [hport]
    exact h4

/-- A change that the load does not see. -/
theorem loadIdle_busy {s t : State} (hport : t.port = s.port) (hl : s.port.loading ≠ true) : t.loadIdle := by
  intro h
  rw [hport] at h
  exact absurd h hl

section
variable {s : State} (hi : s.loadIdle)
include hi

theorem State.loadIdle.not_of_slot {i : Fin 256} {r : Record} (hr : s.table.slots[i] = some r) :
    s.port.loading ≠ true := fun hl => by
  rw [(hi hl).1 i] at hr
  cases hr

theorem State.loadIdle.not_of_inHand (h : s.port.inHand ≠ none) : s.port.loading ≠ true := fun hl => by
  obtain ⟨-, -, h3, h4, -⟩ := hi hl
  exact h (by simp [HostPort.inHand, h3, h4])

theorem State.loadIdle.not_of_ee {c : Context} (h : s.ee = some c) : s.port.loading ≠ true := fun hl => by
  obtain ⟨-, -, -, -, h5, -⟩ := hi hl
  rw [h5] at h
  cases h

theorem State.loadIdle.not_of_reception {rx : Reception} (h : s.line.reception = some rx) : s.port.loading ≠ true :=
  fun hl => by
    obtain ⟨-, -, -, -, -, h6, -⟩ := hi hl
    rw [h6] at h
    cases h

theorem State.loadIdle.not_of_work (h : s.workList ≠ []) : s.port.loading ≠ true := fun hl => by
  obtain ⟨-, -, -, -, -, -, h7⟩ := hi hl
  exact h h7

end

/-- A sending loses what is being received, and starts no reception. -/
theorem State.trySend_reception (s : State) (h : s.line.reception = none) : s.trySend.line.reception = none := by
  unfold State.trySend
  split
  · exact h
  · dsimp only
    split
    · split
      · simp [State.transmit]
      · rfl
    · exact h

theorem loadIdle_trySend {s : State} (hi : s.loadIdle) : s.trySend.loadIdle :=
  loadIdle_of hi (by simp) (fun _ => by simp) (fun _ => by simp) (fun _ => by simp) (fun _ => s.trySend_reception)
    fun _ => by simp

/-- Without a context, the end of a transaction tells the Output Unit or the directory at most. -/
theorem loadIdle_endTransaction {s : State} (hi : s.loadIdle) (x : Transaction) (o : Ending) :
    (s.endTransaction x o).loadIdle := by
  have hline : ({ s with line := { s.line with slot := none } } : State).loadIdle := hi
  have hidle (kind : HeadKind) (o : Ending) (hl : s.port.loading = true) :
      ({ s with line := { s.line with slot := none } } : State).eeEnded kind o =
        { s with line := { s.line with slot := none } } := by
    obtain ⟨-, -, -, -, h5, -⟩ := hi hl
    simp [State.eeEnded, h5]
  dsimp only [State.endTransaction]
  split
  · refine loadIdle_of hline (by simp) (fun _ => by simp) (fun _ => by simp) (fun hl => ?_) (fun hl => ?_) fun hl => ?_
    · rw [hidle _ _ hl]
    · rw [hidle _ _ hl]
      exact id
    · rw [hidle _ _ hl]
  · exact hline
  · exact loadIdle_of hline (by simp) (fun _ => by simp) (fun _ => by simp) (fun _ => by simp) (fun _ => by simp)
      fun _ => by simp

theorem loadIdle_timeout {s : State} (hi : s.loadIdle) (x : Transaction) : (s.timeout x).loadIdle := by
  unfold State.timeout
  split
  · exact loadIdle_endTransaction hi _ _
  · split
    · exact loadIdle_trySend (s := s.occupy { x with attempt := .held }) hi
    · exact loadIdle_endTransaction ((quiet_count s _).idle hi) _ _

theorem loadIdle_sendOp {s : State} (hi : s.loadIdle) : s.sendOp.loadIdle := by
  dsimp only [State.sendOp]
  split
  · exact hi
  · split
    · exact hi
    · exact loadIdle_trySend hi

/-- Without records the Drain Sweeper finds none to remove. -/
theorem loadIdle_sweep {s : State} (hi : s.loadIdle) (h : Fin 8) : (s.sweep h).loadIdle := by
  have hnone (hl : s.port.loading = true) : s.sweep h = s := by
    have hfind : (s.records.find? fun p => p.2.key.handle = h) = none :=
      (Table.find_record_none _ _).2 fun j q hq => absurd hl (hi.not_of_slot hq)
    unfold State.sweep
    rw [hfind]
  refine loadIdle_of hi (by simp) (fun hl => ?_) (fun hl => ?_) (fun hl => ?_) (fun hl => ?_) fun hl => ?_
  all_goals rw [hnone hl]
  exact id

theorem Effect.loadIdle {s t : State} (h : Effect s t) (hi : s.loadIdle) : t.loadIdle := by
  have hrespond {u : State} (q : Request) (r : Result) (p : List Byte) (hu : u.loadIdle) : (u.respond q r p).loadIdle :=
    (quiet_respond u q r p).idle hu
  have hgranted (g : Grantee) : (s.granted g).loadIdle := (quiet_granted s g).idle hi
  cases h with
  | quiet h => exact h.idle hi
  | reset => exact resetMeetsTheLaws.1.2.2.2.2.2.2.2.2.2.2
  | loadEnd image =>
    intro hl
    simp [State.finishLoad, State.startCycle, State.transmit, State.clearOut, foldl_keeps (fun x : State => x.port)] at hl
  | retire q i r hr => exact hrespond _ _ _ (loadIdle_busy (by simp) (hi.not_of_slot hr))
  | declareRecord q k feed nominal flags i p _ _ hq => exact hrespond _ _ _ (loadIdle_busy (by simp) (hi.not_of_inHand hq))
  | firstPart q i r n data hr =>
    have hset (x : Option Extension) (charge : Nat) (st : Store) :
        ((s.granted .hp).setExtension i r x charge st).loadIdle := loadIdle_busy (by simp) (hi.not_of_slot hr)
    dsimp only [State.replaceExtension]
    split
    · exact hrespond _ _ _ (hset _ _ _)
    · split <;> exact hrespond _ _ _ (hset _ _ _)
  | laterPart q chain o data => exact hrespond _ _ _ (hgranted .hp)
  | declareUnit q position h p => exact hrespond _ _ _ hi
  | resumeUnit q h => exact hrespond _ _ _ hi
  | releaseUnit q h _ _ hq => exact hrespond _ _ _ (loadIdle_busy (by simp) (hi.not_of_inHand hq))
  | restartChain q hq => exact hrespond _ _ _ (loadIdle_busy (by simp) (hi.not_of_inHand hq))
  | writeSetting q n v p _ hq => exact hrespond _ _ _ (loadIdle_busy (by simp) (hi.not_of_inHand hq))
  | frameEnds rx bytes hrx => exact loadIdle_busy (by simp) (hi.not_of_reception hrx)
  | openPhase hl => exact loadIdle_busy (s := s) (by simp) (by simp [hl])
  | giveTurn r _ hmay => exact loadIdle_busy (s := s) (by simp) (by simp [hmay.1])
  | requestEnd x ends timeout => exact hi
  | timeout x deadline => exact loadIdle_timeout (s := (s.advance deadline).clearOut) hi x
  | cycleEnd hl => exact loadIdle_busy (s := s) (by simp) (by simp [hl])
  | reserve c d cl hee => exact loadIdle_busy (by simp) (hi.not_of_ee hee)
  | conclude c d cl k i r hee => exact loadIdle_busy (by simp) (hi.not_of_ee hee)
  | withdrawItem it hw => exact loadIdle_busy (by simp) (hi.not_of_work hw)
  | addItem it hw => exact loadIdle_busy (by simp) (hi.not_of_work hw)
  | sweep h => exact loadIdle_sweep (hgranted .sweeper) h
  | send => exact loadIdle_sendOp (hgranted .ou)

/-! ### O60 -/

/-- Settles O60: the laws of the table alone are kept by every effect; the counts, the PENDING record and the context
are carried together. -/
theorem stepKeepsTableSound : Obligations.StepKeepsTableSound := by
  obtain ⟨⟨-, -, -, -, -, -, -, hcounted, htouched, hbuckets, hidle⟩, hlimit, -, -, -, -, -, -⟩ := resetMeetsTheLaws
  refine ⟨fun s t hb hi hc hq hstep => ?_, fun s t hb hi hc hw hn hp ho hx hstep => ?_⟩
  · obtain ⟨⟨h1, h3, h4⟩, h2⟩ := step_keeps (P := fun s => s.TableLaws ∧ s.loadIdle) ⟨⟨hb, hc, hq⟩, hi⟩ hstep fun l u he => by
      refine ⟨?_, he.loadIdle hi⟩
      rcases he.retables hi with hu | rfl
      · exact hu.laws ⟨hb, hc, hq⟩
      · exact ⟨hbuckets, hcounted, htouched⟩
    exact ⟨h1, h2, h3, h4⟩
  · have hcore : t.Core := step_keeps (P := State.Core) ⟨hb, hn, hp, hx⟩ hstep fun l u he => by
      rcases he.carries hi with hu | rfl
      · exact hu.core ⟨hb, hn, hp, hx⟩
      · exact core_reset l
    refine ⟨?_, hcore.counts, hcore.pendings, State.onePending_of hcore.buckets hcore.pendings, hcore.context⟩
    refine step_keeps (P := State.withinLimit) hw hstep fun l u he => ?_
    rcases he.retables hi with hu | rfl
    · exact hu.limit hw
    · exact hlimit

end Sys2Proof.Machine
end

section
/-! Settles the statement about the end of the settings load, SETTINGS_LOAD_END (R183, R186): the bytes of the image that
give each setting, the judgement of the image, and what the end of the load starts. -/

namespace Sys2Proof.Machine

/-! ### The image -/

/-- Where the bytes of a setting stand in the image, and that three of them are words (R186). -/
theorem imageOffset_eq : ∀ n : Fin 131,
    (((settingRow n.val).width = 2) ↔ n.val = 6 ∨ n.val = 16 ∨ n.val = 17) ∧
      imageOffset n.val =
        if n.val ≤ 6 then n.val + 2 else if n.val ≤ 16 then n.val + 3 else if n.val = 17 then 21 else n.val + 5 := by
  decide

theorem imageValue_eq (image : List Byte) (n : Fin 131) :
    imageValue image n.val =
      (let b (i : Nat) : Nat := (image.getD i 0).toNat
       if n.val ≤ 5 then b (n.val + 2) else if n.val = 6 then b 8 * 256 + b 9
       else if n.val ≤ 15 then b (n.val + 3) else if n.val = 16 then b 19 * 256 + b 20
       else if n.val = 17 then b 21 * 256 + b 22 else b (n.val + 5)) := by
  obtain ⟨hwidth, hoffset⟩ := imageOffset_eq n
  simp only [imageValue, hwidth, hoffset]
  by_cases h6 : n.val = 6
  · simp [h6]
  · by_cases h16 : n.val = 16
    · simp [h16]
    · by_cases h17 : n.val = 17
      · simp [h17]
      · have hle : n.val ≤ 6 ↔ n.val ≤ 5 := by omega
        have hle' : n.val ≤ 16 ↔ n.val ≤ 15 := by omega
        simp only [h6, h16, h17, hle, hle', or_self, if_false, Nat.add_zero]
        split
        · rfl
        · split <;> rfl

theorem imageTaken_iff (image : List Byte) :
    imageTaken image = true ↔ image.getD 0 0 = 0x4B ∧ image.getD 1 0 = 1 := by
  simp [imageTaken]

section
variable {image : List Byte}

theorem State.judgeImage_taken (s : State) (h : imageTaken image = true) :
    s.judgeImage image =
      { s with settings := imageSettings image, loader := { marker := image.getD 0 0, fromImage := true } } :=
  if_pos h

theorem State.judgeImage_refused (s : State) (h : ¬ imageTaken image = true) :
    s.judgeImage image =
      { s with
        loader := { marker := image.getD 0 0, fromImage := false }
        events := { s.events with flags := s.events.flags ||| 0x800 } } :=
  if_neg h

end

theorem State.judgeImage_marker (s : State) (image : List Byte) :
    (s.judgeImage image).loader.marker = image.getD 0 0 := by
  unfold State.judgeImage
  dsimp only
  split <;> rfl

/-! ### The end of the load -/

theorem State.finishLoad_now (s : State) : s.finishLoad.now = 0 := by
  simp [State.finishLoad, State.startCycle, State.transmit, State.clearOut, foldl_keeps (fun x : State => x.now)]

theorem State.finishLoad_port (s : State) : s.finishLoad.port = { s.port with loading := false } := by
  simp [State.finishLoad, State.startCycle, State.transmit, State.clearOut, foldl_keeps (fun x : State => x.port)]

/-- The blink clock starts in an on-half, and sampling 10 ms later (R142, R147). -/
theorem State.finishLoad_lcm (s : State) :
    s.finishLoad.lcm.blink = some (Blink.start (s.setting 17) 0) ∧ s.finishLoad.lcm.nextSample = sampleInterval := by
  simp [State.finishLoad, State.startCycle, State.transmit, State.clearOut, State.setting,
    foldl_keeps (fun x : State => x.settings)]

/-- Settles O4: the image is judged, and then the load ends in the same way with either settings. -/
theorem loadEndFillsSettings : Obligations.LoadEndFillsSettings := by
  intro image s hload hlen
  obtain ⟨hblink, hsample⟩ := (s.judgeImage image).finishLoad_lcm
  have hnow := (s.judgeImage image).finishLoad_now
  refine ⟨_, taken_due (due := s.port.loading = true ∧ image.length = 256) ⟨hload, hlen⟩ _ _, ?judged, ?marker, ?port,
    ?meters, ⟨_, hblink, rfl, ?half, ?period⟩, ?sample, ?circuits, ?rcu, ?line, ?rest⟩
  case judged =>
    split
    next h =>
      have htaken := s.judgeImage_taken ((imageTaken_iff image).2 h)
      refine ⟨fun n => ?_, ?_, ?_⟩
      · rw [(State.finishLoad_frame _).1, htaken, ← imageValue_eq]
        exact imageSettings_getElem image n
      · simp [htaken]
      · simp [htaken]
    next h =>
      have hrefused := s.judgeImage_refused (mt (imageTaken_iff image).1 h)
      simp [hrefused]
  case marker => simpa using s.judgeImage_marker image
  case port => simp [State.finishLoad_port]
  case meters =>
    intro m
    rw [State.finishLoad_meter]
    simp [State.meterDepth, State.setting]
  case half => rw [hnow]; rfl
  case period => simp [State.setting]; rfl
  case sample => rw [hsample, hnow]; rfl
  case circuits =>
    intro k
    rw [State.finishLoad_circuit]
    simp [State.tolerance, State.tolpct, State.tolmin, State.setting]
  case rcu =>
    have hchain : (s.judgeImage image).finishLoad.rcu.chain = s.rcu.chain := by
      rw [State.finishLoad_rcu]
      simp
    rw [State.finishLoad_rcu]
    simp [State.chosenPeriod, State.setting, hchain]
  case line =>
    rw [State.finishLoad_line]
    simp [State.rollFrame, frameTime]
  case rest => simp

end Sys2Proof.Machine
end

section
/-! Settles the statements about the transfers of the host port: the status byte (R158), the first byte of a transfer
(R156, R159), and what a poll and a fetch shift out (R164). -/

namespace Sys2Proof.Machine

/-! ### The status byte -/

/-- A field of one bit, in its place. -/
theorem placedBit_getLsbD (b : Bool) {i : Nat} (hi : i < 8) (j : Nat) :
    ((if b then bitMask 8 i else 0 : Byte)).getLsbD j = (b && decide (j = i)) := by
  cases b with
  | false => simp
  | true => simp [bitMask_getLsbD 8 i j hi]

/-- The event line is low exactly while a flag and its enable stand (R174). -/
theorem EventUnit.lineLow_iff (e : EventUnit) :
    e.lineLow = true ↔ ∃ f : Fin 13, e.flags.getLsbD f.val = true ∧ e.enables.getLsbD f.val = true := by
  rw [EventUnit.lineLow, bne_iff_ne]
  constructor
  · intro hne
    by_contra hnone
    refine hne (BitVec.eq_of_getLsbD_eq fun i hi => ?_)
    refine (BitVec.getLsbD_and ..).trans ((Bool.eq_false_iff.2 fun h => hnone ⟨⟨i, hi⟩, ?_⟩).trans BitVec.getLsbD_zero.symm)
    simpa using h
  · rintro ⟨f, hflag, henable⟩ hzero
    have hbit : (e.flags &&& e.enables).getLsbD f.val = true := by rw [BitVec.getLsbD_and, hflag, henable]; rfl
    rw [hzero] at hbit
    exact absurd hbit (by simp)

/-- Each bit of the status byte is one of its six fields, or clear (R158, R185). -/
theorem State.statusByte_getLsbD (s : State) (i : Nat) :
    s.statusByte.getLsbD i = (s.port.loading && decide (i = 0) || s.port.ready && decide (i = 1) ||
      s.port.posted.isNone && decide (i = 2) || s.port.response.isSome && decide (i = 3) ||
      s.port.discarded && decide (i = 4) || s.events.lineLow && decide (i = 5)) := by
  simp only [State.statusByte, BitVec.getLsbD_or]
  simp only [placedBit_getLsbD, Nat.reduceLT]

/-- Settles O5: the byte is built from its six fields. -/
theorem statusByteFields : Obligations.StatusByteFields := by
  intro s
  have hline : s.events.lineLow = decide (∃ f : Fin 13, s.events.flags.getLsbD f.val = true ∧
      s.events.enables.getLsbD f.val = true) := by
    rw [Bool.eq_iff_iff, EventUnit.lineLow_iff, decide_eq_true_iff]
  rw [← hline]
  simp only [State.statusByte_getLsbD]
  simp [HostPort.ready]

/-! ### The first byte -/

theorem State.openTransfer_eq (s : State) (b : Byte) :
    s.openTransfer b =
      { kind := transferKind b
        status := s.port.fallen.getD s.statusByte
        frame :=
          if b = 0x5A then s.port.response.elim [0x0E, 0x00, 0x00] fun r =>
            [r.result.code, r.kind, byte r.payload.length] ++ r.payload
          else []
        response := b = 0x5A && s.port.response.isSome } := by
  have hfetch : transferKind b = .fetch ↔ b = 0x5A := by
    unfold transferKind submitMarker fetchMarker
    split
    next h => subst h; decide
    next => split <;> simp_all
  simp only [State.openTransfer, State.firstStatus, hfetch]
  cases hr : s.port.response <;> by_cases hb : b = 0x5A <;> simp_all <;> rfl

/-- Settles O6: the fall and the first byte each put their step's outcome down. -/
theorem firstByteDecidesTransfer : Obligations.FirstByteDecidesTransfer := by
  refine ⟨fun moment s hopen hfallen => ?fall, fun moment b s hopen => ?first⟩
  case fall => exact taken_due (due := s.port.transfer = none ∧ s.port.fallen = none) ⟨hopen, hfallen⟩ _ _
  case first =>
    refine (taken_due (due := s.port.transfer = none) hopen _ _).trans (congrArg Host.Outcome.next ?_)
    rw [State.firstByte, State.openTransfer_eq]
    cases hr : s.port.response <;> simp only [State.advance, hr] <;> rfl

/-! ### The end of a transfer -/

/-- The state after a transfer has ended, with what it shifted out (R156). -/
def State.transferEnded (s : State) (moment : Nat) (marked : Bool) (out : List Byte) : State :=
  { s with
    now := max s.now moment
    port := { s.port with fallen := none, transfer := none, discarded := marked, shiftedOut := out } }

/-- A transfer that stands to be ended ends with its status byte shifted out, whether its first byte had been clocked or
is clocked now (log entry 4). -/
theorem State.transferStands.ends {s : State} {b : Byte} {status : Byte} {marked : Bool}
    (h : s.transferStands (transferKind b) status marked) (moment : Nat) :
    ∃ t s', (s.advance moment).atTransferEnd b = some (t, s') ∧
      (∀ out, s'.closeTransfer t out = s.transferEnded moment marked (status :: out)) ∧
      s'.port.response = s.port.response ∧ (b = 0x5A → (t.frame, t.response) = s.fetched) := by
  unfold State.transferStands at h
  cases ht : s.port.transfer with
  | some x =>
    rw [ht] at h
    obtain ⟨hkind, rfl, rfl⟩ := h
    refine ⟨x, s.advance moment, ?_, fun out => rfl, rfl, fun _ => ?_⟩
    · simp [State.atTransferEnd, State.advance, ht, hkind]
    · simp [State.fetched, ht]
  | none =>
    rw [ht] at h
    obtain ⟨rfl, rfl⟩ := h
    refine ⟨(s.advance moment).openTransfer b, (s.advance moment).firstByte b, ?_, fun out => rfl, rfl, fun hb => ?_⟩
    · simp only [State.atTransferEnd, State.advance, ht]
    rw [State.openTransfer_eq]
    cases hr : s.port.response <;> simp [State.fetched, ht, hb, hr]

/-- Settles O7: a transfer that stands ends; a fetch has the frame that `fetched` names. -/
theorem pollAndFetchShiftOut : Obligations.PollAndFetchShiftOut := by
  refine ⟨fun moment n status marked s h => ?poll, fun moment s hopen => ?unclocked, fun moment n status marked s h => ?fetch⟩
  case poll =>
    obtain ⟨t, s', hend, hclose, -⟩ := State.transferStands.ends (b := 0) h moment
    change execStatusPoll moment (n + 1) s = _
    simp only [execStatusPoll, hend, Nat.add_one_ne_zero, and_false, if_false]
    exact congrArg Host.Outcome.next (hclose _)
  case unclocked =>
    change execStatusPoll moment 0 s = _
    exact if_pos ⟨hopen, rfl⟩
  case fetch =>
    obtain ⟨t, s', hend, hclose, hresponse, hframe⟩ := State.transferStands.ends (b := fetchMarker) h moment
    have hfetched := hframe rfl
    change execFetch moment n s = _
    simp only [execFetch, hend]
    refine congrArg Host.Outcome.next ?_
    rw [← hfetched]
    unfold State.endFetch
    simp only [hclose]
    split
    · rfl
    · rfl

end Sys2Proof.Machine
end

section
/-! Settles the statements about submits: those turned away (R160 steps 1 to 6, R161), the decoding of every request
(R160 step 7, R185), and the order in which accepted requests are carried out (R162). -/

namespace Sys2Proof.Machine

/-! ### The decoder -/

theorem postedKind_iff (k : Byte) : postedKind k = true ↔ k = 0x20 ∨ k = 0x21 ∨ k = 0x22 := by
  simp [postedKind, or_assoc]

/-- The decoder reads back what the format lays out (R185). -/
theorem parseRequest_requestPayload (r : Request) (h : ∀ k f t p d, r = .writeExtension k f t p d → d.length ≤ 32) :
    parseRequest (requestKind r) (requestPayload r) = some r := by
  cases r with
  | writeExtension k f t p d =>
    have hd := h k f t p d rfl
    simp [parseRequest, requestKind, requestPayload, wordBytes, ofBytes_hi_lo, hd]
  | _ => simp [parseRequest, requestKind, requestPayload, wordBytes, ofBytes_hi_lo]

/-- The decoder takes only a payload of a length that the kind allows (R185). -/
theorem length_of_parseRequest {kind : Byte} {payload : List Byte} {r : Request}
    (h : parseRequest kind payload = some r) : payload.length ∈ requestLengths kind := by
  unfold parseRequest at h
  split at h
  next hk =>
    subst hk
    split at h
    next k1 k0 first t1 t0 part data =>
      split at h
      next hd =>
        change _ ∈ (List.range 33).map (· + 6)
        simp only [List.length_cons, List.mem_map, List.mem_range]
        exact ⟨data.length, by omega, rfl⟩
      next => cases h
    next => cases h
  next =>
    repeat' split at h
    all_goals cases h
    all_goals
      subst_vars
      simp only [List.length_cons, List.length_nil]
      decide

/-- The lengths of the requests' payloads are those the kinds allow, and the length field holds them. -/
theorem requestPayload_length (r : Request) (h : ∀ k f t p d, r = .writeExtension k f t p d → d.length ≤ 32) :
    (requestPayload r).length ≤ 38 ∧ knownKind (requestKind r) = true := by
  cases r with
  | writeExtension k f t p d =>
    have hd := h k f t p d rfl
    refine ⟨?_, by rfl⟩
    simp only [requestPayload, wordBytes, List.length_append, List.length_cons, List.length_nil]
    omega
  | _ => exact ⟨by simp [requestPayload, wordBytes], by rfl⟩

/-! ### The judgement of a submit -/

/-- The ways a submit finds no place (R160 steps 1 to 4). -/
def State.noPlace (s : State) (kind : Byte) : Prop :=
  s.port.loading = true ∨ (postedKind kind = true ∧ s.port.posted.isSome = true) ∨
    (postedKind kind = false ∧ (s.port.nonPosted.isSome = true ∨ s.port.response.isSome = true))

theorem State.judgeSubmit_short (s : State) {frame : List Byte} (h : frame.length < 2) :
    s.judgeSubmit frame = s.discard := by
  match frame with
  | [] => rfl
  | [_] => rfl
  | _ :: _ :: _ => simp at h

section
variable {s : State} {kind len : Byte} {payload : List Byte}

theorem State.judgeSubmit_noPlace (h : s.noPlace kind) : s.judgeSubmit (kind :: len :: payload) = s.discard := by
  dsimp only [State.judgeSubmit]
  by_cases h1 : s.port.loading = true
  · exact if_pos h1
  · rw [if_neg h1]
    by_cases h2 : postedKind kind = true ∧ s.port.posted.isSome = true
    · exact if_pos h2
    · rw [if_neg h2]
      exact if_pos ((h.resolve_left h1).resolve_left h2)

/-- With a place, a frame that carries a request is accepted, and every other is a format error (R160 steps 5 to 7). -/
theorem State.judgeSubmit_placed (h : ¬ s.noPlace kind) :
    s.judgeSubmit (kind :: len :: payload) =
      if knownKind kind = false ∨ payload.length ≠ len.toNat ∨ 40 < len.toNat then s.formatError kind
      else (parseRequest kind payload).elim (s.formatError kind) s.accept := by
  obtain ⟨h1, h2⟩ := not_or.1 h
  obtain ⟨h2, h3⟩ := not_or.1 h2
  dsimp only [State.judgeSubmit]
  rw [if_neg h1, if_neg h2, if_neg h3, ite_or (knownKind kind = false)]
  cases parseRequest kind payload <;> rfl

/-- A frame whose length is not its kind's is a format error. -/
theorem State.judgeSubmit_malformed (h : ¬ s.noPlace kind)
    (hbad : payload.length ≠ len.toNat ∨ payload.length ∉ requestLengths kind) :
    s.judgeSubmit (kind :: len :: payload) = s.formatError kind := by
  rw [State.judgeSubmit_placed h]
  split
  · rfl
  next hgood =>
    obtain ⟨-, hlen⟩ := not_or.1 hgood
    cases hp : parseRequest kind payload with
    | none => rfl
    | some r => exact absurd (length_of_parseRequest hp) (hbad.resolve_left (not_or.1 hlen).1)

theorem State.formatError_posted (h : postedKind kind = true) : s.formatError kind = s.postedFault kind none .format := by
  rw [State.formatError, if_pos h, State.postFault_eq]

theorem State.formatError_other (h : ¬ postedKind kind = true) :
    s.formatError kind = { s with port := { s.port with response := some ⟨.format, kind, []⟩ } } :=
  if_neg h

end

theorem exec_submit_stands {s : State} {status : Byte} {marked : Bool} (h : s.transferStands .submit status marked)
    (moment : Nat) (frame : List Byte) :
    exec (.submit moment frame) s =
      .next ((s.transferEnded moment marked (status :: List.replicate frame.length 0)).judgeSubmit frame) := by
  obtain ⟨t, s', hend, hclose, -⟩ := State.transferStands.ends (b := submitMarker) h moment
  change execSubmit moment frame s = _
  simp only [execSubmit, hend, hclose]

/-- A kind whose place is empty finds it, whatever the transfer that ends has shifted out. -/
theorem State.not_noPlace {s : State} {kind : Byte} (hl : s.port.loading = false)
    (h : if postedKind kind = true then s.port.posted = none else s.port.nonPosted = none ∧ s.port.response = none)
    {moment : Nat} {marked : Bool} {out : List Byte} : ¬ (s.transferEnded moment marked out).noPlace kind := by
  split at h
  next hk => simp [State.noPlace, State.transferEnded, hl, hk, h]
  next hk => simp [State.noPlace, State.transferEnded, hl, hk, h]

/-- Settles O8: a short frame or one without a place is discarded; a malformed one is a format error. -/
theorem submitTurnedAway : Obligations.SubmitTurnedAway := by
  refine ⟨fun moment frame status marked s h hturned => ?discarded, fun moment kind len payload status marked s h hl hbad => ?format⟩
  case discarded =>
    rw [exec_submit_stands h]
    refine congrArg Host.Outcome.next ?_
    by_cases hshort : frame.length < 2
    · exact State.judgeSubmit_short _ hshort
    · obtain ⟨kind, len, payload, rfl⟩ : ∃ kind len payload, frame = kind :: len :: payload := by
        match frame, hshort with
        | [], h => simp at h
        | [_], h => simp at h
        | a :: b :: c, _ => exact ⟨a, b, c, rfl⟩
      refine State.judgeSubmit_noPlace ?_
      have hno := hturned.resolve_left hshort
      simp only [List.getD_cons_zero, ← postedKind_iff, Bool.not_eq_true] at hno
      exact hno
  case format =>
    intro ended
    split
    next hk =>
      intro hposted
      have hk' := (postedKind_iff kind).2 hk
      rw [exec_submit_stands h, State.judgeSubmit_malformed (State.not_noPlace hl (by rw [if_pos hk']; exact hposted)) hbad,
        State.formatError_posted hk']
      rfl
    next hk =>
      intro hnone hresponse
      have hk' := mt (postedKind_iff kind).1 hk
      rw [exec_submit_stands h,
        State.judgeSubmit_malformed (State.not_noPlace hl (by rw [if_neg hk']; exact ⟨hnone, hresponse⟩)) hbad,
        State.formatError_other hk']
      rfl

/-- With a place, the frame of a request is accepted as that request. -/
theorem State.judgeSubmit_requestFrame {s : State} {r : Request} (h : ¬ s.noPlace (requestKind r))
    (hd : ∀ k f t p d, r = .writeExtension k f t p d → d.length ≤ 32) :
    s.judgeSubmit (requestFrame r) = s.accept r := by
  obtain ⟨hlen, hknown⟩ := requestPayload_length r hd
  have hbyte : (byte (requestPayload r).length).toNat = (requestPayload r).length := by
    simp only [byte, BitVec.toNat_ofNat]
    omega
  rw [requestFrame, State.judgeSubmit_placed h, if_neg (by simp only [hknown, hbyte]; simp; omega),
    parseRequest_requestPayload r hd]
  rfl

/-- Settles O9: the decoder reads the frame as the request, which is accepted in its place. -/
theorem submitTakesEveryRequest : Obligations.SubmitTakesEveryRequest := by
  intro moment r status marked s h hl hd ended
  split
  next hk =>
    intro hposted
    have hk' := (postedKind_iff _).2 hk
    rw [exec_submit_stands h,
      State.judgeSubmit_requestFrame (State.not_noPlace hl (by rw [if_pos hk']; exact hposted)) hd]
    exact congrArg Host.Outcome.next (if_pos hk')
  next hk =>
    intro hnone hresponse
    have hk' := mt (postedKind_iff _).1 hk
    rw [exec_submit_stands h,
      State.judgeSubmit_requestFrame (State.not_noPlace hl (by rw [if_neg hk']; exact ⟨hnone, hresponse⟩)) hd]
    exact congrArg Host.Outcome.next (if_neg hk')

/-! ### The order of requests -/

/-- Settles O10: the order mark names the request that was there before. -/
theorem requestsCarriedOutInOrder : Obligations.RequestsCarriedOutInOrder := by
  intro s q r
  refine ⟨fun hk hposted hnon => ?posted, fun hk hnon hposted => ?other, fun hnon hposted => ?first⟩
  case posted => simp [State.accept, hk, hnon, HostPort.inHand, State.respond]
  case other => simp [State.accept, hk, hposted, HostPort.inHand, State.finishPosted]
  case first => cases hk : postedKind (requestKind q) <;> simp [State.accept, hk, hnon, hposted, HostPort.inHand]

end Sys2Proof.Machine
end

section
/-! Settles the statements about the lookup by the hash of a key (R11, R12) and about the arbiter's grant and who waits
for it (R20, R21). -/

namespace Sys2Proof.Machine

/-! ### Lookup -/

/-- In a sound table the lookup finds the one record of its key (R12). -/
theorem State.find_iff {s : State} (hb : s.bucketsSound) (k : Key) (i : Fin 256) (r : Record) :
    s.find k = some (i, r) ↔ s.table.slots[i] = some r ∧ r.key = k := by
  refine ⟨fun h => ?_, fun ⟨hr, hk⟩ => ?_⟩
  · obtain ⟨hr, hk, -⟩ := State.find_spec h
    exact ⟨hr, hk⟩
  · cases hf : s.find k with
    | none => exact absurd hk (hb.none_of_find hf hr)
    | some p =>
      obtain ⟨j, q⟩ := p
      obtain ⟨hq, hqk, -⟩ := State.find_spec hf
      obtain rfl : j = i := hb.2 j i q r hq hr (hqk.trans hk.symm)
      cases hq.symm.trans hr
      rfl

/-! ### The hash of a key -/

theorem crc8Shift_eq (p r : Byte) :
    crc8Shift p r =
      if r.getLsbD 7 then BitVec.ofNat 8 (r.toNat * 2) ^^^ p else BitVec.ofNat 8 (r.toNat * 2) := by
  have hshift : r <<< 1 = BitVec.ofNat 8 (r.toNat * 2) := by
    apply BitVec.eq_of_toNat_eq
    simp [Nat.shiftLeft_eq]
  rw [crc8Shift, hshift, BitVec.msb_eq_getLsbD_last]

theorem Key.packed_eq (k : Key) : k.packed = word (k.handle.val * 8192 + k.cls.toNat * 128 + k.inst.toNat) := by
  apply BitVec.eq_of_toNat_eq
  have hh := k.handle.isLt
  have hc := k.cls.isLt
  have hi := k.inst.isLt
  simp only [Key.packed, word, BitVec.toNat_append, BitVec.toNat_ofFin, BitVec.toNat_ofNat]
  rw [← Nat.shiftLeft_add_eq_or_of_lt hi, ← Nat.shiftLeft_add_eq_or_of_lt hc, Nat.shiftLeft_eq, Nat.shiftLeft_eq]
  omega

/-- Settles O12: the buckets and the distinct keys give the lookup; the shift and the packed key are the hash's. -/
theorem lookupFollowsTheHash : Obligations.LookupFollowsTheHash := by
  refine ⟨fun s k hb => ⟨s.find_iff hb k, fun hf i r hr => hb.none_of_find hf hr, fun hnone => ?_⟩, fun p k => ?_⟩
  · cases hf : s.find k with
    | none => rfl
    | some q =>
      obtain ⟨hq, hk⟩ := (s.find_iff hb k q.1 q.2).1 hf
      exact absurd hk (hnone _ _ hq)
  · intro shift feed packed
    have hshift : crc8Shift p = shift := funext (crc8Shift_eq p)
    have hbyte : BitVec.ofNat 8 packed = BitVec.ofNat 8 (packed % 256) := by
      apply BitVec.eq_of_toNat_eq
      simp
    have hcrc : crc8Key p k.packed = feed (feed 0 (BitVec.ofNat 8 (packed / 256))) (BitVec.ofNat 8 (packed % 256)) := by
      rw [crc8Key, k.packed_eq, hiByte_word, loByte_word, ← hbyte, crc8Byte, crc8Byte, hshift]
      rfl
    rw [Key.bucket, hcrc]
    simp

/-! ### Who waits -/

theorem State.hpWaits_iff (s : State) :
    s.hpWaits = true ↔ ∃ r, s.port.inHand = some r ∧
      requestKind r ∈ ([0x01, 0x02, 0x03, 0x04, 0x05, 0x06, 0x07, 0x08, 0x20] : List Byte) := by
  have htakes (r : Request) : takesTable r = true ↔
      requestKind r ∈ ([0x01, 0x02, 0x03, 0x04, 0x05, 0x06, 0x07, 0x08, 0x20] : List Byte) := by
    cases r <;> simp [takesTable, requestKind]
  unfold State.hpWaits
  cases s.port.inHand with
  | none => simp
  | some r => simp only [htakes, Option.some.injEq, exists_eq_left']

theorem State.eeWaits_iff (s : State) :
    s.eeWaits = true ↔ ∃ c, s.ee = some c ∧ c.abandoned = false ∧
      ((c.phase = .reading ∧ c.classification ≠ none ∧ c.pendingKey = none) ∨
        (c.phase = .concluding ∧ c.pendingKey ≠ none)) := by
  unfold State.eeWaits
  cases s.ee with
  | none => simp
  | some c =>
    simp only [Option.some.injEq, exists_eq_left', Context.wantsReservation, Context.wantsConclusion]
    simp [and_assoc, and_or_left, Option.isSome_iff_ne_none]

theorem State.rhWaits_iff (s : State) :
    s.rhWaits = true ↔ ∃ w rest, s.workList = w :: rest ∧ ∀ it, w = .item it → it.kind ≠ .added := by
  unfold State.rhWaits
  cases s.workList with
  | nil => simp
  | cons w rest => cases w <;> simp

theorem State.lcmWaits_iff (s : State) : s.lcmWaits = true ↔ ∃ k : Fin 8, s.lcm.circuits[k].job ≠ none := by
  rw [State.lcmWaits, any_all8]
  simp only [Option.isSome_iff_ne_none]
  rfl

theorem State.wantsOutcome_iff (s : State) :
    s.wantsOutcome = true ↔ ∃ n, s.ou.note = some n ∧ n.outcome ≠ none := by
  unfold State.wantsOutcome
  cases s.ou.note <;> simp [Option.isSome_iff_ne_none]

theorem State.sweeperWaits_iff (s : State) :
    s.sweeperWaits = true ↔ ∃ h : Fin 8, s.dir.entries[h].state = .leaving ∧ s.dir.entries[h].recordCount ≠ 0 := by
  simp only [State.sweeperWaits, any_all8, Bool.and_eq_true, decide_eq_true_eq, Nat.pos_iff_ne_zero, State.leaving_iff]
  rfl

/-- A refill that found nothing is noted with the counts and the states it found (log entry 29). -/
theorem State.refillStop_iff (s : State) :
    s.ou.refillStop = some s.refillView ↔
      ∃ x, s.ou.refillStop = some x ∧ x.1 = s.ou.waiting ∧ ∀ h : Fin 8, x.2[h] = s.dir.entries[h].state := by
  have hstates (v : Vector UnitState 8) :
      v = (perHandle fun h => (s.entry h).state) ↔ ∀ h : Fin 8, v[h] = s.dir.entries[h].state := by
    constructor
    · rintro rfl h
      exact perHandle_getElem _ h
    · intro hv
      refine Vector.ext fun i hi => ?_
      exact (hv ⟨i, hi⟩).trans (perHandle_getElem (fun h => (s.entry h).state) ⟨i, hi⟩).symm
  constructor
  · exact fun h => ⟨_, h, rfl, (hstates _).1 rfl⟩
  · rintro ⟨x, hx, h1, h2⟩
    rw [hx]
    exact congrArg some (Prod.ext h1 ((hstates _).2 h2))

theorem State.wantsRefill_iff (s : State) :
    s.wantsRefill = true ↔ ¬ s.wantsOutcome = true ∧ s.line.ouTurn = false ∧ s.ou.queue.length < 32 ∧
      (∃ h : Fin 8, s.dir.entries[h].state ≠ .leaving ∧ s.ou.waiting[h] ≠ 0) ∧ ¬ s.ou.refillStop = some s.refillView := by
  simp only [State.wantsRefill, Bool.and_eq_true, Bool.not_eq_true', decide_eq_true_eq, State.eligibleWaiting_pos,
    and_assoc, Bool.not_eq_true, ne_eq]

/-! ### The grant -/

theorem Place.mem_after (p q : Place) : q ∈ p.after := by cases p <;> cases q <;> decide

/-- Nobody waits in the rotation exactly when no place waits. -/
theorem State.find_after_none (s : State) (p : Place) :
    p.after.find? s.placeWaits = none ↔ ∀ q : Place, s.placeWaits q = false := by
  simp only [List.find?_eq_none, Bool.not_eq_true]
  exact ⟨fun h q => h q (p.mem_after q), fun h q _ => h q⟩

theorem State.served_ne_hp (s : State) (p : Place) : s.served p ≠ .hp := by
  cases p
  case rh =>
    simp only [State.served]
    split <;> exact Grantee.noConfusion
  all_goals exact Grantee.noConfusion

theorem State.grant_hp_iff (s : State) :
    s.grant = some .hp ↔
      s.hpWaits = true ∧ (s.table.lastGrantHost = false ∨ ∀ p : Place, s.placeWaits p = false) := by
  have hother : (s.table.pointer.after.find? s.placeWaits).map s.served ≠ some .hp := by
    intro h
    obtain ⟨p, -, hp⟩ := Option.map_eq_some_iff.1 h
    exact s.served_ne_hp p hp
  dsimp only [State.grant]
  rw [← s.find_after_none s.table.pointer]
  split
  next h => simpa using h
  next h => exact ⟨fun hg => absurd hg hother, fun hg => absurd (by simpa using hg) h⟩

/-- Settles O11: the grant is a choice between the Host Port and the first place of the rotation that waits. -/
theorem arbiterGrantsInTurn : Obligations.ArbiterGrantsInTurn := by
  intro s
  refine ⟨s.grant_hp_iff, ?nobody, ?place, ?twice, ?both, ?rh, ?lcm, ⟨rfl, rfl, rfl⟩, ⟨rfl, rfl, rfl, rfl⟩, s.hpWaits_iff,
    s.eeWaits_iff, by simp [State.placeWaits], s.rhWaits_iff, s.lcmWaits_iff, ?ou, s.sweeperWaits_iff⟩
  case nobody =>
    dsimp only [State.grant]
    rw [← s.find_after_none s.table.pointer]
    cases hw : s.hpWaits <;> cases hf : s.table.pointer.after.find? s.placeWaits <;> simp
    split <;> exact Option.some_ne_none _
  case place =>
    intro g hg hne
    dsimp only [State.grant] at hg
    split at hg
    next => exact absurd (Option.some.inj hg).symm hne
    next =>
      obtain ⟨p, hp, rfl⟩ := Option.map_eq_some_iff.1 hg
      obtain ⟨hwaits, before, after, hsplit, hbefore⟩ := List.find?_eq_some_iff_append.1 hp
      exact ⟨before, p, after, hsplit, fun q hq => by simpa using hbefore q hq, hwaits, rfl⟩
  case twice =>
    intro h p
    have hall := ((s.hostGranted.grant_hp_iff).1 h).2.resolve_left (by simp [State.hostGranted])
    have hsame : s.hostGranted.placeWaits p = s.placeWaits p := by cases p <;> rfl
    exact hsame.symm.trans (hall p)
  case both =>
    intro hrh hlcm
    refine ⟨fun hlast => ?_, fun hlast => ?_⟩ <;> simp [State.served, hrh, hlcm, hlast]
  case rh =>
    intro hrh hlcm
    simp [State.served, hrh, hlcm]
  case lcm =>
    intro hrh hlcm
    simp [State.served, hrh]
  case ou =>
    intro outcome
    have houtcome : s.wantsOutcome = true ↔ outcome := s.wantsOutcome_iff
    refine ⟨?_, ?_⟩
    · simp [State.placeWaits, State.ouWaits, ← houtcome, or_assoc]
    · rw [s.wantsRefill_iff, houtcome, s.refillStop_iff]

end Sys2Proof.Machine
end

section
/-! Settles the statements about the host's record requests that change the table: ADMIT (R27), RETIRE (R28) and
DECLARE_RECORD (R29). -/

namespace Sys2Proof.Machine

theorem State.leaving_false {s : State} {h : Fin 8} (hne : s.dir.entries[h].state ≠ .leaving) : s.leaving h = false :=
  Bool.eq_false_iff.2 (mt (s.leaving_iff h).1 hne)

/-! ### ADMIT -/

theorem exec_admit_granted {key : Word} {s : State} (hq : s.port.inHand = some (.admitRecord key))
    (hg : s.grant = some .hp) : exec (.admitRecord key) s = .next (s.hostGranted.admitOp key) :=
  taken_due (due := s.granting (.admitRecord key)) ⟨hq, hg⟩ _ _

section
variable {s : State} {key : Word} {i : Fin 256} {r : Record}

theorem State.admitOp_absent (h : s.find (Key.ofPacked key) = none) :
    s.admitOp key = s.hostAnswered 0x04 .notFound [] := by
  simp only [State.admitOp, h]; rfl

theorem State.admitOp_retiring (h : s.find (Key.ofPacked key) = some (i, r)) (hl : s.leaving r.key.handle = true) :
    s.admitOp key = s.hostAnswered 0x04 .retiring [] := by
  simp only [State.admitOp, h, hl]; rfl

theorem State.admitOp_wrongState (h : s.find (Key.ofPacked key) = some (i, r)) (hl : s.leaving r.key.handle = false)
    (hh : r.state ≠ .held) : s.admitOp key = s.hostAnswered 0x04 .wrongState [] := by
  simp only [State.admitOp, h, hl, if_pos hh]; rfl

theorem State.admitOp_held (h : s.find (Key.ofPacked key) = some (i, r)) (hl : s.leaving r.key.handle = false)
    (hh : r.state = .held) :
    s.admitOp key = (s.putRecord i { r with state := .active } true).hostAnswered 0x04 .ok [] := by
  simp only [State.admitOp, h, hl, if_neg (not_not.2 hh)]; rfl

end

/-- A record that changes is touched, and RECORD_CHANGED raised, unless its policy is QUIET (R8). -/
theorem State.putRecord_changed (s : State) (i : Fin 256) (r r' : Record) (hp : r'.policy = r.policy) :
    s.putRecord i r' true =
      { s with
        table :=
          { s.table with slots := s.table.slots.set i (some { r' with touched := r.policy ≠ .quiet || r'.touched }) }
        events := if r.policy = .quiet then s.events else { s.events with flags := s.events.flags ||| 0x20 } } := by
  rw [State.putRecord_eq s i r r' true hp, State.eventsAfterChange, Record.changedTo, hp]
  by_cases hq : r.policy = .quiet <;> simp [hq]

/-- Settles O16: the checks in their order, and then the record put in its slot again. -/
theorem admitActivatesHeldRecord : Obligations.AdmitActivatesHeldRecord := by
  intro key s hq hg
  rw [exec_admit_granted hq hg]
  have hfind : s.hostGranted.find (Key.ofPacked key) = s.find (Key.ofPacked key) := rfl
  cases hf : s.find (Key.ofPacked key) with
  | none => exact congrArg Host.Outcome.next (State.admitOp_absent (hfind.trans hf))
  | some p =>
    obtain ⟨i, r⟩ := p
    dsimp only
    split
    next hl => exact congrArg Host.Outcome.next (State.admitOp_retiring (hfind.trans hf) ((s.leaving_iff _).2 hl))
    next hl =>
      have hl : s.hostGranted.leaving r.key.handle = false := State.leaving_false (s := s) hl
      split
      next hh => exact congrArg Host.Outcome.next (State.admitOp_wrongState (hfind.trans hf) hl hh)
      next hh =>
        rw [State.admitOp_held (hfind.trans hf) hl (not_not.1 hh), State.putRecord_changed _ i r _ (by rfl)]
        rfl

/-! ### RETIRE -/

theorem exec_retire_granted {key : Word} {s : State} (hq : s.port.inHand = some (.retire key))
    (hg : s.grant = some .hp) : exec (.retire key) s = .next (s.hostGranted.retireOp key) :=
  taken_due (due := s.granting (.retire key)) ⟨hq, hg⟩ _ _

section
variable {s : State} {i : Fin 256} {r : Record}

/-- A record that is not PENDING has only its own blocks (R15, R38). -/
theorem State.removalBlocks_chain (h : r.state ≠ .pending) : s.removalBlocks r = r.chain := by
  unfold State.removalBlocks
  cases s.ee with
  | none => rfl
  | some c => exact if_neg fun hp => h hp.1

theorem State.removeRecord_keepsContext (h : r.state ≠ .pending) : (s.removeRecord i r).ee = s.ee := by
  rw [State.removeRecord_ee]
  simp [h]

/-- A removal leaves the arbiter's part of the table (R15). -/
theorem State.removeRecord_table (s : State) (i : Fin 256) (r : Record) :
    (s.removeRecord i r).table =
      { s.table with
        slots := (s.removeRecord i r).table.slots, enrolledCount := (s.removeRecord i r).table.enrolledCount } := by
  dsimp only [State.removeRecord]
  split
  · simp only [State.noticeFeed_frame]
  · rfl

/-- A record that was counted gives notice of its circuit (R14, R15). -/
theorem State.removeRecord_noticed (hp : r.state ≠ .pending) (hl : s.leaving r.key.handle = false) :
    noticed s (s.removeRecord i r) r.feed := by
  dsimp only [State.removeRecord]
  rw [if_pos ⟨hp, hl⟩]
  exact (State.noticeFeed_noticed _ r.feed).1

end

/-- Settles O17: the checks in their order, and then the removal, whose lemmas say what it does to each block. -/
theorem retireRemovesRecord : Obligations.RetireRemovesRecord := by
  intro key s hq hg
  rw [exec_retire_granted hq hg]
  have hfind : s.hostGranted.find (Key.ofPacked key) = s.find (Key.ofPacked key) := rfl
  cases hf : s.find (Key.ofPacked key) with
  | none =>
    refine congrArg Host.Outcome.next ?_
    simp only [State.retireOp, hfind, hf]
    rfl
  | some p =>
    obtain ⟨i, r⟩ := p
    dsimp only
    split
    next hl =>
      refine congrArg Host.Outcome.next ?_
      simp only [State.retireOp, hfind, hf, if_pos ((s.hostGranted.leaving_iff _).2 hl)]
      rfl
    next hl =>
      have hl : s.hostGranted.leaving r.key.handle = false := State.leaving_false (s := s) hl
      split
      next hp =>
        refine congrArg Host.Outcome.next ?_
        simp only [State.retireOp, hfind, hf, hl, if_pos hp]
        rfl
      next hp =>
        have hremoved := s.hostGranted.removeRecord_removed i r
        rw [State.removalBlocks_chain hp] at hremoved
        refine ⟨(s.hostGranted.removeRecord i r).hostAnswered 0x05 .ok [], ?_, ?_, hremoved, ?_, ?_, ?_, ?_⟩
        · refine congrArg Host.Outcome.next ?_
          simp only [State.retireOp, hfind, hf, hl, if_neg hp]
          rfl
        · apply State.eq_of_fields <;> simp [State.hostAnswered, State.hostGranted, State.removeRecord_keepsContext hp]
        · exact s.hostGranted.removeRecord_table i r
        · change (s.hostGranted.removeRecord i r).dir = _
          rw [State.removeRecord_dir, State.removalBlocks_chain hp]
          rfl
        · exact State.removeRecord_noticed hp hl
        · simp [State.hostAnswered, State.hostGranted]

/-! ### DECLARE_RECORD -/

section
variable {handle cls inst feed flags : Byte} {nominal : Word} {s : State}

/-- The feeds that a byte does not name (R185). -/
theorem Feed.ofCode_none {b : Byte} (h : 8 ≤ b.toNat ∧ b ≠ 0x10 ∧ b ≠ 0x20) : Feed.ofCode b = Option.none := by
  obtain ⟨h8, h10, h20⟩ := h
  rw [Feed.ofCode, dif_neg (Nat.not_lt.2 h8), if_neg h10, if_neg h20]

/-- The checks of the bytes (R29): one that fails is answered RANGE. -/
theorem exec_declareRecord_range (hq : s.port.inHand = some (.declareRecord handle cls inst feed nominal flags))
    (hg : s.grant = some .hp)
    (hbad : 8 ≤ handle.toNat ∨ 64 ≤ cls.toNat ∨ 128 ≤ inst.toNat ∨ 16 ≤ flags.toNat ∨ flags.getLsbD 1 = true ∨
      flags.getLsbD 2 = true ∨ (8 ≤ feed.toNat ∧ feed ≠ 0x10 ∧ feed ≠ 0x20)) :
    exec (.declareRecord handle cls inst feed nominal flags) s = .next (s.hostGranted.hostAnswered 0x06 .range []) := by
  refine (taken_due (due := s.granting (.declareRecord handle cls inst feed nominal flags)) ⟨hq, hg⟩ _ _).trans
    (congrArg Host.Outcome.next ?_)
  rcases Nat.lt_or_ge handle.toNat 8 with hh | hh
  · cases hf : Feed.ofCode feed with
    | none => rw [handleOf_some (k := ⟨handle.toNat, hh⟩) rfl]; rfl
    | some f =>
      rw [handleOf_some (k := ⟨handle.toNat, hh⟩) rfl]
      refine if_pos ?_
      rcases hbad with h | h | h | h | h | h | h
      · omega
      · exact .inl h
      · exact .inr (.inl h)
      · exact .inr (.inr (.inl h))
      · exact .inr (.inr (.inr (.inl (by simpa [hasSwitchable] using h))))
      · exact .inr (.inr (.inr (.inr (by simpa [hasValue] using h))))
      · rw [Feed.ofCode_none h] at hf
        cases hf
  · rw [handleOf_none hh]
    rfl

theorem exec_declareRecord_taken {h : Fin 8} {f : Feed}
    (hq : s.port.inHand = some (.declareRecord handle cls inst feed nominal flags)) (hg : s.grant = some .hp)
    (hh : h.val = handle.toNat) (hf : f.code = feed) (hc : cls.toNat < 64) (hi : inst.toNat < 128)
    (hfl : flags.toNat < 16) (h1 : flags.getLsbD 1 = false) (h2 : flags.getLsbD 2 = false) :
    exec (.declareRecord handle cls inst feed nominal flags) s =
      .next (s.hostGranted.declareRecordOp (.declareRecord handle cls inst feed nominal flags)
        ⟨h, cls.truncate 6, inst.truncate 7⟩ f nominal.toNat (flags.truncate 4)) := by
  refine (taken_due (due := s.granting (.declareRecord handle cls inst feed nominal flags)) ⟨hq, hg⟩ _ _).trans
    (congrArg Host.Outcome.next ?_)
  rw [handleOf_some hh, (Feed.ofCode_iff feed f).2 hf]
  refine if_neg fun hbad => ?_
  have h1' : hasSwitchable (flags.truncate 4) = false := by simpa [hasSwitchable] using h1
  have h2' : hasValue (flags.truncate 4) = false := by simpa [hasValue] using h2
  rw [h1', h2'] at hbad
  simp only [Bool.false_eq_true, or_false] at hbad
  omega

end

theorem State.place_duplicate {s : State} {k : Key} {origin : Origin} (h : s.find k ≠ none) :
    s.place k origin = .duplicate :=
  if_pos (Option.isSome_iff_ne_none.2 h)

theorem State.place_full {s : State} {k : Key} {origin : Origin} (h : s.find k = none) (hw : s.freeWay k = none) :
    s.place k origin = .noRoom := by
  simp [State.place, h, hw]

theorem State.place_declared {s : State} {k : Key} {i : Fin 256} (h : s.find k = none) (hw : s.freeWay k = some i) :
    s.place k .declared = .at_ i := by
  simp [State.place, h, hw]

section
variable {s : State} {q : Request} {k : Key} {f : Feed} {n : Nat} {fl : DescFlags}

theorem State.declareRecordOp_wrongState (h : s.dir.entries[k.handle].state ≠ .declared) :
    s.declareRecordOp q k f n fl = s.hostAnswered (requestKind q) .wrongState [] :=
  if_pos h

theorem State.declareRecordOp_duplicate (h : (s.entry k.handle).state = .declared)
    (hp : s.place k .declared = .duplicate) :
    s.declareRecordOp q k f n fl = s.hostAnswered (requestKind q) .exists_ [] := by
  rw [State.declareRecordOp, if_neg (not_not.2 h), hp]
  rfl

theorem State.declareRecordOp_full (h : (s.entry k.handle).state = .declared)
    (hp : s.place k .declared = .noRoom) :
    s.declareRecordOp q k f n fl = s.hostAnswered (requestKind q) .full [] := by
  rw [State.declareRecordOp, if_neg (not_not.2 h), hp]
  rfl

theorem State.declareRecordOp_placed {i : Fin 256} (h : (s.entry k.handle).state = .declared)
    (hp : s.place k .declared = .at_ i) :
    s.declareRecordOp q k f n fl =
      ((s.insertAt i (newRecord k .declared .active .enrol none fl f (storedNominal f true n))).noticeFeed
        f).hostAnswered (requestKind q) .ok [byte i.val] := by
  rw [State.declareRecordOp, if_neg (not_not.2 h), hp]
  rfl

end

/-- A DECLARED record inserted: its slot and the record count of its unit (R13). -/
theorem State.insertAt_declared {s : State} {i : Fin 256} {r : Record} (h : r.origin = .declared) :
    s.insertAt i r =
      { s with
        table := { s.table with slots := s.table.slots.set i (some r) }
        dir :=
          { s.dir with
            entries := s.dir.entries.set r.key.handle
              { s.dir.entries[r.key.handle] with recordCount := s.dir.entries[r.key.handle].recordCount + 1 } } } := by
  dsimp only [State.insertAt]
  rw [if_neg (by rw [h]; exact Origin.noConfusion)]
  rfl

/-- Settles O18: the checks in their order, and then the insertion and the notice of the record's circuit. -/
theorem declareRecordInserts : Obligations.DeclareRecordInserts := by
  intro handle cls inst feed nominal flags s hq hg c
  refine ⟨exec_declareRecord_range hq hg, fun h f hh hf hc hi hfl h1 h2 => ?_⟩
  intro k
  have hexec := exec_declareRecord_taken hq hg hh hf hc hi hfl h1 h2
  rw [hexec]
  split
  next hunit => exact congrArg Host.Outcome.next (State.declareRecordOp_wrongState (s := s.hostGranted) hunit)
  next hunit =>
    have hunit : s.hostGranted.dir.entries[k.handle].state = .declared := not_not.1 hunit
    split
    next hfound =>
      exact congrArg Host.Outcome.next (State.declareRecordOp_duplicate hunit (State.place_duplicate hfound))
    next hfound =>
      have hnone : s.hostGranted.find k = none := not_not.1 hfound
      refine ⟨fun hfull => ?_, fun i hi hslot hfirst => ?_⟩
      · exact congrArg Host.Outcome.next
          (State.declareRecordOp_full hunit (State.place_full hnone ((s.hostGranted.freeWay_none k).2 hfull)))
      · have hplace := State.place_declared hnone ((s.hostGranted.freeWay_spec k i).2 ⟨hi, hslot, hfirst⟩)
        rw [State.declareRecordOp_placed hunit hplace, State.insertAt_declared (by rfl)]
        refine ⟨_, rfl, ?_, ?_, ?_, (State.noticeFeed_noticed _ f).1, ?_⟩
        · apply State.eq_of_fields <;> simp [State.hostAnswered, State.hostGranted]
        · have hswitch : hasSwitchable (flags.truncate 4) = false := by simpa [hasSwitchable] using h1
          cases f <;> simp [State.hostAnswered, State.hostGranted, newRecord, storedNominal, hswitch, k]
        · simp [State.hostAnswered, State.hostGranted, newRecord, k]
        · simp [State.hostAnswered, State.hostGranted, requestKind, byte]

end Sys2Proof.Machine
end

section
/-! Settles the statements about the unit and chain requests: DECLARE_UNIT (R59), READ_UNIT (R66), RELEASE_UNIT (R63),
RESUME_UNIT (R60), RESTART_CHAIN (R104) and READ_CHAIN (R105). -/

namespace Sys2Proof.Machine

/-! ### DECLARE_UNIT -/

theorem positionOfByte_outOfRange {b : Byte} (h : b ≠ 0xFF ∧ (b = 0 ∨ 6 < b.toNat)) : positionOfByte b = none := by
  obtain ⟨hne, hbad⟩ := h
  have hrange : ¬ (1 ≤ b.toNat ∧ b.toNat ≤ 6) := by
    rcases hbad with rfl | hbig
    · decide
    · omega
  rw [positionOfByte, if_neg hne, if_neg hrange]

theorem positionOfByte_given {b : Byte} (h : ¬ (b ≠ 0xFF ∧ (b = 0 ∨ 6 < b.toNat))) :
    positionOfByte b = some (if b = 0xFF then none else some b.toNat) := by
  by_cases hff : b = 0xFF
  · simp only [positionOfByte, if_pos hff]
  · have hbad : ¬ (b = 0 ∨ 6 < b.toNat) := fun hb => h ⟨hff, hb⟩
    rw [BitVec.toNat_eq] at hbad
    have h0 : (0 : Byte).toNat = 0 := rfl
    have hrange : 1 ≤ b.toNat ∧ b.toNat ≤ 6 := by omega
    rw [positionOfByte, if_neg hff, if_pos hrange, if_neg hff]

theorem State.holder_isSome (s : State) (p : Nat) :
    (s.holder p).isSome = true ↔ ∃ h : Fin 8, s.dir.entries[h].state ≠ .free ∧ s.dir.entries[h].position = some p := by
  simp only [State.holder, List.find?_isSome, mem_all8, true_and, Bool.and_eq_true, decide_eq_true_iff]
  rfl

theorem State.reseatTo_iff (s : State) (p : Nat) :
    s.reseatTo p = true ↔ ∃ r, s.dir.reseat = some r ∧ r.toPosition = p := by
  cases hr : s.dir.reseat <;> simp [State.reseatTo, hr]

theorem State.positionTaken_iff (s : State) (p : Nat) :
    s.positionTaken p = true ↔
      (∃ h : Fin 8, s.dir.entries[h].state ≠ .free ∧ s.dir.entries[h].position = some p) ∨
        p ∈ s.dir.releaseList ∨ ∃ r, s.dir.reseat = some r ∧ r.toPosition = p := by
  simp only [State.positionTaken, Bool.or_eq_true, s.holder_isSome, s.reseatTo_iff, List.contains_iff_mem, or_assoc]

theorem State.lowestFree_some {s : State} {h : Fin 8} (hf : s.dir.entries[h].state = .free)
    (hlow : ∀ g : Fin 8, g < h → s.dir.entries[g].state ≠ .free) : s.lowestFree = some h :=
  (find_all8 _ h).2 ⟨decide_eq_true hf, fun g hg => decide_eq_false (hlow g hg)⟩

theorem State.lowestFree_none {s : State} (hf : ∀ h : Fin 8, s.dir.entries[h].state ≠ .free) : s.lowestFree = none :=
  (find_all8_none _).2 fun h => decide_eq_false (hf h)

section
variable {s : State} {b : Byte} {p : Option Nat}

theorem State.declareUnitOp_range (hb : positionOfByte b = none) :
    s.declareUnitOp b = s.hostAnswered 0x10 .range [] := by
  simp only [State.declareUnitOp, hb]; rfl

theorem State.declareUnitOp_held (hb : positionOfByte b = some p) (ht : p.any s.positionTaken = true) :
    s.declareUnitOp b = s.hostAnswered 0x10 .positionHeld [] := by
  simp only [State.declareUnitOp, hb, if_pos ht]; rfl

theorem State.declareUnitOp_noHandle (hb : positionOfByte b = some p) (ht : ¬ p.any s.positionTaken = true)
    (hf : s.lowestFree = none) : s.declareUnitOp b = s.hostAnswered 0x10 .noHandle [] := by
  simp only [State.declareUnitOp, hb, if_neg ht, hf]; rfl

theorem State.declareUnitOp_made {h : Fin 8} (hb : positionOfByte b = some p) (ht : ¬ p.any s.positionTaken = true)
    (hf : s.lowestFree = some h) :
    s.declareUnitOp b = (s.setEntry h (s.declaredEntry p)).hostAnswered 0x10 .ok [BitVec.ofNat 8 h.val] := by
  simp only [State.declareUnitOp, hb, if_neg ht, hf]; rfl

theorem exec_declareUnit_taken (hq : s.port.inHand = some (.declareUnit b)) :
    exec (.declareUnit b) s = .next (s.declareUnitOp b) :=
  taken_due (due := s.carriesOut (.declareUnit b)) hq _ _

end

/-- Settles O22: the checks in their order, and then the entry at the lowest FREE handle. -/
theorem declareUnitTakesLowestFree : Obligations.DeclareUnitTakesLowestFree := by
  intro b s hq
  dsimp only
  rw [exec_declareUnit_taken hq]
  by_cases hbad : b ≠ 0xFF ∧ (b = 0 ∨ 6 < b.toNat)
  · rw [if_pos hbad, State.declareUnitOp_range (positionOfByte_outOfRange hbad)]
  · rw [if_neg hbad]
    have hb := positionOfByte_given hbad
    have hany : (if b = 0xFF then none else some b.toNat : Option Nat).any s.positionTaken = true ↔
        ∃ p, (if b = 0xFF then none else some b.toNat) = some p ∧
          ((∃ h : Fin 8, s.dir.entries[h].state ≠ .free ∧ s.dir.entries[h].position = some p) ∨
            p ∈ s.dir.releaseList ∨ ∃ r, s.dir.reseat = some r ∧ r.toPosition = p) := by
      simp only [Option.any_eq_true, ← State.positionTaken_iff]
    refine ⟨fun hheld => ?_, fun hheld hf => ?_, fun hheld h hf hlow => ?_⟩
    · rw [State.declareUnitOp_held hb (hany.2 hheld)]
    · rw [State.declareUnitOp_noHandle hb (mt hany.1 hheld) (State.lowestFree_none hf)]
    · rw [State.declareUnitOp_made hb (mt hany.1 hheld) (State.lowestFree_some hf hlow)]
      rfl

/-! ### READ_UNIT, RESUME_UNIT, READ_CHAIN -/

section
variable {s : State} {b : Byte}

theorem exec_readUnit_range (hq : s.port.inHand = some (.readUnit b)) (hb : 8 ≤ b.toNat) :
    exec (.readUnit b) s = .next (s.hostAnswered 0x11 .range []) := by
  change execReadUnit b s = _
  rw [execReadUnit, taken_due hq, handleOf_none hb]
  rfl

theorem exec_readUnit_taken {h : Fin 8} (hq : s.port.inHand = some (.readUnit b)) (hh : h.val = b.toNat) :
    exec (.readUnit b) s = .next (s.hostAnswered 0x11 .ok (s.unitBytes h)) := by
  change execReadUnit b s = _
  rw [execReadUnit, taken_due hq, handleOf_some hh]
  rfl

theorem exec_resumeUnit_range (hq : s.port.inHand = some (.resumeUnit b)) (hb : 8 ≤ b.toNat) :
    exec (.resumeUnit b) s = .next (s.hostAnswered 0x13 .range []) := by
  change execResumeUnit b s = _
  rw [execResumeUnit, taken_due hq, handleOf_none hb]
  rfl

theorem exec_resumeUnit_taken {h : Fin 8} (hq : s.port.inHand = some (.resumeUnit b)) (hh : h.val = b.toNat) :
    exec (.resumeUnit b) s = .next
      (if s.dir.entries[h].state = .stalled then
        (s.setEntry h { s.dir.entries[h] with state := .live }).hostAnswered 0x13 .ok []
      else s.hostAnswered 0x13 .wrongState []) := by
  change execResumeUnit b s = _
  rw [execResumeUnit, taken_due hq, handleOf_some hh]
  rfl

theorem exec_readChain_taken (hq : s.port.inHand = some .readChain) :
    exec .readChain s = .next (s.hostAnswered 0x15 .ok s.chainBytes) :=
  taken_due (due := s.carriesOut .readChain) hq _ _

end

theorem pendingBytes_eq (p : BitVec 64) : pendingBytes p = (List.range 8).map fun i => p.extractLsb' (8 * i) 8 := rfl

/-- Settles O23: the fields in their order, each optional one by its presence. -/
theorem readUnitReportsEntry : Obligations.ReadUnitReportsEntry := by
  intro b s hq
  refine ⟨exec_readUnit_range hq, fun h hh => ?_⟩
  dsimp only
  rw [exec_readUnit_taken hq hh]
  simp only [State.unitBytes, wordBytes_word, boolByte_eq, byte, pendingBytes_eq, List.append_assoc,
    List.cons_append, List.nil_append, State.entry]
  generalize s.dir.entries[h] = e
  cases s.dir.reseat with
  | none => cases e.uid <;> cases e.position <;> rfl
  | some r =>
    by_cases hr : r.handle = h
    · simp only [hr, decide_true, if_true]
      cases e.uid <;> cases e.position <;> rfl
    · simp only [hr, decide_false, if_false]
      cases e.uid <;> cases e.position <;> rfl

/-- Settles O25. -/
theorem resumeUnitMakesLive : Obligations.ResumeUnitMakesLive := fun _ _ hq =>
  ⟨exec_resumeUnit_range hq, fun _ hh => exec_resumeUnit_taken hq hh⟩

/-- Settles O27: the account of the last settled cycle, or zeros before a first one. -/
theorem readChainReportsChain : Obligations.ReadChainReportsChain := by
  intro s hq
  dsimp only
  rw [exec_readChain_taken hq]
  have htalk : s.talkingCount = ((List.finRange 8).filter fun h =>
      s.dir.entries[h].state = .joining || s.dir.entries[h].state = .enrolling || s.dir.entries[h].state = .live ||
        s.dir.entries[h].state = .stalled).length := by
    unfold State.talkingCount
    congr 2
    funext h
    show (s.dir.entries[h].state).onChain = _
    cases s.dir.entries[h].state <;> rfl
  rw [← htalk]
  cases hl : s.rcu.last with
  | none =>
    simp only [State.chainBytes, hl, wordBytes_word, boolByte_eq]
    rfl
  | some a =>
    simp only [State.chainBytes, hl, wordBytes_word, boolByte_eq]
    rfl

/-! ### RELEASE_UNIT, RESTART_CHAIN -/

theorem exec_releaseUnit_taken {s : State} {b : Byte} {h : Fin 8} (hq : s.port.inHand = some (.releaseUnit b))
    (hh : h.val = b.toNat) :
    exec (.releaseUnit b) s = .next
      (if s.dir.entries[h].state = .free ∨ s.dir.entries[h].state = .leaving then s.hostAnswered 0x12 .wrongState []
      else (s.depart h true true).hostAnswered 0x12 .ok []) := by
  change execReleaseUnit b s = _
  rw [execReleaseUnit, taken_due hq, handleOf_some hh]
  rfl

/-- Settles O24: the departure with cascade and owed RELEASEs. -/
theorem releaseUnitDeparts : Obligations.ReleaseUnitDeparts := by
  intro b s hq
  refine ⟨fun hb => ?range, fun h hh => ?taken⟩
  case range =>
    change execReleaseUnit b s = _
    rw [execReleaseUnit, taken_due hq, handleOf_none hb]
    rfl
  case taken =>
    rw [exec_releaseUnit_taken hq hh]
    by_cases hstate : s.dir.entries[h].state = .free ∨ s.dir.entries[h].state = .leaving
    · rw [if_pos hstate, if_pos hstate]
    · rw [if_neg hstate, if_neg hstate]
      rw [not_or] at hstate
      obtain ⟨u, owed, hleft, howes, hdone⟩ := s.depart_released h hstate.1 hstate.2
      exact ⟨u, owed, hleft, howes, by rw [hdone]⟩

/-- The talking entries leave together in the order of their handles. -/
theorem State.talkingLeave_left (s : State) :
    Left s ((all8.filter fun h => (s.entry h).state.onChain).foldl State.leaveOne s)
      fun h => s.dir.entries[h].state.onChain := by
  have hleft := Left.all s (all8.filter fun h => (s.entry h).state.onChain)
    ((by decide : all8.Nodup).filter _)
    fun g hg => UnitState.onChain_ne (List.mem_filter.1 hg).2
  have hset : (fun x => decide (x ∈ all8.filter fun h => (s.entry h).state.onChain)) =
      fun h => s.dir.entries[h].state.onChain := by
    funext x
    simp [mem_all8, State.entry]
  rwa [hset] at hleft

/-- Settles O26: the talking entries leave, and the two later changes and the end of the context follow. -/
theorem restartChainReleasesAll : Obligations.RestartChainReleasesAll := by
  intro s hq
  refine ⟨_, s.talkingLeave_left, ?_⟩
  refine (taken_due (due := s.carriesOut .restartChain) hq _ _).trans ?_
  rw [State.respond_eq, State.restartChainOp, State.settleAbandoned_eq]
  rfl

end Sys2Proof.Machine
end

section
/-! Settles the statements about the circuits: the host's SET_CIRCUIT (R145) and READ_CIRCUIT (R155), and the Lamp Circuit
Monitor's BLINK_HALF_END and FLASH_PHASE_END (R142, R143), SAMPLE (R147 to R152) and ATTRIBUTION_OPERATION (R153). -/

namespace Sys2Proof.Machine

theorem State.circuits_setCircuit (s : State) (k g : Fin 8) (c : Circuit) :
    (s.setCircuit k c).lcm.circuits[g] = if k = g then c else s.lcm.circuits[g] := by
  simp [State.setCircuit, Vector.getElem_set, Fin.ext_iff]

theorem State.blinkOn_eq (s : State) : s.blinkOn = s.lcm.blink.elim false Blink.onHalf := by
  rw [State.blinkOn]
  cases s.lcm.blink <;> rfl

/-! ### SET_CIRCUIT -/

theorem CircuitDemand.ofCode_code (d : CircuitDemand) : CircuitDemand.ofCode d.code = some d := by
  cases d <;> rfl

theorem CircuitDemand.ofCode_none {b : Byte} (h : 3 ≤ b.toNat) : CircuitDemand.ofCode b = none := by
  have hne {c : Byte} (hc : c.toNat < 3) : b ≠ c := by rintro rfl; omega
  simp only [CircuitDemand.ofCode, if_neg (hne (c := 0) (by decide)), if_neg (hne (c := 1) (by decide)),
    if_neg (hne (c := 2) (by decide))]

section
variable {s : State} {circuit demand : Byte} {k : Fin 8} {d : CircuitDemand}

theorem exec_setCircuit_range (hq : s.port.inHand = some (.setCircuit circuit demand))
    (hbad : 8 ≤ circuit.toNat ∨ 3 ≤ demand.toNat) :
    exec (.setCircuit circuit demand) s =
      .next (s.postedFault 0x21 (some (circuit.zeroExtend 16)) .range).postedDone := by
  change execSetCircuit circuit demand s = _
  rw [execSetCircuit, taken_due hq, State.finishPosted_eq, ← State.postFault_eq]
  rcases hbad with hcircuit | hdemand
  · rw [handleOf_none hcircuit]
  · rw [CircuitDemand.ofCode_none hdemand]
    cases handleOf circuit <;> rfl

theorem exec_setCircuit_taken (hq : s.port.inHand = some (.setCircuit circuit demand)) (hk : k.val = circuit.toNat)
    (hd : d.code = demand) :
    exec (.setCircuit circuit demand) s = .next (s.setCircuitDemand k d).postedDone := by
  subst hd
  change execSetCircuit circuit d.code s = _
  rw [execSetCircuit, taken_due hq, State.finishPosted_eq, handleOf_some hk, CircuitDemand.ofCode_code]

theorem State.otherBlinks_false (s : State) (k : Fin 8) :
    s.otherBlinks k = false ↔ ∀ j : Fin 8, j ≠ k → s.lcm.circuits[j].demand ≠ .blink := by
  simp only [State.otherBlinks, List.any_eq_false, mem_all8, true_implies, Bool.and_eq_true, decide_eq_true_iff, not_and]
  rfl

/-- A first BLINK restarts the blink clock at the start of an on-half with the period in force (R142). -/
theorem State.restartBlink_eq (s : State) (k : Fin 8) (d : CircuitDemand) :
    s.restartBlink k d =
      { s with
        lcm :=
          { s.lcm with
            blink :=
              if d = .blink ∧ ∀ j : Fin 8, j ≠ k → s.lcm.circuits[j].demand ≠ .blink then
                some ⟨true, s.now + s.settings[(17 : Fin 131)] * 500, s.settings[(17 : Fin 131)]⟩
              else s.lcm.blink } } := by
  by_cases h : d = .blink ∧ s.otherBlinks k = false
  · rw [State.restartBlink, if_pos h, if_pos ⟨h.1, (s.otherBlinks_false k).1 h.2⟩]
    rfl
  · rw [State.restartBlink, if_neg h, if_neg fun hall => h ⟨hall.1, (s.otherBlinks_false k).2 hall.2⟩]

theorem State.setCircuitDemand_held (h : s.lcm.circuits[k].demand = d) : s.setCircuitDemand k d = s := if_pos h

theorem State.setCircuitDemand_new (h : s.lcm.circuits[k].demand ≠ d) :
    s.setCircuitDemand k d =
      let x := s.lcm.circuits[k]
      let u := s.restartBlink k d
      u.setCircuit k ({ x with demand := d }.withOutput (outputOf x.mode x.flash d u.blinkOn) u.now) :=
  (if_neg h).trans ((s.restartBlink k d).redecide_setCircuit k _)

end

/-- Settles O29: a failed check is the fault; otherwise the demand is the one held or a new one. -/
theorem setCircuitDecidesOutput : Obligations.SetCircuitDecidesOutput := by
  intro circuit demand s hq
  refine ⟨exec_setCircuit_range hq, fun k d hk hd => ?_⟩
  dsimp only
  rw [exec_setCircuit_taken hq hk hd]
  by_cases hheld : s.lcm.circuits[k].demand = d
  · rw [if_pos hheld, State.setCircuitDemand_held hheld]
  · rw [if_neg hheld, State.setCircuitDemand_new hheld]
    dsimp only
    rw [State.restartBlink_eq]
    rfl

/-! ### READ_CIRCUIT -/

theorem exec_readCircuit_range {s : State} {circuit : Byte} (hq : s.port.inHand = some (.readCircuit circuit))
    (hb : 8 ≤ circuit.toNat) : exec (.readCircuit circuit) s = .next (s.hostAnswered 0x23 .range []) := by
  change execReadCircuit circuit s = _
  rw [execReadCircuit, taken_due hq, handleOf_none hb]
  rfl

theorem exec_readCircuit_taken {s : State} {circuit : Byte} {k : Fin 8}
    (hq : s.port.inHand = some (.readCircuit circuit)) (hk : k.val = circuit.toNat) :
    exec (.readCircuit circuit) s = .next (s.hostAnswered 0x23 .ok (s.circuitBytes k)) := by
  change execReadCircuit circuit s = _
  rw [execReadCircuit, taken_due hq, handleOf_some hk]
  rfl

/-- The four settings of a circuit, by their numbers (R179). -/
theorem State.circuitSettings (s : State) (k : Fin 8) :
    s.settleTime k = s.settings[99 + 4 * k.val + 0] ∧ s.tolpct k = s.settings[99 + 4 * k.val + 1] ∧
      s.tolmin k = s.settings[99 + 4 * k.val + 2] ∧ s.debounce k = s.settings[99 + 4 * k.val + 3] := by
  have hidx {m n : Nat} (hm : m < 131) (hn : n < 131) (h : m = n) : s.settings[m] = s.settings[n] := by subst h; rfl
  refine ⟨rfl, hidx _ _ (m := 100 + 4 * k.val) ?_, hidx _ _ (m := 101 + 4 * k.val) ?_, hidx _ _ (m := 102 + 4 * k.val) ?_⟩ <;>
    omega

/-- Settles O31: the fields in their order, the flash and the candidate by their presence. -/
theorem readCircuitReportsContext : Obligations.ReadCircuitReportsContext := by
  intro circuit s hq
  refine ⟨exec_readCircuit_range hq, fun k hk => ?_⟩
  dsimp only
  rw [exec_readCircuit_taken hq hk]
  obtain ⟨hsettle, hpct, hmin, hdebounce⟩ := s.circuitSettings k
  simp only [State.circuitBytes, hsettle, hpct, hmin, hdebounce, wordBytes_word, boolByte_eq, byte, List.append_assoc, List.cons_append, List.nil_append,
    State.circuit]
  generalize s.lcm.circuits[k] = x
  cases x.flash <;> cases x.candidate <;> rfl

/-! ### The blink clock and the flash -/

theorem Blink.next_eq (b : Blink) (period : Nat) :
    b.next period =
      if b.onHalf then ⟨false, b.halfEnds + b.period * 500, b.period⟩ else ⟨true, b.halfEnds + period * 500, period⟩ := rfl

/-- A circuit once the blink clock has passed to a half: one whose demand is BLINK follows (R141, R142). -/
def Circuit.blinked (x : Circuit) (onHalf : Bool) (moment : Nat) : Circuit :=
  if x.demand = .blink then x.withOutput (outputOf x.mode x.flash .blink onHalf) moment else x

theorem State.redecideBlinking_eq (s : State) (k : Fin 8) :
    s.redecideBlinking k = s.setCircuit k (s.lcm.circuits[k].blinked s.blinkOn s.now) := by
  unfold State.redecideBlinking Circuit.blinked
  by_cases h : s.lcm.circuits[k].demand = .blink
  · refine (if_pos h).trans ?_
    rw [if_pos h, State.redecide, Circuit.redecide_eq]
    simp only [State.circuit, h]
  · refine (if_neg h).trans ?_
    rw [if_neg h]
    exact (s.setCircuit_self k).symm

theorem State.redecideBlinking_each (l : List (Fin 8)) (hl : l.Nodup) (s : State) :
    let t := l.foldl State.redecideBlinking s
    t = { s with lcm := t.lcm } ∧ t.lcm.blink = s.lcm.blink ∧ t.lcm.nextSample = s.lcm.nextSample ∧
      ∀ k : Fin 8, t.lcm.circuits[k] =
        if k ∈ l then s.lcm.circuits[k].blinked s.blinkOn s.now else s.lcm.circuits[k] := by
  induction l generalizing s with
  | nil => simp
  | cons a l ih =>
    obtain ⟨ha, hl⟩ := List.nodup_cons.1 hl
    obtain ⟨hrest, hblink, hsample, hcircuits⟩ := ih hl (s.redecideBlinking a)
    rw [List.foldl_cons]
    rw [State.redecideBlinking_eq] at hrest hblink hsample hcircuits ⊢
    refine ⟨hrest, hblink, hsample, fun k => (hcircuits k).trans ?_⟩
    rw [State.circuits_setCircuit]
    by_cases hk : a = k
    · subst hk
      simp [ha]
    · have hmem : k ∈ a :: l ↔ k ∈ l := by simp [Ne.symm hk]
      rw [if_neg hk, if_congr hmem rfl rfl]
      rfl

/-- The blink clock has passed to its next half (R142). -/
def State.blinkPassed (s : State) (b : Blink) : State :=
  { s with now := max s.now b.halfEnds, lcm := { s.lcm with blink := some (b.next s.settings[(17 : Fin 131)]) } }

theorem State.blinkPassed_blinkOn (s : State) (b : Blink) : (s.blinkPassed b).blinkOn = !b.onHalf := by
  show (b.next _).onHalf = _
  rw [Blink.next_eq]
  cases b.onHalf <;> rfl

theorem exec_blinkHalfEnd_running {s : State} {b : Blink} (hb : s.lcm.blink = some b) :
    exec .blinkHalfEnd s = .next (all8.foldl State.redecideBlinking (s.blinkPassed b)) := by
  change execBlinkHalfEnd s = _
  simp only [execBlinkHalfEnd, hb]
  rfl

theorem exec_flashPhaseEnd_running {s : State} {k : Fin 8} {f : Flash} (hf : s.lcm.circuits[k].flash = some f) :
    exec (.flashPhaseEnd k) s = .next
      (((s.advance f.phaseEnds).setCircuit k { s.lcm.circuits[k] with flash := f.next }).redecide k) := by
  have hf' : (s.circuit k).flash = some f := hf
  change execFlashPhaseEnd k s = _
  simp only [execFlashPhaseEnd, hf']
  rfl

theorem Flash.next_eq (f : Flash) :
    f.next =
      if f.on then some ⟨f.remaining, false, f.phaseEnds + 300000⟩
      else if f.remaining ≤ 1 then none
      else some ⟨f.remaining - 1, true, f.phaseEnds + 300000⟩ := rfl

/-- Settles O55: the clock passes on and the BLINK circuits follow it; a flash passes on and its circuit follows it. -/
theorem blinkAndFlashDecideOutputs : Obligations.BlinkAndFlashDecideOutputs := by
  refine ⟨fun b s hb => ?blink, fun k f s hf => ?flash⟩
  case blink =>
    dsimp only
    rw [exec_blinkHalfEnd_running hb]
    have heach := State.redecideBlinking_each all8 (by decide) (s.blinkPassed b)
    generalize all8.foldl State.redecideBlinking (s.blinkPassed b) = t at heach
    obtain ⟨hrest, hblink, hsample, hcircuits⟩ := heach
    refine ⟨t, rfl, hrest, hsample, hblink, fun k => (hcircuits k).trans ?_⟩
    rw [if_pos (mem_all8 k), s.blinkPassed_blinkOn]
    rfl
  case flash =>
    rw [exec_flashPhaseEnd_running hf, State.redecide_setCircuit, Flash.next_eq]
    rfl

end Sys2Proof.Machine
end

section
/-! Settles the statements about the measuring steps of the Lamp Circuit Monitor: SAMPLE (R147, R148, R150 to R152) and
ATTRIBUTION_OPERATION (R153, R154). -/

namespace Sys2Proof.Machine

/-! ### SAMPLE -/

/-- The raw result of a reading m (R150). -/
def Circuit.rawOf (x : Circuit) (m : Nat) : CircuitVerdict :=
  if 1023 ≤ x.expected then .overRange
  else if (m : Int) < x.expected - x.tol then .deficit
  else if x.expected + x.tol < m then .surplus
  else .balanced

/-- The streak after a raw result other than OVER_RANGE (R151). -/
def Circuit.streakAfter (x : Circuit) (raw : CircuitVerdict) : Nat :=
  if x.candidate = some raw then min 7 (x.streak + 1) else 1

/-- The verdict that a raw result and its streak call for (R151). -/
def Circuit.verdictAfter (x : Circuit) (raw : CircuitVerdict) (debounce : Nat) : CircuitVerdict :=
  if raw = .overRange then .overRange else if debounce ≤ x.streakAfter raw then raw else x.verdict

/-- A circuit after a judged reading m (R150 to R152). -/
def Circuit.judged (x : Circuit) (m debounce : Nat) : Circuit :=
  let raw := x.rawOf m
  let verdict := x.verdictAfter raw debounce
  { x with
    lastM := m
    candidate := if raw = .overRange then none else some raw
    streak := if raw = .overRange then 0 else x.streakAfter raw
    verdict := verdict
    job :=
      if verdict = x.verdict then x.job
      else if verdict = .deficit then some (.mark (x.expected - m) x.tol 0)
      else if verdict = .balanced then some (.clear 0) else x.job }

/-- A circuit after a sample at a moment: it takes the reading, and is judged while it is on and settled (R147, R148). -/
def State.sampled (s : State) (readings : Vector Nat 8) (k : Fin 8) : Circuit :=
  let x := s.lcm.circuits[k]
  let m := min 1023 readings[k]
  if x.output = true ∧ x.onSince + s.settings[99 + 4 * k.val] * 1000 ≤ s.now then
    x.judged m s.settings[102 + 4 * k.val]
  else { x with lastM := m }

/-- Whether a sample changes the verdict of a circuit. -/
def State.verdictMoves (s : State) (readings : Vector Nat 8) (k : Fin 8) : Bool :=
  (s.sampled readings k).verdict ≠ s.lcm.circuits[k].verdict

theorem Circuit.rawOf_eq (x : Circuit) (m : Nat) : rawResult m x.expected x.tol = x.rawOf m := by
  have hdeficit : (m : Int) < x.expected - x.tol ↔ m + x.tol < x.expected := by omega
  simp only [rawResult, Circuit.rawOf, hdeficit]

theorem Circuit.countRaw_eq (x : Circuit) (raw : CircuitVerdict) :
    x.countRaw raw =
      { x with
        candidate := if raw = .overRange then none else some raw
        streak := if raw = .overRange then 0 else x.streakAfter raw } := by
  unfold Circuit.countRaw Circuit.streakAfter
  by_cases hover : raw = .overRange
  · simp only [if_pos hover]
  · by_cases hsame : x.candidate = some raw
    · simp only [if_neg hover, if_pos hsame]
      rw [← hsame]
    · simp only [if_neg hover, if_neg hsame]

theorem Circuit.calledFor_countRaw (x : Circuit) (raw : CircuitVerdict) (debounce : Nat) :
    (x.countRaw raw).calledFor raw debounce = x.verdictAfter raw debounce := by
  rw [Circuit.countRaw_eq, Circuit.calledFor, Circuit.verdictAfter]
  by_cases hover : raw = .overRange
  · simp only [if_pos hover]
  · simp only [if_neg hover]

theorem jobAfter_eq (v : CircuitVerdict) (m expected tol : Nat) (job : Option Job) :
    jobAfter v m expected tol job =
      if v = .deficit then some (.mark (expected - m) tol 0) else if v = .balanced then some (.clear 0) else job := by
  cases v <;> rfl

/-- The judgement of a circuit that has just taken the reading m (R150, R151, R152). -/
theorem State.judge_eq (s : State) (k : Fin 8) (x : Circuit) (m : Nat) :
    (s.setCircuit k { x with lastM := m }).judge k m =
      if (x.judged m (s.debounce k)).verdict = x.verdict then s.setCircuit k (x.judged m (s.debounce k))
      else (s.setCircuit k (x.judged m (s.debounce k))).raiseVerdict k := by
  have hdebounce (c : Circuit) : (s.setCircuit k c).debounce k = s.debounce k := rfl
  have hverdict : (x.judged m (s.debounce k)).verdict = x.verdictAfter (x.rawOf m) (s.debounce k) := rfl
  have hraw : ({ x with lastM := m } : Circuit).rawOf m = x.rawOf m := rfl
  have hafter : ({ x with lastM := m } : Circuit).verdictAfter (x.rawOf m) (s.debounce k) =
      x.verdictAfter (x.rawOf m) (s.debounce k) := rfl
  dsimp only [State.judge]
  rw [State.circuit_setCircuit_self, Circuit.rawOf_eq, Circuit.calledFor_countRaw, hdebounce, hraw, hafter, hverdict]
  by_cases hsame : x.verdictAfter (x.rawOf m) (s.debounce k) = x.verdict
  · rw [if_pos hsame, if_pos hsame, State.setCircuit_setCircuit_self, Circuit.countRaw_eq, Circuit.judged]
    simp only [hsame, if_true]
    rfl
  · rw [if_neg hsame, if_neg hsame, State.setCircuit_setCircuit_self, Circuit.countRaw_eq, Circuit.judged, jobAfter_eq]
    simp only [if_neg hsame]
    rfl

/-- Whether a circuit is judged at a sample: it is on, and its on-time is at least the settle time (R148). -/
def State.settled (s : State) (k : Fin 8) : Prop :=
  s.lcm.circuits[k].output = true ∧ s.lcm.circuits[k].onSince + s.settings[99 + 4 * k.val] * 1000 ≤ s.now

theorem State.sampled_settled {s : State} {readings : Vector Nat 8} {k : Fin 8} (h : s.settled k) :
    s.sampled readings k = s.lcm.circuits[k].judged (min 1023 readings[k]) (s.debounce k) :=
  if_pos h

theorem State.sampled_unsettled {s : State} {readings : Vector Nat 8} {k : Fin 8} (h : ¬ s.settled k) :
    s.sampled readings k = { s.lcm.circuits[k] with lastM := min 1023 readings[k] } :=
  if_neg h

theorem State.verdictMoves_iff (s : State) (readings : Vector Nat 8) (k : Fin 8) :
    s.verdictMoves readings k = true ↔ (s.sampled readings k).verdict ≠ s.lcm.circuits[k].verdict :=
  decide_eq_true_iff

theorem State.sampleCircuit_eq (s : State) (readings : Vector Nat 8) (k : Fin 8) :
    s.sampleCircuit readings k =
      if (s.sampled readings k).verdict = s.lcm.circuits[k].verdict then s.setCircuit k (s.sampled readings k)
      else (s.setCircuit k (s.sampled readings k)).raiseVerdict k := by
  dsimp only [State.sampleCircuit]
  by_cases hjudged : s.settled k
  · rw [State.sampled_settled hjudged]
    exact (if_pos hjudged).trans (s.judge_eq k s.lcm.circuits[k] (min 1023 readings[k]))
  · rw [State.sampled_unsettled hjudged, if_pos rfl]
    exact if_neg hjudged

/-- What a sample of some circuits does (R147 to R152, R173). -/
structure Sampled (s t : State) (readings : Vector Nat 8) (l : List (Fin 8)) : Prop where
  rest : t = { s with lcm := t.lcm, events := t.events }
  blink : t.lcm.blink = s.lcm.blink
  nextSample : t.lcm.nextSample = s.lcm.nextSample
  circuits : ∀ k : Fin 8, t.lcm.circuits[k] = if k ∈ l then s.sampled readings k else s.lcm.circuits[k]
  events : t.events = { s.events with flags := t.events.flags, circuitMask := t.events.circuitMask }
  flags : t.events.flags =
    if ∃ k ∈ l, s.verdictMoves readings k = true then s.events.flags ||| 0x40 else s.events.flags
  mask : ∀ k : Fin 8,
    t.events.circuitMask.getLsbD k.val = (s.events.circuitMask.getLsbD k.val || (k ∈ l && s.verdictMoves readings k))

theorem Sampled.one (s : State) (readings : Vector Nat 8) (k : Fin 8) :
    Sampled s (s.sampleCircuit readings k) readings [k] := by
  have hcircuits (g : Fin 8) : (s.setCircuit k (s.sampled readings k)).lcm.circuits[g] =
      if g ∈ [k] then s.sampled readings g else s.lcm.circuits[g] := by
    rw [State.circuits_setCircuit]
    by_cases hg : k = g
    · subst hg
      simp
    · simp [hg, Ne.symm hg]
  rw [State.sampleCircuit_eq]
  by_cases hmoves : s.verdictMoves readings k = true
  · rw [if_neg ((s.verdictMoves_iff readings k).1 hmoves)]
    refine ⟨rfl, rfl, rfl, hcircuits, rfl, (if_pos ⟨k, List.mem_singleton_self k, hmoves⟩).symm, fun g => ?_⟩
    show (s.events.circuitMask ||| bitMask 8 k.val).getLsbD g.val = _
    rw [BitVec.getLsbD_or, bitMask_getLsbD 8 k.val g.val k.isLt]
    by_cases hg : g = k
    · subst hg
      simp [hmoves]
    · simp [hg, Fin.val_inj]
  · rw [if_pos (not_not.1 (mt (s.verdictMoves_iff readings k).2 hmoves))]
    refine ⟨rfl, rfl, rfl, hcircuits, rfl, (if_neg ?_).symm, fun g => ?_⟩
    · rintro ⟨g, hg, hmove⟩
      exact hmoves (List.mem_singleton.1 hg ▸ hmove)
    · show s.events.circuitMask.getLsbD g.val = _
      by_cases hg : g = k
      · subst hg
        simp [hmoves]
      · simp [hg]

/-- A circuit's sample is the same where its context, the settings and the time are the same. -/
theorem State.sampled_congr {s u : State} {readings : Vector Nat 8} {k : Fin 8}
    (hc : u.lcm.circuits[k] = s.lcm.circuits[k]) (hset : u.settings = s.settings) (hnow : u.now = s.now) :
    u.sampled readings k = s.sampled readings k := by
  simp only [State.sampled, hc, hset, hnow]

theorem Sampled.cons {s u t : State} {readings : Vector Nat 8} {a : Fin 8} {l : List (Fin 8)} (ha : a ∉ l)
    (h1 : Sampled s u readings [a]) (h2 : Sampled u t readings l) : Sampled s t readings (a :: l) := by
  have hnow : u.now = s.now := by rw [h1.rest]
  have hset : u.settings = s.settings := by rw [h1.rest]
  have hkeep (k : Fin 8) (hk : k ∈ l) : u.lcm.circuits[k] = s.lcm.circuits[k] := by
    have hne : k ≠ a := fun h => ha (h ▸ hk)
    rw [h1.circuits k, if_neg (by simpa using hne)]
  have hsampled (k : Fin 8) (hk : k ∈ l) : u.sampled readings k = s.sampled readings k :=
    State.sampled_congr (hkeep k hk) hset hnow
  have hmoves (k : Fin 8) (hk : k ∈ l) : u.verdictMoves readings k = s.verdictMoves readings k := by
    rw [State.verdictMoves, hsampled k hk, hkeep k hk, State.verdictMoves]
  refine ⟨?_, h2.blink.trans h1.blink, h2.nextSample.trans h1.nextSample, fun k => ?_, ?_, ?_, fun k => ?_⟩
  · rw [h2.rest, h1.rest]
  · rw [h2.circuits k, h1.circuits k]
    by_cases hk : k ∈ l
    · rw [if_pos hk, if_pos (List.mem_cons_of_mem a hk), hsampled k hk]
    · rw [if_neg hk]
      simp [hk]
  · rw [h2.events, h1.events]
  · have hl : (∃ k ∈ l, u.verdictMoves readings k = true) ↔ ∃ k ∈ l, s.verdictMoves readings k = true :=
      exists_congr fun k => and_congr_right fun hk => by rw [hmoves k hk]
    rw [h2.flags, h1.flags, if_congr hl rfl rfl]
    by_cases hmove : s.verdictMoves readings a = true <;>
      by_cases hrest : ∃ k ∈ l, s.verdictMoves readings k = true <;>
        simp [hmove, hrest, BitVec.or_assoc]
  · rw [h2.mask k, h1.mask k]
    by_cases hk : k ∈ l
    · have hne : k ≠ a := fun h => ha (h ▸ hk)
      simp [hk, hmoves k hk, hne]
    · simp [hk]

theorem Sampled.each (readings : Vector Nat 8) (l : List (Fin 8)) (hl : l.Nodup) (s : State) :
    Sampled s (l.foldl (fun a k => a.sampleCircuit readings k) s) readings l := by
  induction l generalizing s with
  | nil => exact ⟨rfl, rfl, rfl, fun k => by simp, rfl, by simp, fun k => by simp⟩
  | cons a l ih =>
    obtain ⟨ha, hl⟩ := List.nodup_cons.1 hl
    exact .cons ha (.one s readings a) (ih hl _)

theorem exec_sample_taken {s : State} (readings : Vector Nat 8) (hl : s.port.loading = false) :
    exec (.sample readings) s = .next
      (all8.foldl (fun a k => a.sampleCircuit readings k)
        { s.advance s.lcm.nextSample with lcm := { s.lcm with nextSample := s.lcm.nextSample + 10000 } }) :=
  taken_due (due := s.port.loading = false) hl _ _

/-- Settles O54: each circuit is sampled by itself, and its verdict moves where the sample changes it. -/
theorem sampleJudgesEveryCircuit : Obligations.SampleJudgesEveryCircuit := by
  intro readings s hl
  dsimp only
  rw [exec_sample_taken readings hl]
  have heach := Sampled.each readings all8 (by decide)
    { s.advance s.lcm.nextSample with lcm := { s.lcm with nextSample := s.lcm.nextSample + 10000 } }
  generalize all8.foldl _ _ = t at heach
  obtain ⟨hrest, hblink, hsample, hcircuits, hevents, hflags, hmask⟩ := heach
  have hnow : t.now = max s.now s.lcm.nextSample := by rw [hrest]; rfl
  have hall (k : Fin 8) : t.lcm.circuits[k] = _ := (hcircuits k).trans (if_pos (mem_all8 k))
  refine ⟨t, rfl, ?_, hnow, hsample, hblink, fun k => ?_, hevents, ?_, fun k => ?_⟩
  · rw [hrest]
    rfl
  · rw [hall k, hnow]
    rfl
  · rw [hflags]
    refine if_congr ?_ rfl rfl
    simp only [mem_all8, true_and, State.verdictMoves_iff, decide_eq_true_iff, hall]
  · rw [hmask k, hall k]
    simp [mem_all8, State.verdictMoves]

/-! ### ATTRIBUTION_OPERATION -/

theorem State.takes_iff (s : State) (k : Fin 8) (j : Job) (i : Fin 256) (r : Record) :
    s.takes k j (i, r) = true ↔
      j.cursor ≤ i.val ∧ r.feed = .circuit k ∧ r.state ≠ .pending ∧ s.dir.entries[r.key.handle].state ≠ .leaving ∧
        j.qualifies r = true := by
  simp only [State.takes, State.counted, Bool.and_eq_true, decide_eq_true_iff, Bool.not_eq_true', ← Bool.not_eq_true,
    s.leaving_iff, and_assoc]

theorem State.jobCircuit_eq {s : State} {k : Fin 8} {j : Job} (hj : s.lcm.circuits[k].job = some j)
    (hlow : ∀ g : Fin 8, g < k → s.lcm.circuits[g].job = none) : s.jobCircuit = some k := by
  refine (find_all8 _ k).2 ⟨?_, fun g hg => ?_⟩
  · show s.lcm.circuits[k].job.isSome = true
    rw [hj]; rfl
  · show s.lcm.circuits[g].job.isSome = false
    rw [hlow g hg]; rfl

theorem exec_attribution_granted {s : State} {k : Fin 8} {j : Job} (hg : s.grant = some .lcm)
    (hj : s.lcm.circuits[k].job = some j) (hlow : ∀ g : Fin 8, g < k → s.lcm.circuits[g].job = none) :
    exec .attributionOperation s = .next ((s.grantedTo .rh .lcm).attributed k j) := by
  have hj' : (s.circuit k).job = some j := hj
  change execAttributionOperation s = _
  rw [execAttributionOperation_job (State.jobCircuit_eq hj hlow) hj', taken_due hg]
  rfl

/-- The first record that the job takes is marked or cleared, and the cursor passes it (R153, R154). -/
theorem State.attributed_marked {s : State} {k : Fin 8} {j : Job} {i : Fin 256} {r : Record}
    (hi : s.table.slots[i] = some r) (ht : s.takes k j (i, r) = true)
    (hfirst : ∀ (m : Fin 256) (q : Record), m < i → s.table.slots[m] = some q → ¬ s.takes k j (m, q) = true) :
    s.attributed k j =
      { s with
        table :=
          { s.table with
            slots := s.table.slots.set i (some ({ r with suspect := j.suspect }.changedTo (r.suspect != j.suspect))) }
        events := s.eventsAfterChange r (r.suspect != j.suspect)
        lcm :=
          { s.lcm with
            circuits :=
              s.lcm.circuits.set k { s.lcm.circuits[k] with job := some (j.withCursor (i.val + 1)) } } } := by
  have hfind : s.records.find? (s.takes k j) = some (i, r) :=
    (Table.find_record _ _ i r).2 ⟨hi, ht, fun m q hm hq => Bool.eq_false_iff.2 (hfirst m q hm hq)⟩
  have hchanged : (decide (r.suspect ≠ j.suspect)) = (r.suspect != j.suspect) := by
    cases r.suspect <;> cases j.suspect <;> rfl
  rw [State.attributed_first hfind, State.putRecord_eq s i r { r with suspect := j.suspect } _ rfl, hchanged]
  rfl

/-- A job that takes no record ends (R153). -/
theorem State.attributed_ended {s : State} {k : Fin 8} {j : Job}
    (hnone : ∀ (m : Fin 256) (q : Record), s.table.slots[m] = some q → ¬ s.takes k j (m, q) = true) :
    s.attributed k j =
      { s with
        lcm := { s.lcm with circuits := s.lcm.circuits.set k { s.lcm.circuits[k] with job := none } } } :=
  State.attributed_last ((Table.find_record_none _ _).2 fun m q hq => Bool.eq_false_iff.2 (hnone m q hq))

theorem Job.qualifies_mark (d tol n : Nat) (r : Record) :
    (Job.mark d tol n).qualifies r = true ↔ (r.nominal : Int) - d ≤ tol ∧ (d : Int) - r.nominal ≤ tol := by
  simp only [Job.qualifies, Bool.and_eq_true, decide_eq_true_iff]
  omega

theorem Job.qualifies_clear (n : Nat) (r : Record) : (Job.clear n).qualifies r = true ↔ True := by
  simp [Job.qualifies]

/-- Settles O53: the first record that the job takes, or none, for either kind of job. -/
theorem attributionMarksNextRecord : Obligations.AttributionMarksNextRecord := by
  intro k j s hg hj hlow
  dsimp only
  rw [exec_attribution_granted hg hj hlow]
  have htakes (m : Fin 256) (q : Record) := (s.grantedTo .rh .lcm).takes_iff k j m q
  cases j
  all_goals
    simp only [Job.qualifies_mark, Job.qualifies_clear] at htakes
    refine ⟨fun i r hi ht hfirst => ?_, fun hnone => ?_⟩
    · rw [State.attributed_marked (s := s.grantedTo .rh .lcm) hi ((htakes i r).2 ht)
        fun m q hm hq hq' => hfirst m q hm hq ((htakes m q).1 hq')]
      rfl
    · rw [State.attributed_ended (s := s.grantedTo .rh .lcm) fun m q hq hq' => hnone m q hq ((htakes m q).1 hq')]
      rfl

end Sys2Proof.Machine
end

section
/-! Settles the statements about the port and counter requests, READ_POSTED_FAULT and IDENTIFY (R167, R168), SNAPSHOT_COUNTERS
and READ_COUNTERS (R178), about the raise of a counter (R177), and about FRAME_ARRIVAL (R70). -/

namespace Sys2Proof.Machine

/-! ### READ_POSTED_FAULT, IDENTIFY -/

section
variable {s : State}

theorem exec_readPostedFault_taken (hq : s.port.inHand = some .readPostedFault) :
    exec .readPostedFault s = .next (s.emptyFault.hostAnswered 0x30 .ok s.port.faultBytes) :=
  taken_due (due := s.carriesOut .readPostedFault) hq _ _

theorem exec_identify_taken (hq : s.port.inHand = some .identify) :
    exec .identify s = .next (s.hostAnswered 0x31 .ok s.identityBytes) :=
  taken_due (due := s.carriesOut .identify) hq _ _

end

/-- Settles O32: the holding record by its presence, and the identity. -/
theorem portReadsReportAndEmpty : Obligations.PortReadsReportAndEmpty := by
  refine ⟨fun s hq => ?fault, fun s hq => exec_identify_taken hq⟩
  case fault =>
    rw [exec_readPostedFault_taken hq, HostPort.faultBytes]
    cases s.port.fault with
    | none => rfl
    | some f =>
      simp only [boolByte_eq]
      cases f.subject <;> rfl

/-! ### SNAPSHOT_COUNTERS, READ_COUNTERS -/

section
variable {s : State}

theorem exec_snapshotCounters_taken {clear : Byte} (hq : s.port.inHand = some (.snapshotCounters clear)) :
    exec (.snapshotCounters clear) s = .next
      (if 1 < clear.toNat then s.hostAnswered 0x35 .range []
      else ({ s with counters := s.counters.snap (clear = 1) } : State).hostAnswered 0x35 .ok []) :=
  taken_due (due := s.carriesOut (.snapshotCounters clear)) hq _ _

theorem exec_readCounters_taken (hq : s.port.inHand = some .readCounters) :
    exec .readCounters s = .next (s.hostAnswered 0x36 .ok s.counterBytes) :=
  taken_due (due := s.carriesOut .readCounters) hq _ _

end

theorem CounterBank.snap_eq (b : CounterBank) (clear : Byte) :
    b.snap (clear = 1) = { snapshot := b.live, live := if clear = 1 then Vector.replicate 13 0 else b.live } := by
  simp [CounterBank.snap]

theorem length_wordBytes_flatten (l : List Word) : (l.map wordBytes).flatten.length = 2 * l.length := by
  induction l with
  | nil => rfl
  | cons w l ih => simp [wordBytes, ih]; omega

/-- Word c of a list sent as bytes stands in bytes 2c and 2c + 1, high byte first. -/
theorem getElem?_wordBytes_flatten (l : List Word) (c : Nat) (hc : c < l.length) :
    (l.map wordBytes).flatten[2 * c]? = some (hiByte l[c]) ∧
      (l.map wordBytes).flatten[2 * c + 1]? = some (loByte l[c]) := by
  induction l generalizing c with
  | nil => simp at hc
  | cons w l ih =>
    cases c with
    | zero => simp [wordBytes]
    | succ c =>
      have h1 : 2 * (c + 1) = 2 * c + 1 + 1 := by omega
      simpa [wordBytes, h1] using ih c (by simpa using hc)

/-- Settles O34: the bank after a snapshot, and the bytes of the counters by their place. -/
theorem counterRequestsUseSnapshot : Obligations.CounterRequestsUseSnapshot := by
  refine ⟨fun clear s hq => ?snapshot, fun s hq => ⟨_, exec_readCounters_taken hq, ?length, fun c => ?counter, ?mode⟩⟩
  case snapshot => rw [exec_snapshotCounters_taken hq, CounterBank.snap_eq]
  case length =>
    rw [State.counterBytes, List.length_append, length_wordBytes_flatten, Vector.length_toList]
    rfl
  case counter =>
    have hlen := length_wordBytes_flatten s.counters.snapshot.toList
    have hc := c.isLt
    rw [Vector.length_toList] at hlen
    rw [State.counterBytes, List.getElem?_append_left (by omega), List.getElem?_append_left (by omega)]
    simpa using getElem?_wordBytes_flatten s.counters.snapshot.toList c.val (by simp)
  case mode =>
    have hlen := length_wordBytes_flatten s.counters.snapshot.toList
    rw [Vector.length_toList] at hlen
    rw [State.counterBytes, List.getElem?_append_right (by omega), hlen]
    rfl

/-! ### The raise of a counter -/

/-- Settles O35: the value after the raise and COUNTER_LIMIT, in either mode. -/
theorem counterRaiseFollowsMode : Obligations.CounterRaiseFollowsMode := by
  intro s x
  simp only [s.count_eq x, decide_eq_true_iff]
  split <;> split <;> rfl

/-! ### FRAME_ARRIVAL -/

theorem pairSense_none {p d : Byte} (hu : ¬ (p = 0x55 ∧ d = 0xD3)) (hi : ¬ (p = 0xAA ∧ d = 0x2C)) :
    pairSense p d = none := by
  rw [pairSense, if_neg hu, if_neg hi]

/-- Of a delimited pair the preamble tells the sense (R70). -/
theorem pairSense_some {p d : Byte} (h : p = 0x55 ∧ d = 0xD3 ∨ p = 0xAA ∧ d = 0x2C) :
    pairSense p d = some (decide (p = 0xAA)) := by
  obtain ⟨rfl, rfl⟩ | ⟨rfl, rfl⟩ := h <;> rfl

theorem State.sendingRequest_false {s : State}
    (h : ∀ x n m, s.line.slot = some x → x.attempt ≠ .sending n m) : s.sendingRequest = false := by
  unfold State.sendingRequest
  cases hslot : s.line.slot with
  | none => rfl
  | some x => cases ha : x.attempt with
    | sending n m => exact absurd ha (h x n m hslot)
    | _ => simp only [ha]

/-- Settles O37: bytes that are no pair are ignored, and a pair that the head sees opens a reception. -/
theorem frameArrivalOpensReception : Obligations.FrameArrivalOpensReception := by
  intro moment p d s
  refine ⟨fun hu hi => ?ignored, fun hpair hload hrec hcycle htx hslot => ?seen⟩
  case ignored =>
    change execFrameArrival moment p d s = _
    simp only [execFrameArrival, pairSense_none hu hi]
  case seen =>
    have hsees : (s.advance moment).sees (s.advance moment).now = true := by
      have hsending : (s.advance moment).sendingRequest = false := State.sendingRequest_false hslot
      simp only [State.sees, hsending, Bool.and_eq_true, decide_eq_true_iff, Bool.not_eq_true', Option.isNone_iff_eq_none]
      exact ⟨⟨⟨⟨hload, hrec⟩, hcycle⟩, htx⟩, trivial⟩
    change execFrameArrival moment p d s = _
    simp only [execFrameArrival, pairSense_some hpair, taken_due hsees]
    rfl

end Sys2Proof.Machine
end

section
/-! Settles the statements about demands: SET_DEMAND (R132, R133), and the Output Unit's REFILL_OPERATION (R135),
COMPLETION_OPERATION and FAILURE_OPERATION (R138, R139) and SEND_OPERATION (R136, R137). -/

namespace Sys2Proof.Machine

theorem OutputUnit.queued_iff (o : OutputUnit) (k : Key) : o.queued k = true ↔ k ∈ o.queue :=
  List.contains_iff_mem

/-! ### SET_DEMAND -/

theorem exec_setDemand_granted {s : State} {key value : Word} (hq : s.port.inHand = some (.setDemand key value))
    (hg : s.grant = some .hp) : exec (.setDemand key value) s = .next (s.hostGranted.setDemandOp key value) :=
  taken_due (due := s.granting (.setDemand key value)) ⟨hq, hg⟩ _ _

section
variable {s : State} {key value : Word}

theorem State.setDemandOp_refused {e : Result} (h : s.demandChecks key = .error e) :
    s.hostGranted.setDemandOp key value = (s.postedFault 0x20 (some key) e).hostGranted.postedDone := by
  have h' : s.hostGranted.demandChecks key = .error e := h
  simp only [State.setDemandOp, h', State.postFault_eq, State.finishPosted_eq]
  rfl

theorem State.setDemandOp_taken {i : Fin 256} {r : Record} (h : s.demandChecks key = .ok (i, r)) :
    s.hostGranted.setDemandOp key value = (s.hostGranted.takeDemand i r value).postedDone := by
  have h' : s.hostGranted.demandChecks key = .ok (i, r) := h
  simp only [State.setDemandOp, h', State.finishPosted_eq]

end

section
variable {s : State} {key : Word} {i : Fin 256} {r : Record}

theorem State.demandChecks_absent (hf : s.find (Key.ofPacked key) = none) : s.demandChecks key = .error .notFound := by
  simp only [State.demandChecks, hf]

/-- The checks of R132 on the record that the key names. -/
theorem State.demandChecks_found (hf : s.find (Key.ofPacked key) = some (i, r)) :
    s.demandChecks key =
      if s.dir.entries[r.key.handle].state = .leaving then .error .retiring
      else if r.flags.getLsbD 1 = false ∨ r.feed ≠ .node then .error .range
      else if r.state = .pending ∨ s.dir.entries[r.key.handle].state = .enrolling then .error .wrongState
      else if r.state = .held then .error .notAdmitted
      else .ok (i, r) := by
  simp only [State.demandChecks, hf, s.leaving_iff]
  rfl

end

theorem State.demandRow_eq (s : State) (r : Record) (value : Word) :
    s.demandRow r value =
      if r.key ∈ s.ou.queue then (.outstanding, false)
      else if s.ou.inFlight r.key = false ∧ r.applied = some value then (.settled, false)
      else if ∃ g : Fin 8, s.dir.entries[g].state ≠ .leaving ∧ s.ou.waiting[g] ≠ 0 then (.waiting, false)
      else if s.ou.queue.length < 32 then (.outstanding, true)
      else (.waiting, false) := by
  simp only [State.demandRow, OutputUnit.queued_iff, State.eligibleWaiting_pos]

/-- What an accepted demand does by its row (R133, R134). -/
theorem State.takeDemand_eq (s : State) (i : Fin 256) (r : Record) (value : Word) (row : DemandState × Bool)
    (hrow : s.demandRow r value = row) :
    s.takeDemand i r value =
      let h := r.key.handle
      let touches : Bool := r.demandState ≠ some row.1 && (row.1 = .settled || row.1 = .failed)
      { s with
        table :=
          { s.table with
            slots := s.table.slots.set i
              (some ({ r with demand := some value, demandState := some row.1 }.changedTo touches)) }
        events := s.eventsAfterChange r touches
        ou :=
          { s.ou with
            queue := if row.2 then s.ou.queue ++ [r.key] else s.ou.queue
            waiting :=
              if r.demandState = some .waiting ∧ row.1 ≠ .waiting then s.ou.waiting.set h (s.ou.waiting[h] - 1)
              else if r.demandState ≠ some .waiting ∧ row.1 = .waiting then s.ou.waiting.set h (s.ou.waiting[h] + 1)
              else s.ou.waiting } } := by
  obtain ⟨d, appends⟩ := row
  dsimp only [State.takeDemand]
  rw [hrow, State.setDemandState_eq s i { r with demand := some value } r d rfl]
  cases appends <;> rfl

/-- Settles O28: the checks in their order, and then the row. -/
theorem setDemandTakesFirstRow : Obligations.SetDemandTakesFirstRow := by
  intro key value s hq hg
  dsimp only
  rw [exec_setDemand_granted hq hg]
  cases hf : s.find (Key.ofPacked key) with
  | none => exact congrArg Host.Outcome.next (State.setDemandOp_refused (State.demandChecks_absent hf))
  | some p =>
    obtain ⟨i, r⟩ := p
    have hchecks := State.demandChecks_found hf
    dsimp only
    by_cases hleaving : s.dir.entries[r.key.handle].state = .leaving
    · rw [if_pos hleaving] at hchecks ⊢
      rw [State.setDemandOp_refused hchecks]
    rw [if_neg hleaving] at hchecks ⊢
    by_cases hrange : r.flags.getLsbD 1 = false ∨ r.feed ≠ .node
    · rw [if_pos hrange] at hchecks ⊢
      rw [State.setDemandOp_refused hchecks]
    rw [if_neg hrange] at hchecks ⊢
    by_cases hstate : r.state = .pending ∨ s.dir.entries[r.key.handle].state = .enrolling
    · rw [if_pos hstate] at hchecks ⊢
      rw [State.setDemandOp_refused hchecks]
    rw [if_neg hstate] at hchecks ⊢
    by_cases hheld : r.state = .held
    · rw [if_pos hheld] at hchecks ⊢
      rw [State.setDemandOp_refused hchecks]
    rw [if_neg hheld] at hchecks ⊢
    rw [State.setDemandOp_taken hchecks, State.takeDemand_eq _ i r value _ (s.hostGranted.demandRow_eq r value)]
    rfl

/-! ### COMPLETION_OPERATION, FAILURE_OPERATION -/

section
variable {s : State} {n : InFlight}

theorem exec_completion_granted (hn : s.ou.note = some n) (hg : s.grant = some .ou) (ho : n.outcome = some .done) :
    exec .completionOperation s = .next ((s.grantedTo .ou .lcm).completeOp n) := by
  change execCompletionOperation s = _
  simp only [execCompletionOperation, hn, taken_due (show s.grant = some .ou ∧ n.outcome = some .done from ⟨hg, ho⟩)]
  rfl

theorem exec_failure_granted (hn : s.ou.note = some n) (hg : s.grant = some .ou) (ho : n.outcome = some .failed) :
    exec .failureOperation s = .next ((s.grantedTo .ou .lcm).failOp n) := by
  change execFailureOperation s = _
  simp only [execFailureOperation, hn, taken_due (show s.grant = some .ou ∧ n.outcome = some .failed from ⟨hg, ho⟩)]
  rfl

theorem State.flightRecord_some {r : Record} (hr : s.table.slots[n.slot] = some r) (hk : r.key = n.key) :
    s.flightRecord n = some r := by
  simp only [State.flightRecord, hr, if_pos hk]

theorem State.completeOp_found {r : Record} (h : s.flightRecord n = some r) :
    s.completeOp n =
      (s.setDemandState n.slot { r with applied := some n.value } (s.completedState n r)).clearNote := by
  simp only [State.completeOp, h]

theorem State.failOp_found {r : Record} (h : s.flightRecord n = some r) :
    s.failOp n = (s.setDemandState n.slot r .failed).clearNote := by
  simp only [State.failOp, h]

theorem State.completedState_eq (s : State) (n : InFlight) (r : Record) :
    s.completedState n r =
      if r.demand = some n.value ∧ r.key ∉ s.ou.queue then .settled
      else if r.demandState = some .waiting then .waiting else .outstanding := by
  simp only [State.completedState, ← Bool.not_eq_true, OutputUnit.queued_iff]

/-- A completion never sends a record that was not WAITING to WAITING (R138). -/
theorem State.completedState_waiting {s : State} {n : InFlight} {r : Record} (h : s.completedState n r = .waiting) :
    r.demandState = some .waiting := by
  rw [State.completedState_eq] at h
  by_cases hsettled : r.demand = some n.value ∧ r.key ∉ s.ou.queue
  · rw [if_pos hsettled] at h
    exact (nomatch h)
  · rw [if_neg hsettled] at h
    by_contra hw
    rw [if_neg hw] at h
    exact (nomatch h)

/-- A record in flight given a demand state that it only keeps as WAITING, with the note cleared (R134, R138, R139). -/
theorem State.setDemandState_clearNote (s : State) (i : Fin 256) (r : Record) (d : DemandState)
    (hd : d = .waiting → r.demandState = some .waiting) :
    (s.setDemandState i r d).clearNote =
      let touches : Bool := r.demandState ≠ some d && (d = .settled || d = .failed)
      { s with
        table :=
          { s.table with slots := s.table.slots.set i (some ({ r with demandState := some d }.changedTo touches)) }
        events := s.eventsAfterChange r touches
        ou :=
          { s.ou with
            note := none
            waiting :=
              if r.demandState = some .waiting ∧ d ≠ .waiting then
                s.ou.waiting.set r.key.handle (s.ou.waiting[r.key.handle] - 1)
              else s.ou.waiting } } := by
  have hno : ¬ (r.demandState ≠ some .waiting ∧ d = .waiting) := fun h => h.1 (hd h.2)
  rw [State.setDemandState_eq s i r r d rfl, if_neg hno]
  rfl

end

/-- Settles O51: both outcomes give the record in flight a demand state and clear the note. -/
theorem outcomeIsAppliedToRecord : Obligations.OutcomeIsAppliedToRecord := by
  intro n r s hn hg hr hk
  have hflight : (s.grantedTo .ou .lcm).flightRecord n = some r := State.flightRecord_some hr hk
  refine ⟨fun ho => ?done, fun ho => ?failed⟩
  case done =>
    rw [exec_completion_granted hn hg ho, State.completeOp_found hflight,
      State.setDemandState_clearNote _ n.slot { r with applied := some n.value } _
        (State.completedState_waiting (r := r)), State.completedState_eq]
    rfl
  case failed =>
    rw [exec_failure_granted hn hg ho, State.failOp_found hflight,
      State.setDemandState_clearNote _ n.slot r .failed (fun h => (nomatch h))]
    rfl

/-! ### REFILL_OPERATION -/

theorem exec_refill_granted {s : State} (hg : s.grant = some .ou) (hw : s.wantsRefill = true) :
    exec .refillOperation s = .next (s.grantedTo .ou .lcm).refillOp :=
  taken_due (due := s.grant = some .ou ∧ s.wantsRefill = true) ⟨hg, hw⟩ _ _

theorem State.mem_refillOrder (s : State) (i : Fin 256) (r : Record) :
    (i, r) ∈ s.refillOrder ↔ s.table.slots[i] = some r := by
  rw [← Table.mem_records]
  simp only [State.refillOrder, List.mem_append, List.mem_filter, decide_eq_true_iff, ← and_or_left]
  exact and_iff_left (le_or_gt _ _)

/-- The refill examines the slots in the order of their distance from the rotating pointer (R135). -/
theorem State.refillOrder_sorted (s : State) :
    s.refillOrder.Pairwise fun p q : Fin 256 × Record => (p.1 - s.ou.pointer).val < (q.1 - s.ou.pointer).val := by
  have hsorted := Table.records_sorted s.table.slots
  have hfar (i : Fin 256) : (i - s.ou.pointer).val = (256 - s.ou.pointer.val + i.val) % 256 := rfl
  refine List.pairwise_append.2 ⟨?_, ?_, fun p hp q hq => ?_⟩
  · refine List.Pairwise.imp_of_mem (fun {p q} hp hq hlt => ?_) (hsorted.filter _)
    have hp := Fin.le_def.1 (of_decide_eq_true (List.mem_filter.1 hp).2)
    have hq := Fin.le_def.1 (of_decide_eq_true (List.mem_filter.1 hq).2)
    rw [hfar, hfar]
    omega
  · refine List.Pairwise.imp_of_mem (fun {p q} hp hq hlt => ?_) (hsorted.filter _)
    have hp := Fin.lt_def.1 (of_decide_eq_true (List.mem_filter.1 hp).2)
    have hq := Fin.lt_def.1 (of_decide_eq_true (List.mem_filter.1 hq).2)
    rw [hfar, hfar]
    omega
  · have hp := Fin.le_def.1 (of_decide_eq_true (List.mem_filter.1 hp).2)
    have hq := Fin.lt_def.1 (of_decide_eq_true (List.mem_filter.1 hq).2)
    rw [hfar, hfar]
    omega

/-- Whether a refill takes a record (R135). -/
def State.refills (s : State) (p : Fin 256 × Record) : Bool :=
  p.2.demandState = some .waiting && !s.leaving p.2.key.handle

theorem State.refills_iff (s : State) (i : Fin 256) (r : Record) :
    s.refills (i, r) = true ↔ r.demandState = some .waiting ∧ s.dir.entries[r.key.handle].state ≠ .leaving := by
  simp only [State.refills, Bool.and_eq_true, decide_eq_true_iff, Bool.not_eq_true', ← Bool.not_eq_true, s.leaving_iff]

theorem State.refillOp_taken {s : State} {i : Fin 256} {r : Record}
    (h : s.refillOrder.find? s.refills = some (i, r)) :
    s.refillOp =
      { (s.setDemandState i r .outstanding).enqueue r.key with
        ou :=
          { ((s.setDemandState i r .outstanding).enqueue r.key).ou with pointer := i + 1, refillStop := none } } := by
  have h' : (s.refillOrder.find? fun p => p.2.demandState = some .waiting && !s.leaving p.2.key.handle) =
      some (i, r) := h
  simp only [State.refillOp, h']

theorem State.refillOp_vain {s : State} (h : s.refillOrder.find? s.refills = none) :
    s.refillOp = { s with ou := { s.ou with refillStop := some s.refillView } } := by
  have h' : (s.refillOrder.find? fun p => p.2.demandState = some .waiting && !s.leaving p.2.key.handle) = none := h
  simp only [State.refillOp, h']

/-- A WAITING record becomes OUTSTANDING, which touches nothing (R8, R134). -/
theorem State.setDemandState_refilled (s : State) (i : Fin 256) {r : Record} (hr : r.demandState = some .waiting) :
    s.setDemandState i r .outstanding =
      { s with
        table := { s.table with slots := s.table.slots.set i (some { r with demandState := some .outstanding }) }
        ou := { s.ou with waiting := s.ou.waiting.set r.key.handle (s.ou.waiting[r.key.handle] - 1) } } := by
  rw [State.setDemandState_eq s i r r _ rfl, hr]
  simp [Record.changedTo, State.eventsAfterChange]

/-- A refill that found nothing does not wait again while nothing has changed (R135; log entry 29). -/
theorem State.wantsRefill_vain (s : State) :
    ({ s with ou := { s.ou with refillStop := some s.refillView } } : State).wantsRefill = false :=
  Bool.eq_false_iff.2 fun h => ((State.wantsRefill_iff _).1 h).2.2.2.2 rfl

/-- Settles O50: the first record that waits in the order of the refill, or none. -/
theorem refillTakesNextWaiting : Obligations.RefillTakesNextWaiting := by
  intro s hg hw
  dsimp only
  rw [exec_refill_granted hg hw]
  refine ⟨fun i r hi hr hfirst => ?taken, fun hnone => ?vain⟩
  case taken =>
    have hfind : (s.grantedTo .ou .lcm).refillOrder.find? (s.grantedTo .ou .lcm).refills = some (i, r) := by
      refine (find_rising _ _ _ (State.refillOrder_sorted _) _).2
        ⟨(State.mem_refillOrder _ i r).2 hi, (State.refills_iff _ i r).2 hr, fun q hq hlt => ?_⟩
      refine Bool.eq_false_iff.2 fun hwaits => ?_
      have hle := hfirst q.1 q.2 ((State.mem_refillOrder _ q.1 q.2).1 hq) ((State.refills_iff _ q.1 q.2).1 hwaits)
      exact absurd (Fin.le_def.1 hle) (by exact not_le.2 hlt)
    rw [State.refillOp_taken hfind, State.setDemandState_refilled _ i hr.1]
    rfl
  case vain =>
    have hfind : (s.grantedTo .ou .lcm).refillOrder.find? (s.grantedTo .ou .lcm).refills = none := by
      refine List.find?_eq_none.2 fun q hq hwaits => ?_
      exact hnone q.1 q.2 ((State.mem_refillOrder _ q.1 q.2).1 hq) ((State.refills_iff _ q.1 q.2).1 hwaits)
    exact ⟨_, congrArg Host.Outcome.next (State.refillOp_vain hfind), State.wantsRefill_vain (s.grantedTo .ou .lcm)⟩

/-! ### SEND_OPERATION -/

theorem exec_send_granted {s : State} (hg : s.grant = some .ou) (ht : s.line.ouTurn = true)
    (hn : ∀ n, s.ou.note = some n → n.outcome = none) :
    exec .sendOperation s = .next (s.grantedTo .ou .lcm).sendOp := by
  have hwants : s.wantsOutcome = false := Bool.eq_false_iff.2 fun h => by
    obtain ⟨n, hnote, ho⟩ := s.wantsOutcome_iff.1 h
    exact ho (hn n hnote)
  exact taken_due (due := s.grant = some .ou ∧ s.line.ouTurn = true ∧ s.wantsOutcome = false) ⟨hg, ht, hwants⟩ _ _

/-- A transaction placed in the slot is sent or held (R81, R82). -/
theorem State.occupy_trySend (s : State) (x : Transaction) : (s.occupy x).trySend = s.sentOrHeld x :=
  (s.occupy x).trySend_eq x rfl

/-- Settles O52: the empty queue, and the head of another. -/
theorem sendHandsOverTheHead : Obligations.SendHandsOverTheHead := by
  intro s hg ht hn
  dsimp only
  rw [exec_send_granted hg ht hn]
  refine ⟨fun hq => ?empty, fun k rest i r p hq hf hp => ?head⟩
  case empty =>
    have hq' : (s.grantedTo .ou .lcm).ou.queue = [] := hq
    simp only [State.sendOp, hq']
    rfl
  case head =>
    have hq' : (s.grantedTo .ou .lcm).ou.queue = k :: rest := hq
    have hf' : (s.grantedTo .ou .lcm).find k = some (i, r) := hf
    have hp' : (s.grantedTo .ou .lcm).positionOf k.handle = p := by
      show (s.dir.entries[k.handle].position).getD 0 = p
      rw [hp]; rfl
    simp only [State.sendOp, hq', hf', hp', State.occupy_trySend]
    rfl

end Sys2Proof.Machine
end

section
/-! Settles the statements about the Report Handler's items: VALUE, FAULT and CLEAR (R125 to R128), WITHDRAWN and ADDED (R120,
R121, R129), and about the Drain Sweeper's removal (R64). -/

namespace Sys2Proof.Machine

/-! ### The item at the head of the work list -/

section
variable {s : State} {it : Item} {rest : List WorkEntry}

theorem State.headItem_some (hw : s.workList = .item it :: rest) : s.headItem it.kind = some it := by
  simp only [State.headItem, hw, if_true]

/-- The Report Handler has been granted its operation, and the item has left the work list (R125). -/
def State.itemTaken (s : State) (rest : List WorkEntry) : State := { s.grantedTo .rh .rh with workList := rest }

theorem State.itemTaken_find (s : State) (rest : List WorkEntry) (k : Key) : (s.itemTaken rest).find k = s.find k := rfl

theorem State.popWork_granted (hw : s.workList = .item it :: rest) :
    (s.granted .rh).popWork = s.itemTaken rest := by
  show s.itemTaken s.workList.tail = _
  rw [hw]
  rfl

theorem exec_valueItem_granted (hw : s.workList = .item it :: rest) (hk : it.kind = .value) (hg : s.grant = some .rh) :
    exec .valueItem s = .next
      ((s.itemTaken rest).onItemRecord it (State.takeValue it.value)) := by
  have hhead := hk ▸ State.headItem_some hw
  change execValueItem s = _
  simp only [execValueItem, hhead, taken_due hg, State.popWork_granted hw]

theorem exec_faultItem_granted (hw : s.workList = .item it :: rest) (hk : it.kind = .fault) (hg : s.grant = some .rh) :
    exec .faultItem s = .next
      ((s.itemTaken rest).onItemRecord it (State.setFault true)) := by
  have hhead := hk ▸ State.headItem_some hw
  change execFaultItem s = _
  simp only [execFaultItem, hhead, taken_due hg, State.popWork_granted hw]

theorem exec_clearItem_granted (hw : s.workList = .item it :: rest) (hk : it.kind = .clear) (hg : s.grant = some .rh) :
    exec .clearItem s = .next
      ((s.itemTaken rest).onItemRecord it (State.setFault false)) := by
  have hhead := hk ▸ State.headItem_some hw
  change execClearItem s = _
  simp only [execClearItem, hhead, taken_due hg, State.popWork_granted hw]

theorem exec_withdrawnItem_granted (hw : s.workList = .item it :: rest) (hk : it.kind = .withdrawn)
    (hg : s.grant = some .rh) :
    exec .withdrawnItem s = .next ((s.itemTaken rest).withdrawItem it) := by
  have hhead := hk ▸ State.headItem_some hw
  change execWithdrawnItem s = _
  simp only [execWithdrawnItem, hhead, taken_due hg, State.popWork_granted hw]

theorem exec_addedItem_taken (hw : s.workList = .item it :: rest) (hk : it.kind = .added) :
    exec .addedItem s = .next (({ s with workList := rest } : State).addItem it) := by
  have hhead := hk ▸ State.headItem_some hw
  have hpop : s.popWork = { s with workList := rest } := by rw [State.popWork, hw]; rfl
  change execAddedItem s = _
  simp only [execAddedItem, hhead, hpop]

/-! ### VALUE, FAULT and CLEAR -/

theorem State.itemRecord_iff (s : State) (it : Item) (i : Fin 256) (r : Record) :
    s.itemRecord it = some (i, r) ↔ ∃ k, it.key = some k ∧ s.find k = some (i, r) :=
  Option.bind_eq_some_iff

theorem State.onItemRecord_unknown {f : State → Fin 256 → Record → State}
    (h : ∀ k i r, it.key = some k → s.find k = some (i, r) → r.state = .pending) :
    s.onItemRecord it f = s.count .itemsUnknown := by
  unfold State.onItemRecord
  cases hr : s.itemRecord it with
  | none => rfl
  | some p =>
    obtain ⟨k, hk, hf⟩ := (s.itemRecord_iff it p.1 p.2).1 hr
    exact if_pos (h k p.1 p.2 hk hf)

theorem State.onItemRecord_found {f : State → Fin 256 → Record → State} {k : Key} {i : Fin 256} {r : Record}
    (hk : it.key = some k) (hf : s.find k = some (i, r)) (hr : r.state ≠ .pending) :
    s.onItemRecord it f = f s i r := by
  have hrecord := (s.itemRecord_iff it i r).2 ⟨k, hk, hf⟩
  simp only [State.onItemRecord, hrecord, if_neg hr]

end

theorem State.takeValue_eq (s : State) (value : Word) (i : Fin 256) (r : Record) :
    State.takeValue value s i r =
      if r.flags.getLsbD 2 then
        { s with
          table :=
            { s.table with
              slots := s.table.slots.set i
                (some (({ r with value := some value, age := 0, stale := false } : Record).changedTo
                  (r.value ≠ some value || r.stale))) }
          events := s.eventsAfterChange r (r.value ≠ some value || r.stale) }
      else s.count .itemsUnknown := by
  rw [State.takeValue, State.putRecord_eq s i r { r with value := some value, age := 0, stale := false } _ rfl]
  rfl

theorem State.setFault_eq (s : State) (fault : Bool) (i : Fin 256) (r : Record) :
    State.setFault fault s i r =
      { s with
        table :=
          { s.table with slots := s.table.slots.set i (some ({ r with fault := fault }.changedTo (r.fault != fault))) }
        events := s.eventsAfterChange r (r.fault != fault) } := by
  have hchanged : (decide (r.fault ≠ fault)) = (r.fault != fault) := by cases r.fault <;> cases fault <;> rfl
  rw [State.setFault, State.putRecord_eq s i r { r with fault := fault } _ rfl, hchanged]

/-- Settles O46: an item whose record is not there, and what each kind does to one that is. -/
theorem itemsUpdateTheirRecord : Obligations.ItemsUpdateTheirRecord := by
  intro it rest s hw hg
  refine ⟨fun hnone => ?_, fun k i r hk hf hr => ⟨fun hkind => ?_, fun hkind => ?_, fun hkind => ?_⟩⟩
  · have hunknown (f : State → Fin 256 → Record → State) :
        (s.itemTaken rest).onItemRecord it f = (s.itemTaken rest).count .itemsUnknown :=
      State.onItemRecord_unknown hnone
    refine ⟨fun hkind => ?_, fun hkind => ?_, fun hkind => ?_⟩
    · rw [exec_valueItem_granted hw hkind hg, hunknown]
      rfl
    · rw [exec_faultItem_granted hw hkind hg, hunknown]
      rfl
    · rw [exec_clearItem_granted hw hkind hg, hunknown]
      rfl
  · rw [exec_valueItem_granted hw hkind hg, State.onItemRecord_found hk ((s.itemTaken_find rest k).trans hf) hr, State.takeValue_eq]
    rfl
  · rw [exec_faultItem_granted hw hkind hg, State.onItemRecord_found hk ((s.itemTaken_find rest k).trans hf) hr, State.setFault_eq, Bool.bne_true]
    rfl
  · rw [exec_clearItem_granted hw hkind hg, State.onItemRecord_found hk ((s.itemTaken_find rest k).trans hf) hr, State.setFault_eq, Bool.bne_false]
    rfl

/-! ### WITHDRAWN -/

section
variable {s : State} {i : Fin 256} {r : Record}

/-- A PENDING record, and one under a LEAVING unit, goes without notice of a circuit (R14, R64). -/
theorem State.removeRecord_unnoticed (h : r.state = .pending ∨ s.leaving r.key.handle = true) :
    (s.removeRecord i r).lcm = s.lcm := by
  have hno : ¬ (r.state ≠ .pending ∧ s.leaving r.key.handle = false) := by
    rintro ⟨hp, hl⟩
    rcases h with h | h
    · exact hp h
    · rw [h] at hl
      exact (nomatch hl)
  dsimp only [State.removeRecord]
  rw [if_neg hno]

/-- The record that the context names goes with the blocks the context holds (R7, R15, R38). -/
theorem State.removalBlocks_named {c : Context} (hp : r.state = .pending) (hc : s.ee = some c)
    (hk : c.pendingKey = some r.key) : s.removalBlocks r = c.held ++ r.chain := by
  unfold State.removalBlocks
  rw [hc]
  exact if_pos ⟨hp, hk⟩

theorem State.removeRecord_named {c : Context} (hp : r.state = .pending) (hc : s.ee = some c)
    (hk : c.pendingKey = some r.key) : (s.removeRecord i r).ee = some c.dropPending := by
  rw [State.removeRecord_ee, hc, Option.map_some, if_pos ⟨hp, hk⟩]

end

section
variable {s : State} {it : Item}

theorem State.withdrawItem_unknown
    (h : ∀ k i r, it.key = some k → s.find k = some (i, r) → r.origin = .declared) :
    s.withdrawItem it = s.count .itemsUnknown := by
  unfold State.withdrawItem
  cases hr : s.itemRecord it with
  | none => rfl
  | some p =>
    obtain ⟨k, hk, hf⟩ := (s.itemRecord_iff it p.1 p.2).1 hr
    exact if_pos (h k p.1 p.2 hk hf)

variable {k : Key} {i : Fin 256} {r : Record} (hk : it.key = some k) (hf : s.find k = some (i, r))
  (ho : r.origin = .enrolled)
include hk hf ho

theorem State.withdrawItem_removed (hp : r.state ≠ .pending) : s.withdrawItem it = s.removeRecord i r := by
  have hrecord := (s.itemRecord_iff it i r).2 ⟨k, hk, hf⟩
  have hno : ¬ r.origin = .declared := by rw [ho]; exact (nomatch ·)
  simp only [State.withdrawItem, hrecord, if_neg hno]
  cases s.ee with
  | none => rfl
  | some c => exact if_neg fun h => hp h.1

theorem State.withdrawItem_givenUp {c : Context} (hp : r.state = .pending) (hc : s.ee = some c)
    (hname : c.pendingKey = some r.key) : s.withdrawItem it = (s.removeRecord i r).giveUp c := by
  have hrecord := (s.itemRecord_iff it i r).2 ⟨k, hk, hf⟩
  have hno : ¬ r.origin = .declared := by rw [ho]; exact (nomatch ·)
  simp only [State.withdrawItem, hrecord, if_neg hno, hc]
  exact if_pos ⟨hp, hname⟩

end

section
variable {s : State} {c c' : Context}

theorem State.giveUp_abandoned (h : c.abandoned = true) : s.giveUp c = s.settledContext := by
  rw [State.giveUp, if_pos h, State.settleAbandoned_eq]

/-- What giving up the descriptor in hand does (R121, R58): the index leaves, and the next is taken, or the context waits
for its EXTQ. -/
theorem State.giveUp_going {j : BitVec 6} (ha : c.abandoned = false) (hi : c.index = some j) (hc : s.ee = some c')
    (hh : c'.handle = c.handle) :
    let gone := s.indexGone c.handle j
    let parked : State := { gone with ee := some { c' with index := none, descriptor := none } }
    s.giveUp c =
      if s.eeInSlot = true then
        if gone.dir.entries[c.handle].pendingSet = 0 then parked.setEmptied c.handle else parked
      else gone.nextTaken c.handle := by
  intro gone parked
  have hgone : s.dropIndex c = gone := s.dropIndex_eq c j hi
  have hee : gone.ee = some c' := hc
  have hparked : gone.parkContext = parked := by
    show ({ gone with ee := gone.ee.map _ } : State) = _
    rw [hee]
    rfl
  rw [State.giveUp, if_neg (Bool.eq_false_iff.1 ha), State.slotHeldBy_ee]
  by_cases hslot : s.eeInSlot = true
  · rw [if_pos hslot, if_pos hslot]
    dsimp only [State.giveUpInSlot]
    rw [hgone, hparked, State.pendingEmptied_eq]
    rfl
  · rw [if_neg hslot, if_neg hslot, State.finishDescriptor, hgone, gone.nextDescriptor_eq c' hee, hh]

end

/-- What a removal for a WITHDRAWN item takes off (R15, R38). -/
theorem State.itemTaken_removed (s : State) (rest : List WorkEntry) (i : Fin 256) (r : Record) :
    let u := (s.itemTaken rest).removeRecord i r
    let blocks := s.removalBlocks r
    removed s u i r blocks ∧
      u.table =
        { (s.itemTaken rest).table with slots := u.table.slots, enrolledCount := u.table.enrolledCount } ∧
      u.dir =
        { s.dir with
          entries := s.dir.entries.set r.key.handle
            { s.dir.entries[r.key.handle] with
              recordCount := s.dir.entries[r.key.handle].recordCount - 1
              charge := s.dir.entries[r.key.handle].charge - blocks.length } } :=
  ⟨(s.itemTaken rest).removeRecord_removed i r, (s.itemTaken rest).removeRecord_table i r,
    (s.itemTaken rest).removeRecord_dir i r⟩

/-! ### ADDED -/

/-- The meter of a position is the one its setting names (R88). -/
theorem State.meterOf_position (s : State) (p : Fin 6) (m : Fin 4) (hm : m.val = s.settings[29 + p.val]) :
    s.meterOf (p.val + 1) = some m := by
  have hrange : 1 ≤ p.val + 1 ∧ p.val + 1 ≤ 6 := by omega
  have hidx {a b : Nat} (ha : a < 131) (hb : b < 131) (h : a = b) : s.settings[a] = s.settings[b] := by subst h; rfl
  have hset : s.settings[28 + (p.val + 1)] = m.val := (hidx (by omega) (by omega) (by omega)).trans hm.symm
  refine (dif_pos hrange).trans (congrArg some (Fin.ext ?_))
  show s.settings[28 + (p.val + 1)] % 4 = m.val
  rw [hset]
  exact Nat.mod_eq_of_lt m.isLt

section
variable {s : State} {position : Nat} {m : Fin 4} (hm : s.meterOf position = some m)
include hm

theorem State.charge_dropped (ht : s.line.meters[m].tokens = 0) :
    s.charge position = (false, s.count .meteredDrops) := by
  have hno : ¬ 1 ≤ s.line.meters[m].tokens := by omega
  simp only [State.charge, hm, if_neg hno]

theorem State.charge_passed (ht : s.line.meters[m].tokens ≠ 0) :
    s.charge position =
      (true,
        { s with
          line :=
            { s.line with
              meters :=
                s.line.meters.set m { s.line.meters[m] with tokens := s.line.meters[m].tokens - 1 } } }) := by
  have hyes : 1 ≤ s.line.meters[m].tokens := by omega
  simp only [State.charge, hm, if_pos hyes]

end

/-- An index added to a pending set joins it and leaves the others (R120). -/
theorem withIndex_getLsbD (p : BitVec 64) (i : Nat) (hi : i < 64) (j : Fin 64) :
    (withIndex p (BitVec.ofNat 6 i)).getLsbD j.val = (p.getLsbD j.val || decide (j.val = i)) := by
  have hto : (BitVec.ofNat 6 i).toNat = i := by
    rw [BitVec.toNat_ofNat]
    exact Nat.mod_eq_of_lt hi
  rw [withIndex, BitVec.getLsbD_or, hto, bitMask_getLsbD 64 i j.val hi]

section
variable {s : State} {it : Item}

theorem State.addItem_unknown (h : s.dir.entries[it.handle].state ≠ .enrolling ∧ s.dir.entries[it.handle].state ≠ .live ∧
    s.dir.entries[it.handle].state ≠ .stalled) : s.addItem it = s.count .itemsUnknown := by
  refine if_neg ?_
  rintro (h1 | h1 | h1)
  · exact h.1 h1
  · exact h.2.1 h1
  · exact h.2.2 h1

/-- An ADDED item for a unit that takes it, by what its meter says (R88, R120). -/
theorem State.addItem_charged {position : Nat} {passes : Bool} {u : State}
    (h : ¬ (s.dir.entries[it.handle].state ≠ .enrolling ∧ s.dir.entries[it.handle].state ≠ .live ∧
      s.dir.entries[it.handle].state ≠ .stalled))
    (hp : s.dir.entries[it.handle].position = some position) (hc : s.charge position = (passes, u)) :
    s.addItem it =
      if passes then
        if it.value.toNat < 64 then
          u.setEntry it.handle (s.dir.entries[it.handle].addIndex it.value.toNat)
        else u.count .itemsUnknown
      else u := by
  have hstate : (s.entry it.handle).state = .enrolling ∨ (s.entry it.handle).state = .live ∨
      (s.entry it.handle).state = .stalled := by
    by_contra hno
    simp only [not_or] at hno
    exact h hno
  have hposition : s.positionOf it.handle = position := by
    show (s.dir.entries[it.handle].position).getD 0 = position
    rw [hp]; rfl
  refine (if_pos hstate).trans ?_
  rw [hposition, hc]
  rfl

end

/-- Settles O47: a WITHDRAWN item by what it names, and an ADDED item by the entry, the meter and the index. -/
theorem withdrawnAndAddedItems : Obligations.WithdrawnAndAddedItems := by
  refine ⟨fun it rest s hw hkind hg => ⟨fun hnone => ?unknown, fun k i r hk hf ho => ⟨fun hp => ?removed,
    fun c hp hc hname => ?givenUp⟩⟩, fun it rest s hw hkind => ?added⟩
  case unknown =>
    have hunknown : (s.itemTaken rest).withdrawItem it = (s.itemTaken rest).count .itemsUnknown :=
      State.withdrawItem_unknown hnone
    rw [exec_withdrawnItem_granted hw hkind hg, hunknown]
    rfl
  case removed =>
    have hremoved : (s.itemTaken rest).withdrawItem it = (s.itemTaken rest).removeRecord i r :=
      State.withdrawItem_removed hk hf ho hp
    have hoff := s.itemTaken_removed rest i r
    rw [State.removalBlocks_chain hp] at hoff
    refine ⟨(s.itemTaken rest).removeRecord i r, ?_, hoff, ?_, ?_⟩
    · rw [exec_withdrawnItem_granted hw hkind hg, hremoved]
    · apply State.eq_of_fields <;> simp [State.itemTaken, State.grantedTo, State.removeRecord_keepsContext hp]
    · by_cases hl : s.dir.entries[r.key.handle].state = .leaving
      · rw [if_pos hl]
        exact State.removeRecord_unnoticed (.inr ((s.leaving_iff _).2 hl))
      · rw [if_neg hl]
        exact State.removeRecord_noticed (s := s.itemTaken rest) hp (State.leaving_false (s := s) hl)
  case givenUp =>
    have hgiven : (s.itemTaken rest).withdrawItem it = ((s.itemTaken rest).removeRecord i r).giveUp c :=
      State.withdrawItem_givenUp (s := s.itemTaken rest) hk hf ho hp hc hname
    have hee : ((s.itemTaken rest).removeRecord i r).ee = some c.dropPending :=
      State.removeRecord_named (s := s.itemTaken rest) hp hc hname
    have hlcm : ((s.itemTaken rest).removeRecord i r).lcm = s.lcm :=
      State.removeRecord_unnoticed (s := s.itemTaken rest) (.inl hp)
    have hslot : ((s.itemTaken rest).removeRecord i r).eeInSlot = s.eeInSlot := by
      simp [State.eeInSlot, State.itemTaken, State.grantedTo]
    have hoff := s.itemTaken_removed rest i r
    rw [State.removalBlocks_named hp hc hname] at hoff
    rw [exec_withdrawnItem_granted hw hkind hg, hgiven]
    refine ⟨(s.itemTaken rest).removeRecord i r, hoff, ?_, fun ha => ?_, fun j ha hj => ?_⟩
    · apply State.eq_of_fields <;> simp [State.itemTaken, State.grantedTo]
      · exact hee
      · exact hlcm
    · rw [State.giveUp_abandoned ha]
    · rw [State.giveUp_going ha hj hee rfl, hslot]
      rfl
  case added =>
    dsimp only
    rw [exec_addedItem_taken hw hkind]
    by_cases hstate : s.dir.entries[it.handle].state ≠ .enrolling ∧ s.dir.entries[it.handle].state ≠ .live ∧
        s.dir.entries[it.handle].state ≠ .stalled
    · rw [if_pos hstate]
      exact congrArg Host.Outcome.next (State.addItem_unknown (s := { s with workList := rest }) hstate)
    · rw [if_neg hstate]
      intro p m hp hm
      have hmeter := ({ s with workList := rest } : State).meterOf_position p m hm
      by_cases ht : s.line.meters[m].tokens = 0
      · rw [if_pos ht]
        refine congrArg Host.Outcome.next ?_
        rw [State.addItem_charged (s := { s with workList := rest }) hstate hp (State.charge_dropped hmeter ht)]
        rfl
      · rw [if_neg ht]
        have hcharged := State.addItem_charged (s := { s with workList := rest }) hstate hp
          (State.charge_passed hmeter ht)
        rw [hcharged, if_pos rfl]
        by_cases hi : 63 < it.value.toNat
        · rw [if_pos hi, if_neg (by omega)]
        · rw [if_neg hi, if_pos (by omega)]
          exact ⟨_, withIndex_getLsbD _ it.value.toNat (by omega), rfl⟩

/-! ### The Drain Sweeper -/

section
variable {s : State} {h : Fin 8}

theorem State.drainHandle_eq (hl : s.dir.entries[h].state = .leaving) (hc : s.dir.entries[h].recordCount ≠ 0)
    (hlow : ∀ g : Fin 8, g < h → s.dir.entries[g].state = .leaving → s.dir.entries[g].recordCount = 0) :
    s.drainHandle = some h := by
  have hdrains (g : Fin 8) : (s.leaving g && decide (0 < (s.entry g).recordCount)) = true ↔
      s.dir.entries[g].state = .leaving ∧ s.dir.entries[g].recordCount ≠ 0 := by
    simp only [Bool.and_eq_true, s.leaving_iff, decide_eq_true_iff, Nat.pos_iff_ne_zero]
    rfl
  refine (find_all8 _ h).2 ⟨(hdrains h).2 ⟨hl, hc⟩, fun g hg => Bool.eq_false_iff.2 fun hd => ?_⟩
  obtain ⟨hgl, hgc⟩ := (hdrains g).1 hd
  exact hgc (hlow g hg hgl)

theorem exec_sweeper_granted (hg : s.grant = some .sweeper) (hd : s.drainHandle = some h) :
    exec .drainSweeperRemoval s = .next ((s.grantedTo .sweeper .lcm).sweep h) := by
  change execDrainSweeperRemoval s = _
  simp only [execDrainSweeperRemoval, hd, taken_due hg]
  rfl

theorem State.sweep_found {i : Fin 256} {r : Record} (hi : s.table.slots[i] = some r) (hk : r.key.handle = h)
    (hlow : ∀ (j : Fin 256) (q : Record), j < i → s.table.slots[j] = some q → q.key.handle ≠ h) :
    s.sweep h = ((s.removeRecord i r).freeIfDrained h).settledContext := by
  have hfind : (s.records.find? fun p => p.2.key.handle = h) = some (i, r) :=
    (Table.find_record _ _ i r).2 ⟨hi, decide_eq_true hk, fun j q hj hq => decide_eq_false (hlow j q hj hq)⟩
  simp only [State.sweep, hfind, State.settleAbandoned_eq]

/-- An entry that is drained becomes FREE, with UNIT_LEFT and its left bit (R64, R173). -/
theorem State.freeIfDrained_drained {s : State} {h : Fin 8} (hl : s.dir.entries[h].state = .leaving)
    (hr : s.dir.entries[h].recordCount = 0) (hc : s.dir.entries[h].charge = 0) :
    s.freeIfDrained h =
      { s with
        dir := { s.dir with entries := s.dir.entries.set h Entry.empty }
        events :=
          { s.events with
            flags := s.events.flags ||| 0x02, leftMask := s.events.leftMask ||| bitMask 8 h.val } } :=
  if_pos ⟨hl, hr, hc⟩

theorem State.freeIfDrained_undrained {s : State} {h : Fin 8}
    (hd : ¬ (s.dir.entries[h].recordCount = 0 ∧ s.dir.entries[h].charge = 0)) : s.freeIfDrained h = s :=
  if_neg fun hall => hd hall.2

end

/-- The blocks a removal returns: those the context holds for a record it names, and the record's own (R7, R15, R38). -/
theorem State.removalBlocks_eq (s : State) (r : Record) :
    s.removalBlocks r =
      (s.ee.elim [] fun c => if r.state = .pending ∧ c.pendingKey = some r.key then c.held else []) ++ r.chain := by
  unfold State.removalBlocks
  cases s.ee with
  | none => rfl
  | some c =>
    by_cases hname : r.state = .pending ∧ c.pendingKey = some r.key
    · simp only [Option.elim_some, if_pos hname]
      rfl
    · simp only [Option.elim_some, if_neg hname]
      rfl

/-- What the Drain Sweeper leaves of a LEAVING entry when it takes a record of it that returns some blocks (R64). -/
theorem State.freeIfDrained_removed {s : State} {i : Fin 256} {r : Record} {u : State} {n : Nat}
    (hl : s.dir.entries[r.key.handle].state = .leaving) (hc : s.dir.entries[r.key.handle].recordCount ≠ 0)
    (hn : (s.removalBlocks r).length = n) (hu : u = (s.removeRecord i r).freeIfDrained r.key.handle) :
    let e := s.dir.entries[r.key.handle]
    u = { s.removeRecord i r with dir := u.dir, events := u.events } ∧
      (e.recordCount = 1 ∧ e.charge ≤ n →
        u.dir = { s.dir with entries := s.dir.entries.set r.key.handle Entry.empty } ∧
          u.events = { s.events with flags := s.events.flags ||| 0x02, leftMask := u.events.leftMask } ∧
          ∀ g : Fin 8,
            u.events.leftMask.getLsbD g.val = (s.events.leftMask.getLsbD g.val || decide (g = r.key.handle))) ∧
      (¬ (e.recordCount = 1 ∧ e.charge ≤ n) →
        u.dir =
            { s.dir with
              entries := s.dir.entries.set r.key.handle
                { e with recordCount := e.recordCount - 1, charge := e.charge - n } } ∧
          u.events = s.events) := by
  subst hn
  intro e
  have hdir := s.removeRecord_dir i r
  have hevents : (s.removeRecord i r).events = s.events := by simp
  have hentry : (s.removeRecord i r).dir.entries[r.key.handle] =
      { e with recordCount := e.recordCount - 1, charge := e.charge - (s.removalBlocks r).length } := by
    rw [hdir]
    exact Vector.getElem_set_self _
  have hzero : (s.removeRecord i r).dir.entries[r.key.handle].recordCount = 0 ∧
      (s.removeRecord i r).dir.entries[r.key.handle].charge = 0 ↔
        e.recordCount = 1 ∧ e.charge ≤ (s.removalBlocks r).length := by
    rw [hentry]
    show e.recordCount - 1 = 0 ∧ e.charge - _ = 0 ↔ _
    have : e.recordCount ≠ 0 := hc
    omega
  by_cases hd : e.recordCount = 1 ∧ e.charge ≤ (s.removalBlocks r).length
  · obtain ⟨hr0, hc0⟩ := hzero.2 hd
    have hleaving : (s.removeRecord i r).dir.entries[r.key.handle].state = .leaving := by rw [hentry]; exact hl
    rw [State.freeIfDrained_drained hleaving hr0 hc0] at hu
    subst hu
    refine ⟨rfl, fun _ => ⟨?_, ?_, fun g => ?_⟩, fun hno => absurd hd hno⟩
    · rw [hdir]
      simp [State.setEntry]
    · rw [hevents]
    · rw [hevents, BitVec.getLsbD_or, bitMask_getLsbD 8 _ _ r.key.handle.isLt]
      simp [Fin.val_inj]
  · rw [State.freeIfDrained_undrained (mt hzero.1 hd)] at hu
    subst hu
    exact ⟨rfl, fun hyes => absurd hyes hd, fun _ => ⟨hdir, hevents⟩⟩

/-- Settles O49: the removal, and then the entry that it drains or not. -/
theorem sweeperRemovesLowestSlot : Obligations.SweeperRemovesLowestSlot := by
  intro h i r s hg hl hc hlow hi hk hfirst
  subst hk
  dsimp only
  rw [exec_sweeper_granted hg (State.drainHandle_eq hl hc hlow),
    State.sweep_found (s := s.grantedTo .sweeper .lcm) hi rfl hfirst]
  generalize hu : ((s.grantedTo .sweeper .lcm).removeRecord i r).freeIfDrained r.key.handle = u
  have hremoved : removed s _ i r _ := (s.grantedTo .sweeper .lcm).removeRecord_removed i r
  have htable := (s.grantedTo .sweeper .lcm).removeRecord_table i r
  have hee : _ = s.ee.map _ := (s.grantedTo .sweeper .lcm).removeRecord_ee i r
  have hlcm : ((s.grantedTo .sweeper .lcm).removeRecord i r).lcm = s.lcm :=
    State.removeRecord_unnoticed (s := s.grantedTo .sweeper .lcm) (.inr ((s.leaving_iff _).2 hl))
  have hblocks : (s.grantedTo .sweeper .lcm).removalBlocks r = s.ee.elim _ _ ++ _ :=
    (s.grantedTo .sweeper .lcm).removalBlocks_eq r
  obtain ⟨hrest, hdrained, hundrained⟩ :=
    State.freeIfDrained_removed (s := s.grantedTo .sweeper .lcm) hl hc (congrArg List.length hblocks) hu.symm
  rw [hblocks] at hremoved
  refine ⟨u, rfl, ?_, ?_, ?_, ?_, ?_, ?_⟩
  · rw [hrest]
    revert hremoved
    cases s.ee <;> exact id
  · rw [hrest]
    apply State.eq_of_fields <;> simp [State.grantedTo]
    exact hlcm
  · rw [hrest]
    exact htable
  · rw [hrest]
    refine hee.trans ?_
    cases s.ee with
    | none => rfl
    | some c => rfl
  · revert hdrained
    cases s.ee <;> exact id
  · revert hundrained
    cases s.ee <;> exact id

end Sys2Proof.Machine
end

section
/-! Settles the statements about WRITE_EXTENSION, as a first part (R40) and as a later part (R41). -/

namespace Sys2Proof.Machine

/-! ### The bytes of the store -/

/-- A block cleared reads as 0x00, in canonical form or not, and every other byte as it did. -/
theorem Memory.read_cleared (m : Memory) (b : Fin 512) (a : Nat) :
    Memory.read (m.clearBlock b) a = if b.val = a / 32 then 0 else Memory.read m a := by
  induction m with
  | nil => simp [Memory.clearBlock, Memory.read]
  | cons cell m ih =>
    obtain ⟨x, v⟩ := cell
    by_cases hx : x / 32 = b.val
    · have hcons : Memory.clearBlock ((x, v) :: m) b = Memory.clearBlock m b := by simp [Memory.clearBlock, hx]
      rw [hcons, ih]
      by_cases ha : b.val = a / 32
      · rw [if_pos ha, if_pos ha]
      · have hne : x ≠ a := fun h => ha (h ▸ hx.symm)
        rw [if_neg ha, if_neg ha, Memory.read, if_neg hne]
    · have hcons : Memory.clearBlock ((x, v) :: m) b = (x, v) :: Memory.clearBlock m b := by
        simp [Memory.clearBlock, hx]
      rw [hcons, Memory.read, Memory.read, ih]
      by_cases hxa : x = a
      · subst hxa
        rw [if_pos rfl, if_pos rfl, if_neg (Ne.symm hx)]
      · rw [if_neg hxa, if_neg hxa]

theorem Memory.read_clearBlocks (l : List (Fin 512)) (m : Memory) (a : Nat) :
    Memory.read (l.foldl Memory.clearBlock m) a = if ∃ b ∈ l, b.val = a / 32 then 0 else Memory.read m a := by
  induction l generalizing m with
  | nil => simp
  | cons b l ih =>
    rw [List.foldl_cons, ih, Memory.read_cleared]
    by_cases hrest : ∃ c ∈ l, c.val = a / 32
    · obtain ⟨c, hc, hca⟩ := hrest
      rw [if_pos ⟨c, hc, hca⟩, if_pos ⟨c, List.mem_cons_of_mem b hc, hca⟩]
    · rw [if_neg hrest]
      refine if_congr ?_ rfl rfl
      rw [List.exists_mem_cons_iff, or_iff_left hrest]

/-- A draw zeroes the blocks it takes and leaves every other byte (R30). -/
theorem Store.read_draw (st : Store) (n a : Nat) :
    Memory.read (st.draw n).mem a = if ∃ b ∈ st.free.take n, b.val = a / 32 then 0 else Memory.read st.mem a :=
  Memory.read_clearBlocks _ _ a

/-! ### The checks -/

section
variable {s : State} {key : Word} {first : Byte}

theorem State.writeChecks_range (h : 1 < first.toNat) : s.writeChecks key first = .error .range := if_pos h

theorem State.writeChecks_absent (h : ¬ 1 < first.toNat) (hf : s.find (Key.ofPacked key) = none) :
    s.writeChecks key first = .error .notFound := by
  simp only [State.writeChecks, if_neg h, hf]

/-- The checks of R40 on the record that the key names. -/
theorem State.writeChecks_found {i : Fin 256} {r : Record} (h : ¬ 1 < first.toNat)
    (hf : s.find (Key.ofPacked key) = some (i, r)) :
    s.writeChecks key first =
      if s.dir.entries[r.key.handle].state = .leaving then .error .retiring
      else if r.origin = .enrolled then .error .wrongState else .ok (i, r) := by
  simp only [State.writeChecks, if_neg h, hf, s.leaving_iff]

end

/-! ### A first part -/

section
variable {s : State} {key total : Word} {first part : Byte} {data : List Byte}

theorem exec_firstPart_refused {e : Result} (hq : s.port.inHand = some (.writeExtension key first total part data))
    (hb : first.getLsbD 0 = true) (hg : s.grant = some .hp) (hc : s.hostGranted.writeChecks key first = .error e) :
    exec (.writeExtensionFirstPart key first total part data) s = .next (s.hostGranted.hostAnswered 0x08 e []) := by
  have hc' : (s.granted .hp).writeChecks key first = .error e := hc
  change execWriteExtensionFirstPart key first total part data s = _
  simp only [execWriteExtensionFirstPart, hc']
  exact taken_due ⟨⟨hq, hg⟩, hb⟩ _ _

theorem exec_firstPart_checked {i : Fin 256} {r : Record}
    (hq : s.port.inHand = some (.writeExtension key first total part data))
    (hb : first.getLsbD 0 = true) (hg : s.grant = some .hp) (hc : s.hostGranted.writeChecks key first = .ok (i, r)) :
    exec (.writeExtensionFirstPart key first total part data) s = .next
      (if 256 < total.toNat ∨ part ≠ 0 ∨ min 32 total.toNat < data.length then
        s.hostGranted.hostAnswered 0x08 .range []
      else
        s.hostGranted.replaceExtension (.writeExtension key first total part data) i r total.toNat data) := by
  have hc' : (s.granted .hp).writeChecks key first = .ok (i, r) := hc
  change execWriteExtensionFirstPart key first total part data s = _
  simp only [execWriteExtensionFirstPart, hc']
  exact taken_due ⟨⟨hq, hg⟩, hb⟩ _ _

variable {i : Fin 256} {r : Record} {q : Request}

/-- Whether the blocks of a first part find no room under the cap and on the stack, once the old chain is back (R40). -/
def State.noRoomFor (s : State) (r : Record) (n : Nat) : Prop :=
  ¬ ((s.entry r.key.handle).charge - r.chain.length + (n + 31) / 32 ≤ (s.entry r.key.handle).cap ∧
    (n + 31) / 32 ≤ (r.chain ++ s.store.free).length)

/-- The chain returns and nothing is drawn, for a total length of 0 or for want of room (R40). -/
theorem State.replaceExtension_none (h : total = 0 ∨ s.noRoomFor r total.toNat) :
    s.replaceExtension q i r total.toNat data =
      (s.setExtension i r none ((s.entry r.key.handle).charge - r.chain.length)
        { s.store with free := r.chain ++ s.store.free }).hostAnswered (requestKind q)
          (if total = 0 then .ok else .storeFull) [] := by
  dsimp only [State.replaceExtension]
  by_cases hzero : total = 0
  · subst hzero
    rfl
  · have hn : total.toNat ≠ 0 := fun hn => hzero (BitVec.toNat_inj.1 hn)
    rw [if_neg hn, if_neg hzero]
    exact if_neg (h.resolve_left hzero)

/-- The new chain is drawn whole and takes the data as its first bytes (R40). -/
theorem State.replaceExtension_drawn (h : ¬ (total = 0 ∨ s.noRoomFor r total.toNat)) :
    s.replaceExtension q i r total.toNat data =
      (s.setExtension i r (some ⟨total.toNat, (r.chain ++ s.store.free).take ((total.toNat + 31) / 32)⟩)
        ((s.entry r.key.handle).charge - r.chain.length + (total.toNat + 31) / 32)
        (((s.store.giveBack r.chain).draw ((total.toNat + 31) / 32)).writeBytes
          ((r.chain ++ s.store.free).take ((total.toNat + 31) / 32)) 0 data)).hostAnswered (requestKind q) .ok [] := by
  obtain ⟨hzero, hroom⟩ := not_or.1 h
  have hn : total.toNat ≠ 0 := fun hn => hzero (BitVec.toNat_inj.1 hn)
  dsimp only [State.replaceExtension]
  rw [if_neg hn]
  exact if_pos (not_not.1 hroom)

end

/-- The bytes of a new extension: the data, then 0x00, and every other block as it was (R30, R32, R40). -/
theorem Store.read_firstPart {st : Store} (h : Memory.wf st.mem) {n : Nat} {data : List Byte} (hn : n ≠ 0)
    (hl : data.length ≤ min 32 n) (a : Nat) :
    Memory.read ((st.draw ((n + 31) / 32)).writeBytes (st.free.take ((n + 31) / 32)) 0 data).mem a =
      if a / 32 = (st.free.getD 0 0).val ∧ a % 32 < data.length then data.getD (a % 32) 0
      else if ∃ b ∈ st.free.take ((n + 31) / 32), b.val = a / 32 then 0 else Memory.read st.mem a := by
  have hwrite := Store.read_writeBytes (Store.wf_draw h ((n + 31) / 32)) (st.free.take ((n + 31) / 32)) 0 0 data
    (by omega) a
  have hfirst : (st.free.take ((n + 31) / 32)).getD 0 0 = st.free.getD 0 0 := by
    simp only [List.getD_eq_getElem?_getD, List.getElem?_take]
    rw [if_pos (by omega)]
  rw [hfirst, Store.read_draw] at hwrite
  simpa using hwrite

/-- Settles O20: the checks in their order, and then the two outcomes of the replacement. -/
theorem firstPartReplacesExtension : Obligations.FirstPartReplacesExtension := by
  intro key first total part data s hq hb hg hwf
  dsimp only
  have hfind : s.hostGranted.find (Key.ofPacked key) = s.find (Key.ofPacked key) := rfl
  by_cases hrange : 1 < first.toNat
  · rw [if_pos hrange, exec_firstPart_refused hq hb hg (State.writeChecks_range hrange)]
  rw [if_neg hrange]
  cases hf : s.find (Key.ofPacked key) with
  | none => exact exec_firstPart_refused hq hb hg (State.writeChecks_absent hrange (hfind.trans hf))
  | some p =>
    obtain ⟨i, r⟩ := p
    have hchecks : s.hostGranted.writeChecks key first =
        if s.dir.entries[r.key.handle].state = .leaving then .error .retiring
        else if r.origin = .enrolled then .error .wrongState else .ok (i, r) :=
      State.writeChecks_found hrange (hfind.trans hf)
    dsimp only
    by_cases hl : s.dir.entries[r.key.handle].state = .leaving
    · rw [if_pos hl] at hchecks ⊢
      exact exec_firstPart_refused hq hb hg hchecks
    rw [if_neg hl] at hchecks ⊢
    by_cases ho : r.origin = .enrolled
    · rw [if_pos ho] at hchecks ⊢
      exact exec_firstPart_refused hq hb hg hchecks
    rw [if_neg ho] at hchecks ⊢
    rw [exec_firstPart_checked hq hb hg hchecks]
    by_cases hbad : 256 < total.toNat ∨ part ≠ 0 ∨ min 32 total.toNat < data.length
    · rw [if_pos hbad, if_pos hbad]
    rw [if_neg hbad, if_neg hbad]
    refine ⟨_, rfl, ?_⟩
    split
    next hnone =>
      rw [State.replaceExtension_none (s := s.hostGranted) hnone]
      exact ⟨rfl, rfl, rfl, rfl, rfl⟩
    next hdrawn =>
      rw [State.replaceExtension_drawn (s := s.hostGranted) hdrawn]
      refine ⟨rfl, rfl, Store.writeBytes_free _ _ _ _, ?_, rfl, rfl⟩
      exact Store.read_firstPart (st := s.store.giveBack r.chain) hwf
        (fun hn => (not_or.1 hdrawn).1 (BitVec.toNat_inj.1 hn)) (by omega)

/-! ### A later part -/

section
variable {s : State} {key total : Word} {first part : Byte} {data : List Byte}

theorem exec_laterPart_refused {e : Result} (hq : s.port.inHand = some (.writeExtension key first total part data))
    (hb : first.getLsbD 0 = false) (hg : s.grant = some .hp) (hc : s.hostGranted.writeChecks key first = .error e) :
    exec (.writeExtensionPart key first total part data) s = .next (s.hostGranted.hostAnswered 0x08 e []) := by
  have hc' : (s.granted .hp).writeChecks key first = .error e := hc
  change execWriteExtensionPart key first total part data s = _
  simp only [execWriteExtensionPart, hc']
  exact taken_due ⟨⟨hq, hg⟩, hb⟩ _ _

theorem exec_laterPart_checked {i : Fin 256} {r : Record}
    (hq : s.port.inHand = some (.writeExtension key first total part data))
    (hb : first.getLsbD 0 = false) (hg : s.grant = some .hp) (hc : s.hostGranted.writeChecks key first = .ok (i, r)) :
    exec (.writeExtensionPart key first total part data) s = .next
      (if r.extension = none ∨ data.length = 0 ∨ 32 < data.length ∨
          r.extLength < part.toNat * 32 + data.length then s.hostGranted.hostAnswered 0x08 .range []
      else
        ({ s with store := s.store.writeBytes r.chain (part.toNat * 32) data } : State).hostGranted.hostAnswered
          0x08 .ok []) := by
  have hc' : (s.granted .hp).writeChecks key first = .ok (i, r) := hc
  change execWriteExtensionPart key first total part data s = _
  simp only [execWriteExtensionPart, hc']
  exact taken_due ⟨⟨hq, hg⟩, hb⟩ _ _

end

/-- The data stand in the block at the chain position of the part index, and every other byte stays (R32, R41). -/
theorem Store.read_laterPart {st : Store} (h : Memory.wf st.mem) (chain : List (Fin 512)) (part : Nat)
    {data : List Byte} (hl : data.length ≤ 32) (a : Nat) :
    Memory.read (st.writeBytes chain (part * 32) data).mem a =
      if (chain.getD part 0).val * 32 ≤ a ∧ a < (chain.getD part 0).val * 32 + data.length then
        data.getD (a - (chain.getD part 0).val * 32) 0
      else Memory.read st.mem a := by
  have hwrite := Store.read_writeBytes h chain part 0 data (by omega) a
  have hin : a / 32 = (chain.getD part 0).val ∧ 0 ≤ a % 32 ∧ a % 32 < 0 + data.length ↔
      (chain.getD part 0).val * 32 ≤ a ∧ a < (chain.getD part 0).val * 32 + data.length := by omega
  rw [Nat.mul_comm part 32]
  refine hwrite.trans ?_
  rw [if_congr hin rfl rfl]
  by_cases hblock : (chain.getD part 0).val * 32 ≤ a ∧ a < (chain.getD part 0).val * 32 + data.length
  · have hoffset : a % 32 - 0 = a - (chain.getD part 0).val * 32 := by omega
    rw [if_pos hblock, if_pos hblock, hoffset]
  · rw [if_neg hblock, if_neg hblock]

/-- Settles O21: the checks in their order, and then the write in place. -/
theorem laterPartWritesInPlace : Obligations.LaterPartWritesInPlace := by
  intro key first total part data s hq hb hg hwf
  dsimp only
  have hfind : s.hostGranted.find (Key.ofPacked key) = s.find (Key.ofPacked key) := rfl
  by_cases hrange : 1 < first.toNat
  · rw [if_pos hrange, exec_laterPart_refused hq hb hg (State.writeChecks_range hrange)]
  rw [if_neg hrange]
  cases hf : s.find (Key.ofPacked key) with
  | none => exact exec_laterPart_refused hq hb hg (State.writeChecks_absent hrange (hfind.trans hf))
  | some p =>
    obtain ⟨i, r⟩ := p
    have hchecks : s.hostGranted.writeChecks key first =
        if s.dir.entries[r.key.handle].state = .leaving then .error .retiring
        else if r.origin = .enrolled then .error .wrongState else .ok (i, r) :=
      State.writeChecks_found hrange (hfind.trans hf)
    dsimp only
    by_cases hl : s.dir.entries[r.key.handle].state = .leaving
    · rw [if_pos hl] at hchecks ⊢
      exact exec_laterPart_refused hq hb hg hchecks
    rw [if_neg hl] at hchecks ⊢
    by_cases ho : r.origin = .enrolled
    · rw [if_pos ho] at hchecks ⊢
      exact exec_laterPart_refused hq hb hg hchecks
    rw [if_neg ho] at hchecks ⊢
    rw [exec_laterPart_checked hq hb hg hchecks]
    by_cases hbad : r.extension = none ∨ data.length = 0 ∨ 32 < data.length ∨
        r.extLength < part.toNat * 32 + data.length
    · rw [if_pos hbad, if_pos hbad]
    · rw [if_neg hbad, if_neg hbad]
      exact ⟨_, rfl, rfl, Store.writeBytes_free _ _ _ _, Store.read_laterPart hwf r.chain part.toNat (by omega)⟩

end Sys2Proof.Machine
end

section
/-! Settles the statements about the Enrolment Engine's table operations, RESERVATION_OPERATION (R115) and
CONCLUSION_OPERATION (R117). -/

namespace Sys2Proof.Machine

/-! ### The reservation: where a key is placed -/

theorem State.place_limited {s : State} {k : Key} (h : s.find k = none) (hl : s.dynamicLimit ≤ s.table.enrolledCount) :
    s.place k .enrolled = .noRoom := by
  cases hw : s.freeWay k with
  | none => exact State.place_full h hw
  | some i => simp [State.place, h, hw, hl]

theorem State.place_enrolled {s : State} {k : Key} {i : Fin 256} (h : s.find k = none) (hw : s.freeWay k = some i)
    (hl : ¬ s.dynamicLimit ≤ s.table.enrolledCount) : s.place k .enrolled = .at_ i := by
  simp [State.place, h, hw, hl]

theorem exec_reservation_granted {s : State} {c : Context} {d : Descriptor} {cl : Classification} (hee : s.ee = some c)
    (ha : c.abandoned = false) (hp : c.phase = .reading) (hd : c.descriptor = some d) (hcl : c.classification = some cl)
    (hk : c.pendingKey = none) (hg : s.grant = some .ee) :
    exec .reservationOperation s = .next ((s.grantedTo .ee .lcm).reserve c d cl) := by
  have hw : c.wantsReservation = true := by simp [Context.wantsReservation, ha, hp, hcl, hk]
  change execReservationOperation s = _
  simp only [execReservationOperation, hee, hd, hcl]
  exact taken_due ⟨hg, hw⟩ _ _

/-! ### The reservation: each outcome -/

section
variable {s : State} {c : Context} {d : Descriptor} {cl : Classification}

theorem State.reserve_duplicate (hp : s.place ⟨c.handle, d.cls, d.inst⟩ .enrolled = .duplicate) :
    s.reserve c d cl = ({ s with ee := some (c.refuse .duplicate) } : State).count .descriptorsRefused := by
  simp only [State.reserve, hp]
  rfl

theorem State.reserve_noRoom (hp : s.place ⟨c.handle, d.cls, d.inst⟩ .enrolled = .noRoom) :
    s.reserve c d cl = s.overflow c := by
  simp only [State.reserve, hp]

theorem State.reserve_placed {i : Fin 256} (hp : s.place ⟨c.handle, d.cls, d.inst⟩ .enrolled = .at_ i) :
    s.reserve c d cl =
      (s.insertAt i (newRecord ⟨c.handle, d.cls, d.inst⟩ .enrolled .pending cl.policy c.index d.flags d.feed
        (storedNominal d.feed cl.lampCheck d.nominal))).drawFor
          { c with pendingKey := some ⟨c.handle, d.cls, d.inst⟩ } d.extLength := by
  simp only [State.reserve, hp]

theorem State.overflow_skips (h : s.settings[(2 : Fin 131)] ≠ 1) :
    s.overflow c =
      { s.count .insertOverflows with
        ee := some (c.refuse .noRoom)
        events :=
          { (s.count .insertOverflows).events with
            flags := (s.count .insertOverflows).events.flags ||| 0x200 } } := by
  have hskip : ¬ s.stallOnOverflow = true := fun hs => h (of_decide_eq_true hs)
  rw [State.overflow, if_neg hskip]
  rfl

/-- A stalled unit still talks, so a FORMING chain becomes FORMED with the end of its context (R18, R101). -/
theorem State.overflow_stalls (h : s.settings[(2 : Fin 131)] = 1) :
    s.overflow c =
      { s.count .insertOverflows with
        dir := { s.dir with entries := s.dir.entries.set c.handle { s.dir.entries[c.handle] with state := .stalled } }
        ee := none
        rcu := if s.rcu.chain = .forming then { s.rcu with chain := .formed, steadyRun := 0 } else s.rcu
        events :=
          { (s.count .insertOverflows).events with
            flags :=
              (s.count .insertOverflows).events.flags ||| if s.rcu.chain = .forming then 0x88 else 0x08 } } := by
  have hstall : s.stallOnOverflow = true := decide_eq_true h
  have hdir : (s.count .insertOverflows).dir = s.dir := by simp
  have hrcu : (s.count .insertOverflows).rcu = s.rcu := by simp
  rw [State.overflow, if_pos hstall]
  generalize s.count .insertOverflows = u at hdir hrcu
  rw [State.stallUnit, State.endContext_eq, ← hdir, ← hrcu]
  have htalks : ∃ g : Fin 8,
      (u.dir.entries.set c.handle { u.dir.entries[c.handle] with state := .stalled })[g].state.onChain = true :=
    ⟨c.handle, by
      show (u.dir.entries.set c.handle _)[c.handle].state.onChain = true
      simp [UnitState.onChain]⟩
  have hflags : u.events.flags ||| 0x08 ||| 0x80 = u.events.flags ||| 0x88 := by
    rw [BitVec.or_assoc]
    rfl
  by_cases hforming : u.rcu.chain = .forming
  · rw [if_pos hforming, if_pos hforming, ← hflags]
    refine (if_pos hforming).trans ?_
    rw [if_pos (by exact htalks)]
    rfl
  · rw [if_neg hforming, if_neg hforming]
    exact if_neg hforming

end

theorem State.insertAt_enrolled {s : State} {i : Fin 256} {r : Record} (h : r.origin = .enrolled) :
    s.insertAt i r =
      { s with
        table :=
          { s.table with slots := s.table.slots.set i (some r), enrolledCount := s.table.enrolledCount + 1 }
        dir :=
          { s.dir with
            entries := s.dir.entries.set r.key.handle
              { s.dir.entries[r.key.handle] with recordCount := s.dir.entries[r.key.handle].recordCount + 1 } } } := by
  dsimp only [State.insertAt]
  rw [if_pos h]
  rfl

/-! ### The reservation: the draw -/

section
variable {s : State} {c : Context} {n : Nat}

theorem State.drawFor_absent (h : n = 0) : s.drawFor c n = s.withContext { c with phase := .concluding } := if_pos h

theorem State.drawFor_withheld (h : n ≠ 0) (ha : s.drawAllowed c.handle n = false) :
    s.drawFor c n = s.withContext { c with phase := .concluding, withheld := true } := by
  dsimp only [State.drawFor]
  rw [if_neg h, if_neg (Bool.eq_false_iff.1 ha)]

theorem State.drawFor_drawn (h : n ≠ 0) (ha : s.drawAllowed c.handle n = true) :
    s.drawFor c n =
      { s with
        dir :=
          { s.dir with
            entries := s.dir.entries.set c.handle
              { s.dir.entries[c.handle] with charge := s.dir.entries[c.handle].charge + (n + 31) / 32 } }
        store := s.store.draw ((n + 31) / 32)
        ee := some
          { c with phase := .fetching, held := s.store.free.take ((n + 31) / 32), nextSegment := 0 } } := by
  dsimp only [State.drawFor]
  rw [if_neg h, if_pos ha]
  rfl

end

/-- Whether a reservation keeps an extension, by the unit's charge and the free count (R34). -/
def State.keeps (s : State) (h : Fin 8) (n : Nat) : Bool :=
  n ≠ 0 && s.dir.entries[h].charge + (n + 31) / 32 ≤ s.dir.entries[h].cap && (n + 31) / 32 ≤ s.store.free.length

/-- The record of a reservation inserted and its extension drawn, left absent or withheld (R13, R34, R115). -/
structure Reserved (s t : State) (i : Fin 256) (r : Record) (c : Context) (n : Nat) : Prop where
  rest : t = { s with table := t.table, dir := t.dir, store := t.store, ee := t.ee }
  table : t.table =
    { s.table with enrolledCount := s.table.enrolledCount + 1, slots := s.table.slots.set i (some r) }
  dir : t.dir =
    { s.dir with
      entries := s.dir.entries.set r.key.handle
        { s.dir.entries[r.key.handle] with
          recordCount := s.dir.entries[r.key.handle].recordCount + 1
          charge :=
            if s.keeps r.key.handle n then s.dir.entries[r.key.handle].charge + (n + 31) / 32
            else s.dir.entries[r.key.handle].charge } }
  free : t.store.free = if s.keeps r.key.handle n then s.store.free.drop ((n + 31) / 32) else s.store.free
  mem : ∀ a, Memory.read t.store.mem a =
    if s.keeps r.key.handle n = true ∧ ∃ b ∈ s.store.free.take ((n + 31) / 32), b.val = a / 32 then 0
    else Memory.read s.store.mem a
  context : t.ee = some
    (if n = 0 then { c with phase := .concluding }
    else if s.keeps r.key.handle n then
      { c with phase := .fetching, held := s.store.free.take ((n + 31) / 32), nextSegment := 0 }
    else { c with phase := .concluding, withheld := true })

theorem Reserved.of_insert {s : State} {i : Fin 256} {r : Record} {c : Context} {n : Nat} (ho : r.origin = .enrolled)
    (hh : c.handle = r.key.handle) : Reserved s ((s.insertAt i r).drawFor c n) i r c n := by
  have hallowed : n ≠ 0 → (s.insertAt i r).drawAllowed c.handle n = s.keeps r.key.handle n := by
    intro hn
    rw [hh, State.insertAt_enrolled ho]
    simp [State.drawAllowed, State.keeps, State.entry, blocksFor, hn]
    rfl
  have hinsert := State.insertAt_enrolled (s := s) (i := i) ho
  by_cases hn : n = 0
  · have hkeeps : s.keeps r.key.handle n = false := by simp [State.keeps, hn]
    rw [State.drawFor_absent hn, hinsert]
    refine ⟨rfl, rfl, ?_, ?_, fun a => ?_, ?_⟩
    · simp [hkeeps, State.withContext]
    · simp [hkeeps, State.withContext]
    · simp [hkeeps, State.withContext]
    · simp [hn, State.withContext]
  · cases hkeeps : s.keeps r.key.handle n with
    | true =>
      rw [State.drawFor_drawn hn ((hallowed hn).trans hkeeps), hinsert]
      refine ⟨rfl, rfl, ?_, ?_, fun a => ?_, ?_⟩
      · simp [hkeeps, hh]
      · simp [hkeeps, Store.draw]
      · simp [hkeeps, Store.read_draw]
      · simp [hkeeps, hn]
    | false =>
      rw [State.drawFor_withheld hn ((hallowed hn).trans hkeeps), hinsert]
      refine ⟨rfl, rfl, ?_, ?_, fun a => ?_, ?_⟩
      · simp [hkeeps, State.withContext]
      · simp [hkeeps, State.withContext]
      · simp [hkeeps, State.withContext]
      · simp [hkeeps, hn, State.withContext]

/-- Settles O44: the key's placement decides between the duplicate, the want of room and the insertion. -/
theorem reservationInsertsPending : Obligations.ReservationInsertsPending := by
  intro c d cl s hee ha hp hd hcl hk hg
  dsimp only
  rw [exec_reservation_granted hee ha hp hd hcl hk hg]
  have hroom (hf : s.find ⟨c.handle, d.cls, d.inst⟩ = none)
      (hno : (∀ j : Fin 256, j.val / 4 = (s.bucketOf ⟨c.handle, d.cls, d.inst⟩).val → s.table.slots[j] ≠ none) ∨
        s.settings[(1 : Fin 131)] * 32 ≤ s.table.enrolledCount) :
      (s.grantedTo .ee .lcm).place ⟨c.handle, d.cls, d.inst⟩ .enrolled = .noRoom := by
    rcases hno with hfull | hlimit
    · exact State.place_full (s := s.grantedTo .ee .lcm) hf (((s.grantedTo .ee .lcm).freeWay_none _).2 hfull)
    · exact State.place_limited (s := s.grantedTo .ee .lcm) hf hlimit
  refine ⟨fun hf => ?duplicate, fun hf hno hset => ?skips, fun hf hno hset => ?stalls,
    fun i hf hlimit hi hslot hfirst => ?inserts⟩
  case duplicate => exact congrArg Host.Outcome.next (State.reserve_duplicate (State.place_duplicate hf))
  case skips =>
    rw [State.reserve_noRoom (hroom hf hno), State.overflow_skips (s := s.grantedTo .ee .lcm) hset]
    rfl
  case stalls =>
    rw [State.reserve_noRoom (hroom hf hno), State.overflow_stalls (s := s.grantedTo .ee .lcm) hset]
    rfl
  case inserts =>
    have hplace : (s.grantedTo .ee .lcm).place ⟨c.handle, d.cls, d.inst⟩ .enrolled = .at_ i :=
      State.place_enrolled (s := s.grantedTo .ee .lcm) hf (((s.grantedTo .ee .lcm).freeWay_spec _ i).2 ⟨hi, hslot, hfirst⟩)
        hlimit
    rw [State.reserve_placed hplace]
    have hreserved := Reserved.of_insert (s := s.grantedTo .ee .lcm) (i := i) (n := d.extLength)
      (c := { c with pendingKey := some ⟨c.handle, d.cls, d.inst⟩ })
      (r := newRecord ⟨c.handle, d.cls, d.inst⟩ .enrolled .pending cl.policy c.index d.flags d.feed
        (storedNominal d.feed cl.lampCheck d.nominal)) rfl rfl
    generalize State.drawFor _ _ _ = t at hreserved
    exact ⟨t, rfl, hreserved.rest, hreserved.table, hreserved.dir, hreserved.free, hreserved.mem, hreserved.context⟩

/-! ### The conclusion -/

theorem exec_conclusion_granted {s : State} {c : Context} {d : Descriptor} {cl : Classification} {k : Key} {i : Fin 256}
    {r : Record} (hee : s.ee = some c) (ha : c.abandoned = false) (hp : c.phase = .concluding)
    (hd : c.descriptor = some d) (hcl : c.classification = some cl) (hk : c.pendingKey = some k)
    (hf : s.find k = some (i, r)) (hg : s.grant = some .ee) :
    exec .conclusionOperation s = .next ((s.grantedTo .ee .lcm).conclude c d cl i r) := by
  have hw : c.wantsConclusion = true := by simp [Context.wantsConclusion, ha, hp, hk]
  have hbind : c.pendingKey.bind s.find = some (i, r) := by rw [hk]; exact hf
  change execConclusionOperation s = _
  simp only [execConclusionOperation, hee, hd, hcl, hbind]
  exact taken_due ⟨hg, hw⟩ _ _

/-- With the withheld note set the blocks held and their charge return (R36, R117). -/
theorem State.returnHeld_eq (s : State) (c : Context) :
    s.returnHeld c =
      { s with
        dir :=
          { s.dir with
            entries :=
              if c.withheld then
                s.dir.entries.set c.handle
                  { s.dir.entries[c.handle] with charge := s.dir.entries[c.handle].charge - c.held.length }
              else s.dir.entries }
        store := { s.store with free := if c.withheld then c.held ++ s.store.free else s.store.free } } := by
  dsimp only [State.returnHeld]
  cases c.withheld <;> rfl

/-- The events of a conclusion: RECORD_CHANGED unless the policy is QUIET, and RECORD_HELD for HOLD (R117). -/
def State.conclusionEvents (s : State) (r : Record) : EventUnit :=
  { s.events with
    flags :=
      s.events.flags ||| (if r.policy = .quiet then 0 else 0x20) ||| if r.policy = .hold then 0x10 else 0 }

theorem concludedRecord_held (c : Context) (d : Descriptor) (cl : Classification) (r : Record) :
    (concludedRecord c d cl r).state = .held ↔ r.policy = .hold := by
  dsimp only [concludedRecord]
  by_cases h : r.policy = .hold <;> simp [h]

/-- A conclusion before its count and its notice: the record, the context, the blocks and the events (R8, R117). -/
def State.concluded (s : State) (c : Context) (d : Descriptor) (cl : Classification) (i : Fin 256) (r : Record) : State :=
  { s with
    table := { s.table with slots := s.table.slots.set i (some ((concludedRecord c d cl r).changedTo true)) }
    dir :=
      { s.dir with
        entries :=
          if c.withheld then
            s.dir.entries.set c.handle
              { s.dir.entries[c.handle] with charge := s.dir.entries[c.handle].charge - c.held.length }
          else s.dir.entries }
    store := { s.store with free := if c.withheld then c.held ++ s.store.free else s.store.free }
    ee := some (concludedContext c cl (concludedRecord c d cl r).state)
    events := s.conclusionEvents r }

/-- The state that a conclusion gives notice in (R117). -/
def State.conclusionCounted (s : State) (withheld : Bool) : State :=
  if withheld then s.count .extensionsWithheld else s

theorem State.conclude_eq (s : State) (c : Context) (d : Descriptor) (cl : Classification) (i : Fin 256) (r : Record) :
    s.conclude c d cl i r = ((s.concluded c d cl i r).conclusionCounted c.withheld).noticeFeed r.feed := by
  have hconcluded : (if (concludedRecord c d cl r).state = .held then
      (((s.returnHeld c).putRecord i (concludedRecord c d cl r) true).withContext
        (concludedContext c cl (concludedRecord c d cl r).state)).raise .recordHeld
      else ((s.returnHeld c).putRecord i (concludedRecord c d cl r) true).withContext
        (concludedContext c cl (concludedRecord c d cl r).state)) = s.concluded c d cl i r := by
    rw [if_congr (concludedRecord_held c d cl r) rfl rfl, State.putRecord_eq _ i r (concludedRecord c d cl r) true rfl,
      State.concluded, State.returnHeld_eq, State.eventsAfterChange, State.conclusionEvents]
    by_cases hhold : r.policy = .hold
    · simp [hhold, State.withContext, State.raise, EventUnit.set, bitMask, EventFlag.bit]
    · by_cases hquiet : r.policy = .quiet
      · simp [hquiet, State.withContext]
      · simp [hhold, hquiet, State.withContext]
  dsimp only [State.conclude]
  rw [hconcluded]
  rfl

theorem State.conclusionCounted_frame (s : State) (withheld : Bool) :
    s.conclusionCounted withheld =
      { s with
        events := (s.conclusionCounted withheld).events, counters := (s.conclusionCounted withheld).counters } := by
  cases withheld
  · rfl
  · apply State.eq_of_fields <;> simp [State.conclusionCounted]

/-- The count of a conclusion follows the events, the counters and the settings alone (R177). -/
theorem State.conclusionCounted_congr {u v : State} (withheld : Bool) (he : u.events = v.events)
    (hc : u.counters = v.counters) (hs : u.settings = v.settings) :
    (u.conclusionCounted withheld).events = (v.conclusionCounted withheld).events ∧
      (u.conclusionCounted withheld).counters = (v.conclusionCounted withheld).counters := by
  cases withheld
  · exact ⟨he, hc⟩
  · simp only [State.conclusionCounted, if_true, State.count_eq, he, hc, hs, and_self]

/-- The notice of a feed looks at the circuits and the settings alone (R149, R150). -/
theorem noticed_congr {s u t : State} {f : Feed} (hl : u.lcm = s.lcm) (hs : u.settings = s.settings)
    (h : noticed u t f) : noticed s t f := by
  simpa only [noticed, State.tolpct, State.tolmin, State.setting, hl, hs] using h

/-- Settles O45: the record, the context, the blocks and the events, and then the notice of the circuit. -/
theorem conclusionSettlesRecord : Obligations.ConclusionSettlesRecord := by
  intro c d cl k i r s hee ha hp hd hcl hk hf hg
  dsimp only
  rw [exec_conclusion_granted hee ha hp hd hcl hk hf hg, State.conclude_eq]
  have hcounted := ((s.grantedTo .ee .lcm).concluded c d cl i r).conclusionCounted_frame c.withheld
  have hcongr := State.conclusionCounted_congr (u := (s.grantedTo .ee .lcm).concluded c d cl i r)
    (v := { s with events := s.conclusionEvents r }) c.withheld rfl rfl rfl
  generalize State.conclusionCounted (State.concluded _ _ _ _ _ _) c.withheld = v at hcounted hcongr
  obtain ⟨hnoticed, hframe⟩ := State.noticeFeed_noticed v r.feed
  have hlcm : v.lcm = s.lcm := by rw [hcounted]; rfl
  have hset : v.settings = s.settings := by rw [hcounted]; rfl
  generalize State.noticeFeed v r.feed = t at hnoticed hframe
  refine ⟨t, rfl, ?_, ?_, ?_, ?_, ?_, noticed_congr hlcm hset hnoticed⟩
  · rw [hframe, hcounted, hcongr.1, hcongr.2]
    rfl
  all_goals
    rw [hframe, hcounted]
    rfl

end Sys2Proof.Machine
end

section
/-! Settles the statement about the settings (R179) and the requests READ_SETTING (R180) and WRITE_SETTING (R181). -/

namespace Sys2Proof.Machine

/-! ### The ranges, the defaults and the clamp -/

/-- The rows of the settings, in the order of their numbers (R179). -/
theorem settingTable_row : ∀ n : Fin 131,
    settingTable[n.val]? = some ((settingRow n).lo, (settingRow n).hi, (settingRow n).dflt) := by
  decide

/-- How each setting is brought into its range (R10, R42, R179). -/
theorem settingRow_kind : ∀ n : Fin 131,
    (settingRow n).kind =
      if n.val = 0 then .odd else if n.val = 5 ∨ n.val = 6 ∨ n.val = 17 then .steps
      else if n.val = 19 then .mask else .bounds := by
  decide

theorem clampSetting_eq (n : Fin 131) (v : Nat) :
    let bounded := min (settingRow n).hi (max (settingRow n).lo v)
    clampSetting n v =
      if n.val = 0 then (if bounded % 2 = 0 then bounded + 1 else bounded)
      else if n.val = 5 ∨ n.val = 6 ∨ n.val = 17 then bounded - bounded % 10
      else if n.val = 19 then v % 256 else bounded := by
  intro bounded
  have hkind := settingRow_kind n
  by_cases hodd : n.val = 0
  · rw [if_pos hodd] at hkind ⊢
    simp only [clampSetting, hkind, bounded]
  · rw [if_neg hodd] at hkind ⊢
    by_cases hsteps : n.val = 5 ∨ n.val = 6 ∨ n.val = 17
    · rw [if_pos hsteps] at hkind ⊢
      simp only [clampSetting, hkind]
      show bounded / 10 * 10 = bounded - bounded % 10
      omega
    · rw [if_neg hsteps] at hkind ⊢
      by_cases hmask : n.val = 19
      · rw [if_pos hmask] at hkind ⊢
        simp only [clampSetting, hkind]
      · rw [if_neg hmask] at hkind ⊢
        simp only [clampSetting, hkind, bounded]

/-! ### READ_SETTING and WRITE_SETTING -/

theorem settingOf_none {b : Byte} (h : 130 < b.toNat) : settingOf b = none := dif_neg (by omega)

theorem settingOf_some {b : Byte} {n : Fin 131} (h : n.val = b.toNat) : settingOf b = some n := by
  have hn := n.isLt
  exact (dif_pos (by omega)).trans (congrArg some (Fin.ext h.symm))

section
variable {s : State} {number : Byte} {n : Fin 131}

theorem exec_readSetting_range (hq : s.port.inHand = some (.readSetting number)) (h : 130 < number.toNat) :
    exec (.readSetting number) s = .next (s.hostAnswered 0x37 .range []) := by
  change execReadSetting number s = _
  simp only [execReadSetting, settingOf_none h]
  exact taken_due hq _ _

theorem exec_readSetting_taken (hq : s.port.inHand = some (.readSetting number)) (hn : n.val = number.toNat) :
    exec (.readSetting number) s = .next (s.hostAnswered 0x37 .ok
      [number, BitVec.ofNat 8 (s.settings[n] / 256), BitVec.ofNat 8 s.settings[n]]) := by
  change execReadSetting number s = _
  simp only [execReadSetting, settingOf_some hn, wordBytes_word]
  exact taken_due hq _ _

variable {value : Word}

theorem exec_writeSetting_range (hq : s.port.inHand = some (.writeSetting number value)) (h : 130 < number.toNat) :
    exec (.writeSetting number value) s = .next (s.hostAnswered 0x38 .range []) := by
  change execWriteSetting number value s = _
  simp only [execWriteSetting, settingOf_none h]
  exact taken_due hq _ _

theorem exec_writeSetting_inUse (hq : s.port.inHand = some (.writeSetting number value)) (hn : n.val = number.toNat)
    (hu : s.settingInUse n (clampSetting n value.toNat) = true) :
    exec (.writeSetting number value) s = .next (s.hostAnswered 0x38 .inUse []) := by
  change execWriteSetting number value s = _
  simp only [execWriteSetting, settingOf_some hn, if_pos hu]
  exact taken_due hq _ _

theorem exec_writeSetting_taken (hq : s.port.inHand = some (.writeSetting number value)) (hn : n.val = number.toNat)
    (hu : ¬ s.settingInUse n (clampSetting n value.toNat) = true) :
    exec (.writeSetting number value) s = .next
      ((s.takeSetting n (clampSetting n value.toNat)).hostAnswered 0x38 .ok
        [number, BitVec.ofNat 8 (clampSetting n value.toNat / 256), BitVec.ofNat 8 (clampSetting n value.toNat)]) := by
  change execWriteSetting number value s = _
  simp only [execWriteSetting, settingOf_some hn, if_neg hu, wordBytes_word]
  exact taken_due hq _ _

end

theorem State.classificationInHand_iff (s : State) :
    s.classificationInHand = true ↔ ∃ x ∈ s.ee, x.classification ≠ none := by
  unfold State.classificationInHand
  cases s.ee <;> simp [Option.isSome_iff_ne_none]

theorem State.records_isEmpty (s : State) : s.records.isEmpty = false ↔ ∃ i : Fin 256, s.table.slots[i] ≠ none := by
  rw [List.isEmpty_eq_false_iff_exists_mem]
  constructor
  · rintro ⟨⟨i, r⟩, hr⟩
    rw [State.records, Table.mem_records] at hr
    exact ⟨i, by rw [hr]; exact (nomatch ·)⟩
  · rintro ⟨i, hi⟩
    obtain ⟨r, hr⟩ := Option.ne_none_iff_exists'.1 hi
    exact ⟨(i, r), (Table.mem_records _ _ _).2 hr⟩

/-- What a write is refused for (R10, R16, R51, R181). -/
theorem State.settingInUse_iff (s : State) (n : Fin 131) (v : Nat) :
    s.settingInUse n v = true ↔
      (n.val = 0 ∧ ∃ i : Fin 256, s.table.slots[i] ≠ none) ∨ (n.val = 1 ∧ v * 32 < s.table.enrolledCount) ∨
        (35 ≤ n.val ∧ n.val ≤ 98 ∧ ∃ x ∈ s.ee, x.classification ≠ none) := by
  simp only [State.settingInUse, Bool.or_eq_true, Bool.and_eq_true, decide_eq_true_iff, Bool.not_eq_true',
    s.records_isEmpty, s.classificationInHand_iff, or_assoc, and_assoc]

theorem UnitState.onChain_iff (u : UnitState) :
    u.onChain = true ↔ u = .joining ∨ u = .enrolling ∨ u = .live ∨ u = .stalled := by
  cases u <;> decide

/-- Settles O36: the rows and the clamp, the read, and the write by its refusals and its effects. -/
theorem settingRequestsReadAndClamp : Obligations.SettingRequestsReadAndClamp := by
  refine ⟨⟨rfl, fun n v lo hi dflt hrow => ?row⟩,
    fun number s hq => ⟨exec_readSetting_range hq, fun n hn => exec_readSetting_taken hq hn⟩,
    fun number value s hq => ⟨exec_writeSetting_range hq, fun n hn => ?write⟩⟩
  case row =>
    obtain ⟨rfl, rfl, rfl⟩ : (settingRow n).lo = lo ∧ (settingRow n).hi = hi ∧ (settingRow n).dflt = dflt := by
      simpa only [settingTable_row n, Option.some.injEq, Prod.mk.injEq] using hrow
    exact ⟨rfl, clampSetting_eq n v⟩
  case write =>
    dsimp only
    by_cases hu : s.settingInUse n (clampSetting n value.toNat) = true
    · rw [if_pos ((s.settingInUse_iff n _).1 hu), exec_writeSetting_inUse hq hn hu]
    · rw [if_neg (mt (s.settingInUse_iff n _).2 hu)]
      generalize hv : clampSetting n value.toNat = v at hu
      have htaken := exec_writeSetting_taken hq hn (hv ▸ hu)
      rw [hv] at htaken
      obtain ⟨hreleases, hreseat⟩ := s.takeSetting_releases n v
      obtain ⟨hblink, hsample⟩ := s.takeSetting_lcm n v
      refine ⟨s.takeSetting n v, htaken, ?_, hreleases, hreseat, fun h => ?_, s.takeSetting_line n v,
        s.takeSetting_polarity n v, s.takeSetting_meter n v, hblink, hsample, fun k => s.takeSetting_circuit n v k⟩
      · apply State.eq_of_fields <;> simp [State.takeSetting]
      · rw [s.takeSetting_entry n v h]
        simp only [UnitState.onChain_iff]

end Sys2Proof.Machine
end

section
/-! Settles the statement about bad frames (R70, R71) and out-of-slot frames (R75 to R79). -/

namespace Sys2Proof.Machine

/-! ### Bad frames -/

/-- A frame that has any of the faults of R71 is not good. -/
theorem State.isGood_false {s : State} {rx : Reception} {bytes : List Byte}
    (h : (rx.upright bytes).length < 3 ∨ 36 < ((rx.upright bytes).getD 2 0).toNat ∨
      (rx.upright bytes).length < ((rx.upright bytes).getD 2 0).toNat + 5 ∨
      ((rx.upright bytes).getD 0 0).toNat / 16 ∈ [0x0, 0x8, 0xF] ∨ 8 ≤ ((rx.upright bytes).getD 1 0).toNat ∨
      crc16 ((rx.upright bytes).take (((rx.upright bytes).getD 2 0).toNat + 3)) ≠
        ofBytes ((rx.upright bytes).getD (((rx.upright bytes).getD 2 0).toNat + 3) 0)
          ((rx.upright bytes).getD (((rx.upright bytes).getD 2 0).toNat + 4) 0) ∨
      (rx.inverted = true ∧ s.settings[(13 : Fin 131)] ≠ 1)) :
    s.isGood rx bytes = false := by
  refine Bool.eq_false_iff.2 fun hgood => ?_
  simp only [State.isGood, frameSound, State.setting, Bool.and_eq_true, decide_eq_true_iff, bne_iff_ne, beq_iff_eq,
    Bool.not_eq_true', Bool.and_eq_false_iff] at hgood
  obtain ⟨⟨⟨⟨⟨⟨⟨⟨hlength, hpayload⟩, hwhole⟩, h0⟩, h8⟩, hF⟩, hposition⟩, hcrc⟩, hsense⟩ := hgood
  rcases h with h | h | h | h | h | h | ⟨hinv, hset⟩
  · omega
  · omega
  · omega
  · simp only [List.mem_cons, List.not_mem_nil, or_false] at h
    omega
  · omega
  · exact h hcrc
  · rcases hsense with hsense | hsense
    · rw [hinv] at hsense
      exact (nomatch hsense)
    · exact of_decide_eq_false hsense hset

theorem exec_receiveFrame_bad {s : State} {rx : Reception} {bytes : List Byte} (hr : s.line.reception = some rx)
    (hbad : s.isGood rx bytes = false) :
    exec (.receiveFrame bytes) s = .next
      (({ s with
        now := max s.now (rx.frameEnd bytes)
        line := { s.line with reception := none }
        rcu := { s.rcu with bad := s.rcu.bad + 1 } } : State).count .framesBad) := by
  change execReceiveFrame bytes s = _
  simp only [execReceiveFrame, hr, State.frameEnds, hbad]
  rfl

/-! ### Out-of-slot frames -/

theorem namedKind_iff (b : Byte) (l : List Byte) (k : HeadKind) :
    namedKind (b :: l) = some k.code ↔ b = BitVec.ofNat 8 k.code := by
  have hb : b = BitVec.ofNat 8 k.code ↔ b.toNat = k.code := by
    rw [BitVec.toNat_eq, BitVec.toNat_ofNat]
    cases k <;> rfl
  have hk : k.code < 16 := by cases k <;> decide
  rw [hb]
  show (if b.toNat < 16 then some b.toNat else none) = some k.code ↔ _
  by_cases h : b.toNat < 16
  · rw [if_pos h, Option.some.injEq]
  · rw [if_neg h]
    exact ⟨fun h' => (nomatch h'), fun h' => absurd (h' ▸ hk) h⟩

theorem HeadKind.answers_bounds {k : HeadKind} {kind : Nat} (h : kind ∈ k.answers) : 0xB ≤ kind ∧ kind ≤ 0xE := by
  cases k <;> simp [HeadKind.answers] at h <;> omega

/-- An answer of a length that its kind allows matches as R78 says. -/
theorem Transaction.matchedBy_iff (x : Transaction) (arrival : Nat) (f : NodeFrame)
    (hl : f.payload.length ∈ nodeLengths f.kind) :
    x.matchedBy arrival f = true ↔ x.answeredBy arrival f.kind f.hop f.position f.payload := by
  have hawaits : (match x.attempt with | .awaiting d => arrival ≤ d | _ => false : Bool) = true ↔
      ∃ deadline, x.attempt = .awaiting deadline ∧ arrival ≤ deadline := by
    cases x.attempt <;> simp
  have hnamed (hk : f.kind ∈ x.request.kind.answers) :
      (f.kind < 0xD ∨ namedKind f.payload = some x.request.kind.code) ↔
        (0xD ≤ f.kind → f.payload.head? = some (BitVec.ofNat 8 x.request.kind.code)) := by
    have hkind := HeadKind.answers_bounds hk
    by_cases hlow : f.kind < 0xD
    · exact ⟨fun _ h => absurd h (by omega), fun _ => .inl hlow⟩
    · have hDE : f.kind = 0xD ∨ f.kind = 0xE := by omega
      have hne : f.payload ≠ [] := by
        intro hnil
        rw [hnil] at hl
        rcases hDE with hD | hE
        · simp [hD, nodeLengths] at hl
        · simp [hE, nodeLengths] at hl
      obtain ⟨b, l, hpayload⟩ := List.exists_cons_of_ne_nil hne
      rw [hpayload, namedKind_iff]
      simp only [List.head?_cons, Option.some.injEq]
      exact ⟨fun h _ => h.resolve_left hlow, fun h => .inr (h (by omega))⟩
  simp only [Transaction.matchedBy, Transaction.answeredBy, Bool.and_eq_true, List.contains_iff_mem,
    Bool.or_eq_true, decide_eq_true_iff, and_assoc]
  refine and_congr hawaits (and_congr_right fun hk => ?_)
  rw [hnamed hk]

theorem State.inSlotWindow_iff (s : State) (arrival p : Nat) : s.inSlotWindow arrival p = true ↔ s.inWindow arrival p := by
  simp only [State.inSlotWindow, State.inWindow, Bool.and_eq_true, decide_eq_true_iff, and_assoc]
  rfl

theorem State.inOpenWindow_iff (s : State) (arrival : Nat) : s.inOpenWindow arrival = true ↔ s.inOpen arrival := by
  simp only [State.inOpenWindow, State.inOpen, Bool.and_eq_true, decide_eq_true_iff]
  rfl

/-- The lengths that each node kind allows (R68). -/
theorem mem_nodeLengths (kind n : Nat) :
    n ∈ nodeLengths kind ↔ (kind = 0x9 ∧ n ∈ [1, 6, 11, 16, 21]) ∨ (kind = 0xA ∧ n = 7) ∨ (kind = 0xB ∧ n = 9) ∨
      (kind = 0xC ∧ n = 34) ∨ (kind = 0xD ∧ n = 1) ∨ (kind = 0xE ∧ n = 2) := by
  unfold nodeLengths
  split <;> simp_all

section
variable {s : State} {arrival : Nat} {f : NodeFrame}

/-- A frame of the head, or of a length its kind does not allow, is out-of-slot (R75, R79). -/
theorem State.placeFrame_foreign (h : f.fromNode = false ∨ f.payload.length ∉ nodeLengths f.kind) :
    s.placeFrame arrival f = s.strayFrame := by
  have h' : f.fromNode = false ∨ (nodeLengths f.kind).contains f.payload.length = false := by
    rwa [Bool.eq_false_iff (b := List.contains _ _), ne_eq, List.contains_iff_mem]
  exact if_pos h'

variable (hf : f.fromNode = true) (hl : f.payload.length ∈ nodeLengths f.kind)
include hf hl

theorem State.placeFrame_node :
    s.placeFrame arrival f =
      if f.kind = 0x9 then s.placePresent arrival f
      else if f.kind = 0xA then (if s.inOpenWindow arrival then s.takeAnnounce f else s.strayFrame)
      else s.placeAnswer arrival f := by
  refine if_neg ?_
  rw [hf, List.contains_iff_mem.2 hl]
  simp

/-- A PRESENT outside its window, or after another one there (R76, R79). -/
theorem State.placeFrame_latePresent (hk : f.kind = 0x9)
    (h : ¬ s.inWindow arrival f.position ∨ f.position ∈ s.rcu.placed) : s.placeFrame arrival f = s.strayFrame := by
  rw [State.placeFrame_node hf hl, if_pos hk]
  refine if_neg ?_
  rw [s.inSlotWindow_iff, Bool.eq_false_iff, ne_eq, List.contains_iff_mem]
  rintro ⟨hin, hplaced⟩
  exact h.elim (· hin) hplaced

/-- An ANNOUNCE outside the open window (R77, R79). -/
theorem State.placeFrame_lateAnnounce (hk : f.kind = 0xA) (h : ¬ s.inOpen arrival) :
    s.placeFrame arrival f = s.strayFrame := by
  have hno : ¬ s.inOpenWindow arrival = true := mt (s.inOpenWindow_iff arrival).1 h
  rw [State.placeFrame_node hf hl, if_neg (by omega), if_pos hk, if_neg hno]

theorem State.placeFrame_answer (hk : 0xB ≤ f.kind) : s.placeFrame arrival f = s.placeAnswer arrival f := by
  rw [State.placeFrame_node hf hl, if_neg (by omega), if_neg (by omega)]

/-- An answer that matches no transaction (R78, R79). -/
theorem State.placeFrame_unmatched (hk : 0xB ≤ f.kind)
    (h : ∀ x, s.line.slot = some x → ¬ x.answeredBy arrival f.kind f.hop f.position f.payload) :
    s.placeFrame arrival f = s.strayFrame := by
  rw [State.placeFrame_answer hf hl hk, State.placeAnswer]
  cases hslot : s.line.slot with
  | none => rfl
  | some x => exact if_neg (mt (x.matchedBy_iff arrival f hl).1 (h x hslot))

end

/-- Settles O38: the faults of R71 and a truncation, and then each way to be out-of-slot. -/
theorem badFramesAreCounted : Obligations.BadFramesAreCounted := by
  refine ⟨fun bytes idle rx s hr => ⟨fun hbad => ?bad, ?idle⟩,
    fun kind hop position fromNode payload sent rx s h0 h15 h8 hhop hposition hlength hcarries => ?stray⟩
  case bad => exact exec_receiveFrame_bad hr (State.isGood_false hbad)
  case idle =>
    change execLineIdleTruncation idle s = _
    simp only [execLineIdleTruncation, hr]
    rfl
  case stray =>
    intro allowed hout
    refine (receive_good h0 h15 h8 hhop hposition hlength hcarries).trans (congrArg Host.Outcome.next ?_)
    rw [← State.strayFrame_eq]
    by_cases hforeign : fromNode = false ∨ ¬ allowed
    · exact State.placeFrame_foreign (hforeign.imp_right (mt (mem_nodeLengths kind payload.length).1))
    · obtain ⟨hnode, hallowed⟩ := not_or.1 hforeign
      have hf : fromNode = true := Bool.not_eq_false _ ▸ hnode
      have hl : payload.length ∈ nodeLengths kind := (mem_nodeLengths _ _).2 (not_not.1 hallowed)
      rcases (or_assoc.2 hout).resolve_left hforeign with ⟨hk, hlate⟩ | ⟨hk, hlate⟩ | ⟨hk, hunmatched⟩
      · refine State.placeFrame_latePresent hf hl hk ?_
        simpa [State.inWindow] using hlate
      · refine State.placeFrame_lateAnnounce hf hl hk ?_
        simpa [State.inOpen] using hlate
      · exact State.placeFrame_unmatched hf hl hk hunmatched

end Sys2Proof.Machine
end

section
/-! Settles the statements about the train line's transactions: TRANSACTION_START (R80, R81), TRANSACTION_PHASE_START (R82,
R87, R108), and the deadline, the timeout and the answer of a transaction (R83 to R86). -/

namespace Sys2Proof.Machine

/-! ### Who waits for a turn -/

theorem State.turnWanted_ee (s : State) :
    s.turnWanted .ee = true ↔ ∃ x, s.ee = some x ∧ x.abandoned = false ∧
      (x.phase = .assigning ∨ (x.phase = .reading ∧ x.index ≠ none ∧ x.classification = none) ∨
        (x.phase = .fetching ∧ x.pendingKey ≠ none) ∨
        (x.phase = .concluding ∧ x.pendingKey = none ∧ x.verdict ≠ none)) := by
  cases hee : s.ee with
  | none => simp [State.turnWanted, hee]
  | some c =>
    cases hp : c.phase <;>
      simp [State.turnWanted, hee, Context.wantsTurn, hp, Option.isSome_iff_ne_none]

theorem State.turnWanted_ou (s : State) : s.turnWanted .ou = true ↔ s.ou.queue ≠ [] ∧ s.ou.note = none := by
  simp [State.turnWanted]

theorem State.turnWanted_ud (s : State) :
    s.turnWanted .ud = true ↔ s.dir.releaseList ≠ [] ∨ ∃ r, s.dir.reseat = some r ∧ r.sent = false := by
  cases hr : s.dir.reseat <;> simp [State.turnWanted, hr]

/-- The turn goes to the first requester of the rotation that waits (R80, R81). -/
theorem State.nextTurn_iff (s : State) (r : Requester) :
    s.nextTurn = some r ↔ ∃ before after,
      s.line.turn.after = before ++ r :: after ∧ (∀ q ∈ before, s.turnWanted q = false) ∧ s.turnWanted r = true := by
  simp only [State.nextTurn, List.find?_eq_some_iff_append, Bool.not_eq_true']
  constructor
  · rintro ⟨hr, before, after, happend, hbefore⟩
    exact ⟨before, after, happend, hbefore, hr⟩
  · rintro ⟨before, after, happend, hbefore, hr⟩
    exact ⟨hr, before, after, happend, hbefore⟩

/-! ### TRANSACTION_START -/

/-- The pointer has moved to a requester whose turn it is (R80). -/
def State.turned (s : State) (r : Requester) : State := { s with line := { s.line with turn := r, lineOut := [] } }

section
variable {s : State}

theorem exec_transactionStart_idle (h : ¬ s.mayStart) : exec .transactionStart s = .next s := by
  change execTransactionStart s = _
  unfold execTransactionStart
  cases s.nextTurn with
  | none => rfl
  | some r => exact taken_not h _ _

theorem exec_transactionStart_none (h : s.nextTurn = none) : exec .transactionStart s = .next s := by
  change execTransactionStart s = _
  simp only [execTransactionStart, h]

theorem exec_transactionStart_ou (hm : s.mayStart) (h : s.nextTurn = some .ou) :
    exec .transactionStart s = .next (s.turned .ou).startOu := by
  change execTransactionStart s = _
  simp only [execTransactionStart, h, taken_due hm]
  rfl

theorem exec_transactionStart_ud (hm : s.mayStart) (h : s.nextTurn = some .ud) :
    exec .transactionStart s = .next (s.turned .ud).startUd := by
  change execTransactionStart s = _
  simp only [execTransactionStart, h, taken_due hm]
  rfl

theorem exec_transactionStart_ee (hm : s.mayStart) (h : s.nextTurn = some .ee) :
    exec .transactionStart s = .next (s.turned .ee).startEe := by
  change execTransactionStart s = _
  simp only [execTransactionStart, h, taken_due hm]
  rfl

/-- A RELEASE to the head of the release list (R63, R81). -/
theorem State.startUd_release {p : Nat} {ps : List Nat} (h : s.dir.releaseList = p :: ps) :
    s.startUd = s.sentOrHeld ⟨.ud, ⟨.release, p, []⟩, p, none, 0, .held, false⟩ := by
  simp only [State.startUd, h, State.occupy_trySend]
  rfl

/-- The ASSIGN of a reseat in hand (R65, R81). -/
theorem State.startUd_reseat {r : Reseat} (h : s.dir.releaseList = []) (hr : s.dir.reseat = some r) :
    s.startUd =
      ({ s with dir := { s.dir with reseat := some { r with sent := true } } } : State).sentOrHeld
        ⟨.ud, ⟨.assign, r.fromPosition, s.assignPayload r.handle r.toPosition⟩, r.toPosition, some r.handle, 0, .held,
          false⟩ := by
  simp only [State.startUd, h, hr, State.occupy_trySend]
  rfl

/-- The request of the context's next step (R81, R106). -/
theorem State.startEe_sends {x : Context} {f : HeadFrame} (hee : s.ee = some x) (hf : s.contextFrame x = f) :
    s.startEe = s.sentOrHeld ⟨.ee, f, f.position, some x.handle, 0, .held, false⟩ := by
  simp only [State.startEe, hee, hf, State.occupy_trySend]
  rfl

variable {x : Context} {p : Nat}

theorem State.positionOf_some {h : Fin 8} (hp : s.dir.entries[h].position = some p) : s.positionOf h = p := by
  show (s.dir.entries[h].position).getD 0 = p
  rw [hp]
  rfl

theorem State.contextFrame_assign (hp : s.positionOf x.handle = p) (hphase : x.phase = .assigning) :
    s.contextFrame x = ⟨.assign, p, s.assignPayload x.handle p⟩ := by
  simp only [State.contextFrame, hphase, hp]

variable {i : BitVec 6} (hp : s.positionOf x.handle = p) (hi : x.index = some i)
include hp hi

theorem State.contextFrame_descq (hphase : x.phase = .reading) :
    s.contextFrame x = ⟨.descq, p, [i.zeroExtend 8]⟩ := by
  simp only [State.contextFrame, hphase, hp, hi, Option.getD_some]

theorem State.contextFrame_extq (hphase : x.phase = .fetching) :
    s.contextFrame x = ⟨.extq, p, [i.zeroExtend 8, BitVec.ofNat 8 x.nextSegment]⟩ := by
  simp only [State.contextFrame, hphase, hp, hi, Option.getD_some]
  rfl

theorem State.contextFrame_verdict {v : Verdict} (hphase : x.phase = .concluding) (hv : x.verdict = some v) :
    s.contextFrame x = ⟨.verdict, p, v.payload i⟩ := by
  simp only [State.contextFrame, hphase, hp, hi, hv, Option.getD_some]

end

theorem State.mayStart_or (s : State) (h : s.port.loading = true ∨ s.line.slot ≠ none ∨ s.line.ouTurn = true ∨
    s.rcu.phaseOpen = false ∨ s.rcu.cycleStart + s.rcu.period * 1000 ≤ s.now ∨ s.rcu.chain = .disturbed) :
    ¬ s.mayStart := by
  rintro ⟨hload, hslot, hturn, hphase, hnow, hchain⟩
  have hcycle : s.now < s.rcu.cycleStart + s.rcu.period * 1000 := hnow
  rcases h with h | h | h | h | h | h
  · rw [hload] at h; exact (nomatch h)
  · exact h hslot
  · rw [hturn] at h; exact (nomatch h)
  · rw [hphase] at h; exact (nomatch h)
  · omega
  · exact hchain h

/-- Settles O41: who waits, when nothing may start, and what each requester's turn hands over. -/
theorem transactionStartServesInTurn : Obligations.TransactionStartServesInTurn := by
  refine ⟨⟨rfl, rfl, rfl⟩, fun s => ⟨s.turnWanted_ee, s.turnWanted_ou, s.turnWanted_ud⟩,
    fun s h => exec_transactionStart_idle (s.mayStart_or h), fun s hload hslot hturn hphase hnow hchain => ?_⟩
  have hm : s.mayStart := ⟨hload, hslot, hturn, hphase, hnow, hchain⟩
  refine ⟨s.nextTurn_iff, exec_transactionStart_none, fun h => exec_transactionStart_ou hm h, fun p ps h hlist => ?release,
    fun r h hlist hr => ?reseat, fun x p h hee hp => ?context⟩
  case release =>
    rw [exec_transactionStart_ud hm h, State.startUd_release (s := s.turned .ud) hlist]
    rfl
  case reseat =>
    rw [exec_transactionStart_ud hm h, State.startUd_reseat (s := s.turned .ud) hlist hr]
    rfl
  case context =>
    have hposition : (s.turned .ee).positionOf x.handle = p := State.positionOf_some hp
    have hsends (f : HeadFrame) (hf : (s.turned .ee).contextFrame x = f) :=
      (exec_transactionStart_ee hm h).trans (congrArg Host.Outcome.next (State.startEe_sends (s := s.turned .ee) hee hf))
    exact ⟨fun hph => hsends _ (State.contextFrame_assign hposition hph), fun i hi =>
      ⟨fun hph => hsends _ (State.contextFrame_descq hposition hi hph),
        fun hph => hsends _ (State.contextFrame_extq hposition hi hph),
        fun n hph hv => hsends _ (State.contextFrame_verdict hposition hi hph hv),
        fun n hph hv => hsends _ (State.contextFrame_verdict hposition hi hph hv),
        fun r hph hv => hsends _ (State.contextFrame_verdict hposition hi hph hv)⟩⟩

/-! ### TRANSACTION_PHASE_START -/

/-- The Roll Call Unit takes notice of a context's start: a chain that is not DISTURBED is FORMING (R101). -/
def State.contextTaken (s : State) (c : Context) : State :=
  let chain : ChainState := if s.rcu.chain = .disturbed then .disturbed else .forming
  { s with
    ee := some c
    rcu := { s.rcu with chain := chain }
    events := if chain = s.rcu.chain then s.events else { s.events with flags := s.events.flags ||| 0x80 } }

theorem State.startContext_eq (s : State) (c : Context) : s.startContext c = s.contextTaken c := by
  have hframe (chain : ChainState) (h : s.rcu.chain = chain) : { s.rcu with chain := chain } = s.rcu := by rw [← h]
  unfold State.startContext State.contextStarted State.setChain State.contextTaken
  cases hchain : s.rcu.chain with
  | disturbed => simp [State.withContext, hchain, chainOnStart, hframe]
  | forming => simp [State.withContext, hchain, chainOnStart, hframe]
  | dormant => simp [State.withContext, hchain, chainOnStart, State.raise, EventUnit.set, bitMask, EventFlag.bit]
  | formed => simp [State.withContext, hchain, chainOnStart, State.raise, EventUnit.set, bitMask, EventFlag.bit]
  | steady => simp [State.withContext, hchain, chainOnStart, State.raise, EventUnit.set, bitMask, EventFlag.bit]

/-- An entry calls for a rescan: it is LIVE with a pending index, at a position of the chain (R108). -/
def State.callsRescan (s : State) (g : Fin 8) : Prop :=
  s.dir.entries[g].state = .live ∧ s.dir.entries[g].pendingSet ≠ 0 ∧
    ∃ p, s.dir.entries[g].position = some p ∧ 1 ≤ p ∧ p ≤ 6

/-- The LIVE entry with a pending index at a position (R108). -/
def State.rescanAt (s : State) (p : Nat) : Option (Fin 8) :=
  all8.find? fun h => (s.entry h).state = .live && (s.entry h).pendingSet ≠ 0 && (s.entry h).position = some p

theorem State.rescanAt_some {s : State} {p : Nat} {h : Fin 8} (hp : s.rescanAt p = some h) :
    s.dir.entries[h].state = .live ∧ s.dir.entries[h].pendingSet ≠ 0 ∧ s.dir.entries[h].position = some p := by
  have hfound := List.find?_some hp
  simp only [Bool.and_eq_true, decide_eq_true_iff, and_assoc] at hfound
  exact hfound

theorem State.rescanAt_isSome {s : State} {p : Nat} {h : Fin 8} (hl : s.dir.entries[h].state = .live)
    (hs : s.dir.entries[h].pendingSet ≠ 0) (hp : s.dir.entries[h].position = some p) : ∃ g, s.rescanAt p = some g := by
  refine Option.isSome_iff_exists.1 (List.find?_isSome.2 ⟨h, mem_all8 h, ?_⟩)
  simp only [Bool.and_eq_true, decide_eq_true_iff]
  exact ⟨⟨hl, hs⟩, hp⟩

theorem State.rescanEntry_none {s : State} (h : ∀ g, ¬ s.callsRescan g) : s.rescanEntry = none := by
  refine List.findSome?_eq_none_iff.2 fun p hp => ?_
  have hrange : 1 ≤ p ∧ p ≤ 6 := by
    simp only [List.mem_cons, List.not_mem_nil, or_false] at hp
    omega
  refine Option.eq_none_iff_forall_ne_some.2 fun g hg => ?_
  obtain ⟨hl, hs, hposition⟩ := State.rescanAt_some (s := s) (p := p) hg
  exact h g ⟨hl, hs, p, hposition, hrange⟩

/-- Each position of the chain stands in the list of positions after the lower ones. -/
theorem positions_split (p : Nat) (h1 : 1 ≤ p) (h6 : p ≤ 6) :
    ∃ before after, [1, 2, 3, 4, 5, 6] = before ++ p :: after ∧ ∀ q ∈ before, q < p := by
  refine ⟨List.range' 1 (p - 1), List.range' (p + 1) (6 - p), ?_, fun q hq => ?_⟩
  · interval_cases p <;> rfl
  · rw [List.mem_range'_1] at hq
    omega

theorem State.rescanEntry_lowest {s : State} {h : Fin 8} (hc : s.callsRescan h)
    (hlow : ∀ g, s.callsRescan g → ∀ p q, s.dir.entries[h].position = some p → s.dir.entries[g].position = some q →
      p < q ∨ g = h) : s.rescanEntry = some h := by
  obtain ⟨hl, hs, p, hp, h1, h6⟩ := hc
  obtain ⟨before, after, hsplit, hbefore⟩ := positions_split p h1 h6
  have hat {q : Nat} {g : Fin 8} (hq : s.rescanAt q = some g) (hqp : q ≤ p) (hq1 : 1 ≤ q) : g = h := by
    obtain ⟨hgl, hgs, hgq⟩ := State.rescanAt_some hq
    exact (hlow g ⟨hgl, hgs, q, hgq, hq1, by omega⟩ p q hp hgq).resolve_left (by omega)
  refine List.findSome?_eq_some_iff.2 ⟨before, p, after, hsplit, ?_, fun q hq => ?_⟩
  · obtain ⟨g, hg⟩ := State.rescanAt_isSome hl hs hp
    exact hg.trans (congrArg some (hat hg le_rfl h1))
  · refine Option.eq_none_iff_forall_ne_some.2 fun g hg => ?_
    have hq1 : 1 ≤ q := by
      have hmem : q ∈ [1, 2, 3, 4, 5, 6] := hsplit ▸ List.mem_append_left _ hq
      simp only [List.mem_cons, List.not_mem_nil, or_false] at hmem
      omega
    have hgh := hat (g := g) hg (le_of_lt (hbefore q hq)) hq1
    have hposition := (State.rescanAt_some (s := s) (p := q) hg).2.2
    rw [hgh, hp, Option.some.injEq] at hposition
    exact absurd hposition (ne_of_gt (hbefore q hq))

theorem lowestIndex_eq {p : BitVec 64} {i : Fin 64} (hi : p.getLsbD i.val = true)
    (hlow : ∀ j : Fin 64, j < i → p.getLsbD j.val = false) : lowestIndex p = some (BitVec.ofNat 6 i.val) := by
  have hfind : (List.range 64).find? (fun j => p.getLsbD j) = some i.val := by
    rw [List.find?_range_eq_some]
    exact ⟨hi, List.mem_range.2 i.isLt, fun j hj => by simpa using hlow ⟨j, by omega⟩ hj⟩
  rw [lowestIndex, hfind]
  rfl

section
variable {s : State}

theorem exec_phaseStart_taken (hload : s.port.loading = false) (hphase : s.rcu.phaseOpen = false) :
    exec .transactionPhaseStart s = .next s.openPhase :=
  taken_due (due := s.port.loading = false ∧ s.rcu.phaseOpen = false) ⟨hload, hphase⟩ _ _

/-- The phase has opened, 12 ms after the end of the ROLL (R75, R82). -/
def State.phaseOpened (s : State) : State :=
  { s with
    now := max s.now (s.rcu.cycleStart + 12360)
    line := { s.line with lineOut := [] }
    rcu := { s.rcu with phaseOpen := true } }

theorem State.openPhase_eq (s : State) : s.openPhase = s.phaseOpened.rescan.sendBroadcast.sendHeld := by
  have hmoment : s.rollEnd + 12000 = s.rcu.cycleStart + 12360 := by
    have hroll : s.rollEnd = s.rcu.cycleStart + 360 := rfl
    omega
  rw [State.openPhase, hmoment]
  rfl

theorem State.rescan_idle (h : s.ee ≠ none ∨ ∀ g, ¬ s.callsRescan g) : s.rescan = s := by
  unfold State.rescan
  rcases h with h | h
  · obtain ⟨c, hc⟩ := Option.ne_none_iff_exists'.1 h
    rw [hc]
  · rw [State.rescanEntry_none h]
    cases s.ee <;> rfl

theorem State.rescan_taken {h : Fin 8} (hee : s.ee = none) (he : s.rescanEntry = some h) :
    s.rescan = s.startContext (newContext h .reading (lowestIndex s.dir.entries[h].pendingSet)) := by
  simp only [State.rescan, hee, he]
  rfl

theorem State.sendHeld_empty (h : s.line.slot = none) : s.sendHeld = s := by
  simp only [State.sendHeld, h]

theorem State.sendHeld_slot {x : Transaction} (h : s.line.slot = some x) :
    s.sendHeld = if x.attempt = .held then s.sentOrHeld x else s := by
  simp only [State.sendHeld, h, s.trySend_eq x h]

/-- A state after the owed broadcast RELEASE, which goes out first and is then owed no longer (R87, R104). -/
def State.broadcastSent (s u : State) (moment : Nat) : State :=
  if s.rcu.broadcastOwed then
    { u with
      rcu := { u.rcu with broadcastOwed := false }
      line :=
        { u.line with
          reception := none
          txEnd := max moment s.line.txEnd + 280
          lineOut := [HeadFrame.bytes ⟨.release, 0, []⟩ s.line.txInverted] } }
  else u

theorem State.broadcastSent_slot (s u : State) (moment : Nat) : (s.broadcastSent u moment).line.slot = u.line.slot := by
  unfold State.broadcastSent
  split <;> rfl

variable {u : State} {moment : Nat} (hnow : u.now = moment) (hline : u.line = { s.line with lineOut := [] })
  (howed : u.rcu.broadcastOwed = s.rcu.broadcastOwed)
include hnow hline howed

theorem State.sendBroadcast_eq : u.sendBroadcast = s.broadcastSent u moment := by
  have htx : u.line.txEnd = s.line.txEnd := by rw [hline]
  have hout : u.line.lineOut = [] := by rw [hline]
  have hsense : u.line.txInverted = s.line.txInverted := by rw [hline]
  rw [State.sendBroadcast, State.broadcastSent, howed, ← hnow, ← htx, ← hsense]
  cases s.rcu.broadcastOwed
  · rfl
  · simp only [if_true, State.transmit, hout, List.nil_append]
    rfl

/-- What is sent once the phase has opened: the owed broadcast, and then the attempt that is held (R82, R87). -/
theorem State.phaseSends_eq :
    u.sendBroadcast.sendHeld =
      s.line.slot.elim (s.broadcastSent u moment) fun x =>
        if x.attempt = .held then (s.broadcastSent u moment).sentOrHeld x else s.broadcastSent u moment := by
  rw [State.sendBroadcast_eq hnow hline howed]
  have hkept : (s.broadcastSent u moment).line.slot = s.line.slot := by
    rw [State.broadcastSent_slot, hline]
  cases hslot : s.line.slot with
  | none => exact State.sendHeld_empty (hkept.trans hslot)
  | some x => exact State.sendHeld_slot (hkept.trans hslot)

end

/-- Two ways to write what depends on the slot's transaction, equal where their parts are. -/
theorem slot_elim_eq {o : Option Transaction} {a b : State} {f g : Transaction → State} (hnone : a = b)
    (hsome : ∀ x, f x = g x) : o.elim a f = match o with | some x => g x | none => b := by
  cases o with
  | none => exact hnone
  | some x => exact hsome x

/-- Settles O40: the rescan that is due or not, and then what is sent. -/
theorem phaseStartSendsWhatWaits : Obligations.PhaseStartSendsWhatWaits := by
  intro s hload hphase
  dsimp only
  rw [exec_phaseStart_taken hload hphase, State.openPhase_eq]
  refine ⟨fun hidle => ?idle, fun h i hee hcalls hlow hi hfirst => ?taken⟩
  case idle =>
    rw [State.rescan_idle (s := s.phaseOpened) hidle, State.phaseSends_eq (s := s) (u := s.phaseOpened) rfl rfl rfl]
    exact congrArg Host.Outcome.next (slot_elim_eq rfl fun _ => rfl)
  case taken =>
    have hentry : s.phaseOpened.rescanEntry = some h := State.rescanEntry_lowest hcalls hlow
    have hindex : lowestIndex s.phaseOpened.dir.entries[h].pendingSet = some (BitVec.ofNat 6 i.val) :=
      lowestIndex_eq hi hfirst
    rw [State.rescan_taken (s := s.phaseOpened) hee hentry, hindex, State.startContext_eq]
    have hsends := State.phaseSends_eq (s := s)
      (u := s.phaseOpened.contextTaken (newContext h .reading (some (BitVec.ofNat 6 i.val)))) rfl rfl rfl
    exact congrArg Host.Outcome.next (hsends.trans (slot_elim_eq rfl fun _ => rfl))

end Sys2Proof.Machine
end

section
/-! Settles the statement about a transaction's deadline, its timeout and its answer (R83 to R86). -/

namespace Sys2Proof.Machine

section
variable {s : State} {x : Transaction} {deadline : Nat}

theorem exec_requestFrameEnd_sending {ends timeout : Nat} (hslot : s.line.slot = some x)
    (hsending : x.attempt = .sending ends timeout) :
    exec .requestFrameEnd s =
      .next ((s.advance ends).occupy { x with attempt := .awaiting (ends + timeout) }) := by
  change execRequestFrameEnd s = _
  simp only [execRequestFrameEnd, hslot, hsending]

theorem exec_answerTimeout_awaiting (hslot : s.line.slot = some x) (hawaiting : x.attempt = .awaiting deadline) :
    exec .answerTimeout s =
      taken (s.stillReceiving deadline = false) ((s.advance deadline).clearOut.timeout x) s := by
  change execAnswerTimeout s = _
  simp only [execAnswerTimeout, hslot, hawaiting]

theorem State.stillReceiving_false (h : ∀ rx, s.line.reception = some rx → deadline < rx.arrival) :
    s.stillReceiving deadline = false := by
  unfold State.stillReceiving
  cases hrx : s.line.reception with
  | none => rfl
  | some rx => exact decide_eq_false (Nat.not_le.2 (h rx hrx))

theorem State.stillReceiving_true {rx : Reception} (hrx : s.line.reception = some rx) (h : rx.arrival ≤ deadline) :
    s.stillReceiving deadline = true := by
  unfold State.stillReceiving
  rw [hrx]
  exact decide_eq_true h

/-- The timeout of a transaction that is not withdrawn, within its retries: the request goes out again or is held (R84). -/
theorem State.timeout_retry (hkept : x.withdrawn = false) (hretry : x.attempts ≤ s.settings[(12 : Fin 131)]) :
    s.timeout x = s.sentOrHeld x := by
  have hgone : ¬ x.withdrawn = true := Bool.eq_false_iff.1 hkept
  have hretry' : x.attempts ≤ s.setting 12 := hretry
  rw [State.timeout, if_neg hgone, if_pos hretry']
  exact State.occupy_trySend s { x with attempt := .held }

theorem State.timeout_withdrawn (hgone : x.withdrawn = true) : s.timeout x = s.endTransaction x .withdrawn := by
  rw [State.timeout, hgone, if_pos rfl]

theorem State.timeout_failed (hkept : x.withdrawn = false) (hpast : ¬ x.attempts ≤ s.settings[(12 : Fin 131)]) :
    s.timeout x = (s.count .transactionsFailed).endTransaction x .failed := by
  have hgone : ¬ x.withdrawn = true := Bool.eq_false_iff.1 hkept
  have hpast' : ¬ x.attempts ≤ s.setting 12 := hpast
  rw [State.timeout, if_neg hgone, if_neg hpast']

/-- The end of a transaction as its requester is told it, an outcome that WITHDRAWN does not replace (R83 to R86). -/
theorem State.endTransaction_toldTo {o : Ending} (h : (if x.withdrawn then .withdrawn else o) = o) :
    ({ s with line := { s.line with slot := none } } : State).toldTo (s.endTransaction x o) x o := by
  have htold := s.endTransaction_told x o
  rwa [h] at htold

end

/-- The lengths of the answers' payloads (R68). -/
theorem answer_lengths {kind n : Nat} (h : (kind, n) ∈ [(0xB, 9), (0xC, 34), (0xD, 1), (0xE, 2)]) :
    0xB ≤ kind ∧ kind < 0xF ∧ n ≤ 36 ∧ n ∈ nodeLengths kind := by
  simp only [List.mem_cons, Prod.mk.injEq, List.not_mem_nil, or_false] at h
  rcases h with ⟨rfl, rfl⟩ | ⟨rfl, rfl⟩ | ⟨rfl, rfl⟩ | ⟨rfl, rfl⟩ <;> decide

/-- A good answer frame ends the transaction it matches (R78, R85). -/
theorem exec_receiveFrame_answer {s : State} {rx : Reception} {x : Transaction} {kind hop position : Nat}
    {payload sent : List Byte} (hhop : hop < 8) (hposition : position < 8)
    (hkind : (kind, payload.length) ∈ [(0xB, 9), (0xC, 34), (0xD, 1), (0xE, 2)])
    (hcarries : s.carries rx (frameBytes kind hop true position payload) sent) (hslot : s.line.slot = some x)
    (hanswers : x.answeredBy rx.arrival kind hop position payload) :
    exec (.receiveFrame sent) s = .next
      ((s.afterGood rx payload.length).endTransaction x (if kind = 0xE then .declined else .answered payload)) := by
  obtain ⟨hlow, hhigh, hlength, hallowed⟩ := answer_lengths hkind
  refine (receive_good (by omega) hhigh (by omega) hhop hposition hlength hcarries).trans
    (congrArg Host.Outcome.next ?_)
  rw [State.placeFrame_answer rfl hallowed hlow]
  have hslot' : (s.afterGood rx payload.length).line.slot = some x := hslot
  have hmatched := (x.matchedBy_iff rx.arrival ⟨kind, hop, true, position, payload⟩ hallowed).2 hanswers
  simp only [State.placeAnswer, hslot', hmatched, if_true]

/-- Settles O42: the deadline's setting, the timeout's three ways, the wait for a frame, and the answer. -/
theorem timeoutRetriesThenFails : Obligations.TimeoutRetriesThenFails := by
  refine ⟨fun x ends timeout s hslot hsending => exec_requestFrameEnd_sending hslot hsending,
    fun x deadline s hslot hawaiting hclear => ?timeout, fun x deadline rx s hslot hawaiting hrx hearly => ?waits,
    fun x kind hop position payload sent rx s hhop hposition hkind hcarries hslot hanswers => ?answer⟩
  case timeout =>
    have hexec := (exec_answerTimeout_awaiting hslot hawaiting).trans
      (taken_due (State.stillReceiving_false hclear) _ _)
    dsimp only
    by_cases hgone : x.withdrawn = true
    · rw [if_pos hgone]
      rw [State.timeout_withdrawn hgone] at hexec
      exact ⟨_, hexec, State.endTransaction_toldTo (ite_self _)⟩
    · rw [if_neg hgone]
      have hkept : x.withdrawn = false := Bool.eq_false_iff.2 hgone
      by_cases hretry : x.attempts ≤ s.settings[(12 : Fin 131)]
      · rw [if_pos hretry]
        exact hexec.trans (congrArg Host.Outcome.next (State.timeout_retry hkept hretry))
      · rw [if_neg hretry]
        have hfailed := State.timeout_failed (s := (s.advance deadline).clearOut) hkept hretry
        exact ⟨_, hexec.trans (congrArg Host.Outcome.next hfailed), State.endTransaction_toldTo (if_neg hgone)⟩
  case waits =>
    refine (exec_answerTimeout_awaiting hslot hawaiting).trans (taken_not ?_ _ _)
    rw [State.stillReceiving_true hrx hearly]
    exact (nomatch ·)
  case answer =>
    exact ⟨_, exec_receiveFrame_answer hhop hposition hkind hcarries hslot hanswers,
      State.endTransaction_told (s.afterGood rx payload.length) x _⟩

end Sys2Proof.Machine
end

section
/-! Settles the statement about the cycle's end: the settling sequence (R92, R96 to R98, R102, R103), the refill of the meters
(R89), the ageing mark (R130), and the next ROLL (R90, R91). -/

namespace Sys2Proof.Machine

theorem vector_eq_ofFn {α : Type} {v : Vector α 8} {f : Fin 8 → α} (h : ∀ g : Fin 8, v[g] = f g) : v = Vector.ofFn f :=
  Vector.ext fun i hi => (h ⟨i, hi⟩).trans (Vector.getElem_ofFn hi).symm

theorem perHandle_eq_ofFn {α : Type} (f : Fin 8 → α) : perHandle f = Vector.ofFn f :=
  vector_eq_ofFn (perHandle_getElem f)

/-! ### Step 1, the void judgement -/

/-- The cycle's end is reached, and the void streak follows the judgement of the cycle (R92, R96). -/
def State.streakJudged (s : State) : State :=
  { s with
    now := max s.now (s.rcu.cycleStart + s.rcu.period * 1000)
    line := { s.line with lineOut := [] }
    rcu := { s.rcu with voidStreak := if s.cycleVoid then min 255 (s.rcu.voidStreak + 1) else 0 } }

/-- A void cycle counts in void_cycles (R96). -/
def State.voidJudged (s : State) : State :=
  if s.cycleVoid then s.streakJudged.count .voidCycles else s.streakJudged

theorem State.judgeVoid_eq (s : State) : (s.advance s.cycleEnd).clearOut.judgeVoid = s.voidJudged := by
  have hvoid : (s.advance s.cycleEnd).clearOut.cycleVoid = s.cycleVoid := rfl
  unfold State.judgeVoid State.voidJudged State.streakJudged
  rw [hvoid]
  by_cases h : s.cycleVoid = true
  · simp only [if_pos h]
    rfl
  · simp only [if_neg h]
    rfl

theorem State.voidJudged_frame (s : State) :
    s.voidJudged.dir = s.dir ∧ s.voidJudged.settings = s.settings ∧ s.voidJudged.line = s.streakJudged.line ∧
      s.voidJudged.rcu = s.streakJudged.rcu := by
  unfold State.voidJudged
  split <;> simp [State.streakJudged]

/-! ### Steps 2 and 3, the accounted entries and their credit -/

/-- Credit applied to the entries of a set (R98). -/
def State.creditTo (s : State) (void : Bool) (A : Fin 8 → Bool) : State :=
  { s with
    dir :=
      { s.dir with
        entries := Vector.ofFn fun h : Fin 8 =>
          if A h then { s.dir.entries[h] with credit := s.creditAfter void s.dir.entries[h] } else s.dir.entries[h] } }

theorem State.applyCredit_foldl (void : Bool) (l : List (Fin 8)) (hn : l.Nodup) (s : State) :
    l.foldl (State.applyCredit void) s = s.creditTo void fun h => decide (h ∈ l) := by
  induction l generalizing s with
  | nil =>
    have hsame : s.dir.entries = Vector.ofFn fun h : Fin 8 => s.dir.entries[h] := vector_eq_ofFn fun _ => rfl
    simp only [List.foldl_nil, State.creditTo, List.not_mem_nil, decide_false, Bool.false_eq_true, if_false, ← hsame]
  | cons h l ih =>
    obtain ⟨hnot, hl⟩ := List.nodup_cons.1 hn
    have hentries (g : Fin 8) : (State.applyCredit void s h).dir.entries[g] =
        if g = h then { s.dir.entries[h] with credit := s.creditAfter void s.dir.entries[h] } else s.dir.entries[g] := by
      by_cases hg : g = h
      · rw [if_pos hg, hg]
        exact Vector.getElem_set_self _
      · rw [if_neg hg]
        exact Vector.getElem_set_ne h.isLt g.isLt fun e => hg (Fin.ext e.symm)
    rw [List.foldl_cons, ih hl]
    unfold State.creditTo
    refine congrArg (fun v => ({ s with dir := { s.dir with entries := v } } : State)) ?_
    refine congrArg Vector.ofFn (funext fun g => ?_)
    rw [hentries g]
    by_cases hg : g = h
    · subst hg
      simp [hnot]
    · simp only [hg, if_false, List.mem_cons, false_or]
      rfl

/-- The accounted entries (R97). -/
def State.isAccounted (s : State) (h : Fin 8) : Bool := s.dir.entries[h].state.onChain && !s.dir.entries[h].fresh

theorem State.accounted_eq (s : State) : s.accounted = (List.finRange 8).filter s.isAccounted := by
  have hall : List.finRange 8 = all8 := by decide
  rw [hall]
  rfl

theorem State.mem_accounted (s : State) (h : Fin 8) : h ∈ s.accounted ↔ s.isAccounted h = true := by
  rw [State.accounted_eq, List.mem_filter]
  simp

theorem State.answeredCount_eq (s : State) :
    s.answeredCount = ((List.finRange 8).filter fun h => s.isAccounted h && s.dir.entries[h].answered).length := by
  unfold State.answeredCount
  rw [State.accounted_eq, List.filter_filter]
  congr 2
  funext h
  exact Bool.and_comm _ _

/-- Credit has been applied to the accounted entries (R98). -/
def State.credited (s : State) (void : Bool) : State := s.creditTo void s.isAccounted

/-- Those accounted entries that credit has left leave one by one, and the end of an abandoned context is judged (R61,
R92, R98, R122). -/
theorem State.settleCredit_left (s : State) (void : Bool) :
    ∃ u, Left (s.credited void) u (fun h => s.isAccounted h && s.creditAfter void s.dir.entries[h] = 0) ∧
      s.settleCredit void = u.settledContext := by
  have hnodup : s.accounted.Nodup := (all8_sorted.imp fun h => ne_of_lt h).filter _
  have hfold : s.accounted.foldl (State.applyCredit void) s = s.credited void := by
    rw [State.applyCredit_foldl void _ hnodup]
    congr 1
    funext h
    simp [s.mem_accounted h]
  have hentry (g : Fin 8) : (s.credited void).dir.entries[g] =
      if s.isAccounted g then { s.dir.entries[g] with credit := s.creditAfter void s.dir.entries[g] }
      else s.dir.entries[g] := Vector.getElem_ofFn g.isLt
  have hmem (g : Fin 8) :
      g ∈ s.accounted.filter (fun h => decide (((s.credited void).entry h).credit = 0)) ↔
        s.isAccounted g = true ∧ s.creditAfter void s.dir.entries[g] = 0 := by
    rw [List.mem_filter, s.mem_accounted, decide_eq_true_iff]
    refine and_congr_right fun hg => ?_
    show (s.credited void).dir.entries[g].credit = 0 ↔ _
    rw [hentry g, if_pos hg]
  have hleft := Left.all (s.credited void)
    (s.accounted.filter fun h => decide (((s.credited void).entry h).credit = 0)) (hnodup.filter _) fun g hg => by
      obtain ⟨hacc, -⟩ := (hmem g).1 hg
      rw [hentry g, if_pos hacc]
      exact UnitState.onChain_ne ((Bool.and_eq_true _ _).mp hacc).1
  have hset : (fun g => decide (g ∈ s.accounted.filter fun h => decide (((s.credited void).entry h).credit = 0))) =
      fun g => s.isAccounted g && s.creditAfter void s.dir.entries[g] = 0 := by
    funext g
    rw [decide_eq_decide.2 (hmem g), Bool.decide_and, Bool.decide_coe]
  rw [hset] at hleft
  refine ⟨_, hleft, ?_⟩
  rw [State.settleCredit, hfold, State.settleAbandoned_eq]

/-! ### Step 4, the chain state -/

/-- The chain state and the steady run that R102's table and R103 give at a cycle's end. -/
def State.chainRow (v : State) (void announced : Bool) (answered expected steadyCount : Nat) : ChainState × Nat :=
  let silent : Prop := ∀ g : Fin 8, v.dir.entries[g].state.onChain = false
  let run := min 255 (v.rcu.steadyRun + 1)
  match v.rcu.chain with
  | .dormant => (.dormant, v.rcu.steadyRun)
  | .forming => (if void then .disturbed else .forming, v.rcu.steadyRun)
  | .formed =>
    if void then (.disturbed, v.rcu.steadyRun)
    else if silent ∧ v.ee = none then (.dormant, v.rcu.steadyRun)
    else if answered = expected ∧ announced = false ∧ v.ee = none then
      if steadyCount ≤ run then (.steady, 0) else (.formed, run)
    else (.formed, 0)
  | .steady =>
    if void then (.disturbed, v.rcu.steadyRun)
    else if silent ∧ v.ee = none then (.dormant, v.rcu.steadyRun)
    else if answered < expected then (.formed, 0)
    else (.steady, v.rcu.steadyRun)
  | .disturbed =>
    if void then (.disturbed, v.rcu.steadyRun)
    else if v.ee ≠ none then (.forming, v.rcu.steadyRun)
    else if silent then (.dormant, v.rcu.steadyRun)
    else (.formed, 0)

/-- A chain state and a steady run taken, with CHAIN_STATE for a change (R101, R103). -/
def State.inRow (v : State) (row : ChainState × Nat) : State :=
  { v with
    events := { v.events with flags := v.events.flags ||| if row.1 = v.rcu.chain then 0 else 0x80 }
    rcu := { v.rcu with chain := row.1, steadyRun := row.2 } }

theorem State.setSteadyRun_eq {v : State} {c : ChainState} {n : Nat} (h : v.rcu.chain = c) :
    v.setSteadyRun n = v.inRow (c, n) := by
  subst h
  simp [State.setSteadyRun, State.inRow]

theorem State.inRow_same {v : State} {c : ChainState} (h : v.rcu.chain = c) : v = v.inRow (c, v.rcu.steadyRun) :=
  State.setSteadyRun_eq h

theorem State.setChain_eq {v : State} {c : ChainState} (h : v.rcu.chain ≠ c) :
    v.setChain c = v.inRow (c, if c = .formed ∨ c = .steady then 0 else v.rcu.steadyRun) := by
  rw [State.setChain, if_neg h, State.inRow, if_neg (Ne.symm h)]
  rfl

theorem State.silent_iff (v : State) : v.talkingCount = 0 ↔ ∀ g : Fin 8, v.dir.entries[g].state.onChain = false := by
  rw [← Nat.le_zero, ← Nat.not_lt, State.talkingCount_pos]
  simp

theorem State.judgeFormed_eq {v : State} (h : v.rcu.chain = .formed) (answered expected : Nat) :
    v.judgeFormed false answered expected = v.inRow
      (if answered = expected ∧ v.rcu.takenAnnounce = false ∧ v.ee = none then
        if v.settings[(7 : Fin 131)] ≤ min 255 (v.rcu.steadyRun + 1) then (.steady, 0)
        else (.formed, min 255 (v.rcu.steadyRun + 1))
      else (.formed, 0)) := by
  have hqualifies : v.qualifies false answered expected = true ↔
      answered = expected ∧ v.rcu.takenAnnounce = false ∧ v.ee = none := by
    simp [State.qualifies, and_assoc]
  have hsteady (n : Nat) : (v.setSteadyRun n).setChain .steady = v.inRow (.steady, 0) := by
    have hne : (v.setSteadyRun n).rcu.chain ≠ .steady := by
      rw [show (v.setSteadyRun n).rcu.chain = v.rcu.chain from rfl, h]
      decide
    rw [State.setChain_eq hne]
    rfl
  rw [State.judgeFormed]
  by_cases hq : answered = expected ∧ v.rcu.takenAnnounce = false ∧ v.ee = none
  · rw [if_pos (hqualifies.2 hq), if_pos hq]
    dsimp only
    rw [hsteady, State.setSteadyRun_eq h]
    by_cases hrun : v.settings[(7 : Fin 131)] ≤ min 255 (v.rcu.steadyRun + 1)
    · rw [if_pos hrun]
      exact if_pos hrun
    · rw [if_neg hrun]
      exact if_neg hrun
  · rw [if_neg (mt hqualifies.1 hq), if_neg hq, State.setSteadyRun_eq h]

theorem State.judgeChain_eq (v : State) (void : Bool) (answered expected : Nat) :
    v.judgeChain void answered expected =
      v.inRow (v.chainRow void v.rcu.takenAnnounce answered expected v.settings[(7 : Fin 131)]) := by
  have hturn (c : ChainState) (hc : v.rcu.chain ≠ c) := State.setChain_eq hc
  have hsilent := v.silent_iff
  unfold State.judgeChain State.chainRow
  cases hchain : v.rcu.chain with
  | dormant => exact State.inRow_same hchain
  | forming =>
    cases void
    · exact State.inRow_same hchain
    · exact hturn .disturbed (by rw [hchain]; decide)
  | formed =>
    cases void
    · simp only [Bool.false_eq_true, if_false, hsilent, State.judgeFormed_eq hchain]
      split
      · exact hturn .dormant (by rw [hchain]; decide)
      · rfl
    · exact hturn .disturbed (by rw [hchain]; decide)
  | steady =>
    cases void
    · simp only [Bool.false_eq_true, if_false, hsilent]
      split
      · exact hturn .dormant (by rw [hchain]; decide)
      · split
        · exact hturn .formed (by rw [hchain]; decide)
        · exact State.inRow_same hchain
    · exact hturn .disturbed (by rw [hchain]; decide)
  | disturbed =>
    cases void
    · simp only [Bool.false_eq_true, if_false, hsilent, Option.isSome_iff_ne_none]
      split
      · exact hturn .forming (by rw [hchain]; decide)
      · split
        · exact hturn .dormant (by rw [hchain]; decide)
        · exact hturn .formed (by rw [hchain]; decide)
    · exact State.inRow_same hchain

/-! ### Step 5 and the next cycle -/

/-- Every meter after a cycle end (R89). -/
theorem State.refillMeters_eq (s : State) :
    s.refillMeters =
      { s with
        line :=
          { s.line with
            meters := Vector.ofFn fun m : Fin 4 => s.line.meters[m].refilled (s.meterDepth m) (s.meterRefill m) } } := by
  refine congrArg (fun v => ({ s with line := { s.line with meters := v } } : State)) (Vector.ext fun i hi => ?_)
  rw [Vector.getElem_ofFn]
  interval_cases i <;> simp [State.refillMeter, State.meterDepth, State.meterRefill, State.setting]

theorem Meter.refilled_eq (m : Meter) (depth refill : Nat) :
    m.refilled depth refill =
      if depth ≤ m.tokens then { m with refill := 0 }
      else if refill ≤ m.refill + 1 then ⟨m.tokens + 1, 0⟩
      else { m with refill := m.refill + 1 } := by
  unfold Meter.refilled
  by_cases h : depth ≤ m.tokens
  · rw [if_pos h, if_neg (Nat.not_lt.2 h)]
  · rw [if_neg h, if_pos (Nat.lt_of_not_le h)]

/-- What a state at the settling of a cycle still holds of the state s in which the cycle ended. -/
structure State.sameCycle (s v : State) : Prop where
  settings : v.settings = s.settings
  cycleNumber : v.rcu.cycleNumber = s.rcu.cycleNumber
  bad : v.rcu.bad = s.rcu.bad
  stray : v.rcu.stray = s.rcu.stray
  announced : v.rcu.takenAnnounce = s.rcu.takenAnnounce
  sense : v.line.txInverted = s.line.txInverted
  meters : v.line.meters = s.line.meters
  idle : v.line.reception = none
  silent : v.line.lineOut = []

/-- The cycle after one that has ended in s, from v, the state with the credit settled: the counts and the marks are clear,
the ROLL is sent, the meters are refilled and an ageing pass is owed (R89 to R92, R130). -/
def State.rolled (s v : State) (row : ChainState × Nat) (void : Bool) (answered expected : Nat) : State :=
  { v with
    dir :=
      { v.dir with
        entries := Vector.ofFn fun h : Fin 8 => { v.dir.entries[h] with answered := false, fresh := false } }
    events := { v.events with flags := v.events.flags ||| if row.1 = v.rcu.chain then 0 else 0x80 }
    rcu :=
      { v.rcu with
        chain := row.1
        steadyRun := row.2
        cycleNumber := s.rcu.cycleNumber + 1
        cycleStart := v.now
        period := if row.1 = .steady then s.settings[(6 : Fin 131)] else s.settings[(5 : Fin 131)]
        phaseOpen := false
        bad := 0
        stray := 0
        takenAnnounce := false
        placed := []
        last := some ⟨void, answered, expected, s.rcu.bad, s.rcu.stray⟩ }
    line :=
      { v.line with
        txEnd := v.now + 360
        lineOut := [HeadFrame.bytes ⟨.roll, 0, [s.rcu.cycleNumber + 1, row.1.code]⟩ s.line.txInverted]
        meters := Vector.ofFn fun m : Fin 4 =>
          let x := s.line.meters[m]
          if s.meterDepth m ≤ x.tokens then { x with refill := 0 }
          else if s.meterRefill m ≤ x.refill + 1 then ⟨x.tokens + 1, 0⟩
          else { x with refill := x.refill + 1 } }
    workList := Machine.oweAgeing v.workList }

theorem State.startCycle_rolled {s v : State} (h : s.sameCycle v) (row : ChainState × Nat) (void : Bool)
    (answered expected : Nat) :
    (((v.inRow row).closeCycle void answered expected).refillMeters.oweAgeing).startCycle =
      s.rolled v row void answered expected := by
  have hdepth (m : Fin 4) : s.meterDepth m = v.meterDepth m := by
    simp only [State.meterDepth, State.setting, h.settings]
  have hrefill (m : Fin 4) : s.meterRefill m = v.meterRefill m := by
    simp only [State.meterRefill, State.setting, h.settings]
  rw [State.refillMeters_eq]
  simp only [Meter.refilled_eq]
  unfold State.rolled
  simp only [hdepth, hrefill, ← h.settings, ← h.cycleNumber, ← h.bad, ← h.stray, ← h.sense, ← h.meters]
  have htime (a b : Byte) : frameTime [a, b].length = 360 := by
    simp [frameTime]
  simp only [State.closeCycle, State.inRow, State.oweAgeing, State.startCycle, State.transmit, State.rollFrame, htime,
    perHandle_eq_ofFn, h.idle, h.silent, List.nil_append]
  rfl

/-! ### The cycle's end -/

theorem State.settledContext_frame (u : State) :
    u.settledContext.settings = u.settings ∧ u.settledContext.line = u.line ∧
      u.settledContext.rcu =
        { u.rcu with chain := u.settledContext.rcu.chain, steadyRun := u.settledContext.rcu.steadyRun } := by
  have hdone : u.contextDone.rcu =
      { u.rcu with chain := u.contextDone.rcu.chain, steadyRun := u.contextDone.rcu.steadyRun } := by
    unfold State.contextDone
    split
    · dsimp only
      split <;> rfl
    · rfl
  refine ⟨?_, ?_, ?_⟩
  · rw [← State.settleAbandoned_eq]
    simp
  · rw [← State.settleAbandoned_eq]
    simp
  · unfold State.settledContext
    cases u.ee with
    | none => rfl
    | some c =>
      dsimp only
      split
      · exact hdone
      · rfl

/-- The credit's settling keeps what the rest of the sequence reads. -/
theorem State.sameCycle_settled {s u : State} {leaves : Fin 8 → Bool} (hidle : s.line.reception = none)
    (hleft : Left (s.voidJudged.credited s.cycleVoid) u leaves) : s.sameCycle u.settledContext := by
  obtain ⟨-, hjsettings, hjline, hjrcu⟩ := s.voidJudged_frame
  obtain ⟨hsettings, hline, hrcu⟩ := u.settledContext_frame
  have husettings : u.settings = s.settings := (congrArg State.settings hleft.rest).trans hjsettings
  have hurcu : u.rcu = s.streakJudged.rcu := (congrArg State.rcu hleft.rest).trans hjrcu
  have huline : u.line = { s.streakJudged.line with slot := u.line.slot } := by
    rw [← hjline]
    exact congrArg State.line hleft.rest
  rw [hurcu] at hrcu
  rw [huline] at hline
  constructor
  · exact hsettings.trans husettings
  · rw [hrcu]; rfl
  · rw [hrcu]; rfl
  · rw [hrcu]; rfl
  · rw [hrcu]; rfl
  · rw [hline]; rfl
  · rw [hline]; rfl
  · rw [hline]; exact hidle
  · rw [hline]; rfl

theorem exec_cycleEnd_due {s : State} (hload : s.port.loading = false) (hidle : s.line.reception = none) :
    exec .cycleEnd s = .next (s.advance s.cycleEnd).clearOut.settle :=
  taken_due (due := s.port.loading = false ∧ s.line.reception = none) ⟨hload, hidle⟩ _ _

/-- The settling sequence, step by step (R92). -/
theorem State.settle_rolled {s : State} (hidle : s.line.reception = none) :
    ∃ u, Left (s.voidJudged.credited s.cycleVoid) u
        (fun h => s.voidJudged.isAccounted h &&
          s.voidJudged.creditAfter s.cycleVoid s.voidJudged.dir.entries[h] = 0) ∧
      (s.advance s.cycleEnd).clearOut.settle = s.rolled u.settledContext
        (u.settledContext.chainRow s.cycleVoid s.rcu.takenAnnounce s.voidJudged.answeredCount
          s.voidJudged.accounted.length s.settings[(7 : Fin 131)])
        s.cycleVoid s.voidJudged.answeredCount s.voidJudged.accounted.length := by
  obtain ⟨u, hleft, hsettled⟩ := s.voidJudged.settleCredit_left s.cycleVoid
  have hsame := State.sameCycle_settled hidle hleft
  refine ⟨u, hleft, ?_⟩
  have hvoid : (s.advance s.cycleEnd).clearOut.cycleVoid = s.cycleVoid := rfl
  rw [State.settle, hvoid, State.judgeVoid_eq, hsettled, State.judgeChain_eq, State.startCycle_rolled hsame, hsame.announced,
    hsame.settings]

/-- Settles O43: a frame being received, and the settling sequence. -/
theorem cycleEndSettlesAndRolls : Obligations.CycleEndSettlesAndRolls := by
  refine ⟨fun s hbusy => taken_not (fun h => hbusy h.2) _ _, fun s hload hidle => ?_⟩
  obtain ⟨u, hleft, hsettle⟩ := State.settle_rolled hidle
  obtain ⟨hdir, hsettings, hline, hrcu⟩ := s.voidJudged_frame
  have haccounted : s.voidJudged.isAccounted = s.isAccounted := by
    unfold State.isAccounted
    rw [hdir]
  have hcredit (e : Entry) : s.voidJudged.creditAfter s.cycleVoid e = s.streakJudged.creditAfter s.cycleVoid e := by
    unfold State.creditAfter State.robustness State.setting
    rw [hsettings, hrcu]
    rfl
  have hstart : s.voidJudged.credited s.cycleVoid = { s.voidJudged with dir := (s.streakJudged.credited s.cycleVoid).dir } := by
    unfold State.credited State.creditTo
    simp only [haccounted, hcredit, hdir]
    rfl
  rw [State.answeredCount_eq, State.accounted_eq, haccounted, hdir] at hsettle
  rw [hstart, haccounted, hdir] at hleft
  simp only [hcredit] at hleft
  exact ⟨u, hleft, (exec_cycleEnd_due hload hidle).trans (congrArg Host.Outcome.next hsettle)⟩

end Sys2Proof.Machine
end

section
/-! Settles the statement about a good PRESENT, which claims its entry or is unclaimed or misplaced (R76, R93 to R95), and a
good ANNOUNCE, which is taken, metered and judged (R54 to R56, R77, R88, R101). -/

namespace Sys2Proof.Machine

/-! ### The talking entry at a position -/

section
variable {s : State} {p : Nat}

theorem State.talks_iff (s : State) (p : Nat) (g : Fin 8) :
    ((s.entry g).state.onChain && (s.entry g).position = some p) = true ↔
      s.dir.entries[g].state.onChain = true ∧ s.dir.entries[g].position = some p := by
  rw [Bool.and_eq_true, decide_eq_true_iff]
  rfl

theorem State.talker_some {h : Fin 8} (ht : s.dir.entries[h].state.onChain = true ∧ s.dir.entries[h].position = some p)
    (hu : ∀ g : Fin 8, s.dir.entries[g].state.onChain = true ∧ s.dir.entries[g].position = some p → g = h) :
    s.talker p = some h :=
  find?_unique (mem_all8 h) ((s.talks_iff p h).2 ht) fun k hk => hu k ((s.talks_iff p k).1 hk)

theorem State.talker_none
    (hn : ∀ g : Fin 8, ¬ (s.dir.entries[g].state.onChain = true ∧ s.dir.entries[g].position = some p)) :
    s.talker p = none :=
  (find_all8_none _).2 fun g => Bool.eq_false_iff.2 (mt (s.talks_iff p g).1 (hn g))

/-! ### A claimed PRESENT -/

/-- The entry that a PRESENT claims: answered, without a streak, and with the parting flag of its status (R93). -/
def State.claimed (s : State) (h : Fin 8) (parting : Bool) : State :=
  { s with
    dir :=
      { s.dir with
        entries := s.dir.entries.set h { s.dir.entries[h] with answered := true, misplaced := 0, parting := parting } } }

theorem State.claimed_state (s : State) (h : Fin 8) (parting : Bool) :
    (s.claimed h parting).dir.entries[h].state = s.dir.entries[h].state := by
  have hself : (s.claimed h parting).dir.entries[h] = _ := Vector.getElem_set_self _
  rw [hself]

/-- A unit that has departed is on the chain no longer (R61, R64). -/
theorem State.cascadedTo_offChain {t : State} {h : Fin 8} (hc : s.cascadedTo t h) :
    t.dir.entries[h].state.onChain = false := by
  obtain ⟨u, hleft, rfl⟩ := hc
  have hself : s.cascade h h = true := by simp [State.cascade]
  have hdir : u.settledContext.dir = u.dir := by
    rw [← State.settleAbandoned_eq]
    simp
  rw [hdir, hleft.entries h, hself]
  simp only [Bool.true_eq_false, if_false]
  split <;> rfl

variable {h : Fin 8} {parting : Bool} (hon : s.dir.entries[h].state.onChain = true)
  (items : List (Byte × Byte × Byte × Word))
include hon

theorem State.claim_stays (hstays : ¬ (parting = true ∧ s.settings[(4 : Fin 131)] = 1)) :
    s.claim h parting items = (s.claimed h parting).offered h items := by
  have hon' : (s.claimed h parting).dir.entries[h].state.onChain = true := by
    rw [s.claimed_state]
    exact hon
  rw [← State.offer_offered _ h items hon']
  exact congrArg (fun u : State => items.foldl (fun a it => a.offerItem h it) u) (if_neg hstays)

/-- With fast leave on, a parting unit departs, and its items are unknown (R93, R100). -/
theorem State.claim_departs (hdeparts : parting = true ∧ s.settings[(4 : Fin 131)] = 1) :
    ∃ u, (s.claimed h parting).cascadedTo u h ∧ s.claim h parting items = u.countTimes .itemsUnknown items.length := by
  obtain ⟨hfree, hleaving⟩ := UnitState.onChain_ne hon
  rw [← s.claimed_state h parting] at hfree hleaving
  have hcascaded := (s.claimed h parting).depart_cascaded h hfree hleaving
  refine ⟨_, hcascaded, ?_⟩
  rw [← State.offer_unknown _ h items (State.cascadedTo_offChain hcascaded)]
  exact congrArg (fun u : State => items.foldl (fun a it => a.offerItem h it) u) (if_pos hdeparts)

end

/-! ### An unclaimed PRESENT -/

theorem State.declaredHolder_iff {s : State} {p : Nat}
    (hu : ∀ g k : Fin 8, s.dir.entries[g].state ≠ .free → s.dir.entries[g].position = some p →
      s.dir.entries[k].state ≠ .free → s.dir.entries[k].position = some p → g = k) :
    (s.holder p).any (fun h => (s.entry h).state = .declared) = true ↔
      ∃ g : Fin 8, s.dir.entries[g].state = .declared ∧ s.dir.entries[g].position = some p := by
  have hholds {g : Fin 8} (hg : s.holder p = some g) :
      s.dir.entries[g].state ≠ .free ∧ s.dir.entries[g].position = some p := by
    have hfound := List.find?_some hg
    rw [Bool.and_eq_true, decide_eq_true_iff, decide_eq_true_iff] at hfound
    exact hfound
  rw [Option.any_eq_true]
  constructor
  · rintro ⟨g, hg, hdeclared⟩
    exact ⟨g, of_decide_eq_true hdeclared, (hholds hg).2⟩
  · rintro ⟨g, hdeclared, hp⟩
    have hfree : s.dir.entries[g].state ≠ .free := by
      rw [hdeclared]
      decide
    obtain ⟨k, hk⟩ := Option.isSome_iff_exists.1 ((s.holder_isSome p).2 ⟨g, hfree, hp⟩)
    obtain ⟨hkfree, hkp⟩ := hholds hk
    obtain rfl := hu g k hfree hp hkfree hkp
    exact ⟨g, hk, decide_eq_true hdeclared⟩

theorem reseatTo_eq_any (s : State) (p : Nat) : s.reseatTo p = s.dir.reseat.any (·.toPosition = p) := by
  unfold State.reseatTo
  cases s.dir.reseat <;> rfl

/-- The position of an unclaimed PRESENT is owed a RELEASE unless one is owed already or a reseat goes there (R94). -/
theorem State.unclaimed_eq (s : State) (p : Nat) (items : List (Byte × Byte × Byte × Word))
    (hu : ∀ g k : Fin 8, s.dir.entries[g].state ≠ .free → s.dir.entries[g].position = some p →
      s.dir.entries[k].state ≠ .free → s.dir.entries[k].position = some p → g = k) :
    s.unclaimed p items =
      if s.rcu.broadcastOwed = true ∨ p ∈ s.dir.releaseList ∨ s.dir.reseat.any (·.toPosition = p) = true then
        s.countTimes .itemsUnknown items.length
      else
        { s.countTimes .itemsUnknown items.length with
          dir := { s.dir with releaseList := s.dir.releaseList ++ [p] }
          events :=
            { (s.countTimes .itemsUnknown items.length).events with
              flags := (s.countTimes .itemsUnknown items.length).events.flags |||
                if ∃ g : Fin 8, s.dir.entries[g].state = .declared ∧ s.dir.entries[g].position = some p then 0x400
                else 0 } } := by
  have hdir : (s.countTimes .itemsUnknown items.length).dir = s.dir := by simp
  unfold State.unclaimed
  simp only [List.contains_iff_mem, reseatTo_eq_any, State.declaredHolder_iff hu]
  by_cases hknown : s.rcu.broadcastOwed = true ∨ p ∈ s.dir.releaseList ∨ s.dir.reseat.any (·.toPosition = p) = true
  · rw [if_pos hknown, if_pos hknown]
  · rw [if_neg hknown, if_neg hknown]
    have hnot : p ∉ s.dir.releaseList := fun hp => hknown (.inr (.inl hp))
    have howed : oweRelease s.dir.releaseList [p] = s.dir.releaseList ++ [p] := by
      simp [oweRelease, hnot]
    generalize s.countTimes .itemsUnknown items.length = t at hdir ⊢
    rw [State.owe, hdir, howed]
    by_cases hconflict : ∃ g : Fin 8, s.dir.entries[g].state = .declared ∧ s.dir.entries[g].position = some p
    · rw [if_pos hconflict, if_pos hconflict]
      rfl
    · rw [if_neg hconflict, if_neg hconflict]
      simp

/-! ### A misplaced PRESENT -/

/-- The streak of the holder of a misplaced PRESENT has risen (R95). -/
def State.streakRaised (s : State) (h : Fin 8) : State :=
  { s with
    dir :=
      { s.dir with
        entries := s.dir.entries.set h { s.dir.entries[h] with misplaced := min 2 (s.dir.entries[h].misplaced + 1) } } }

theorem State.streakRaised_kept (s : State) (h g : Fin 8) :
    (s.streakRaised h).dir.entries[g].state = s.dir.entries[g].state ∧
      (s.streakRaised h).dir.entries[g].position = s.dir.entries[g].position := by
  by_cases hg : g = h
  · subst hg
    have hself : (s.streakRaised g).dir.entries[g] = _ := Vector.getElem_set_self _
    rw [hself]
    exact ⟨rfl, rfl⟩
  · have hother : (s.streakRaised h).dir.entries[g] = s.dir.entries[g] :=
      Vector.getElem_set_ne h.isLt g.isLt fun e => hg (Fin.ext e.symm)
    rw [hother]
    exact ⟨rfl, rfl⟩

theorem State.streakRaised_holder_none (s : State) (h : Fin 8) (q : Nat) :
    (s.streakRaised h).holder q = none ↔
      ∀ g : Fin 8, s.dir.entries[g].state = .free ∨ s.dir.entries[g].position ≠ some q := by
  refine (find_all8_none _).trans (forall_congr' fun g => ?_)
  obtain ⟨hstate, hposition⟩ := s.streakRaised_kept h g
  show (decide ((s.streakRaised h).dir.entries[g].state ≠ .free) &&
    decide ((s.streakRaised h).dir.entries[g].position = some q)) = false ↔ _
  rw [hstate, hposition, Bool.and_eq_false_iff, decide_eq_false_iff_not, decide_eq_false_iff_not, not_not]

/-- A misplaced PRESENT raises its holder's streak, and at 2 starts a reseat where it may (R65, R95). -/
theorem State.presentMisplaced_held {s : State} {p hop : Nat} {h : Fin 8} (ht : s.talker p = some h) :
    s.presentMisplaced p hop =
      if s.dir.entries[h].state = .joining then s
      else if 1 ≤ s.dir.entries[h].misplaced ∧ s.dir.reseat = none ∧ hop + 1 ≤ 6 ∧ hop + 1 ∉ s.dir.releaseList ∧
          ∀ g : Fin 8, s.dir.entries[g].state = .free ∨ s.dir.entries[g].position ≠ some (hop + 1) then
        { s.streakRaised h with dir := { (s.streakRaised h).dir with reseat := some ⟨h, p, hop + 1, false⟩ } }
      else s.streakRaised h := by
  have hcheck : (s.streakRaised h).reseatCheck h p (hop + 1) =
      if s.dir.reseat = none ∧ hop + 1 ≤ 6 ∧ hop + 1 ∉ s.dir.releaseList ∧
          ∀ g : Fin 8, s.dir.entries[g].state = .free ∨ s.dir.entries[g].position ≠ some (hop + 1) then
        { s.streakRaised h with dir := { (s.streakRaised h).dir with reseat := some ⟨h, p, hop + 1, false⟩ } }
      else s.streakRaised h := by
    refine if_congr ?_ rfl rfl
    rw [s.streakRaised_holder_none h, List.contains_eq_mem, decide_eq_false_iff_not]
    constructor
    · rintro ⟨hr, -, h6, hheld, hlisted⟩
      exact ⟨hr, h6, hlisted, hheld⟩
    · rintro ⟨hr, h6, hlisted, hheld⟩
      exact ⟨hr, by omega, h6, hheld, hlisted⟩
  have hopen : s.presentMisplaced p hop =
      if s.dir.entries[h].state = .joining then s
      else if 2 ≤ s.dir.entries[h].misplaced + 1 then (s.streakRaised h).reseatCheck h p (hop + 1)
      else s.streakRaised h := by
    simp only [State.presentMisplaced, ht]
    rfl
  rw [hopen, hcheck]
  by_cases hstreak : 1 ≤ s.dir.entries[h].misplaced
  · have htwo : 2 ≤ s.dir.entries[h].misplaced + 1 := by omega
    simp only [hstreak, htwo, true_and, if_true]
  · have htwo : ¬ 2 ≤ s.dir.entries[h].misplaced + 1 := by omega
    simp only [hstreak, htwo, false_and, if_false]

theorem State.presentMisplaced_unheld {s : State} {p hop : Nat} (ht : s.talker p = none) :
    s.presentMisplaced p hop = s := by
  simp only [State.presentMisplaced, ht]

/-! ### A taken ANNOUNCE -/

/-- The bytes of a UID read back as it (R184). -/
theorem uidOf_extract (u : Uid) :
    uidOf (u.extractLsb' 40 8) (u.extractLsb' 32 8) (u.extractLsb' 24 8) (u.extractLsb' 16 8) (u.extractLsb' 8 8)
      (u.extractLsb' 0 8) = u := by
  apply BitVec.eq_of_getLsbD_eq
  intro i hi
  simp only [uidOf, BitVec.getLsbD_append, BitVec.getLsbD_extractLsb']
  split_ifs <;>
    · rw [decide_eq_true (by omega), Bool.true_and]
      congr 1
      omega

/-- The chain takes notice of a taken announce: the mark is set, and STEADY goes to FORMED (R101). -/
theorem State.announceTaken_eq (s : State) :
    s.announceTaken =
      { s with
        rcu :=
          { s.rcu with
            takenAnnounce := true
            chain := if s.rcu.chain = .steady then .formed else s.rcu.chain
            steadyRun := if s.rcu.chain = .steady then 0 else s.rcu.steadyRun }
        events := { s.events with flags := s.events.flags ||| if s.rcu.chain = .steady then 0x80 else 0 } } := by
  by_cases hsteady : s.rcu.chain = .steady
  · have hleaves : ¬ s.rcu.chain = .formed := by
      rw [hsteady]
      decide
    simp only [State.announceTaken, State.setChain, if_pos hsteady, if_neg hleaves]
    rfl
  · have hflags : s.events.flags ||| 0 = s.events.flags := BitVec.or_zero
    simp only [State.announceTaken, if_neg hsteady, hflags]

section
variable {s : State} {position hop : Nat} {uid : Uid} {n : Byte}

theorem State.takeAnnounce_eq :
    s.takeAnnounce ⟨0xA, hop, true, position, uidBytes uid ++ [n]⟩ =
      if (s.announceTaken.charge (hop + 1)).1 then
        (s.announceTaken.charge (hop + 1)).2.directoryAnnounce uid n.toNat (hop + 1)
      else (s.announceTaken.charge (hop + 1)).2 := by
  have hread := uidOf_extract uid
  simp only [State.takeAnnounce, uidBytes, List.cons_append, List.nil_append, hread]

/-- A derived position from 7 on has no meter (R77, R88). -/
theorem State.charge_unmetered (h6 : 6 ≤ hop) : s.charge (hop + 1) = (true, s) := by
  have hnone : s.meterOf (hop + 1) = none := dif_neg (by omega)
  simp only [State.charge, hnone]

end

/-! ### The placement of the two -/

section
variable {s : State} {rx : Reception} {sent : List Byte} {hop : Nat}

theorem State.afterGood_inWindow {n p : Nat} : (s.afterGood rx n).inWindow rx.arrival p ↔ s.inWindow rx.arrival p := by
  unfold State.inWindow
  rw [State.afterGood_rcu]

theorem State.afterGood_inOpen {n : Nat} : (s.afterGood rx n).inOpen rx.arrival ↔ s.inOpen rx.arrival := by
  unfold State.inOpen
  rw [State.afterGood_rcu]

/-- The state in which a good PRESENT is judged: its slot window has had its PRESENT (R76). -/
def State.afterPresent (s : State) (rx : Reception) (n p : Nat) : State :=
  { s.afterGood rx n with rcu := { s.rcu with placed := p :: s.rcu.placed } }

theorem exec_receiveFrame_present {p : Nat} {payload : List Byte} (hhop : hop < 8)
    (hlength : payload.length ∈ nodeLengths 0x9) (hshort : payload.length ≤ 36)
    (hcarries : s.carries rx (frameBytes 0x9 hop true p payload) sent) (hwindow : s.inWindow rx.arrival p)
    (hfirst : p ∉ s.rcu.placed) :
    exec (.receiveFrame sent) s = .next
      (if hop + 1 = p then (s.afterPresent rx payload.length p).presentInSlot p payload
      else (s.afterPresent rx payload.length p).afterStray.presentMisplaced p hop) := by
  have hp : p < 8 := by
    obtain ⟨-, h6, -⟩ := hwindow
    omega
  refine (receive_good (by omega) (by omega) (by omega) hhop hp hshort hcarries).trans
    (congrArg Host.Outcome.next ?_)
  have hnoted : (s.afterGood rx payload.length).notePlaced p = s.afterPresent rx payload.length p := by
    unfold State.notePlaced State.afterPresent
    rw [State.afterGood_rcu]
  have hfirst' : (s.afterGood rx payload.length).rcu.placed.contains p = false := by
    rw [State.afterGood_rcu, List.contains_eq_mem, decide_eq_false_iff_not]
    exact hfirst
  have hwindow' := (State.inSlotWindow_iff (s.afterGood rx payload.length) rx.arrival p).2
    (State.afterGood_inWindow.2 hwindow)
  rw [State.placeFrame_node rfl hlength, if_pos rfl, State.placePresent]
  dsimp only
  rw [if_pos ⟨hwindow', hfirst'⟩, hnoted, State.strayFrame_eq]

theorem exec_receiveFrame_announce {position : Nat} {uid : Uid} {n : Byte} (hhop : hop < 8) (hposition : position < 8)
    (hcarries : s.carries rx (frameBytes 0xA hop true position (uidBytes uid ++ [n])) sent)
    (hopen : s.inOpen rx.arrival) :
    exec (.receiveFrame sent) s = .next
      ((s.afterGood rx 7).takeAnnounce ⟨0xA, hop, true, position, uidBytes uid ++ [n]⟩) := by
  have hlength : (uidBytes uid ++ [n]).length = 7 := rfl
  refine (receive_good (by omega) (by omega) (by omega) hhop hposition (by omega) hcarries).trans
    (congrArg Host.Outcome.next ?_)
  have hopen' := (State.inOpenWindow_iff (s.afterGood rx 7) rx.arrival).2 (State.afterGood_inOpen.2 hopen)
  have hallowed : (uidBytes uid ++ [n]).length ∈ nodeLengths 0xA := (mem_nodeLengths _ _).2 (.inr (.inl ⟨rfl, rfl⟩))
  have hkind : ¬ (0xA : Nat) = 0x9 := by decide
  rw [hlength, State.placeFrame_node rfl hallowed, if_neg hkind, if_pos rfl, if_pos hopen']

end

section
variable {s : State} {p : Nat} {payload : List Byte}

theorem State.presentInSlot_claim {h : Fin 8} (ht : s.talker p = some h) :
    s.presentInSlot p payload = s.claim h ((payload.getD 0 0).getLsbD 0) (presentItems payload.tail) := by
  simp only [State.presentInSlot, ht]

theorem State.presentInSlot_unclaimed (ht : s.talker p = none) :
    s.presentInSlot p payload = s.unclaimed p (presentItems payload.tail) := by
  simp only [State.presentInSlot, ht]

end

/-- A PRESENT of at most four items has a length that its kind allows (R68). -/
theorem present_length {status : Byte} {items : List (Byte × Byte × Byte × Word)} (h4 : items.length ≤ 4) :
    (status :: items.flatMap fun x => [x.1, x.2.1, x.2.2.1, hiByte x.2.2.2, loByte x.2.2.2]).length ∈ nodeLengths 0x9 ∧
      (status :: items.flatMap fun x => [x.1, x.2.1, x.2.2.1, hiByte x.2.2.2, loByte x.2.2.2]).length ≤ 36 := by
  have hlength : (items.flatMap fun x => [x.1, x.2.1, x.2.2.1, hiByte x.2.2.2, loByte x.2.2.2]).length =
      items.length * 5 := by
    simp [List.length_flatMap]
  rw [List.length_cons, hlength, mem_nodeLengths]
  refine ⟨.inl ⟨rfl, ?_⟩, by omega⟩
  simp only [List.mem_cons, List.not_mem_nil, or_false]
  omega

/-- Settles O39: the claim, the unclaimed PRESENT, the misplaced one, and the announce. -/
theorem presentClaimsItsEntry : Obligations.PresentClaimsItsEntry := by
  refine ⟨fun p hop status items sent rx s hhop h4 => ?present,
    fun uid n hop position sent rx s hhop hposition hcarries hopen => ?announce⟩
  case present =>
    intro payload hcarries hwindow hfirst e talks good entered
    obtain ⟨hlength, hshort⟩ := present_length (status := status) h4
    have hexec : exec (.receiveFrame sent) s = .next
        (if hop + 1 = p then good.presentInSlot p payload else good.afterStray.presentMisplaced p hop) :=
      exec_receiveFrame_present hhop hlength hshort hcarries hwindow hfirst
    have hitems : presentItems payload.tail = items := presentItems_flatMap items
    have hdir : good.dir = s.dir := State.afterGood_dir s rx payload.length
    have hsettings : good.settings = s.settings := State.afterGood_settings s rx payload.length
    have howed : good.rcu.broadcastOwed = s.rcu.broadcastOwed := rfl
    clear_value good
    refine ⟨fun h hin ht hu => ?claimed, fun hin hn hu => ?unclaimed, fun hout => ⟨fun h ht hu => ?held, fun hn => ?unheld⟩⟩
    case claimed =>
      have htalker : good.talker p = some h := State.talker_some (by rw [hdir]; exact ht) (by rw [hdir]; exact hu)
      have hon : good.dir.entries[h].state.onChain = true := by
        rw [hdir]
        exact ht.1
      have hclaimed : good.claimed h (status.getLsbD 0) =
          entered good h { e h with answered := true, misplaced := 0, parting := status.getLsbD 0 } := by
        simp only [State.claimed, entered, e, hdir]
      rw [if_pos hin, State.presentInSlot_claim htalker, hitems] at hexec
      dsimp only
      rw [← hclaimed]
      by_cases hleaves : status.getLsbD 0 = true ∧ s.settings[(4 : Fin 131)] = 1
      · rw [if_pos hleaves]
        rw [← hsettings] at hleaves
        obtain ⟨u, hcascaded, hclaim⟩ := State.claim_departs hon items hleaves
        exact ⟨u, hcascaded, hexec.trans (congrArg Host.Outcome.next hclaim)⟩
      · rw [if_neg hleaves]
        rw [← hsettings] at hleaves
        exact hexec.trans (congrArg Host.Outcome.next (State.claim_stays hon items hleaves))
    case unclaimed =>
      have htalker : good.talker p = none := State.talker_none (by rw [hdir]; exact hn)
      rw [if_pos hin, State.presentInSlot_unclaimed htalker, hitems,
        State.unclaimed_eq good p items (by rw [hdir]; exact hu), hdir, howed] at hexec
      exact hexec
    case held =>
      have hdir' : good.afterStray.dir = s.dir := by
        rw [← hdir]
        simp [State.afterStray]
      have htalker : good.afterStray.talker p = some h :=
        State.talker_some (by rw [hdir']; exact ht) (by rw [hdir']; exact hu)
      rw [if_neg hout, State.presentMisplaced_held htalker, State.streakRaised, hdir'] at hexec
      rw [hexec]
      simp only [entered, hdir']
      rfl
    case unheld =>
      have hdir' : good.afterStray.dir = s.dir := by
        rw [← hdir]
        simp [State.afterStray]
      have htalker : good.afterStray.talker p = none := State.talker_none (by rw [hdir']; exact hn)
      rw [if_neg hout, State.presentMisplaced_unheld htalker] at hexec
      exact hexec
  case announce =>
    intro good taken
    have hexec := exec_receiveFrame_announce hhop hposition hcarries hopen
    have htaken : good.announceTaken = taken := by
      rw [State.announceTaken_eq, State.afterGood_rcu]
    have hsettings : taken.settings = s.settings := State.afterGood_settings s rx 7
    rw [State.takeAnnounce_eq, htaken] at hexec
    refine ⟨fun i m hi hm => ?metered, fun h6 => ?unmetered⟩
    case metered =>
      have hmeter : taken.meterOf (hop + 1) = some m := by
        rw [← hsettings] at hm
        rw [hi]
        exact taken.meterOf_position i m hm
      by_cases htokens : s.line.meters[m].tokens = 0
      · rw [if_pos htokens]
        rw [State.charge_dropped hmeter htokens] at hexec
        exact hexec
      · rw [if_neg htokens]
        rw [State.charge_passed hmeter htokens] at hexec
        exact ⟨_, hexec, State.directoryAnnounce_announced _ uid n.toNat (hop + 1)⟩
    case unmetered =>
      rw [State.charge_unmetered h6] at hexec
      exact ⟨_, hexec, State.directoryAnnounce_announced _ uid n.toNat (hop + 1)⟩

end Sys2Proof.Machine
end
